-- ==== Sys2Proof/Word.lean ====
section
/-! DEFINITION. The plain types every other file counts in: bytes, instruction words, register slots and register
numbers (spec/00_scope.md R8, R12; spec/10_state.md R30). -/

namespace Sys2Proof

/-- One byte of the bus. -/
abbrev Byte := BitVec 8

/-- One 16-bit instruction word (R110). -/
abbrev Word := BitVec 16

/-- The contents of one register slot, a bus address or an operand value: 32 bits (R30, R70). -/
abbrev Slot := BitVec 32

/-- A register number: the register file has 16 slots (R30). -/
abbrev RegNum := Fin 16

end Sys2Proof
end

