-- ==== Sys2Proof/Config.lean ====
section
/-! DEFINITION. What an implementation fixes: the constants of spec/00_scope.md R8 and R9, the names of the bus devices,
and the two families of values the spec leaves free (R11), as constants with no body. The OPEN parameters of R10 are not
here: they are data of the state (Machine/State.lean, `Params`), so that a statement about every state holds for every
value of them. -/

namespace Sys2Proof

namespace Config

/-- `ADDR_BITS` of R9: address and register arithmetic is modulo 2^20. -/
def addrBits : Nat := 20

/-- `MEM_SIZE` of R9 and R73: the memory device holds 2^20 bytes. -/
def memSize : Nat := 0x100000

/-- `RESET_VECTOR` of R9 and R451. -/
def resetVector : Nat := 0xFFFE

/-- `AS3_AUTOINC` of R9 and R130: As = 3 with a register other than 0 is the autoincrement mode. -/
def as3Autoinc : Bool := true

end Config

/-- The two settings of `ZC_SCOPE` (R172): which instructions a prefix's zero-carry bit reaches. -/
inductive ZcScope where
  /-- RRC alone -/
  | rrcOnly
  /-- RRC, ADDC, SUBC and DADD -/
  | all
  deriving DecidableEq, Repr

/-- `ZC_SCOPE` of R9: this spec sets `RRC_ONLY`. -/
def Config.zcScope : ZcScope := .rrcOnly

/-- The devices the bus owns (R71). -/
inductive Device where
  /-- the watchdog stub -/
  | watchdog
  /-- port k + 1, for k in 0..7 -/
  | port (k : Fin 8)
  /-- the memory device -/
  | memory
  deriving DecidableEq, Repr

/-- The free value of R84: what the `n`-th device read of a run answers, for an access of `bytes` bytes at `addr` in
device `d`. No body: nothing is known of it (log entry 9). -/
opaque Config.deviceAnswer (n : Nat) (d : Device) (addr : Slot) (bytes : Nat) : Slot

/-- The free value of R186: the bit V gets at the `n`-th undefined write of V of a run, for an operation on `a` and `b`.
No body: nothing is known of it (log entry 8). -/
opaque Config.drawV (n : Nat) (a b : Slot) : Bool

end Sys2Proof
end

