-- ==== Sys2Proof/Syntax.lean ====
section
/-! DEFINITION. The instructions as syntax: operand forms of formats I and II with the constant generator already
resolved (R130, R131, R140), the two forms of the extension word (R123), and one constructor of `Instr` for each row of
spec/opcode_table.json, RESERVED and unimplemented rows included. A constructor carries every field of the instruction's
core word and of its extension word, ignored bits too, so that the words can be written back. The index, absolute and
immediate words that follow the core word are no part of it: the spec's decoder record does not hold them either (R46),
and each is fetched when its operand is resolved (R145, log entry 1). -/

namespace Sys2Proof

/-- The `bw` bit of a core word that has no extension word: `.W` or `.B` (R125). -/
inductive BW where
  | word
  | byte
  deriving DecidableEq, Repr

/-- The constants of the constant generator (R140). -/
inductive CgConst where
  | zero
  | one
  | two
  | minusOne
  | four
  | eight
  deriving DecidableEq, Repr

/-- A source operand as As and its register give it (R130, R140); the one operand of format II is of this kind (R117). -/
inductive Src where
  /-- `Rn` -/
  | reg (r : RegNum)
  /-- `x(Rn)` -/
  | indexed (r : RegNum)
  /-- `EDE`, relative to its own extension word (R151) -/
  | symbolic
  /-- `&EDE` -/
  | absolute
  /-- `@Rn` -/
  | indirect (r : RegNum)
  /-- `@Rn+` -/
  | autoinc (r : RegNum)
  /-- `#k`, from an extension word -/
  | immediate
  /-- a constant of the constant generator -/
  | const (k : CgConst)
  deriving DecidableEq, Repr

/-- A destination operand as Ad and its register give it (R131, R142). -/
inductive Dst where
  /-- `Rn` -/
  | reg (r : RegNum)
  /-- `x(Rn)` -/
  | indexed (r : RegNum)
  /-- `EDE` -/
  | symbolic
  /-- `&EDE` -/
  | absolute
  /-- register 3 with Ad = 0: reads as 0, a write is discarded (R142) -/
  | constZero
  /-- register 3 with Ad = 1: reads as 1, a write is discarded (R142) -/
  | constOne
  deriving DecidableEq, Repr

/-- The bits of an extension word other than its top five and `al` (R123): the register form, used when every operand
is in register mode by its raw field, and the other form. -/
inductive Ext where
  /-- bits 10:9 (ignored), 8 (ZC), 7 (#), 5:4 (ignored), 3:0 (n - 1, or the count register when # is set) -/
  | regForm (ign : BitVec 2) (zc byReg : Bool) (ign' : BitVec 2) (n : RegNum)
  /-- bits 10:7 (source bits 19:16), 5:4 (ignored), 3:0 (destination bits 19:16) -/
  | memForm (srcHi : BitVec 4) (ign : BitVec 2) (dstHi : BitVec 4)
  deriving DecidableEq, Repr

/-- One constructor for each row of spec/opcode_table.json, in the table's order. `bw` is the width bit of an
unprefixed word, `x` the extension word; `s`, `d` are register numbers, `hi` bits 19:16 of an address or immediate,
`n` a count field (the count less one), `p` and `lo` raw bits of a reserved word. -/
inductive Instr where
  /-- MOV, bits 15:12 = 4 (R204) -/
  | mov (bw : BW) (src : Src) (dst : Dst)
  /-- ADD, bits 15:12 = 5 (R205) -/
  | add (bw : BW) (src : Src) (dst : Dst)
  /-- ADDC, bits 15:12 = 6 (R206) -/
  | addc (bw : BW) (src : Src) (dst : Dst)
  /-- SUBC, bits 15:12 = 7 (R207) -/
  | subc (bw : BW) (src : Src) (dst : Dst)
  /-- SUB, bits 15:12 = 8 (R208) -/
  | sub (bw : BW) (src : Src) (dst : Dst)
  /-- CMP, bits 15:12 = 9 (R209) -/
  | cmp (bw : BW) (src : Src) (dst : Dst)
  /-- DADD, bits 15:12 = 10 (R210) -/
  | dadd (bw : BW) (src : Src) (dst : Dst)
  /-- BIT, bits 15:12 = 11 (R211) -/
  | bit (bw : BW) (src : Src) (dst : Dst)
  /-- BIC, bits 15:12 = 12 (R212) -/
  | bic (bw : BW) (src : Src) (dst : Dst)
  /-- BIS, bits 15:12 = 13 (R213) -/
  | bis (bw : BW) (src : Src) (dst : Dst)
  /-- XOR, bits 15:12 = 14 (R214) -/
  | xor (bw : BW) (src : Src) (dst : Dst)
  /-- AND, bits 15:12 = 15 (R215) -/
  | and (bw : BW) (src : Src) (dst : Dst)
  /-- MOVX.A: al = 0, bw = 1, core bits 15:12 = 4 (R204) -/
  | movxA (x : Ext) (src : Src) (dst : Dst)
  /-- MOVX.W: al = 1, bw = 0, core bits 15:12 = 4 (R204) -/
  | movxW (x : Ext) (src : Src) (dst : Dst)
  /-- MOVX.B: al = 1, bw = 1, core bits 15:12 = 4 (R204) -/
  | movxB (x : Ext) (src : Src) (dst : Dst)
  /-- MOVX with al = 0, bw = 0: reserved (R126) (R160) -/
  | reservedMovx (x : Ext) (src : Src) (dst : Dst)
  /-- ADDX.A: al = 0, bw = 1, core bits 15:12 = 5 (R205) -/
  | addxA (x : Ext) (src : Src) (dst : Dst)
  /-- ADDX.W: al = 1, bw = 0, core bits 15:12 = 5 (R205) -/
  | addxW (x : Ext) (src : Src) (dst : Dst)
  /-- ADDX.B: al = 1, bw = 1, core bits 15:12 = 5 (R205) -/
  | addxB (x : Ext) (src : Src) (dst : Dst)
  /-- ADDX with al = 0, bw = 0: reserved (R126) (R160) -/
  | reservedAddx (x : Ext) (src : Src) (dst : Dst)
  /-- ADDCX.A: al = 0, bw = 1, core bits 15:12 = 6 (R206) -/
  | addcxA (x : Ext) (src : Src) (dst : Dst)
  /-- ADDCX.W: al = 1, bw = 0, core bits 15:12 = 6 (R206) -/
  | addcxW (x : Ext) (src : Src) (dst : Dst)
  /-- ADDCX.B: al = 1, bw = 1, core bits 15:12 = 6 (R206) -/
  | addcxB (x : Ext) (src : Src) (dst : Dst)
  /-- ADDCX with al = 0, bw = 0: reserved (R126) (R160) -/
  | reservedAddcx (x : Ext) (src : Src) (dst : Dst)
  /-- SUBCX.A: al = 0, bw = 1, core bits 15:12 = 7 (R207) -/
  | subcxA (x : Ext) (src : Src) (dst : Dst)
  /-- SUBCX.W: al = 1, bw = 0, core bits 15:12 = 7 (R207) -/
  | subcxW (x : Ext) (src : Src) (dst : Dst)
  /-- SUBCX.B: al = 1, bw = 1, core bits 15:12 = 7 (R207) -/
  | subcxB (x : Ext) (src : Src) (dst : Dst)
  /-- SUBCX with al = 0, bw = 0: reserved (R126) (R160) -/
  | reservedSubcx (x : Ext) (src : Src) (dst : Dst)
  /-- SUBX.A: al = 0, bw = 1, core bits 15:12 = 8 (R208) -/
  | subxA (x : Ext) (src : Src) (dst : Dst)
  /-- SUBX.W: al = 1, bw = 0, core bits 15:12 = 8 (R208) -/
  | subxW (x : Ext) (src : Src) (dst : Dst)
  /-- SUBX.B: al = 1, bw = 1, core bits 15:12 = 8 (R208) -/
  | subxB (x : Ext) (src : Src) (dst : Dst)
  /-- SUBX with al = 0, bw = 0: reserved (R126) (R160) -/
  | reservedSubx (x : Ext) (src : Src) (dst : Dst)
  /-- CMPX.A: al = 0, bw = 1, core bits 15:12 = 9 (R209) -/
  | cmpxA (x : Ext) (src : Src) (dst : Dst)
  /-- CMPX.W: al = 1, bw = 0, core bits 15:12 = 9 (R209) -/
  | cmpxW (x : Ext) (src : Src) (dst : Dst)
  /-- CMPX.B: al = 1, bw = 1, core bits 15:12 = 9 (R209) -/
  | cmpxB (x : Ext) (src : Src) (dst : Dst)
  /-- CMPX with al = 0, bw = 0: reserved (R126) (R160) -/
  | reservedCmpx (x : Ext) (src : Src) (dst : Dst)
  /-- DADDX.A: al = 0, bw = 1, core bits 15:12 = 10 (R210) -/
  | daddxA (x : Ext) (src : Src) (dst : Dst)
  /-- DADDX.W: al = 1, bw = 0, core bits 15:12 = 10 (R210) -/
  | daddxW (x : Ext) (src : Src) (dst : Dst)
  /-- DADDX.B: al = 1, bw = 1, core bits 15:12 = 10 (R210) -/
  | daddxB (x : Ext) (src : Src) (dst : Dst)
  /-- DADDX with al = 0, bw = 0: reserved (R126) (R160) -/
  | reservedDaddx (x : Ext) (src : Src) (dst : Dst)
  /-- BITX.A: al = 0, bw = 1, core bits 15:12 = 11 (R211) -/
  | bitxA (x : Ext) (src : Src) (dst : Dst)
  /-- BITX.W: al = 1, bw = 0, core bits 15:12 = 11 (R211) -/
  | bitxW (x : Ext) (src : Src) (dst : Dst)
  /-- BITX.B: al = 1, bw = 1, core bits 15:12 = 11 (R211) -/
  | bitxB (x : Ext) (src : Src) (dst : Dst)
  /-- BITX with al = 0, bw = 0: reserved (R126) (R160) -/
  | reservedBitx (x : Ext) (src : Src) (dst : Dst)
  /-- BICX.A: al = 0, bw = 1, core bits 15:12 = 12 (R212) -/
  | bicxA (x : Ext) (src : Src) (dst : Dst)
  /-- BICX.W: al = 1, bw = 0, core bits 15:12 = 12 (R212) -/
  | bicxW (x : Ext) (src : Src) (dst : Dst)
  /-- BICX.B: al = 1, bw = 1, core bits 15:12 = 12 (R212) -/
  | bicxB (x : Ext) (src : Src) (dst : Dst)
  /-- BICX with al = 0, bw = 0: reserved (R126) (R160) -/
  | reservedBicx (x : Ext) (src : Src) (dst : Dst)
  /-- BISX.A: al = 0, bw = 1, core bits 15:12 = 13 (R213) -/
  | bisxA (x : Ext) (src : Src) (dst : Dst)
  /-- BISX.W: al = 1, bw = 0, core bits 15:12 = 13 (R213) -/
  | bisxW (x : Ext) (src : Src) (dst : Dst)
  /-- BISX.B: al = 1, bw = 1, core bits 15:12 = 13 (R213) -/
  | bisxB (x : Ext) (src : Src) (dst : Dst)
  /-- BISX with al = 0, bw = 0: reserved (R126) (R160) -/
  | reservedBisx (x : Ext) (src : Src) (dst : Dst)
  /-- XORX.A: al = 0, bw = 1, core bits 15:12 = 14 (R214) -/
  | xorxA (x : Ext) (src : Src) (dst : Dst)
  /-- XORX.W: al = 1, bw = 0, core bits 15:12 = 14 (R214) -/
  | xorxW (x : Ext) (src : Src) (dst : Dst)
  /-- XORX.B: al = 1, bw = 1, core bits 15:12 = 14 (R214) -/
  | xorxB (x : Ext) (src : Src) (dst : Dst)
  /-- XORX with al = 0, bw = 0: reserved (R126) (R160) -/
  | reservedXorx (x : Ext) (src : Src) (dst : Dst)
  /-- ANDX.A: al = 0, bw = 1, core bits 15:12 = 15 (R215) -/
  | andxA (x : Ext) (src : Src) (dst : Dst)
  /-- ANDX.W: al = 1, bw = 0, core bits 15:12 = 15 (R215) -/
  | andxW (x : Ext) (src : Src) (dst : Dst)
  /-- ANDX.B: al = 1, bw = 1, core bits 15:12 = 15 (R215) -/
  | andxB (x : Ext) (src : Src) (dst : Dst)
  /-- ANDX with al = 0, bw = 0: reserved (R126) (R160) -/
  | reservedAndx (x : Ext) (src : Src) (dst : Dst)
  /-- RRC, op2 = 0 (R291) -/
  | rrc (bw : BW) (opd : Src)
  /-- SWPB, op2 = 1 (R293) -/
  | swpb (opd : Src)
  /-- SWPB.B (unimplemented), op2 = 1 (R293) -/
  | swpbB (opd : Src)
  /-- RRA, op2 = 2 (R292) -/
  | rra (bw : BW) (opd : Src)
  /-- SXT, op2 = 3 (R294) -/
  | sxt (opd : Src)
  /-- SXT.B (unimplemented), op2 = 3 (R294) -/
  | sxtB (opd : Src)
  /-- PUSH, op2 = 4 (R298) -/
  | push (bw : BW) (opd : Src)
  /-- CALL, op2 = 5 (R298) -/
  | call (bw : BW) (opd : Src)
  /-- RRCX.A: al = 0, bw = 1, op2 = 0 (R291) -/
  | rrcxA (x : Ext) (opd : Src)
  /-- RRCX.W: al = 1, bw = 0, op2 = 0 (R291) -/
  | rrcxW (x : Ext) (opd : Src)
  /-- RRCX.B: al = 1, bw = 1, op2 = 0 (R291) -/
  | rrcxB (x : Ext) (opd : Src)
  /-- RRCX with al = 0, bw = 0: reserved (R126) (R160) -/
  | reservedRrcx (x : Ext) (opd : Src)
  /-- SWPBX.A (unimplemented): al = 0, bw = 1, op2 = 1 (R293) -/
  | swpbxA (x : Ext) (opd : Src)
  /-- SWPBX.W: al = 1, bw = 0, op2 = 1 (R293) -/
  | swpbxW (x : Ext) (opd : Src)
  /-- SWPBX.B (unimplemented): al = 1, bw = 1, op2 = 1 (R293) -/
  | swpbxB (x : Ext) (opd : Src)
  /-- SWPBX with al = 0, bw = 0: reserved (R126) (R160) -/
  | reservedSwpbx (x : Ext) (opd : Src)
  /-- RRAX.A: al = 0, bw = 1, op2 = 2 (R292) -/
  | rraxA (x : Ext) (opd : Src)
  /-- RRAX.W: al = 1, bw = 0, op2 = 2 (R292) -/
  | rraxW (x : Ext) (opd : Src)
  /-- RRAX.B: al = 1, bw = 1, op2 = 2 (R292) -/
  | rraxB (x : Ext) (opd : Src)
  /-- RRAX with al = 0, bw = 0: reserved (R126) (R160) -/
  | reservedRrax (x : Ext) (opd : Src)
  /-- SXTX.A (unimplemented): al = 0, bw = 1, op2 = 3 (R294) -/
  | sxtxA (x : Ext) (opd : Src)
  /-- SXTX.W: al = 1, bw = 0, op2 = 3 (R294) -/
  | sxtxW (x : Ext) (opd : Src)
  /-- SXTX.B (unimplemented): al = 1, bw = 1, op2 = 3 (R294) -/
  | sxtxB (x : Ext) (opd : Src)
  /-- SXTX with al = 0, bw = 0: reserved (R126) (R160) -/
  | reservedSxtx (x : Ext) (opd : Src)
  /-- PUSHX.A: al = 0, bw = 1, op2 = 4 (R298) -/
  | pushxA (x : Ext) (opd : Src)
  /-- PUSHX.W: al = 1, bw = 0, op2 = 4 (R298) -/
  | pushxW (x : Ext) (opd : Src)
  /-- PUSHX.B: al = 1, bw = 1, op2 = 4 (R298) -/
  | pushxB (x : Ext) (opd : Src)
  /-- PUSHX with al = 0, bw = 0: reserved (R126) (R160) -/
  | reservedPushx (x : Ext) (opd : Src)
  /-- CALLX.A: al = 0, bw = 1, op2 = 5 (R298) -/
  | callxA (x : Ext) (opd : Src)
  /-- CALLX.W: al = 1, bw = 0, op2 = 5 (R298) -/
  | callxW (x : Ext) (opd : Src)
  /-- CALLX.B: al = 1, bw = 1, op2 = 5 (R298) -/
  | callxB (x : Ext) (opd : Src)
  /-- CALLX with al = 0, bw = 0: reserved (R126) (R160) -/
  | reservedCallx (x : Ext) (opd : Src)
  /-- an extension word before an address-group word: reserved (R160) -/
  | reservedPrefixAddr (p : BitVec 11) (lo : BitVec 12)
  /-- an extension word before a RETI/CALLA word: reserved (R160) -/
  | reservedPrefixCalla (p : BitVec 11) (lo : BitVec 8)
  /-- an extension word before a PUSHM/POPM word: reserved (R160) -/
  | reservedPrefixPushm (p : BitVec 11) (lo : BitVec 10)
  /-- an extension word before a second extension word: reserved (R160) -/
  | reservedPrefixPrefix (p lo : BitVec 11)
  /-- an extension word before a jump: reserved (R160) -/
  | reservedPrefixJump (p : BitVec 11) (lo : BitVec 13)
  /-- JNZ, cond = 0 (R233) -/
  | jnz (off : BitVec 10)
  /-- JZ, cond = 1 (R234) -/
  | jz (off : BitVec 10)
  /-- JNC, cond = 2 (R235) -/
  | jnc (off : BitVec 10)
  /-- JC, cond = 3 (R236) -/
  | jc (off : BitVec 10)
  /-- JN, cond = 4 (R237) -/
  | jn (off : BitVec 10)
  /-- JGE, cond = 5 (R238) -/
  | jge (off : BitVec 10)
  /-- JL, cond = 6 (R238) -/
  | jl (off : BitVec 10)
  /-- JMP, cond = 7 (R239) -/
  | jmp (off : BitVec 10)
  /-- MOVA @Rs,Rd, minor 0x0 (R241) -/
  | movaInd (s d : RegNum)
  /-- MOVA @Rs+,Rd, minor 0x1 (R242) -/
  | movaInc (s d : RegNum)
  /-- MOVA &abs20,Rd, minor 0x2 (R243) -/
  | movaAbs (hi : BitVec 4) (d : RegNum)
  /-- MOVA x(Rs),Rd, minor 0x3 (R244) -/
  | movaIdx (s d : RegNum)
  /-- MOVA Rs,&abs20, minor 0x6 (R245) -/
  | movaToAbs (s : RegNum) (hi : BitVec 4)
  /-- MOVA Rs,x(Rd), minor 0x7 (R246) -/
  | movaToIdx (s d : RegNum)
  /-- MOVA #imm20,Rd, minor 0x8 (R247) -/
  | movaImm (hi : BitVec 4) (d : RegNum)
  /-- MOVA Rs,Rd, minor 0xC (R248) -/
  | movaReg (s d : RegNum)
  /-- CMPA #imm20,Rd, minor 0x9 (R256) -/
  | cmpaImm (hi : BitVec 4) (d : RegNum)
  /-- CMPA Rs,Rd, minor 0xD (R256) -/
  | cmpaReg (s d : RegNum)
  /-- ADDA #imm20,Rd, minor 0xA (R257) -/
  | addaImm (hi : BitVec 4) (d : RegNum)
  /-- ADDA Rs,Rd, minor 0xE (R257) -/
  | addaReg (s d : RegNum)
  /-- SUBA #imm20,Rd, minor 0xB (R258) -/
  | subaImm (hi : BitVec 4) (d : RegNum)
  /-- SUBA Rs,Rd, minor 0xF (R258) -/
  | subaReg (s d : RegNum)
  /-- MOVA @PC+,Rd: reserved (R160) -/
  | reservedMovaPcInc (d : RegNum)
  /-- RRCM.A #n,Rd: id = 0, minor 0x4 (R251) -/
  | rrcmA (n : BitVec 2) (d : RegNum)
  /-- RRCM.W #n,Rd: id = 0, minor 0x5 (R251) -/
  | rrcmW (n : BitVec 2) (d : RegNum)
  /-- RRAM.A #n,Rd: id = 1, minor 0x4 (R252) -/
  | rramA (n : BitVec 2) (d : RegNum)
  /-- RRAM.W #n,Rd: id = 1, minor 0x5 (R252) -/
  | rramW (n : BitVec 2) (d : RegNum)
  /-- RLAM.A #n,Rd: id = 2, minor 0x4 (R253) -/
  | rlamA (n : BitVec 2) (d : RegNum)
  /-- RLAM.W #n,Rd: id = 2, minor 0x5 (R253) -/
  | rlamW (n : BitVec 2) (d : RegNum)
  /-- RRUM.A #n,Rd: id = 3, minor 0x4 (R254) -/
  | rrumA (n : BitVec 2) (d : RegNum)
  /-- RRUM.W #n,Rd: id = 3, minor 0x5 (R254) -/
  | rrumW (n : BitVec 2) (d : RegNum)
  /-- RETI; bits 3:0 are ignored (R270) -/
  | reti (ignored : BitVec 4)
  /-- CALLA Rd, minor 0x134 (R272) -/
  | callaReg (d : RegNum)
  /-- CALLA x(Rd), minor 0x135 (R273) -/
  | callaIdx (d : RegNum)
  /-- CALLA @Rd, minor 0x136 (R274) -/
  | callaInd (d : RegNum)
  /-- CALLA @Rd+, minor 0x137 (R275) -/
  | callaInc (d : RegNum)
  /-- CALLA &abs20, minor 0x138 (R276) -/
  | callaAbs (hi : BitVec 4)
  /-- CALLA EDE, minor 0x139 (R277) -/
  | callaSym (hi : BitVec 4)
  /-- CALLA #imm20, minor 0x13B (R278) -/
  | callaImm (hi : BitVec 4)
  /-- CALLA @PC+: reserved (R160) -/
  | reservedCallaPcInc
  /-- reserved minor 0x131 (R279) -/
  | reservedMinor131 (lo : BitVec 4)
  /-- reserved minor 0x132 (R279) -/
  | reservedMinor132 (lo : BitVec 4)
  /-- reserved minor 0x133 (R279) -/
  | reservedMinor133 (lo : BitVec 4)
  /-- reserved minor 0x13A (R279) -/
  | reservedMinor13A (lo : BitVec 4)
  /-- reserved minors 0x13C-0x13F (R279) -/
  | reservedMinor13C (lo : BitVec 6)
  /-- PUSHM.A #N,Rd, minor 0x14; n = N - 1 (R283) -/
  | pushmA (n : BitVec 4) (d : RegNum)
  /-- PUSHM.W #N,Rd, minor 0x15; n = N - 1 (R284) -/
  | pushmW (n : BitVec 4) (d : RegNum)
  /-- POPM.A #N,Rd, minor 0x16; n = N - 1 (R285) -/
  | popmA (n : BitVec 4) (d : RegNum)
  /-- POPM.W #N,Rd, minor 0x17; n = N - 1 (R286) -/
  | popmW (n : BitVec 4) (d : RegNum)
  deriving DecidableEq, Repr

end Sys2Proof
end

