-- ==== Sys2Proof/WellFormed.lean ====
section
/-! DEFINITION. Which terms of `Instr` are instructions: the checks that the field widths alone do not make. -/

namespace Sys2Proof

/-- Register 3 is never a register operand (it is the constant generator, R140), and the modes INDEXED, INDIRECT and
AUTOINCREMENT name no register that As gives another mode (R130, R140). -/
def Src.wf : Src → Bool
  | .reg r => r != 3
  | .indexed r => r != 0 && r != 2 && r != 3
  | .indirect r => r != 2 && r != 3
  | .autoinc r => r != 0 && r != 2 && r != 3
  | .symbolic | .absolute | .immediate | .const _ => true

/-- As `Src.wf`, for Ad (R131, R142). -/
def Dst.wf : Dst → Bool
  | .reg r => r != 3
  | .indexed r => r != 0 && r != 2 && r != 3
  | .symbolic | .absolute | .constZero | .constOne => true

/-- The raw As field is 0: a register, or the constant 0 of register 3 (R124). -/
def Src.rawReg : Src → Bool
  | .reg _ | .const .zero => true
  | _ => false

/-- The raw Ad field is 0 (R124). -/
def Dst.rawReg : Dst → Bool
  | .reg _ | .constZero => true
  | _ => false

/-- The extension word is in its register form. -/
def Ext.isRegForm : Ext → Bool
  | .regForm .. => true
  | .memForm .. => false

/-- An extended format I instruction: its extension word is in the register form exactly when both raw fields are
register mode (R124). -/
def Ext.wfTwo (x : Ext) (src : Src) (dst : Dst) : Bool :=
  src.wf && dst.wf && (x.isRegForm == (src.rawReg && dst.rawReg))

/-- The same of an extended format II instruction (R124). -/
def Ext.wfOne (x : Ext) (opd : Src) : Bool := opd.wf && (x.isRegForm == opd.rawReg)

/-- The registers of a PUSHM, R[d] down to R[d-n] with n = N - 1, do not go below R0 (R280). -/
def pushRangeOk (n : BitVec 4) (d : RegNum) : Bool := n.toNat ≤ d.val

/-- The registers of a POPM, R[d] up to R[d+n] with n = N - 1, do not go above R15 and do not include R1 (R280). -/
def popRangeOk (n : BitVec 4) (d : RegNum) : Bool :=
  d.val + n.toNat ≤ 15 && !(d.val ≤ 1 && 1 ≤ d.val + n.toNat)

/-- The term is an instruction: its operands name registers their modes admit, its extension word has the form its
operands ask for, a fixed-mode autoincrement does not name R0 (R160), and a register range is legal (R280). -/
def Instr.wf : Instr → Bool
  | .mov _ src dst => src.wf && dst.wf
  | .add _ src dst => src.wf && dst.wf
  | .addc _ src dst => src.wf && dst.wf
  | .subc _ src dst => src.wf && dst.wf
  | .sub _ src dst => src.wf && dst.wf
  | .cmp _ src dst => src.wf && dst.wf
  | .dadd _ src dst => src.wf && dst.wf
  | .bit _ src dst => src.wf && dst.wf
  | .bic _ src dst => src.wf && dst.wf
  | .bis _ src dst => src.wf && dst.wf
  | .xor _ src dst => src.wf && dst.wf
  | .and _ src dst => src.wf && dst.wf
  | .movxA x src dst => x.wfTwo src dst
  | .movxW x src dst => x.wfTwo src dst
  | .movxB x src dst => x.wfTwo src dst
  | .reservedMovx x src dst => x.wfTwo src dst
  | .addxA x src dst => x.wfTwo src dst
  | .addxW x src dst => x.wfTwo src dst
  | .addxB x src dst => x.wfTwo src dst
  | .reservedAddx x src dst => x.wfTwo src dst
  | .addcxA x src dst => x.wfTwo src dst
  | .addcxW x src dst => x.wfTwo src dst
  | .addcxB x src dst => x.wfTwo src dst
  | .reservedAddcx x src dst => x.wfTwo src dst
  | .subcxA x src dst => x.wfTwo src dst
  | .subcxW x src dst => x.wfTwo src dst
  | .subcxB x src dst => x.wfTwo src dst
  | .reservedSubcx x src dst => x.wfTwo src dst
  | .subxA x src dst => x.wfTwo src dst
  | .subxW x src dst => x.wfTwo src dst
  | .subxB x src dst => x.wfTwo src dst
  | .reservedSubx x src dst => x.wfTwo src dst
  | .cmpxA x src dst => x.wfTwo src dst
  | .cmpxW x src dst => x.wfTwo src dst
  | .cmpxB x src dst => x.wfTwo src dst
  | .reservedCmpx x src dst => x.wfTwo src dst
  | .daddxA x src dst => x.wfTwo src dst
  | .daddxW x src dst => x.wfTwo src dst
  | .daddxB x src dst => x.wfTwo src dst
  | .reservedDaddx x src dst => x.wfTwo src dst
  | .bitxA x src dst => x.wfTwo src dst
  | .bitxW x src dst => x.wfTwo src dst
  | .bitxB x src dst => x.wfTwo src dst
  | .reservedBitx x src dst => x.wfTwo src dst
  | .bicxA x src dst => x.wfTwo src dst
  | .bicxW x src dst => x.wfTwo src dst
  | .bicxB x src dst => x.wfTwo src dst
  | .reservedBicx x src dst => x.wfTwo src dst
  | .bisxA x src dst => x.wfTwo src dst
  | .bisxW x src dst => x.wfTwo src dst
  | .bisxB x src dst => x.wfTwo src dst
  | .reservedBisx x src dst => x.wfTwo src dst
  | .xorxA x src dst => x.wfTwo src dst
  | .xorxW x src dst => x.wfTwo src dst
  | .xorxB x src dst => x.wfTwo src dst
  | .reservedXorx x src dst => x.wfTwo src dst
  | .andxA x src dst => x.wfTwo src dst
  | .andxW x src dst => x.wfTwo src dst
  | .andxB x src dst => x.wfTwo src dst
  | .reservedAndx x src dst => x.wfTwo src dst
  | .rrc _ opd => opd.wf
  | .swpb opd => opd.wf
  | .swpbB opd => opd.wf
  | .rra _ opd => opd.wf
  | .sxt opd => opd.wf
  | .sxtB opd => opd.wf
  | .push _ opd => opd.wf
  | .call _ opd => opd.wf
  | .rrcxA x opd => x.wfOne opd
  | .rrcxW x opd => x.wfOne opd
  | .rrcxB x opd => x.wfOne opd
  | .reservedRrcx x opd => x.wfOne opd
  | .swpbxA x opd => x.wfOne opd
  | .swpbxW x opd => x.wfOne opd
  | .swpbxB x opd => x.wfOne opd
  | .reservedSwpbx x opd => x.wfOne opd
  | .rraxA x opd => x.wfOne opd
  | .rraxW x opd => x.wfOne opd
  | .rraxB x opd => x.wfOne opd
  | .reservedRrax x opd => x.wfOne opd
  | .sxtxA x opd => x.wfOne opd
  | .sxtxW x opd => x.wfOne opd
  | .sxtxB x opd => x.wfOne opd
  | .reservedSxtx x opd => x.wfOne opd
  | .pushxA x opd => x.wfOne opd
  | .pushxW x opd => x.wfOne opd
  | .pushxB x opd => x.wfOne opd
  | .reservedPushx x opd => x.wfOne opd
  | .callxA x opd => x.wfOne opd
  | .callxW x opd => x.wfOne opd
  | .callxB x opd => x.wfOne opd
  | .reservedCallx x opd => x.wfOne opd
  | .reservedPrefixAddr .. => true
  | .reservedPrefixCalla .. => true
  | .reservedPrefixPushm .. => true
  | .reservedPrefixPrefix .. => true
  | .reservedPrefixJump .. => true
  | .jnz .. => true
  | .jz .. => true
  | .jnc .. => true
  | .jc .. => true
  | .jn .. => true
  | .jge .. => true
  | .jl .. => true
  | .jmp .. => true
  | .movaInd .. => true
  | .movaInc s _ => s != 0
  | .movaAbs .. => true
  | .movaIdx .. => true
  | .movaToAbs .. => true
  | .movaToIdx .. => true
  | .movaImm .. => true
  | .movaReg .. => true
  | .cmpaImm .. => true
  | .cmpaReg .. => true
  | .addaImm .. => true
  | .addaReg .. => true
  | .subaImm .. => true
  | .subaReg .. => true
  | .reservedMovaPcInc .. => true
  | .rrcmA .. => true
  | .rrcmW .. => true
  | .rramA .. => true
  | .rramW .. => true
  | .rlamA .. => true
  | .rlamW .. => true
  | .rrumA .. => true
  | .rrumW .. => true
  | .reti .. => true
  | .callaReg .. => true
  | .callaIdx .. => true
  | .callaInd .. => true
  | .callaInc d => d != 0
  | .callaAbs .. => true
  | .callaSym .. => true
  | .callaImm .. => true
  | .reservedCallaPcInc => true
  | .reservedMinor131 .. => true
  | .reservedMinor132 .. => true
  | .reservedMinor133 .. => true
  | .reservedMinor13A .. => true
  | .reservedMinor13C .. => true
  | .pushmA n d => pushRangeOk n d
  | .pushmW n d => pushRangeOk n d
  | .popmA n d => popRangeOk n d
  | .popmW n d => popRangeOk n d

end Sys2Proof
end

