-- ==== Sys2Proof/Decode.lean ====
section
/-! DEFINITION. From words to instructions and back: `decode` is total on every list of words and refuses by name, and
`encode` writes the words of an instruction from the same tables (spec/30_encoding.md R110 to R131, R160). -/

namespace Sys2Proof

/-- Why the decoder gives no instruction. -/
inductive DecodeError where
  /-- the words end before the core word -/
  | truncated
  /-- a PUSHM or POPM whose register range is not legal (R160, R280), or an extension word handed over as a core word -/
  | reservedOpcode
  deriving DecidableEq, Repr

/-! ## Fields of a word -/

/-- `w[hi:lo]` as an unsigned number (R12). -/
def field (w : Word) (hi lo : Nat) : Nat := w.toNat / 2 ^ lo % 2 ^ (hi + 1 - lo)

/-- `w[i]` as one bit (R12). -/
def bitAt (w : Word) (i : Nat) : Bool := field w i i == 1

/-- The register number in bits lo+3 .. lo. -/
def regField (w : Word) (lo : Nat) : RegNum := Fin.ofNat 16 (field w (lo + 3) lo)

/-- The four bits lo+3 .. lo. -/
def nibble (w : Word) (lo : Nat) : BitVec 4 := BitVec.ofNat 4 (field w (lo + 3) lo)

/-- The number a bit stands for. -/
def bitNat (b : Bool) : Nat := if b then 1 else 0

/-! ## Operand fields -/

/-- The source operand of an As field and its register: the mode of R130, then the constant generator of R140. -/
def srcOf (r : RegNum) (as : Nat) : Src :=
  match as with
  | 0 => if r = 3 then .const .zero else .reg r
  | 1 => if r = 3 then .const .one else if r = 0 then .symbolic else if r = 2 then .absolute else .indexed r
  | 2 => if r = 3 then .const .two else if r = 2 then .const .four else .indirect r
  | _ =>
    if r = 3 then .const .minusOne
    else if r = 2 then .const .eight
    else if r = 0 then .immediate
    else if Config.as3Autoinc then .autoinc r else .indirect r

/-- The destination operand of an Ad field and its register (R131, R142). -/
def dstOf (r : RegNum) (ad : Bool) : Dst :=
  if ad then
    if r = 3 then .constOne else if r = 0 then .symbolic else if r = 2 then .absolute else .indexed r
  else if r = 3 then .constZero else .reg r

/-- The register field a source operand is written with. -/
def srcReg : Src → RegNum
  | .reg r | .indexed r | .indirect r | .autoinc r => r
  | .symbolic | .immediate => 0
  | .absolute | .const .four | .const .eight => 2
  | .const .zero | .const .one | .const .two | .const .minusOne => 3

/-- The As field a source operand is written with. -/
def srcAs : Src → Nat
  | .reg _ | .const .zero => 0
  | .indexed _ | .symbolic | .absolute | .const .one => 1
  | .indirect _ | .const .two | .const .four => 2
  | .autoinc _ | .immediate | .const .minusOne | .const .eight => 3

/-- The register field a destination operand is written with. -/
def dstReg : Dst → RegNum
  | .reg r | .indexed r => r
  | .symbolic => 0
  | .absolute => 2
  | .constZero | .constOne => 3

/-- The Ad field a destination operand is written with. -/
def dstAd : Dst → Bool
  | .reg _ | .constZero => false
  | .indexed _ | .symbolic | .absolute | .constOne => true

/-- The width bit of an unprefixed core word (R125). -/
def bwOf (b : Bool) : BW := if b then .byte else .word

/-- The number of a width bit. -/
def bwNat : BW → Nat
  | .word => 0
  | .byte => 1

/-! ## The extension word -/

/-- The word begins an extended instruction: bits 15:11 are 00011 (R123). -/
def isExtWord (w : Word) : Bool := field w 15 11 == 3

/-- The bits of an extension word, in the register form or the other (R123). -/
def extOf (p : Word) (regForm : Bool) : Ext :=
  if regForm then
    .regForm (BitVec.ofNat 2 (field p 10 9)) (bitAt p 8) (bitAt p 7) (BitVec.ofNat 2 (field p 5 4)) (regField p 0)
  else .memForm (nibble p 7) (BitVec.ofNat 2 (field p 5 4)) (nibble p 0)

/-- The extension word with the given `al` (R123). -/
def extWord (al : Bool) : Ext → Word
  | .regForm i z b j n =>
    BitVec.ofNat 16 (0x1800 + i.toNat * 512 + bitNat z * 256 + bitNat b * 128 + bitNat al * 64 + j.toNat * 16 + n.val)
  | .memForm h j l => BitVec.ofNat 16 (0x1800 + h.toNat * 128 + bitNat al * 64 + j.toNat * 16 + l.toNat)

/-! ## Core words -/

/-- A format I core word (R115). -/
def wordI (op : Nat) (bw : BW) (src : Src) (dst : Dst) : Word :=
  BitVec.ofNat 16 (op * 4096 + (srcReg src).val * 256 + bitNat (dstAd dst) * 128 + bwNat bw * 64 + srcAs src * 16
    + (dstReg dst).val)

/-- A format II core word (R117). -/
def wordII (op2 : Nat) (bw : BW) (opd : Src) : Word :=
  BitVec.ofNat 16 (0x1000 + op2 * 128 + bwNat bw * 64 + srcAs opd * 16 + (srcReg opd).val)

/-- A jump word (R118). -/
def wordJ (cond : Nat) (off : BitVec 10) : Word := BitVec.ofNat 16 (0x2000 + cond * 1024 + off.toNat)

/-- An address-group word: bits 11:8, the minor opcode, bits 3:0 (R119). -/
def wordA (minor s d : Nat) : Word := BitVec.ofNat 16 (s * 256 + minor * 16 + d)

/-- A rotate word (R120). -/
def wordRot (n : BitVec 2) (id w : Nat) (d : RegNum) : Word :=
  BitVec.ofNat 16 (n.toNat * 1024 + id * 256 + (4 + w) * 16 + d.val)

/-- A RETI/CALLA word: the 12-bit minor opcode and bits 3:0 (R121). -/
def wordC (minor d : Nat) : Word := BitVec.ofNat 16 (minor * 16 + d)

/-- A PUSHM/POPM word (R122). -/
def wordP (minor : Nat) (n : BitVec 4) (d : RegNum) : Word := BitVec.ofNat 16 (minor * 256 + n.toNat * 16 + d.val)

/-- An extension word given by its eleven low bits (R123). -/
def rawExt (p : BitVec 11) : Word := BitVec.ofNat 16 (0x1800 + p.toNat)

/-- A word given by a fixed number and its low bits. -/
def rawWord (base lo : Nat) : Word := BitVec.ofNat 16 (base + lo)

/-- The words of an instruction: its core word, after its extension word where it has one (R110). -/
def encode : Instr → List Word
  | .mov bw src dst => [wordI 4 bw src dst]
  | .add bw src dst => [wordI 5 bw src dst]
  | .addc bw src dst => [wordI 6 bw src dst]
  | .subc bw src dst => [wordI 7 bw src dst]
  | .sub bw src dst => [wordI 8 bw src dst]
  | .cmp bw src dst => [wordI 9 bw src dst]
  | .dadd bw src dst => [wordI 10 bw src dst]
  | .bit bw src dst => [wordI 11 bw src dst]
  | .bic bw src dst => [wordI 12 bw src dst]
  | .bis bw src dst => [wordI 13 bw src dst]
  | .xor bw src dst => [wordI 14 bw src dst]
  | .and bw src dst => [wordI 15 bw src dst]
  | .movxA x src dst => [extWord false x, wordI 4 .byte src dst]
  | .movxW x src dst => [extWord true x, wordI 4 .word src dst]
  | .movxB x src dst => [extWord true x, wordI 4 .byte src dst]
  | .reservedMovx x src dst => [extWord false x, wordI 4 .word src dst]
  | .addxA x src dst => [extWord false x, wordI 5 .byte src dst]
  | .addxW x src dst => [extWord true x, wordI 5 .word src dst]
  | .addxB x src dst => [extWord true x, wordI 5 .byte src dst]
  | .reservedAddx x src dst => [extWord false x, wordI 5 .word src dst]
  | .addcxA x src dst => [extWord false x, wordI 6 .byte src dst]
  | .addcxW x src dst => [extWord true x, wordI 6 .word src dst]
  | .addcxB x src dst => [extWord true x, wordI 6 .byte src dst]
  | .reservedAddcx x src dst => [extWord false x, wordI 6 .word src dst]
  | .subcxA x src dst => [extWord false x, wordI 7 .byte src dst]
  | .subcxW x src dst => [extWord true x, wordI 7 .word src dst]
  | .subcxB x src dst => [extWord true x, wordI 7 .byte src dst]
  | .reservedSubcx x src dst => [extWord false x, wordI 7 .word src dst]
  | .subxA x src dst => [extWord false x, wordI 8 .byte src dst]
  | .subxW x src dst => [extWord true x, wordI 8 .word src dst]
  | .subxB x src dst => [extWord true x, wordI 8 .byte src dst]
  | .reservedSubx x src dst => [extWord false x, wordI 8 .word src dst]
  | .cmpxA x src dst => [extWord false x, wordI 9 .byte src dst]
  | .cmpxW x src dst => [extWord true x, wordI 9 .word src dst]
  | .cmpxB x src dst => [extWord true x, wordI 9 .byte src dst]
  | .reservedCmpx x src dst => [extWord false x, wordI 9 .word src dst]
  | .daddxA x src dst => [extWord false x, wordI 10 .byte src dst]
  | .daddxW x src dst => [extWord true x, wordI 10 .word src dst]
  | .daddxB x src dst => [extWord true x, wordI 10 .byte src dst]
  | .reservedDaddx x src dst => [extWord false x, wordI 10 .word src dst]
  | .bitxA x src dst => [extWord false x, wordI 11 .byte src dst]
  | .bitxW x src dst => [extWord true x, wordI 11 .word src dst]
  | .bitxB x src dst => [extWord true x, wordI 11 .byte src dst]
  | .reservedBitx x src dst => [extWord false x, wordI 11 .word src dst]
  | .bicxA x src dst => [extWord false x, wordI 12 .byte src dst]
  | .bicxW x src dst => [extWord true x, wordI 12 .word src dst]
  | .bicxB x src dst => [extWord true x, wordI 12 .byte src dst]
  | .reservedBicx x src dst => [extWord false x, wordI 12 .word src dst]
  | .bisxA x src dst => [extWord false x, wordI 13 .byte src dst]
  | .bisxW x src dst => [extWord true x, wordI 13 .word src dst]
  | .bisxB x src dst => [extWord true x, wordI 13 .byte src dst]
  | .reservedBisx x src dst => [extWord false x, wordI 13 .word src dst]
  | .xorxA x src dst => [extWord false x, wordI 14 .byte src dst]
  | .xorxW x src dst => [extWord true x, wordI 14 .word src dst]
  | .xorxB x src dst => [extWord true x, wordI 14 .byte src dst]
  | .reservedXorx x src dst => [extWord false x, wordI 14 .word src dst]
  | .andxA x src dst => [extWord false x, wordI 15 .byte src dst]
  | .andxW x src dst => [extWord true x, wordI 15 .word src dst]
  | .andxB x src dst => [extWord true x, wordI 15 .byte src dst]
  | .reservedAndx x src dst => [extWord false x, wordI 15 .word src dst]
  | .rrc bw opd => [wordII 0 bw opd]
  | .swpb opd => [wordII 1 .word opd]
  | .swpbB opd => [wordII 1 .byte opd]
  | .rra bw opd => [wordII 2 bw opd]
  | .sxt opd => [wordII 3 .word opd]
  | .sxtB opd => [wordII 3 .byte opd]
  | .push bw opd => [wordII 4 bw opd]
  | .call bw opd => [wordII 5 bw opd]
  | .rrcxA x opd => [extWord false x, wordII 0 .byte opd]
  | .rrcxW x opd => [extWord true x, wordII 0 .word opd]
  | .rrcxB x opd => [extWord true x, wordII 0 .byte opd]
  | .reservedRrcx x opd => [extWord false x, wordII 0 .word opd]
  | .swpbxA x opd => [extWord false x, wordII 1 .byte opd]
  | .swpbxW x opd => [extWord true x, wordII 1 .word opd]
  | .swpbxB x opd => [extWord true x, wordII 1 .byte opd]
  | .reservedSwpbx x opd => [extWord false x, wordII 1 .word opd]
  | .rraxA x opd => [extWord false x, wordII 2 .byte opd]
  | .rraxW x opd => [extWord true x, wordII 2 .word opd]
  | .rraxB x opd => [extWord true x, wordII 2 .byte opd]
  | .reservedRrax x opd => [extWord false x, wordII 2 .word opd]
  | .sxtxA x opd => [extWord false x, wordII 3 .byte opd]
  | .sxtxW x opd => [extWord true x, wordII 3 .word opd]
  | .sxtxB x opd => [extWord true x, wordII 3 .byte opd]
  | .reservedSxtx x opd => [extWord false x, wordII 3 .word opd]
  | .pushxA x opd => [extWord false x, wordII 4 .byte opd]
  | .pushxW x opd => [extWord true x, wordII 4 .word opd]
  | .pushxB x opd => [extWord true x, wordII 4 .byte opd]
  | .reservedPushx x opd => [extWord false x, wordII 4 .word opd]
  | .callxA x opd => [extWord false x, wordII 5 .byte opd]
  | .callxW x opd => [extWord true x, wordII 5 .word opd]
  | .callxB x opd => [extWord true x, wordII 5 .byte opd]
  | .reservedCallx x opd => [extWord false x, wordII 5 .word opd]
  | .reservedPrefixAddr p lo => [rawExt p, rawWord 0x0000 lo.toNat]
  | .reservedPrefixCalla p lo => [rawExt p, rawWord 0x1300 lo.toNat]
  | .reservedPrefixPushm p lo => [rawExt p, rawWord 0x1400 lo.toNat]
  | .reservedPrefixPrefix p lo => [rawExt p, rawWord 0x1800 lo.toNat]
  | .reservedPrefixJump p lo => [rawExt p, rawWord 0x2000 lo.toNat]
  | .jnz off => [wordJ 0 off]
  | .jz off => [wordJ 1 off]
  | .jnc off => [wordJ 2 off]
  | .jc off => [wordJ 3 off]
  | .jn off => [wordJ 4 off]
  | .jge off => [wordJ 5 off]
  | .jl off => [wordJ 6 off]
  | .jmp off => [wordJ 7 off]
  | .movaInd s d => [wordA 0x0 s.val d.val]
  | .movaInc s d => [wordA 0x1 s.val d.val]
  | .movaAbs hi d => [wordA 0x2 hi.toNat d.val]
  | .movaIdx s d => [wordA 0x3 s.val d.val]
  | .movaToAbs s hi => [wordA 0x6 s.val hi.toNat]
  | .movaToIdx s d => [wordA 0x7 s.val d.val]
  | .movaImm hi d => [wordA 0x8 hi.toNat d.val]
  | .movaReg s d => [wordA 0xC s.val d.val]
  | .cmpaImm hi d => [wordA 0x9 hi.toNat d.val]
  | .cmpaReg s d => [wordA 0xD s.val d.val]
  | .addaImm hi d => [wordA 0xA hi.toNat d.val]
  | .addaReg s d => [wordA 0xE s.val d.val]
  | .subaImm hi d => [wordA 0xB hi.toNat d.val]
  | .subaReg s d => [wordA 0xF s.val d.val]
  | .reservedMovaPcInc d => [wordA 0x1 0 d.val]
  | .rrcmA n d => [wordRot n 0 0 d]
  | .rrcmW n d => [wordRot n 0 1 d]
  | .rramA n d => [wordRot n 1 0 d]
  | .rramW n d => [wordRot n 1 1 d]
  | .rlamA n d => [wordRot n 2 0 d]
  | .rlamW n d => [wordRot n 2 1 d]
  | .rrumA n d => [wordRot n 3 0 d]
  | .rrumW n d => [wordRot n 3 1 d]
  | .reti ignored => [wordC 0x130 ignored.toNat]
  | .callaReg d => [wordC 0x134 d.val]
  | .callaIdx d => [wordC 0x135 d.val]
  | .callaInd d => [wordC 0x136 d.val]
  | .callaInc d => [wordC 0x137 d.val]
  | .callaAbs hi => [wordC 0x138 hi.toNat]
  | .callaSym hi => [wordC 0x139 hi.toNat]
  | .callaImm hi => [wordC 0x13B hi.toNat]
  | .reservedCallaPcInc => [wordC 0x137 0]
  | .reservedMinor131 lo => [rawWord 0x1310 lo.toNat]
  | .reservedMinor132 lo => [rawWord 0x1320 lo.toNat]
  | .reservedMinor133 lo => [rawWord 0x1330 lo.toNat]
  | .reservedMinor13A lo => [rawWord 0x13A0 lo.toNat]
  | .reservedMinor13C lo => [rawWord 0x13C0 lo.toNat]
  | .pushmA n d => [wordP 0x14 n d]
  | .pushmW n d => [wordP 0x15 n d]
  | .popmA n d => [wordP 0x16 n d]
  | .popmW n d => [wordP 0x17 n d]

/-! ## The decoder -/

/-- Format I without an extension word (R115, R116). -/
def decodeI (w : Word) : Instr :=
  let bw := bwOf (bitAt w 6)
  let src := srcOf (regField w 8) (field w 5 4)
  let dst := dstOf (regField w 0) (bitAt w 7)
  match field w 15 12 with
  | 4 => .mov bw src dst
  | 5 => .add bw src dst
  | 6 => .addc bw src dst
  | 7 => .subc bw src dst
  | 8 => .sub bw src dst
  | 9 => .cmp bw src dst
  | 10 => .dadd bw src dst
  | 11 => .bit bw src dst
  | 12 => .bic bw src dst
  | 13 => .bis bw src dst
  | 14 => .xor bw src dst
  | _ => .and bw src dst

/-- Format I after an extension word: the width is that of (al, bw), and al = bw = 0 is reserved (R126). -/
def decodeExtI (p w : Word) : Instr :=
  let al := bitAt p 6
  let bw := bitAt w 6
  let src := srcOf (regField w 8) (field w 5 4)
  let dst := dstOf (regField w 0) (bitAt w 7)
  let x := extOf p (field w 5 4 == 0 && !bitAt w 7)
  match field w 15 12 with
  | 4 =>
    if al then (if bw then .movxB x src dst else .movxW x src dst) else (if bw then .movxA x src dst else .reservedMovx x src dst)
  | 5 =>
    if al then (if bw then .addxB x src dst else .addxW x src dst) else (if bw then .addxA x src dst else .reservedAddx x src dst)
  | 6 =>
    if al then (if bw then .addcxB x src dst else .addcxW x src dst) else (if bw then .addcxA x src dst else .reservedAddcx x src dst)
  | 7 =>
    if al then (if bw then .subcxB x src dst else .subcxW x src dst) else (if bw then .subcxA x src dst else .reservedSubcx x src dst)
  | 8 =>
    if al then (if bw then .subxB x src dst else .subxW x src dst) else (if bw then .subxA x src dst else .reservedSubx x src dst)
  | 9 =>
    if al then (if bw then .cmpxB x src dst else .cmpxW x src dst) else (if bw then .cmpxA x src dst else .reservedCmpx x src dst)
  | 10 =>
    if al then (if bw then .daddxB x src dst else .daddxW x src dst) else (if bw then .daddxA x src dst else .reservedDaddx x src dst)
  | 11 =>
    if al then (if bw then .bitxB x src dst else .bitxW x src dst) else (if bw then .bitxA x src dst else .reservedBitx x src dst)
  | 12 =>
    if al then (if bw then .bicxB x src dst else .bicxW x src dst) else (if bw then .bicxA x src dst else .reservedBicx x src dst)
  | 13 =>
    if al then (if bw then .bisxB x src dst else .bisxW x src dst) else (if bw then .bisxA x src dst else .reservedBisx x src dst)
  | 14 =>
    if al then (if bw then .xorxB x src dst else .xorxW x src dst) else (if bw then .xorxA x src dst else .reservedXorx x src dst)
  | _ =>
    if al then (if bw then .andxB x src dst else .andxW x src dst) else (if bw then .andxA x src dst else .reservedAndx x src dst)

/-- Format II without an extension word (R117). -/
def decodeII (w : Word) : Instr :=
  let bw := bwOf (bitAt w 6)
  let opd := srcOf (regField w 0) (field w 5 4)
  match field w 9 7 with
  | 0 => .rrc bw opd
  | 1 => if bitAt w 6 then .swpbB opd else .swpb opd
  | 2 => .rra bw opd
  | 3 => if bitAt w 6 then .sxtB opd else .sxt opd
  | 4 => .push bw opd
  | _ => .call bw opd

/-- Format II after an extension word (R117, R126). -/
def decodeExtII (p w : Word) : Instr :=
  let al := bitAt p 6
  let bw := bitAt w 6
  let opd := srcOf (regField w 0) (field w 5 4)
  let x := extOf p (field w 5 4 == 0)
  match field w 9 7 with
  | 0 =>
    if al then (if bw then .rrcxB x opd else .rrcxW x opd) else (if bw then .rrcxA x opd else .reservedRrcx x opd)
  | 1 =>
    if al then (if bw then .swpbxB x opd else .swpbxW x opd) else (if bw then .swpbxA x opd else .reservedSwpbx x opd)
  | 2 =>
    if al then (if bw then .rraxB x opd else .rraxW x opd) else (if bw then .rraxA x opd else .reservedRrax x opd)
  | 3 =>
    if al then (if bw then .sxtxB x opd else .sxtxW x opd) else (if bw then .sxtxA x opd else .reservedSxtx x opd)
  | 4 =>
    if al then (if bw then .pushxB x opd else .pushxW x opd) else (if bw then .pushxA x opd else .reservedPushx x opd)
  | _ =>
    if al then (if bw then .callxB x opd else .callxW x opd) else (if bw then .callxA x opd else .reservedCallx x opd)

/-- The conditional jumps (R118, R231). -/
def decodeJump (w : Word) : Instr :=
  let off := BitVec.ofNat 10 (field w 9 0)
  match field w 12 10 with
  | 0 => .jnz off
  | 1 => .jz off
  | 2 => .jnc off
  | 3 => .jc off
  | 4 => .jn off
  | 5 => .jge off
  | 6 => .jl off
  | _ => .jmp off

/-- The rotate words, by W and id (R120). -/
def decodeRotate (w : Word) : Instr :=
  let n := BitVec.ofNat 2 (field w 11 10)
  let d := regField w 0
  match field w 9 8 with
  | 0 => if bitAt w 4 then .rrcmW n d else .rrcmA n d
  | 1 => if bitAt w 4 then .rramW n d else .rramA n d
  | 2 => if bitAt w 4 then .rlamW n d else .rlamA n d
  | _ => if bitAt w 4 then .rrumW n d else .rrumA n d

/-- The address group, by its minor opcode (R119); `@PC+` is reserved (R160). -/
def decodeAddr (w : Word) : Instr :=
  let s := regField w 8
  let d := regField w 0
  match field w 7 4 with
  | 0x0 => .movaInd s d
  | 0x1 => if s = 0 then .reservedMovaPcInc d else .movaInc s d
  | 0x2 => .movaAbs (nibble w 8) d
  | 0x3 => .movaIdx s d
  | 0x4 => decodeRotate w
  | 0x5 => decodeRotate w
  | 0x6 => .movaToAbs s (nibble w 0)
  | 0x7 => .movaToIdx s d
  | 0x8 => .movaImm (nibble w 8) d
  | 0x9 => .cmpaImm (nibble w 8) d
  | 0xA => .addaImm (nibble w 8) d
  | 0xB => .subaImm (nibble w 8) d
  | 0xC => .movaReg s d
  | 0xD => .cmpaReg s d
  | 0xE => .addaReg s d
  | _ => .subaReg s d

/-- RETI and CALLA, by bits 7:4 of the minor opcode 0x130 .. 0x13F (R121, R279); `@PC+` is reserved (R160). -/
def decodeCalla (w : Word) : Instr :=
  let d := regField w 0
  let hi := nibble w 0
  match field w 7 4 with
  | 0x0 => .reti hi
  | 0x1 => .reservedMinor131 hi
  | 0x2 => .reservedMinor132 hi
  | 0x3 => .reservedMinor133 hi
  | 0x4 => .callaReg d
  | 0x5 => .callaIdx d
  | 0x6 => .callaInd d
  | 0x7 => if d = 0 then .reservedCallaPcInc else .callaInc d
  | 0x8 => .callaAbs hi
  | 0x9 => .callaSym hi
  | 0xA => .reservedMinor13A hi
  | 0xB => .callaImm hi
  | _ => .reservedMinor13C (BitVec.ofNat 6 (field w 5 0))

/-- PUSHM and POPM (R122); an illegal register range is reserved (R280). -/
def decodePushm (w : Word) : Except DecodeError Instr :=
  let n := nibble w 4
  let d := regField w 0
  match field w 9 8 with
  | 0 => if pushRangeOk n d then .ok (.pushmA n d) else .error .reservedOpcode
  | 1 => if pushRangeOk n d then .ok (.pushmW n d) else .error .reservedOpcode
  | 2 => if popRangeOk n d then .ok (.popmA n d) else .error .reservedOpcode
  | _ => if popRangeOk n d then .ok (.popmW n d) else .error .reservedOpcode

/-- A core word that no extension word precedes, by its high byte (R111). -/
def decodeCore (w : Word) : Except DecodeError Instr :=
  let h := field w 15 8
  if h ≤ 0x0F then .ok (decodeAddr w)
  else if h ≤ 0x12 then .ok (decodeII w)
  else if h = 0x13 then .ok (decodeCalla w)
  else if h ≤ 0x17 then decodePushm w
  else if h ≤ 0x1F then .error .reservedOpcode
  else if h ≤ 0x3F then .ok (decodeJump w)
  else .ok (decodeI w)

/-- The word after an extension word `p`, by its high byte: only formats I and II may follow (R111, R160, R310). -/
def decodeExt (p w : Word) : Instr :=
  let h := field w 15 8
  let raw := BitVec.ofNat 11 (field p 10 0)
  if h ≤ 0x0F then .reservedPrefixAddr raw (BitVec.ofNat 12 (field w 11 0))
  else if h ≤ 0x12 then decodeExtII p w
  else if h = 0x13 then .reservedPrefixCalla raw (BitVec.ofNat 8 (field w 7 0))
  else if h ≤ 0x17 then .reservedPrefixPushm raw (BitVec.ofNat 10 (field w 9 0))
  else if h ≤ 0x1F then .reservedPrefixPrefix raw (BitVec.ofNat 11 (field w 10 0))
  else if h ≤ 0x3F then .reservedPrefixJump raw (BitVec.ofNat 13 (field w 12 0))
  else decodeExtI p w

/-- The instruction the words begin with, and the words after its own (R111). -/
def decode : List Word → Except DecodeError (Instr × List Word)
  | [] => .error .truncated
  | w :: rest =>
    if isExtWord w then
      match rest with
      | [] => .error .truncated
      | c :: rest' => .ok (decodeExt w c, rest')
    else
      match decodeCore w with
      | .ok i => .ok (i, rest)
      | .error e => .error e

/-! ## Bytes and the opcode table's numbers -/

/-- The little-endian words of a run of bytes, a last odd byte dropped (R78, R110). -/
def wordsOfBytes : List Byte → List Word
  | lo :: hi :: rest => BitVec.ofNat 16 (lo.toNat + 256 * hi.toNat) :: wordsOfBytes rest
  | _ => []

/-- The bytes of words, the low byte of each first (R78). -/
def bytesOfWords : List Word → List Byte
  | [] => []
  | w :: rest => BitVec.ofNat 8 (w.toNat % 256) :: BitVec.ofNat 8 (w.toNat / 256) :: bytesOfWords rest

/-- The instruction a run of bytes begins with, and the words after its own. -/
def decodeBytes (bs : List Byte) : Except DecodeError (Instr × List Word) := decode (wordsOfBytes bs)

/-- The four words of an instruction whose bits are `w` as spec/opcode_table.json numbers them. The table writes an
extended instruction as `prefix << 16 | core` ("word" of its rows), so a number of two words whose bits 31:27 are 00011
has its extension word on top; any other number has its first word lowest. Bits above `nbits` are 0 (log entry 11). -/
def tableWords (nbits w : Nat) : List Word :=
  let v := w % 2 ^ nbits
  if 16 < nbits ∧ v / 2 ^ 27 % 32 = 3 then
    [BitVec.ofNat 16 (v / 2 ^ 16), BitVec.ofNat 16 v, BitVec.ofNat 16 (v / 2 ^ 32), BitVec.ofNat 16 (v / 2 ^ 48)]
  else
    [BitVec.ofNat 16 v, BitVec.ofNat 16 (v / 2 ^ 16), BitVec.ofNat 16 (v / 2 ^ 32), BitVec.ofNat 16 (v / 2 ^ 48)]

/-- The instruction the decoder reads from a number of the opcode table, laid out as bytes in memory order. -/
def decodeTableWord (nbits w : Nat) : Option Instr :=
  match decodeBytes (bytesOfWords (tableWords nbits w)) with
  | .ok (i, _) => some i
  | .error _ => none

end Sys2Proof
end

