-- ==== Sys2Proof/Machine/State.lean ====
section
/-! DEFINITION. The state of the block as plain data (spec/10_state.md, spec/20_memory.md), the record a fault leaves
(R400, R401), and the state at reset (R50). -/

namespace Sys2Proof.Machine

open Sys2Proof

/-- The three operand widths (R8, R170): BYTE, WORD and EXTENDED. -/
inductive Size where
  | byte
  | word
  | ext
  deriving DecidableEq, Repr

/-! ## The OPEN parameters (R10) -/

/-- `PC_READ_BIAS`: what is added to the last-fetched-word address when R0 is read as data (R34). -/
inductive PcReadBias where
  | zero
  | two
  deriving DecidableEq, Repr

/-- `SR_CTL_WRITE`: whether an explicit write of R2 reaches bits other than C, Z, N, V (R39). -/
inductive SrCtlWrite where
  | through
  | preserve
  deriving DecidableEq, Repr

/-- An address range of a device, both ends included (R71). -/
structure AddrRange where
  first : Slot
  last : Slot
  deriving DecidableEq, Repr

/-- The addresses an external device claims and the access widths it implements (`WDT_RANGES`, `PORT_RANGES[k]`,
`DEV_WIDTHS[d]` of R10). -/
structure DeviceParams where
  ranges : List AddrRange
  byteAccess : Bool
  wordAccess : Bool
  dwordAccess : Bool
  deriving DecidableEq, Repr

/-- The OPEN parameters of R10, which also are the routing table of R72: no step changes them (R75). -/
structure Params where
  wdt : DeviceParams
  ports : Vector DeviceParams 8
  pcReadBias : PcReadBias
  srCtlWrite : SrCtlWrite
  deriving DecidableEq, Repr

/-! ## Memory -/

/-- The memory device's bytes that differ from what an unlisted address reads as, by rising address. -/
abbrev Memory := List Host.Cell

/-- What an address reads as that no write has reached: the model's choice (DESIGN CHOICE, log entry 6; R50 leaves the
byte a launch input). -/
def Memory.unlisted : Byte := 0

/-- The canonical form: addresses strictly rising, no cell equal to an unlisted address, every address inside the array
(R73). -/
abbrev Memory.wf (m : Memory) : Prop :=
  m.Pairwise (fun x y => x.1 < y.1) ∧ ∀ c ∈ m, c.2 ≠ Memory.unlisted ∧ c.1 < Config.memSize

/-! ## Faults as the spec has them -/

/-- What an access was for (R401). -/
inductive AccessKind where
  | fetch
  | read
  | write
  deriving DecidableEq, Repr

/-- The fault conditions with what they record (R400, R401). -/
inductive FaultCause where
  /-- tag 1, from decode: the instruction's extension and core words -/
  | reservedOpcode (words : List Word)
  /-- tag 2, from dispatch: the instruction's extension and core words -/
  | unimplementedInstruction (words : List Word)
  /-- tag 3, from the memory device: the access (R80) -/
  | addressOutOfRange (addr : Slot) (bytes : Nat) (kind : AccessKind)
  /-- tag 4, from the generic bus operations: the width (R77) -/
  | unsupportedAccessWidth (bytes : Nat)
  /-- tag 5, from a device without that width: the access (R83) -/
  | notImplemented (addr : Slot) (bytes : Nat) (kind : AccessKind)
  deriving DecidableEq, Repr

/-- `halted = (tag, P, info)` (R401): the fault and the address of the faulting cycle's first word. -/
structure Halt where
  cause : FaultCause
  at_ : Slot
  deriving DecidableEq, Repr

/-! ## The state -/

/-- The repetition state `(left, at)` (R44): executions still to run after the current one, and the address of the
extension word; `at_` is `none` where the spec writes `-`. -/
structure Rep where
  left : Nat
  at_ : Option Slot
  deriving DecidableEq, Repr

/-- A write that an external device received: an output of the block (R84, D29). -/
structure DeviceWrite where
  device : Device
  addr : Slot
  bytes : Nat
  value : Slot
  deriving DecidableEq, Repr

/-- The state of the block between two cycles. Register slot 0 is the program counter, 1 the stack pointer, 2 the status
register, 3 the constant generator's slot (R30). The last three fields are the model's own: what it has taken of the free
values, and what it has sent to the devices (log entries 8, 9, 10). -/
structure State where
  regs : Vector Slot 16
  mem : Memory
  rep : Rep
  halted : Option Halt
  params : Params
  draws : Nat
  deviceReads : Nat
  sent : List DeviceWrite
  deriving DecidableEq, Repr

/-- Why a step gives no next state by a fault. -/
inductive Fault where
  /-- Raised by `step` alone, at a state whose `halted` is set: the run has ended and no cycle runs (R403, R313). Safe. -/
  | halted (h : Halt)
  deriving DecidableEq, Repr

/-- Why a step gives no next state by a refusal. -/
inductive Refusal where
  /-- Raised by an arm of `exec` whose instruction has no meaning yet; no arm does. Safe. -/
  | notModelled (mnemonic : String)
  deriving DecidableEq, Repr

/-! ## Reset -/

/-- A device that claims no address and implements every width. -/
def DeviceParams.absent : DeviceParams := ⟨[], true, true, true⟩

/-- The parameters at `State.reset`: a choice, the spec leaves them OPEN (DESIGN CHOICE, log entry 3). -/
def Params.reset : Params :=
  { wdt := .absent, ports := Vector.replicate 8 .absent, pcReadBias := .zero, srCtlWrite := .through }

/-- The block when its run loop starts (R50, R450), for the launch values the log names: every register and every byte
of memory zero, so that the reset vector, and with it the program counter, is 0 (DESIGN CHOICE, log entries 3, 5, 6, 7).
No repetition is in progress and nothing has faulted, as R50 says. -/
def State.reset : State :=
  { regs := Vector.replicate 16 0
    mem := []
    rep := ⟨0, none⟩
    halted := none
    params := Params.reset
    draws := 0
    deviceReads := 0
    sent := [] }

end Sys2Proof.Machine
end

