-- ==== Sys2Proof/Machine/Ops.lean ====
section
/-! DEFINITION. The named operations over registers, memory and the bus (spec/10_state.md, spec/20_memory.md), taking a
fault (R401, R402), and the end of a cycle (R35, R313, R315). There is no trap entry and no trap return (R411, R412). -/

namespace Sys2Proof.Machine

open Sys2Proof

/-! ## Widths -/

/-- Bits of a word size (R170). -/
def bits : Size → Nat
  | .byte => 8
  | .word => 16
  | .ext => 20

/-- Bytes a memory operand of a word size moves (R87, R170). -/
def nb : Size → Nat
  | .byte => 1
  | .word => 2
  | .ext => 4

/-- `v & M(ws)` (R170). -/
def trunc (ws : Size) (v : Slot) : Slot := BitVec.ofNat 32 (v.toNat % 2 ^ bits ws)

/-- A value modulo 2^20, as every address computation is (R31). -/
def low20 (v : Slot) : Slot := BitVec.ofNat 32 (v.toNat % 2 ^ Config.addrBits)

/-! ## The register file -/

/-- `x[r]`, the whole slot (R13). -/
def State.reg (s : State) (r : RegNum) : Slot := s.regs[r]

/-- `x[r] <- v`, the whole slot (R13). -/
def State.setReg (s : State) (r : RegNum) (v : Slot) : State := { s with regs := s.regs.set r v }

/-- The program counter, slot 0; within a cycle, the last-fetched-word address until R0 is written (R33). -/
def State.pc (s : State) : Slot := s.reg 0

/-- The stack pointer, slot 1. -/
def State.sp (s : State) : Slot := s.reg 1

/-- The status register, slot 2. -/
def State.sr (s : State) : Slot := s.reg 2

/-- The program counter set. -/
def State.setPc (s : State) (v : Slot) : State := s.setReg 0 v

/-- C, bit 0 of SR (R37). -/
def State.flagC (s : State) : Bool := s.sr.getLsbD 0

/-- Z, bit 1 of SR (R37). -/
def State.flagZ (s : State) : Bool := s.sr.getLsbD 1

/-- N, bit 2 of SR (R37). -/
def State.flagN (s : State) : Bool := s.sr.getLsbD 2

/-- V, bit 8 of SR (R37). -/
def State.flagV (s : State) : Bool := s.sr.getLsbD 8

/-- `PC_READ_BIAS` as a number (R34). -/
def biasOf : PcReadBias → Slot
  | .zero => 0
  | .two => 2

/-- `base(r)` (R147): R0 reads as the last-fetched-word address plus the bias (R34), R3 as 0 (R32), any other register
as its whole slot. -/
def State.base (s : State) (r : RegNum) : Slot :=
  if r = 0 then low20 (s.pc + biasOf s.params.pcReadBias) else if r = 3 then 0 else s.reg r

/-- The bits of SR that an explicit write leaves alone: none under THROUGH, all but bits 0, 1, 2 and 8 (C, Z, N, V) under
PRESERVE, as D20 and the words of R39 say (bit 3: log entry 4). -/
def srKept (p : Params) : Slot :=
  match p.srCtlWrite with
  | .through => 0
  | .preserve => ~~~0x107#32

/-- An explicit write of R2 (R39). -/
def State.writeSR (s : State) (v : Slot) : State :=
  s.setReg 2 ((s.sr &&& srKept s.params) ||| (v &&& ~~~ srKept s.params))

/-- `WriteReg(r, v, ws)` (R31): R3 discards (R32), R2 goes by R39, any other slot takes the masked value. -/
def State.writeReg (s : State) (r : RegNum) (v : Slot) (ws : Size) : State :=
  if r = 3 then s else if r = 2 then s.writeSR (trunc ws v) else s.setReg r (trunc ws v)

/-- `AutoInc(r, k)` (R152): R3 discards; R0 as a fixed-mode autoincrement register is reserved (R160), never reaches
here from a well-formed instruction, and is left alone. -/
def State.autoInc (s : State) (r : RegNum) (k : Nat) : State :=
  let v := low20 (s.reg r + BitVec.ofNat 32 k)
  if r = 0 ∨ r = 3 then s else if r = 2 then s.writeSR v else s.setReg r v

/-! ## Bytes of the memory device -/

/-- One byte. -/
def Memory.get : Memory → Nat → Byte
  | [], _ => Memory.unlisted
  | (b, v) :: t, a => if b = a then v else Memory.get t a

/-- One byte written; the canonical form is kept. -/
def Memory.set : Memory → Nat → Byte → Memory
  | [], a, v => if v = Memory.unlisted then [] else [(a, v)]
  | (b, w) :: t, a, v =>
    if a < b then (if v = Memory.unlisted then (b, w) :: t else (a, v) :: (b, w) :: t)
    else if a = b then (if v = Memory.unlisted then t else (a, v) :: t)
    else (b, w) :: Memory.set t a v

/-- The little-endian number in `n` bytes from `a` (R78). -/
def Memory.readLE (m : Memory) (a : Nat) : Nat → Nat
  | 0 => 0
  | n + 1 => (m.get a).toNat + 256 * Memory.readLE m (a + 1) n

/-- The low `n` bytes of `v` stored from `a`, least significant first (R78). -/
def Memory.writeLE (m : Memory) (a v : Nat) : Nat → Memory
  | 0 => m
  | n + 1 => Memory.writeLE (m.set a (BitVec.ofNat 8 v)) (a + 1) (v / 256) n

/-! ## The bus -/

/-- The range holds the address (R71). -/
def AddrRange.holds (r : AddrRange) (a : Slot) : Bool := r.first ≤ a && a ≤ r.last

/-- The device claims the address. -/
def DeviceParams.claims (d : DeviceParams) (a : Slot) : Bool := d.ranges.any (fun r => r.holds a)

/-- The ports in the order they are registered (R72). -/
def portOrder : List (Fin 8) := [0, 1, 2, 3, 4, 5, 6, 7]

/-- `resolve(a)`: the first device registered whose ranges hold the address, else memory (R72, R74). -/
def resolve (p : Params) (a : Slot) : Device :=
  if p.wdt.claims a then .watchdog
  else
    match portOrder.find? (fun k => (p.ports[k]).claims a) with
    | some k => .port k
    | none => .memory

/-- The device implements accesses of `n` bytes (R83). -/
def DeviceParams.implements (d : DeviceParams) (n : Nat) : Bool :=
  if n = 1 then d.byteAccess else if n = 2 then d.wordAccess else if n = 4 then d.dwordAccess else false

/-- The parameters of a device; memory has none. -/
def Params.device (p : Params) : Device → DeviceParams
  | .watchdog => p.wdt
  | .port k => p.ports[k]
  | .memory => .absent

/-- The widths the bus accepts (R77). -/
def busWidth (n : Nat) : Bool := n == 1 || n == 2 || n == 4

/-- `MemRead(a, n)` (R15, R76): the device of the starting address performs the whole access. Memory checks its bounds
(R80); a device that lacks the width faults (R83) and otherwise answers a free value of the access width (R84). -/
def busRead (s : State) (a : Slot) (n : Nat) (kind : AccessKind) : Except FaultCause (Slot × State) :=
  if busWidth n then
    match resolve s.params a with
    | .memory =>
      if a.toNat + n ≤ Config.memSize then .ok (BitVec.ofNat 32 (s.mem.readLE a.toNat n), s)
      else .error (.addressOutOfRange a n kind)
    | d =>
      if (s.params.device d).implements n then
        .ok (BitVec.ofNat 32 ((Config.deviceAnswer s.deviceReads d a n).toNat % 2 ^ (8 * n)),
          { s with deviceReads := s.deviceReads + 1 })
      else .error (.notImplemented a n kind)
  else .error (.unsupportedAccessWidth n)

/-- `MemWrite(a, n, v)` (R15, R76): as `busRead`; a device accepts the write, which is an output and changes nothing
else of the block (R84, log entry 10). -/
def busWrite (s : State) (a : Slot) (n : Nat) (v : Slot) : Except FaultCause State :=
  if busWidth n then
    match resolve s.params a with
    | .memory =>
      if a.toNat + n ≤ Config.memSize then .ok { s with mem := s.mem.writeLE a.toNat v.toNat n }
      else .error (.addressOutOfRange a n .write)
    | d =>
      if (s.params.device d).implements n then
        .ok { s with sent := ⟨d, a, n, BitVec.ofNat 32 (v.toNat % 2 ^ (8 * n))⟩ :: s.sent }
      else .error (.notImplemented a n .write)
  else .error (.unsupportedAccessWidth n)

/-! ## Fetching words -/

/-- `Fetch(pc)`: the instruction word at the program counter (R15, R33). -/
def fetchHere (s : State) : Except FaultCause (Word × State) :=
  match busRead s s.pc 2 .fetch with
  | .ok (v, s1) => .ok (BitVec.ofNat 16 v.toNat, s1)
  | .error c => .error c

/-- A further word of the instruction: the program counter advances by 2, modulo 2^20, and the word there is fetched
(R33). -/
def fetchNext (s : State) : Except FaultCause (Word × State) := fetchHere (s.setPc (low20 (s.pc + 2)))

/-! ## Taking a fault -/

/-- A fault taken (R401, R402): the block halts with the fault and the address of the cycle's first word, and everything
else is as it was when the cycle began. `start` is the state at the cycle's start. -/
def State.takeFault (start : State) (c : FaultCause) : State := { start with halted := some ⟨c, start.pc⟩ }

/-- The number of a fault condition (R400). -/
def FaultCause.tag : FaultCause → Nat
  | .reservedOpcode _ => 1
  | .unimplementedInstruction _ => 2
  | .addressOutOfRange .. => 3
  | .unsupportedAccessWidth _ => 4
  | .notImplemented .. => 5

/-! ## The end of a cycle -/

/-- What the execution of an instruction leaves: the state, the address of the last word fetched (R33), and whether R0
was written (R35). -/
structure Done where
  st : State
  lfa : Slot
  wrotePc : Bool
  deriving DecidableEq, Repr

/-- The program counter and the repetition state after an execution that did not fault (R35, R313, R315). `start` is the
state at the cycle's start and `n` the instruction's repetition field. -/
def finish (start : State) (n : Nat) (d : Done) : State :=
  if start.rep.left = 0 then
    if 0 < n then { d.st.setPc start.pc with rep := ⟨n, some start.pc⟩ }
    else if d.wrotePc then d.st else d.st.setPc (low20 (d.lfa + 2))
  else if 0 < start.rep.left - 1 then { d.st.setPc start.pc with rep := ⟨start.rep.left - 1, start.rep.at_⟩ }
  else { d.st.setPc (low20 (d.lfa + 2)) with rep := ⟨0, none⟩ }

/-- The rest of a cycle after decode: the execution's result finished, or its fault taken. -/
def cycle (start : State) (n : Nat) (body : Except FaultCause Done) : Host.Outcome State Fault Refusal :=
  match body with
  | .ok d => .next (finish start n d)
  | .error c => .next (start.takeFault c)

/-! ## Stack sequences -/

/-- Values pushed one after another, the first at the highest address, `sz` bytes each (R271, R281); the stack pointer
and the state after them. R1 itself is not written here. -/
def pushAll (sz : Nat) : List Slot → Slot → State → Except FaultCause (Slot × State)
  | [], sp, s => .ok (sp, s)
  | v :: vs, sp, s =>
    let sp' := low20 (sp - BitVec.ofNat 32 sz)
    match busWrite s sp' sz v with
    | .ok s1 => pushAll sz vs sp' s1
    | .error c => .error c

/-- Registers popped one after another, the first from the lowest address (R282); the stack pointer and the state after
them. -/
def popAll (ws : Size) : List RegNum → Slot → State → Except FaultCause (Slot × State)
  | [], sp, s => .ok (sp, s)
  | r :: rs, sp, s =>
    match busRead s sp (nb ws) .read with
    | .ok (v, s1) => popAll ws rs (low20 (sp + BitVec.ofNat 32 (nb ws))) (s1.writeReg r v ws)
    | .error c => .error c

end Sys2Proof.Machine
end

