-- ==== Sys2Proof/Machine/Flags.lean ====
section
/-! DEFINITION. The operation functions and the flags they write (spec/40_alu_flags.md). Each takes operand values
already masked to the word size and returns a result and what becomes of C, Z, N, V. -/

namespace Sys2Proof.Machine

open Sys2Proof

/-! ## Writing flags -/

/-- What an operation does to C, Z, N and V (R38, R199). -/
inductive FlagUpdate where
  /-- the four flags stay as they are -/
  | keep
  /-- the four flags are written -/
  | write (c z n v : Bool)
  /-- C, Z and N are written, and V becomes a draw (R186) for an operation on `a` and `b` -/
  | writeDrawV (c z n : Bool) (a b : Slot)
  deriving DecidableEq, Repr

/-- The result of an operation with its flags. -/
structure AluOut where
  result : Slot
  flags : FlagUpdate
  deriving DecidableEq, Repr

/-- The SR bits of the four flags (R37). -/
def flagMask : Slot := 0x107

/-- The flags at their places in SR (R37). -/
def packFlags (c z n v : Bool) : Slot := BitVec.ofNat 32 (bitNat c + 2 * bitNat z + 4 * bitNat n + 256 * bitNat v)

/-- The flag-update port: C, Z, N, V of SR are written and no other bit (R38). -/
def State.setFlags (s : State) (c z n v : Bool) : State :=
  s.setReg 2 ((s.sr &&& ~~~ flagMask) ||| packFlags c z n v)

/-- The flags of an operation written; a draw takes the next free value (R186, log entry 8). -/
def State.applyFlags (s : State) : FlagUpdate → State
  | .keep => s
  | .write c z n v => s.setFlags c z n v
  | .writeDrawV c z n a b => { s.setFlags c z n (Config.drawV s.draws a b) with draws := s.draws + 1 }

/-! ## Signs and zero -/

/-- `neg(v)`: the sign bit at the width (R171). -/
def neg (ws : Size) (v : Slot) : Bool := v.getLsbD (bits ws - 1)

/-- `zero(v)` (R171). -/
def isZero (ws : Size) (v : Slot) : Bool := v.toNat % 2 ^ bits ws == 0

/-! ## Carry input -/

/-- The carry input of ADDC, SUBC and DADD: C, or 0 under a zero-carry extension word when `ZC_SCOPE` is ALL (R172). -/
def carryIn (zc : Bool) (s : State) : Bool :=
  if zc ∧ Config.zcScope = .all then false else s.flagC

/-- The carry input of RRC: C, or 0 under a zero-carry extension word (R172, R317). -/
def carryInRrc (zc : Bool) (s : State) : Bool := if zc then false else s.flagC

/-! ## Add and subtract -/

/-- `AddOp(s, d, cin, ws)` (R173). -/
def addOp (ws : Size) (cin : Bool) (s d : Slot) : AluOut :=
  let r := s.toNat + d.toNat + bitNat cin
  let result := BitVec.ofNat 32 (r % 2 ^ bits ws)
  ⟨result, .write (decide (2 ^ bits ws ≤ r)) (isZero ws result) (neg ws result)
    ((neg ws s == neg ws d) && (neg ws result != neg ws s))⟩

/-- The flags of the subtract group, given its result: C is "destination ≥ source" whatever the carry input (R174). -/
def subFlags (ws : Size) (s d result : Slot) : FlagUpdate :=
  .write (decide (s.toNat ≤ d.toNat)) (isZero ws result) (neg ws result)
    ((neg ws s != neg ws d) && (neg ws d != neg ws result))

/-- `SubOp(s, d, -, ws)` of SUB, CMP, SUBA and CMPA (R174). -/
def subOp (ws : Size) (s d : Slot) : AluOut :=
  let result := BitVec.ofNat 32 (((d.toNat : Int) - s.toNat) % 2 ^ bits ws).toNat
  ⟨result, subFlags ws s d result⟩

/-- `SubOp(s, d, cin, ws)` of SUBC (R174). -/
def subcOp (ws : Size) (cin : Bool) (s d : Slot) : AluOut :=
  let result := BitVec.ofNat 32 ((d.toNat + (trunc ws (~~~ s)).toNat + bitNat cin) % 2 ^ bits ws)
  ⟨result, subFlags ws s d result⟩

/-! ## The logical group -/

/-- `AndOp(s, d, ws)` of AND and BIT (R175). -/
def andOp (ws : Size) (s d : Slot) : AluOut :=
  let result := s &&& d
  ⟨result, .write (!isZero ws result) (isZero ws result) (neg ws result) false⟩

/-- `XorOp(s, d, ws)` (R176). -/
def xorOp (ws : Size) (s d : Slot) : AluOut :=
  let result := s ^^^ d
  ⟨result, .write (!isZero ws result) (isZero ws result) (neg ws result) (neg ws s && neg ws d)⟩

/-- `BicOp(s, d)` (R177). -/
def bicOp (ws : Size) (s d : Slot) : AluOut := ⟨trunc ws (d &&& ~~~ s), .keep⟩

/-- `BisOp(s, d)` (R177). -/
def bisOp (ws : Size) (s d : Slot) : AluOut := ⟨trunc ws (d ||| s), .keep⟩

/-- MOV and MOVA: the source value, no flag (R178). -/
def movOp (s : Slot) : AluOut := ⟨s, .keep⟩

/-! ## Decimal add -/

/-- BCD digits of a word size (R170). -/
def digits : Size → Nat
  | .byte => 2
  | .word => 4
  | .ext => 5

/-- The digit loop of R179, least significant digit first: the digits of the result, and the carry out of the last. -/
def daddDigits : Nat → Nat → Nat → Nat → Nat × Nat
  | 0, _, _, c => (0, c)
  | k + 1, s, d, c =>
    let t := s % 16 + d % 16 + c
    let t' := if 9 < t then t + 6 else t
    let (rest, out) := daddDigits k (s / 16) (d / 16) (t' / 16)
    (t' % 16 + 16 * rest, out)

/-- `DaddOp(s, d, cin, ws)` (R179); V is a draw (R186). -/
def daddOp (ws : Size) (cin : Bool) (s d : Slot) : AluOut :=
  let (digs, c) := daddDigits (digits ws) s.toNat d.toNat (bitNat cin)
  let r := digs + c * 16 ^ digits ws
  let result := BitVec.ofNat 32 digs
  ⟨result, .writeDrawV (decide (2 ^ bits ws ≤ r)) (isZero ws result) (neg ws result) s d⟩

/-! ## Shifts and rotates -/

/-- `Rrc1` (R180). -/
def rrc1 (ws : Size) (v : Slot) (cin : Bool) : Slot × Bool :=
  (BitVec.ofNat 32 (v.toNat / 2 + bitNat cin * 2 ^ (bits ws - 1)), v.getLsbD 0)

/-- `Rra1` (R180). -/
def rra1 (ws : Size) (v : Slot) (_ : Bool) : Slot × Bool :=
  (BitVec.ofNat 32 (v.toNat / 2 + bitNat (neg ws v) * 2 ^ (bits ws - 1)), v.getLsbD 0)

/-- `Rla1` (R180). -/
def rla1 (ws : Size) (v : Slot) (_ : Bool) : Slot × Bool :=
  (BitVec.ofNat 32 (v.toNat * 2 % 2 ^ bits ws), neg ws v)

/-- `Rru1` (R180). -/
def rru1 (_ : Size) (v : Slot) (_ : Bool) : Slot × Bool := (BitVec.ofNat 32 (v.toNat / 2), v.getLsbD 0)

/-- The one-step function `n` times, each carry out the next carry in (R181). -/
def shiftN (f : Slot → Bool → Slot × Bool) : Nat → Slot → Bool → Slot × Bool
  | 0, v, c => (v, c)
  | n + 1, v, c => let (v', c') := f v c; shiftN f n v' c'

/-- The flags after the last step, V cleared: RRC, RRA, RRCM, RRAM, RRUM (R181). -/
def shiftOut (ws : Size) (p : Slot × Bool) : AluOut := ⟨p.1, .write p.2 (isZero ws p.1) (neg ws p.1) false⟩

/-- The flags after the last step, V a draw: RLAM (R181, R186). -/
def shiftOutDraw (ws : Size) (v : Slot) (n : Nat) (p : Slot × Bool) : AluOut :=
  ⟨p.1, .writeDrawV p.2 (isZero ws p.1) (neg ws p.1) v (BitVec.ofNat 32 n)⟩

/-! ## Byte swap and sign extension -/

/-- `SwpbOp(v)` at WORD (R182). -/
def swpbOp (v : Slot) : AluOut := ⟨BitVec.ofNat 32 (v.toNat % 256 * 256 + v.toNat / 256 % 256), .keep⟩

/-- `SxtOp(v)` at WORD (R183). -/
def sxtOp (v : Slot) : AluOut :=
  let result := trunc .word ((BitVec.ofNat 8 v.toNat).signExtend 32)
  ⟨result, .write (!isZero .word result) (isZero .word result) (neg .word result) false⟩

end Sys2Proof.Machine
end

