-- ==== Sys2Proof/Machine/Operands.lean ====
section
/-! DEFINITION. Every operand form, resolved and written back (spec/30_encoding.md R140 to R156): the extension word is
fetched, the address computed, the value read and the autoincrement done, in that order (R145). -/

namespace Sys2Proof.Machine

open Sys2Proof

/-- Where a result is written (R156). -/
inductive Place where
  | reg (r : RegNum)
  | mem (ea : Slot)
  /-- an immediate or a constant: a write is discarded (R142) -/
  | none
  deriving DecidableEq, Repr

/-- A resolved operand (R46): its masked value, and where a result of it would go. -/
structure Operand where
  value : Slot
  place : Place
  deriving DecidableEq, Repr

/-- The program counter is the place. -/
def Place.isPc (p : Place) : Bool := p == .reg 0

/-! ## Extension values (R155) -/

/-- Bits 19:16 an extension word gives a format I source operand (R154). -/
def extSrcHi : Ext → Option (BitVec 4)
  | .regForm .. => none
  | .memForm h _ _ => some h

/-- Bits 19:16 an extension word gives a format I destination and the operand of format II (R154). -/
def extDstHi : Ext → Option (BitVec 4)
  | .regForm .. => none
  | .memForm _ _ h => some h

/-- The zero-carry flag: bit 8 in the register form, false in the other (R124, R317). -/
def extZc : Ext → Bool
  | .regForm _ z _ _ _ => z
  | .memForm .. => false

/-- An address or an immediate: the word zero-extended, or bits 19:16 put above it (R149, R153). -/
def extValue : Option (BitVec 4) → Word → Slot
  | none, w => BitVec.ofNat 32 w.toNat
  | some h, w => BitVec.ofNat 32 (h.toNat * 65536 + w.toNat)

/-- An offset: the word sign-extended from 16 bits, or from 20 with bits 19:16 put above it (R148). -/
def extOffset : Option (BitVec 4) → Word → Slot
  | none, w => w.signExtend 32
  | some h, w => (BitVec.ofNat 20 (h.toNat * 65536 + w.toNat)).signExtend 32

/-- The number a constant of the constant generator stands for, -1 as all ones (R140, R141). -/
def cgValue : CgConst → Slot
  | .zero => 0
  | .one => 1
  | .two => 2
  | .minusOne => 0xFFFFFFFF
  | .four => 4
  | .eight => 8

/-! ## Addresses that take an extension word -/

/-- INDEXED: base plus offset, modulo 2^20; the base is read after the word is fetched (R147, R148). An address that wraps
faults only where R80 says so, as the pseudocode of R244 has it and not as its corner case reads (DESIGN CHOICE, log
entry 28). -/
def eaIndexed (hi : Option (BitVec 4)) (r : RegNum) (s : State) : Except FaultCause (Slot × State) :=
  match fetchNext s with
  | .ok (w, s1) => .ok (low20 (s1.base r + extOffset hi w), s1)
  | .error c => .error c

/-- SYMBOLIC: the address of the operand's own extension word plus the offset, modulo 2^20 (R151). -/
def eaSymbolic (hi : Option (BitVec 4)) (s : State) : Except FaultCause (Slot × State) :=
  match fetchNext s with
  | .ok (w, s1) => .ok (low20 (s1.pc + extOffset hi w), s1)
  | .error c => .error c

/-- ABSOLUTE (R149). -/
def eaAbsolute (hi : Option (BitVec 4)) (s : State) : Except FaultCause (Slot × State) :=
  match fetchNext s with
  | .ok (w, s1) => .ok (extValue hi w, s1)
  | .error c => .error c

/-! ## The modes (R147) -/

/-- REGISTER. -/
def opRegister (ws : Size) (r : RegNum) (s : State) : Operand := ⟨trunc ws (s.base r), .reg r⟩

/-- The operand in memory at `ea`: `MemRead(ea, nb(ws)) & M`. -/
def opMemory (ws : Size) (ea : Slot) (s : State) : Except FaultCause (Operand × State) :=
  match busRead s ea (nb ws) .read with
  | .ok (v, s1) => .ok (⟨trunc ws v, .mem ea⟩, s1)
  | .error c => .error c

/-- The operand in memory at an address that took an extension word. -/
def opAt (ws : Size) (ea : Except FaultCause (Slot × State)) : Except FaultCause (Operand × State) :=
  match ea with
  | .ok (a, s1) => opMemory ws a s1
  | .error c => .error c

/-- INDIRECT_REGISTER: the register's full value is the address (R150). -/
def opIndirect (ws : Size) (r : RegNum) (s : State) : Except FaultCause (Operand × State) :=
  opMemory ws (s.base r) s

/-- INDIRECT_AUTOINCREMENT: as INDIRECT_REGISTER, then the register advances (R152). -/
def opAutoinc (ws : Size) (r : RegNum) (s : State) : Except FaultCause (Operand × State) :=
  match opMemory ws (s.base r) s with
  | .ok (o, s1) => .ok (o, s1.autoInc r (nb ws))
  | .error c => .error c

/-- IMMEDIATE from an extension word (R153). -/
def opImmediate (ws : Size) (hi : Option (BitVec 4)) (s : State) : Except FaultCause (Operand × State) :=
  match fetchNext s with
  | .ok (w, s1) => .ok (⟨trunc ws (extValue hi w), .none⟩, s1)
  | .error c => .error c

/-! ## Source and destination of formats I and II -/

/-- A source operand resolved (R145, R147); `hi` is bits 19:16 from the extension word, where there is one. -/
def resolveSrc (ws : Size) (hi : Option (BitVec 4)) (src : Src) (s : State) : Except FaultCause (Operand × State) :=
  match src with
  | .reg r => .ok (opRegister ws r s, s)
  | .indexed r => opAt ws (eaIndexed hi r s)
  | .symbolic => opAt ws (eaSymbolic hi s)
  | .absolute => opAt ws (eaAbsolute hi s)
  | .indirect r => opIndirect ws r s
  | .autoinc r => opAutoinc ws r s
  | .immediate => opImmediate ws hi s
  | .const k => .ok (⟨trunc ws (cgValue k), .none⟩, s)

/-- A destination in memory: read where `reads`, and only its address computed where not (R146). -/
def dstAt (ws : Size) (reads : Bool) (ea : Except FaultCause (Slot × State)) : Except FaultCause (Operand × State) :=
  match ea with
  | .ok (a, s1) => if reads then opMemory ws a s1 else .ok (⟨0, .mem a⟩, s1)
  | .error c => .error c

/-- A destination operand resolved (R131, R142, R145, R146). -/
def resolveDst (ws : Size) (hi : Option (BitVec 4)) (reads : Bool) (dst : Dst) (s : State) :
    Except FaultCause (Operand × State) :=
  match dst with
  | .reg r => .ok (opRegister ws r s, s)
  | .indexed r => dstAt ws reads (eaIndexed hi r s)
  | .symbolic => dstAt ws reads (eaSymbolic hi s)
  | .absolute => dstAt ws reads (eaAbsolute hi s)
  | .constZero => .ok (⟨0, .none⟩, s)
  | .constOne => .ok (⟨1, .none⟩, s)

/-- `Store(op, v, ws)` (R156). -/
def store (ws : Size) (p : Place) (v : Slot) (s : State) : Except FaultCause State :=
  match p with
  | .reg r => .ok (s.writeReg r v ws)
  | .mem ea => busWrite s ea (nb ws) (trunc ws v)
  | .none => .ok s

/-! ## Extended instructions -/

/-- The repetition field: bits 3:0, or bits 3:0 of the register they name, read once the core word is fetched; 0 in the
non-register form (R124, R312). -/
def repetition (x : Ext) (s : State) : Nat :=
  match x with
  | .regForm _ _ byReg _ n => if byReg then (s.base n).toNat % 16 else n.val
  | .memForm .. => 0

/-- The word size of a `bw` bit without an extension word (R125). -/
def sizeOf : BW → Size
  | .word => .word
  | .byte => .byte

end Sys2Proof.Machine
end

