-- ==== Sys2Proof/Machine/TwoOperand.lean ====
section
/-! DEFINITION. The common execution of formats I and II (R200, R290), and the twelve two-operand instructions without
an extension word (spec/41_two_operand.md). -/

namespace Sys2Proof.Machine

open Sys2Proof

/-! ## Common execution -/

/-- The cycle of format I after decode (R200): the source, then the destination, then the operation, its flags and its
store. `alu` gets the word size, the carry input and the two values; `reads` and `stores` say whether the destination is
read (R146) and written; `hiS`, `hiD` and `zc` come from the extension word. -/
def formatI (alu : Size → Bool → Slot → Slot → AluOut) (reads stores : Bool) (ws : Size) (hiS hiD : Option (BitVec 4))
    (zc : Bool) (src : Src) (dst : Dst) (s : State) : Except FaultCause Done :=
  match resolveSrc ws hiS src s with
  | .error c => .error c
  | .ok (a, s1) =>
    match resolveDst ws hiD reads dst s1 with
    | .error c => .error c
    | .ok (b, s2) =>
      let out := alu ws (carryIn zc s2) a.value b.value
      let s3 := s2.applyFlags out.flags
      if stores then
        match store ws b.place out.result s3 with
        | .error c => .error c
        | .ok s4 => .ok ⟨s4, s2.pc, b.place.isPc⟩
      else .ok ⟨s3, s2.pc, false⟩

/-- Format I without an extension word. -/
def plainI (alu : Size → Bool → Slot → Slot → AluOut) (reads stores : Bool) (bw : BW) (src : Src) (dst : Dst)
    (s : State) : Host.Outcome State Fault Refusal :=
  cycle s 0 (formatI alu reads stores (sizeOf bw) none none false src dst s)

/-- The cycle of an extended instruction: the core word is fetched 2 above the extension word (R310), the repetition
field is read (R312), a repeated instruction whose destination is R0 is reserved (R160, R315), and the rest is `body`. -/
def extended (words : List Word) (x : Ext) (dstPc : Bool) (body : State → Except FaultCause Done) (s : State) :
    Host.Outcome State Fault Refusal :=
  let s1 := s.setPc (low20 (s.pc + 2))
  let n := repetition x s1
  cycle s n (if 0 < n ∧ dstPc then .error (.reservedOpcode words) else body s1)

/-- Format I after an extension word (R201). -/
def extendedI (alu : Size → Bool → Slot → Slot → AluOut) (reads stores : Bool) (ws : Size) (words : List Word)
    (x : Ext) (src : Src) (dst : Dst) (s : State) : Host.Outcome State Fault Refusal :=
  extended words x (dst == .reg 0) (formatI alu reads stores ws (extSrcHi x) (extDstHi x) (extZc x) src dst) s

/-- The cycle of format II after decode (R290): the operand, the operation with its carry input, its flags, and the
result written where the operand came from, at the address computed before any autoincrement (R156). -/
def formatII (alu : Size → Bool → Slot → AluOut) (ws : Size) (hi : Option (BitVec 4)) (zc : Bool) (opd : Src)
    (s : State) : Except FaultCause Done :=
  match resolveSrc ws hi opd s with
  | .error c => .error c
  | .ok (a, s1) =>
    let out := alu ws (carryInRrc zc s1) a.value
    match store ws a.place out.result (s1.applyFlags out.flags) with
    | .error c => .error c
    | .ok s2 => .ok ⟨s2, s1.pc, a.place.isPc⟩

/-- A format II word with no operation (R161, R298): its operand is resolved, then dispatch faults. -/
def unimplementedII (words : List Word) (ws : Size) (hi : Option (BitVec 4)) (opd : Src) (s : State) :
    Except FaultCause Done :=
  match resolveSrc ws hi opd s with
  | .error c => .error c
  | .ok _ => .error (.unimplementedInstruction words)

/-- A reserved encoding: `ReservedOpcode` at decode (R160). -/
def reserved (words : List Word) (s : State) : Host.Outcome State Fault Refusal :=
  cycle s 0 (.error (.reservedOpcode words))

/-! ## The operations -/

/-- MOV (R204: move). -/
def execMov (bw : BW) (src : Src) (dst : Dst) (s : State) : Host.Outcome State Fault Refusal :=
  plainI (fun _ _ a _ => movOp a) false true bw src dst s

/-- ADD (R205: add). -/
def execAdd (bw : BW) (src : Src) (dst : Dst) (s : State) : Host.Outcome State Fault Refusal :=
  plainI (fun ws _ => addOp ws false) true true bw src dst s

/-- ADDC (R206: add with carry). -/
def execAddc (bw : BW) (src : Src) (dst : Dst) (s : State) : Host.Outcome State Fault Refusal :=
  plainI addOp true true bw src dst s

/-- SUBC (R207: subtract with carry). -/
def execSubc (bw : BW) (src : Src) (dst : Dst) (s : State) : Host.Outcome State Fault Refusal :=
  plainI subcOp true true bw src dst s

/-- SUB (R208: subtract). -/
def execSub (bw : BW) (src : Src) (dst : Dst) (s : State) : Host.Outcome State Fault Refusal :=
  plainI (fun ws _ => subOp ws) true true bw src dst s

/-- CMP (R209: compare; nothing is stored). -/
def execCmp (bw : BW) (src : Src) (dst : Dst) (s : State) : Host.Outcome State Fault Refusal :=
  plainI (fun ws _ => subOp ws) true false bw src dst s

/-- DADD (R210: decimal add). -/
def execDadd (bw : BW) (src : Src) (dst : Dst) (s : State) : Host.Outcome State Fault Refusal :=
  plainI daddOp true true bw src dst s

/-- BIT (R211: test bits; nothing is stored). -/
def execBit (bw : BW) (src : Src) (dst : Dst) (s : State) : Host.Outcome State Fault Refusal :=
  plainI (fun ws _ => andOp ws) true false bw src dst s

/-- BIC (R212: clear bits). -/
def execBic (bw : BW) (src : Src) (dst : Dst) (s : State) : Host.Outcome State Fault Refusal :=
  plainI (fun ws _ => bicOp ws) true true bw src dst s

/-- BIS (R213: set bits). -/
def execBis (bw : BW) (src : Src) (dst : Dst) (s : State) : Host.Outcome State Fault Refusal :=
  plainI (fun ws _ => bisOp ws) true true bw src dst s

/-- XOR (R214: exclusive or). -/
def execXor (bw : BW) (src : Src) (dst : Dst) (s : State) : Host.Outcome State Fault Refusal :=
  plainI (fun ws _ => xorOp ws) true true bw src dst s

/-- AND (R215: and). -/
def execAnd (bw : BW) (src : Src) (dst : Dst) (s : State) : Host.Outcome State Fault Refusal :=
  plainI (fun ws _ => andOp ws) true true bw src dst s

end Sys2Proof.Machine
end

