-- ==== Sys2Proof/Machine/AddressGroup.lean ====
section
/-! DEFINITION. The address group: MOVA, CMPA, ADDA, SUBA and the multi-bit rotates (spec/43_address_group.md). Operand
modes are fixed by the minor opcode, so register 3 reads as 0 and discards writes (R32, R240). -/

namespace Sys2Proof.Machine

open Sys2Proof

/-- A value loaded into register `d` (R241 to R244, R247, R248): the operand, then `WriteReg(d, v, EXTENDED)`. -/
def movaLoad (d : RegNum) (opd : Except FaultCause (Operand × State)) (s : State) :
    Host.Outcome State Fault Refusal :=
  cycle s 0 <|
    match opd with
    | .error c => .error c
    | .ok (a, s1) => .ok ⟨s1.writeReg d a.value .ext, s1.pc, d == 0⟩

/-- Register `r` stored at an address that took an extension word (R245, R246): `r` and the address's base are read
after that word is fetched (R240). -/
def movaStore (r : RegNum) (ea : Except FaultCause (Slot × State)) (s : State) : Host.Outcome State Fault Refusal :=
  cycle s 0 <|
    match ea with
    | .error c => .error c
    | .ok (a, s1) =>
      match store .ext (.mem a) (trunc .ext (s1.base r)) s1 with
      | .error c => .error c
      | .ok s2 => .ok ⟨s2, s1.pc, false⟩

/-- CMPA, ADDA and SUBA (R256 to R258): the source operand, then register `d` read, the flags, and the result into `d`
where `stores`. -/
def addressAlu (alu : Slot → Slot → AluOut) (stores : Bool) (d : RegNum) (opd : Except FaultCause (Operand × State))
    (s : State) : Host.Outcome State Fault Refusal :=
  cycle s 0 <|
    match opd with
    | .error c => .error c
    | .ok (a, s1) =>
      let out := alu a.value (trunc .ext (s1.base d))
      let s2 := s1.applyFlags out.flags
      if stores then .ok ⟨s2.writeReg d out.result .ext, s1.pc, d == 0⟩ else .ok ⟨s2, s1.pc, false⟩

/-- A rotate of register `d` (R250): the operation on its masked value and C, the flags, then the result into `d`. -/
def rotate (ws : Size) (alu : Slot → Bool → AluOut) (d : RegNum) (s : State) : Host.Outcome State Fault Refusal :=
  cycle s 0 <|
    let out := alu (trunc ws (s.base d)) s.flagC
    .ok ⟨(s.applyFlags out.flags).writeReg d out.result ws, s.pc, d == 0⟩

/-- The rotation count: the field plus one (R250). -/
def rotations (n : BitVec 2) : Nat := n.toNat + 1

/-! ## MOVA -/

/-- MOVA @Rs,Rd (R241). -/
def execMovaInd (rs d : RegNum) (s : State) : Host.Outcome State Fault Refusal :=
  movaLoad d (opIndirect .ext rs s) s

/-- MOVA @Rs+,Rd (R242); `@PC+` is reserved (R160, R240). -/
def execMovaInc (rs d : RegNum) (s : State) : Host.Outcome State Fault Refusal :=
  if rs = 0 then reserved (encode (.movaInc rs d)) s else movaLoad d (opAutoinc .ext rs s) s

/-- MOVA &abs20,Rd (R243). -/
def execMovaAbs (hi : BitVec 4) (d : RegNum) (s : State) : Host.Outcome State Fault Refusal :=
  movaLoad d (opAt .ext (eaAbsolute (some hi) s)) s

/-- MOVA x(Rs),Rd (R244). -/
def execMovaIdx (rs d : RegNum) (s : State) : Host.Outcome State Fault Refusal :=
  movaLoad d (opAt .ext (eaIndexed none rs s)) s

/-- MOVA Rs,&abs20 (R245). -/
def execMovaToAbs (rs : RegNum) (hi : BitVec 4) (s : State) : Host.Outcome State Fault Refusal :=
  movaStore rs (eaAbsolute (some hi) s) s

/-- MOVA Rs,x(Rd) (R246). -/
def execMovaToIdx (rs d : RegNum) (s : State) : Host.Outcome State Fault Refusal :=
  movaStore rs (eaIndexed none d s) s

/-- MOVA #imm20,Rd (R247). -/
def execMovaImm (hi : BitVec 4) (d : RegNum) (s : State) : Host.Outcome State Fault Refusal :=
  movaLoad d (opImmediate .ext (some hi) s) s

/-- MOVA Rs,Rd (R248). -/
def execMovaReg (rs d : RegNum) (s : State) : Host.Outcome State Fault Refusal :=
  movaLoad d (.ok (opRegister .ext rs s, s)) s

/-! ## Address arithmetic -/

/-- CMPA #imm20,Rd (R256). -/
def execCmpaImm (hi : BitVec 4) (d : RegNum) (s : State) : Host.Outcome State Fault Refusal :=
  addressAlu (subOp .ext) false d (opImmediate .ext (some hi) s) s

/-- CMPA Rs,Rd (R256). -/
def execCmpaReg (rs d : RegNum) (s : State) : Host.Outcome State Fault Refusal :=
  addressAlu (subOp .ext) false d (.ok (opRegister .ext rs s, s)) s

/-- ADDA #imm20,Rd (R257). -/
def execAddaImm (hi : BitVec 4) (d : RegNum) (s : State) : Host.Outcome State Fault Refusal :=
  addressAlu (addOp .ext false) true d (opImmediate .ext (some hi) s) s

/-- ADDA Rs,Rd (R257). -/
def execAddaReg (rs d : RegNum) (s : State) : Host.Outcome State Fault Refusal :=
  addressAlu (addOp .ext false) true d (.ok (opRegister .ext rs s, s)) s

/-- SUBA #imm20,Rd (R258). -/
def execSubaImm (hi : BitVec 4) (d : RegNum) (s : State) : Host.Outcome State Fault Refusal :=
  addressAlu (subOp .ext) true d (opImmediate .ext (some hi) s) s

/-- SUBA Rs,Rd (R258). -/
def execSubaReg (rs d : RegNum) (s : State) : Host.Outcome State Fault Refusal :=
  addressAlu (subOp .ext) true d (.ok (opRegister .ext rs s, s)) s

/-- MOVA @PC+,Rd: `ReservedOpcode` (R160, R240). -/
def execReservedMovaPcInc (d : RegNum) (s : State) : Host.Outcome State Fault Refusal :=
  reserved (encode (.reservedMovaPcInc d)) s

/-! ## Multi-bit rotates and shifts -/

/-- RRCM.A #n,Rd (R251). -/
def execRrcmA (n : BitVec 2) (d : RegNum) (s : State) : Host.Outcome State Fault Refusal :=
  rotate .ext (fun v c => shiftOut .ext (shiftN (rrc1 .ext) (rotations n) v c)) d s

/-- RRCM.W #n,Rd (R251). -/
def execRrcmW (n : BitVec 2) (d : RegNum) (s : State) : Host.Outcome State Fault Refusal :=
  rotate .word (fun v c => shiftOut .word (shiftN (rrc1 .word) (rotations n) v c)) d s

/-- RRAM.A #n,Rd (R252). -/
def execRramA (n : BitVec 2) (d : RegNum) (s : State) : Host.Outcome State Fault Refusal :=
  rotate .ext (fun v c => shiftOut .ext (shiftN (rra1 .ext) (rotations n) v c)) d s

/-- RRAM.W #n,Rd (R252). -/
def execRramW (n : BitVec 2) (d : RegNum) (s : State) : Host.Outcome State Fault Refusal :=
  rotate .word (fun v c => shiftOut .word (shiftN (rra1 .word) (rotations n) v c)) d s

/-- RLAM.A #n,Rd (R253). -/
def execRlamA (n : BitVec 2) (d : RegNum) (s : State) : Host.Outcome State Fault Refusal :=
  rotate .ext (fun v c => shiftOutDraw .ext v (rotations n) (shiftN (rla1 .ext) (rotations n) v c)) d s

/-- RLAM.W #n,Rd (R253). -/
def execRlamW (n : BitVec 2) (d : RegNum) (s : State) : Host.Outcome State Fault Refusal :=
  rotate .word (fun v c => shiftOutDraw .word v (rotations n) (shiftN (rla1 .word) (rotations n) v c)) d s

/-- RRUM.A #n,Rd (R254). -/
def execRrumA (n : BitVec 2) (d : RegNum) (s : State) : Host.Outcome State Fault Refusal :=
  rotate .ext (fun v c => shiftOut .ext (shiftN (rru1 .ext) (rotations n) v c)) d s

/-- RRUM.W #n,Rd (R254). -/
def execRrumW (n : BitVec 2) (d : RegNum) (s : State) : Host.Outcome State Fault Refusal :=
  rotate .word (fun v c => shiftOut .word (shiftN (rru1 .word) (rotations n) v c)) d s

end Sys2Proof.Machine
end

