-- ==== Sys2Proof/Machine/Calla.lean ====
section
/-! DEFINITION. RETI, CALLA and the reserved minors of their group (spec/44_calla_reti.md). -/

namespace Sys2Proof.Machine

open Sys2Proof

/-- CALLA once its target is resolved (R271): the address after the CALLA's last word is pushed as two 16-bit words, the
high half first, and the program counter takes the target. The stack pointer is read after the operand's autoincrement. -/
def callTo (target : Except FaultCause (Slot × State)) (s : State) : Host.Outcome State Fault Refusal :=
  cycle s 0 <|
    match target with
    | .error c => .error c
    | .ok (t, s1) =>
      let ret := low20 (s1.pc + 2)
      match pushAll 2 [BitVec.ofNat 32 (ret.toNat / 65536), BitVec.ofNat 32 (ret.toNat % 65536)] s1.sp s1 with
      | .error c => .error c
      | .ok (sp, s2) => .ok ⟨(s2.setReg 1 sp).setPc t, s1.pc, true⟩

/-- The target of a CALLA is its operand's 20-bit value (R271). -/
def operandValue (opd : Except FaultCause (Operand × State)) : Except FaultCause (Slot × State) :=
  match opd with
  | .error c => .error c
  | .ok (a, s1) => .ok (a.value, s1)

/-- RETI: `UnimplementedInstruction` at dispatch, always (R270). -/
def execReti (ignored : BitVec 4) (s : State) : Host.Outcome State Fault Refusal :=
  cycle s 0 (.error (.unimplementedInstruction (encode (.reti ignored))))

/-- CALLA Rd (R272). -/
def execCallaReg (d : RegNum) (s : State) : Host.Outcome State Fault Refusal :=
  callTo (.ok ((opRegister .ext d s).value, s)) s

/-- CALLA x(Rd) (R273). -/
def execCallaIdx (d : RegNum) (s : State) : Host.Outcome State Fault Refusal :=
  callTo (operandValue (opAt .ext (eaIndexed none d s))) s

/-- CALLA @Rd (R274). -/
def execCallaInd (d : RegNum) (s : State) : Host.Outcome State Fault Refusal :=
  callTo (operandValue (opIndirect .ext d s)) s

/-- CALLA @Rd+ (R275); `@PC+` is reserved (R160, R271). -/
def execCallaInc (d : RegNum) (s : State) : Host.Outcome State Fault Refusal :=
  if d = 0 then reserved (encode (.callaInc d)) s else callTo (operandValue (opAutoinc .ext d s)) s

/-- CALLA &abs20 (R276). -/
def execCallaAbs (hi : BitVec 4) (s : State) : Host.Outcome State Fault Refusal :=
  callTo (operandValue (opAt .ext (eaAbsolute (some hi) s))) s

/-- CALLA EDE (R277). -/
def execCallaSym (hi : BitVec 4) (s : State) : Host.Outcome State Fault Refusal :=
  callTo (operandValue (opAt .ext (eaSymbolic (some hi) s))) s

/-- CALLA #imm20 (R278). -/
def execCallaImm (hi : BitVec 4) (s : State) : Host.Outcome State Fault Refusal :=
  callTo (operandValue (opImmediate .ext (some hi) s)) s

/-- CALLA @PC+: `ReservedOpcode` (R160, R271). -/
def execReservedCallaPcInc (s : State) : Host.Outcome State Fault Refusal :=
  reserved (encode .reservedCallaPcInc) s

/-- Reserved minor 0x131: `ReservedOpcode` (R279). -/
def execReservedMinor131 (lo : BitVec 4) (s : State) : Host.Outcome State Fault Refusal :=
  reserved (encode (.reservedMinor131 lo)) s

/-- Reserved minor 0x132: `ReservedOpcode` (R279). -/
def execReservedMinor132 (lo : BitVec 4) (s : State) : Host.Outcome State Fault Refusal :=
  reserved (encode (.reservedMinor132 lo)) s

/-- Reserved minor 0x133: `ReservedOpcode` (R279). -/
def execReservedMinor133 (lo : BitVec 4) (s : State) : Host.Outcome State Fault Refusal :=
  reserved (encode (.reservedMinor133 lo)) s

/-- Reserved minor 0x13A: `ReservedOpcode` (R279). -/
def execReservedMinor13A (lo : BitVec 4) (s : State) : Host.Outcome State Fault Refusal :=
  reserved (encode (.reservedMinor13A lo)) s

/-- Reserved minors 0x13C-0x13F: `ReservedOpcode` (R279). -/
def execReservedMinor13C (lo : BitVec 6) (s : State) : Host.Outcome State Fault Refusal :=
  reserved (encode (.reservedMinor13C lo)) s

end Sys2Proof.Machine
end

