-- ==== Sys2Proof/Machine/Jumps.lean ====
section
/-! DEFINITION. The conditional jumps (spec/42_jumps.md). -/

namespace Sys2Proof.Machine

open Sys2Proof

/-- The target of a taken jump at `P` (R230): P + 2 plus twice the signed offset, modulo 2^20. -/
def jumpTarget (p : Slot) (off : BitVec 10) : Slot := low20 (p + 2 + 2 * off.signExtend 32)

/-- `ExecJump` (R230): a jump taken writes R0; one not taken goes on after its word. No flag is written. -/
def jump (taken : Bool) (off : BitVec 10) (s : State) : Host.Outcome State Fault Refusal :=
  cycle s 0 (.ok (if taken then ⟨s.setPc (jumpTarget s.pc off), s.pc, true⟩ else ⟨s, s.pc, false⟩))

/-- JNZ: taken when Z = 0 (R233, R231). -/
def execJnz (off : BitVec 10) (s : State) : Host.Outcome State Fault Refusal :=
  jump (!s.flagZ) off s

/-- JZ: taken when Z = 1 (R234, R231). -/
def execJz (off : BitVec 10) (s : State) : Host.Outcome State Fault Refusal :=
  jump s.flagZ off s

/-- JNC: taken when C = 0 (R235, R231). -/
def execJnc (off : BitVec 10) (s : State) : Host.Outcome State Fault Refusal :=
  jump (!s.flagC) off s

/-- JC: taken when C = 1 (R236, R231). -/
def execJc (off : BitVec 10) (s : State) : Host.Outcome State Fault Refusal :=
  jump s.flagC off s

/-- JN: taken when N = 1 (R237, R231). -/
def execJn (off : BitVec 10) (s : State) : Host.Outcome State Fault Refusal :=
  jump s.flagN off s

/-- JGE: taken when N xor V = 0 (R238, R231). -/
def execJge (off : BitVec 10) (s : State) : Host.Outcome State Fault Refusal :=
  jump (s.flagN == s.flagV) off s

/-- JL: taken when N xor V = 1 (R238, R231). -/
def execJl (off : BitVec 10) (s : State) : Host.Outcome State Fault Refusal :=
  jump (s.flagN != s.flagV) off s

/-- JMP: always taken (R239, R231). -/
def execJmp (off : BitVec 10) (s : State) : Host.Outcome State Fault Refusal :=
  jump true off s

end Sys2Proof.Machine
end

