-- ==== Sys2Proof/Machine/PushPop.lean ====
section
/-! DEFINITION. PUSHM and POPM (spec/45_pushm_popm.md). -/

namespace Sys2Proof.Machine

open Sys2Proof

/-- The registers of a PUSHM in the order they are pushed: R[d], R[d-1], ..., R[d-n] (R280, R281). -/
def pushRegs (n : BitVec 4) (d : RegNum) : List RegNum :=
  (List.range (n.toNat + 1)).map (fun i => Fin.ofNat 16 (d.val - i))

/-- The registers of a POPM in the order they are popped: R[d], R[d+1], ..., R[d+n] (R280, R282). -/
def popRegs (n : BitVec 4) (d : RegNum) : List RegNum :=
  (List.range (n.toNat + 1)).map (fun i => Fin.ofNat 16 (d.val + i))

/-- `PushM` (R281): every value is read before the stack pointer is written. An illegal range is reserved (R280); the
decoder hands none over. -/
def pushMany (words : List Word) (ws : Size) (n : BitVec 4) (d : RegNum) (s : State) :
    Host.Outcome State Fault Refusal :=
  if pushRangeOk n d then
    cycle s 0 <|
      match pushAll (nb ws) ((pushRegs n d).map (fun r => trunc ws (s.base r))) s.sp s with
      | .error c => .error c
      | .ok (sp, s1) => .ok ⟨s1.setReg 1 sp, s.pc, false⟩
  else reserved words s

/-- `PopM` (R282). An illegal range is reserved (R280); the decoder hands none over. -/
def popMany (words : List Word) (ws : Size) (n : BitVec 4) (d : RegNum) (s : State) :
    Host.Outcome State Fault Refusal :=
  if popRangeOk n d then
    cycle s 0 <|
      match popAll ws (popRegs n d) s.sp s with
      | .error c => .error c
      | .ok (sp, s1) => .ok ⟨s1.setReg 1 sp, s.pc, d == 0⟩
  else reserved words s

/-- PUSHM.A #N,Rd (R283). -/
def execPushmA (n : BitVec 4) (d : RegNum) (s : State) : Host.Outcome State Fault Refusal :=
  pushMany (encode (.pushmA n d)) .ext n d s

/-- PUSHM.W #N,Rd (R284). -/
def execPushmW (n : BitVec 4) (d : RegNum) (s : State) : Host.Outcome State Fault Refusal :=
  pushMany (encode (.pushmW n d)) .word n d s

/-- POPM.A #N,Rd (R285). -/
def execPopmA (n : BitVec 4) (d : RegNum) (s : State) : Host.Outcome State Fault Refusal :=
  popMany (encode (.popmA n d)) .ext n d s

/-- POPM.W #N,Rd (R286). -/
def execPopmW (n : BitVec 4) (d : RegNum) (s : State) : Host.Outcome State Fault Refusal :=
  popMany (encode (.popmW n d)) .word n d s

end Sys2Proof.Machine
end

