-- ==== Sys2Proof/Machine/ReservedPrefix.lean ====
section
/-! DEFINITION. An extension word before a word that is not of format I or II (R160, R310): `ReservedOpcode`. -/

namespace Sys2Proof.Machine

open Sys2Proof

/-- RESERVED prefix + address-group word (R160). -/
def execReservedPrefixAddr (p : BitVec 11) (lo : BitVec 12) (s : State) : Host.Outcome State Fault Refusal :=
  reserved (encode (.reservedPrefixAddr p lo)) s

/-- RESERVED prefix + RETI/CALLA word (R160). -/
def execReservedPrefixCalla (p : BitVec 11) (lo : BitVec 8) (s : State) : Host.Outcome State Fault Refusal :=
  reserved (encode (.reservedPrefixCalla p lo)) s

/-- RESERVED prefix + PUSHM/POPM word (R160). -/
def execReservedPrefixPushm (p : BitVec 11) (lo : BitVec 10) (s : State) : Host.Outcome State Fault Refusal :=
  reserved (encode (.reservedPrefixPushm p lo)) s

/-- RESERVED prefix + prefix (R160). -/
def execReservedPrefixPrefix (p lo : BitVec 11) (s : State) : Host.Outcome State Fault Refusal :=
  reserved (encode (.reservedPrefixPrefix p lo)) s

/-- RESERVED prefix + jump (R160). -/
def execReservedPrefixJump (p : BitVec 11) (lo : BitVec 13) (s : State) : Host.Outcome State Fault Refusal :=
  reserved (encode (.reservedPrefixJump p lo)) s

end Sys2Proof.Machine
end

