-- ==== Sys2Proof/Machine/SingleOperand.lean ====
section
/-! DEFINITION. The single-operand instructions with and without an extension word (spec/46_single_operand.md), those
with no operation (R161, R298), and the reserved width al = 0, bw = 0 of each (R126). -/

namespace Sys2Proof.Machine

open Sys2Proof

/-- RRC on a value (R291). -/
def rrcAlu (ws : Size) (cin : Bool) (v : Slot) : AluOut := shiftOut ws (shiftN (rrc1 ws) 1 v cin)

/-- RRA on a value (R292). -/
def rraAlu (ws : Size) (cin : Bool) (v : Slot) : AluOut := shiftOut ws (shiftN (rra1 ws) 1 v cin)

/-- SWPB on a value; WORD is its only width (R293). -/
def swpbAlu (_ : Size) (_ : Bool) (v : Slot) : AluOut := swpbOp v

/-- SXT on a value; WORD is its only width (R294). -/
def sxtAlu (_ : Size) (_ : Bool) (v : Slot) : AluOut := sxtOp v

/-- Format II without an extension word. -/
def plainII (alu : Size → Bool → Slot → AluOut) (ws : Size) (opd : Src) (s : State) :
    Host.Outcome State Fault Refusal :=
  cycle s 0 (formatII alu ws none false opd s)

/-- Format II after an extension word (R295). -/
def extendedII (alu : Size → Bool → Slot → AluOut) (ws : Size) (words : List Word) (x : Ext) (opd : Src)
    (s : State) : Host.Outcome State Fault Refusal :=
  extended words x (opd == .reg 0) (formatII alu ws (extDstHi x) (extZc x) opd) s

/-- A format II word with no operation, without an extension word (R298). -/
def plainUnimplemented (words : List Word) (ws : Size) (opd : Src) (s : State) : Host.Outcome State Fault Refusal :=
  cycle s 0 (unimplementedII words ws none opd s)

/-- A format II word with no operation, after an extension word (R298). -/
def extendedUnimplemented (words : List Word) (ws : Size) (x : Ext) (opd : Src) (s : State) :
    Host.Outcome State Fault Refusal :=
  extended words x (opd == .reg 0) (unimplementedII words ws (extDstHi x) opd) s

/-- RRC (R291). -/
def execRrc (bw : BW) (opd : Src) (s : State) : Host.Outcome State Fault Refusal :=
  plainII rrcAlu (sizeOf bw) opd s

/-- SWPB (R293). -/
def execSwpb (opd : Src) (s : State) : Host.Outcome State Fault Refusal :=
  plainII swpbAlu .word opd s

/-- SWPB.B: `UnimplementedInstruction` after the operand is resolved (R293, R161). -/
def execSwpbB (opd : Src) (s : State) : Host.Outcome State Fault Refusal :=
  plainUnimplemented (encode (.swpbB opd)) .byte opd s

/-- RRA (R292). -/
def execRra (bw : BW) (opd : Src) (s : State) : Host.Outcome State Fault Refusal :=
  plainII rraAlu (sizeOf bw) opd s

/-- SXT (R294). -/
def execSxt (opd : Src) (s : State) : Host.Outcome State Fault Refusal :=
  plainII sxtAlu .word opd s

/-- SXT.B: `UnimplementedInstruction` after the operand is resolved (R294, R161). -/
def execSxtB (opd : Src) (s : State) : Host.Outcome State Fault Refusal :=
  plainUnimplemented (encode (.sxtB opd)) .byte opd s

/-- PUSH: `UnimplementedInstruction` after the operand is resolved (R298, R161). -/
def execPush (bw : BW) (opd : Src) (s : State) : Host.Outcome State Fault Refusal :=
  plainUnimplemented (encode (.push bw opd)) (sizeOf bw) opd s

/-- CALL: `UnimplementedInstruction` after the operand is resolved (R298, R161). -/
def execCall (bw : BW) (opd : Src) (s : State) : Host.Outcome State Fault Refusal :=
  plainUnimplemented (encode (.call bw opd)) (sizeOf bw) opd s

/-- RRCX.A (R291, R295). -/
def execRrcxA (x : Ext) (opd : Src) (s : State) : Host.Outcome State Fault Refusal :=
  extendedII rrcAlu .ext (encode (.rrcxA x opd)) x opd s

/-- RRCX.W (R291, R295). -/
def execRrcxW (x : Ext) (opd : Src) (s : State) : Host.Outcome State Fault Refusal :=
  extendedII rrcAlu .word (encode (.rrcxW x opd)) x opd s

/-- RRCX.B (R291, R295). -/
def execRrcxB (x : Ext) (opd : Src) (s : State) : Host.Outcome State Fault Refusal :=
  extendedII rrcAlu .byte (encode (.rrcxB x opd)) x opd s

/-- RRCX with al = 0, bw = 0: `ReservedOpcode` (R126, R160). -/
def execReservedRrcx (x : Ext) (opd : Src) (s : State) : Host.Outcome State Fault Refusal :=
  reserved (encode (.reservedRrcx x opd)) s

/-- SWPBX.A: `UnimplementedInstruction` after the operand is resolved (R293, R161). -/
def execSwpbxA (x : Ext) (opd : Src) (s : State) : Host.Outcome State Fault Refusal :=
  extendedUnimplemented (encode (.swpbxA x opd)) .ext x opd s

/-- SWPBX.W (R293, R295). -/
def execSwpbxW (x : Ext) (opd : Src) (s : State) : Host.Outcome State Fault Refusal :=
  extendedII swpbAlu .word (encode (.swpbxW x opd)) x opd s

/-- SWPBX.B: `UnimplementedInstruction` after the operand is resolved (R293, R161). -/
def execSwpbxB (x : Ext) (opd : Src) (s : State) : Host.Outcome State Fault Refusal :=
  extendedUnimplemented (encode (.swpbxB x opd)) .byte x opd s

/-- SWPBX with al = 0, bw = 0: `ReservedOpcode` (R126, R160). -/
def execReservedSwpbx (x : Ext) (opd : Src) (s : State) : Host.Outcome State Fault Refusal :=
  reserved (encode (.reservedSwpbx x opd)) s

/-- RRAX.A (R292, R295). -/
def execRraxA (x : Ext) (opd : Src) (s : State) : Host.Outcome State Fault Refusal :=
  extendedII rraAlu .ext (encode (.rraxA x opd)) x opd s

/-- RRAX.W (R292, R295). -/
def execRraxW (x : Ext) (opd : Src) (s : State) : Host.Outcome State Fault Refusal :=
  extendedII rraAlu .word (encode (.rraxW x opd)) x opd s

/-- RRAX.B (R292, R295). -/
def execRraxB (x : Ext) (opd : Src) (s : State) : Host.Outcome State Fault Refusal :=
  extendedII rraAlu .byte (encode (.rraxB x opd)) x opd s

/-- RRAX with al = 0, bw = 0: `ReservedOpcode` (R126, R160). -/
def execReservedRrax (x : Ext) (opd : Src) (s : State) : Host.Outcome State Fault Refusal :=
  reserved (encode (.reservedRrax x opd)) s

/-- SXTX.A: `UnimplementedInstruction` after the operand is resolved (R294, R161). -/
def execSxtxA (x : Ext) (opd : Src) (s : State) : Host.Outcome State Fault Refusal :=
  extendedUnimplemented (encode (.sxtxA x opd)) .ext x opd s

/-- SXTX.W (R294, R295). -/
def execSxtxW (x : Ext) (opd : Src) (s : State) : Host.Outcome State Fault Refusal :=
  extendedII sxtAlu .word (encode (.sxtxW x opd)) x opd s

/-- SXTX.B: `UnimplementedInstruction` after the operand is resolved (R294, R161). -/
def execSxtxB (x : Ext) (opd : Src) (s : State) : Host.Outcome State Fault Refusal :=
  extendedUnimplemented (encode (.sxtxB x opd)) .byte x opd s

/-- SXTX with al = 0, bw = 0: `ReservedOpcode` (R126, R160). -/
def execReservedSxtx (x : Ext) (opd : Src) (s : State) : Host.Outcome State Fault Refusal :=
  reserved (encode (.reservedSxtx x opd)) s

/-- PUSHX.A: `UnimplementedInstruction` after the operand is resolved (R298, R161). -/
def execPushxA (x : Ext) (opd : Src) (s : State) : Host.Outcome State Fault Refusal :=
  extendedUnimplemented (encode (.pushxA x opd)) .ext x opd s

/-- PUSHX.W: `UnimplementedInstruction` after the operand is resolved (R298, R161). -/
def execPushxW (x : Ext) (opd : Src) (s : State) : Host.Outcome State Fault Refusal :=
  extendedUnimplemented (encode (.pushxW x opd)) .word x opd s

/-- PUSHX.B: `UnimplementedInstruction` after the operand is resolved (R298, R161). -/
def execPushxB (x : Ext) (opd : Src) (s : State) : Host.Outcome State Fault Refusal :=
  extendedUnimplemented (encode (.pushxB x opd)) .byte x opd s

/-- PUSHX with al = 0, bw = 0: `ReservedOpcode` (R126, R160). -/
def execReservedPushx (x : Ext) (opd : Src) (s : State) : Host.Outcome State Fault Refusal :=
  reserved (encode (.reservedPushx x opd)) s

/-- CALLX.A: `UnimplementedInstruction` after the operand is resolved (R298, R161). -/
def execCallxA (x : Ext) (opd : Src) (s : State) : Host.Outcome State Fault Refusal :=
  extendedUnimplemented (encode (.callxA x opd)) .ext x opd s

/-- CALLX.W: `UnimplementedInstruction` after the operand is resolved (R298, R161). -/
def execCallxW (x : Ext) (opd : Src) (s : State) : Host.Outcome State Fault Refusal :=
  extendedUnimplemented (encode (.callxW x opd)) .word x opd s

/-- CALLX.B: `UnimplementedInstruction` after the operand is resolved (R298, R161). -/
def execCallxB (x : Ext) (opd : Src) (s : State) : Host.Outcome State Fault Refusal :=
  extendedUnimplemented (encode (.callxB x opd)) .byte x opd s

/-- CALLX with al = 0, bw = 0: `ReservedOpcode` (R126, R160). -/
def execReservedCallx (x : Ext) (opd : Src) (s : State) : Host.Outcome State Fault Refusal :=
  reserved (encode (.reservedCallx x opd)) s

end Sys2Proof.Machine
end

