-- ==== Sys2Proof/Machine/TwoOperandX.lean ====
section
/-! DEFINITION. The two-operand instructions after an extension word (spec/41_two_operand.md R201,
spec/47_extension_prefix.md), and the reserved width al = 0, bw = 0 of each (R126). -/

namespace Sys2Proof.Machine

open Sys2Proof

/-- MOVX.A (R204, R201). -/
def execMovxA (x : Ext) (src : Src) (dst : Dst) (s : State) : Host.Outcome State Fault Refusal :=
  extendedI (fun _ _ a _ => movOp a) false true .ext (encode (.movxA x src dst)) x src dst s

/-- MOVX.W (R204, R201). -/
def execMovxW (x : Ext) (src : Src) (dst : Dst) (s : State) : Host.Outcome State Fault Refusal :=
  extendedI (fun _ _ a _ => movOp a) false true .word (encode (.movxW x src dst)) x src dst s

/-- MOVX.B (R204, R201). -/
def execMovxB (x : Ext) (src : Src) (dst : Dst) (s : State) : Host.Outcome State Fault Refusal :=
  extendedI (fun _ _ a _ => movOp a) false true .byte (encode (.movxB x src dst)) x src dst s

/-- MOVX with al = 0, bw = 0: `ReservedOpcode` (R126, R160). -/
def execReservedMovx (x : Ext) (src : Src) (dst : Dst) (s : State) : Host.Outcome State Fault Refusal :=
  reserved (encode (.reservedMovx x src dst)) s

/-- ADDX.A (R205, R201). -/
def execAddxA (x : Ext) (src : Src) (dst : Dst) (s : State) : Host.Outcome State Fault Refusal :=
  extendedI (fun ws _ => addOp ws false) true true .ext (encode (.addxA x src dst)) x src dst s

/-- ADDX.W (R205, R201). -/
def execAddxW (x : Ext) (src : Src) (dst : Dst) (s : State) : Host.Outcome State Fault Refusal :=
  extendedI (fun ws _ => addOp ws false) true true .word (encode (.addxW x src dst)) x src dst s

/-- ADDX.B (R205, R201). -/
def execAddxB (x : Ext) (src : Src) (dst : Dst) (s : State) : Host.Outcome State Fault Refusal :=
  extendedI (fun ws _ => addOp ws false) true true .byte (encode (.addxB x src dst)) x src dst s

/-- ADDX with al = 0, bw = 0: `ReservedOpcode` (R126, R160). -/
def execReservedAddx (x : Ext) (src : Src) (dst : Dst) (s : State) : Host.Outcome State Fault Refusal :=
  reserved (encode (.reservedAddx x src dst)) s

/-- ADDCX.A (R206, R201). -/
def execAddcxA (x : Ext) (src : Src) (dst : Dst) (s : State) : Host.Outcome State Fault Refusal :=
  extendedI addOp true true .ext (encode (.addcxA x src dst)) x src dst s

/-- ADDCX.W (R206, R201). -/
def execAddcxW (x : Ext) (src : Src) (dst : Dst) (s : State) : Host.Outcome State Fault Refusal :=
  extendedI addOp true true .word (encode (.addcxW x src dst)) x src dst s

/-- ADDCX.B (R206, R201). -/
def execAddcxB (x : Ext) (src : Src) (dst : Dst) (s : State) : Host.Outcome State Fault Refusal :=
  extendedI addOp true true .byte (encode (.addcxB x src dst)) x src dst s

/-- ADDCX with al = 0, bw = 0: `ReservedOpcode` (R126, R160). -/
def execReservedAddcx (x : Ext) (src : Src) (dst : Dst) (s : State) : Host.Outcome State Fault Refusal :=
  reserved (encode (.reservedAddcx x src dst)) s

/-- SUBCX.A (R207, R201). -/
def execSubcxA (x : Ext) (src : Src) (dst : Dst) (s : State) : Host.Outcome State Fault Refusal :=
  extendedI subcOp true true .ext (encode (.subcxA x src dst)) x src dst s

/-- SUBCX.W (R207, R201). -/
def execSubcxW (x : Ext) (src : Src) (dst : Dst) (s : State) : Host.Outcome State Fault Refusal :=
  extendedI subcOp true true .word (encode (.subcxW x src dst)) x src dst s

/-- SUBCX.B (R207, R201). -/
def execSubcxB (x : Ext) (src : Src) (dst : Dst) (s : State) : Host.Outcome State Fault Refusal :=
  extendedI subcOp true true .byte (encode (.subcxB x src dst)) x src dst s

/-- SUBCX with al = 0, bw = 0: `ReservedOpcode` (R126, R160). -/
def execReservedSubcx (x : Ext) (src : Src) (dst : Dst) (s : State) : Host.Outcome State Fault Refusal :=
  reserved (encode (.reservedSubcx x src dst)) s

/-- SUBX.A (R208, R201). -/
def execSubxA (x : Ext) (src : Src) (dst : Dst) (s : State) : Host.Outcome State Fault Refusal :=
  extendedI (fun ws _ => subOp ws) true true .ext (encode (.subxA x src dst)) x src dst s

/-- SUBX.W (R208, R201). -/
def execSubxW (x : Ext) (src : Src) (dst : Dst) (s : State) : Host.Outcome State Fault Refusal :=
  extendedI (fun ws _ => subOp ws) true true .word (encode (.subxW x src dst)) x src dst s

/-- SUBX.B (R208, R201). -/
def execSubxB (x : Ext) (src : Src) (dst : Dst) (s : State) : Host.Outcome State Fault Refusal :=
  extendedI (fun ws _ => subOp ws) true true .byte (encode (.subxB x src dst)) x src dst s

/-- SUBX with al = 0, bw = 0: `ReservedOpcode` (R126, R160). -/
def execReservedSubx (x : Ext) (src : Src) (dst : Dst) (s : State) : Host.Outcome State Fault Refusal :=
  reserved (encode (.reservedSubx x src dst)) s

/-- CMPX.A (R209, R201). -/
def execCmpxA (x : Ext) (src : Src) (dst : Dst) (s : State) : Host.Outcome State Fault Refusal :=
  extendedI (fun ws _ => subOp ws) true false .ext (encode (.cmpxA x src dst)) x src dst s

/-- CMPX.W (R209, R201). -/
def execCmpxW (x : Ext) (src : Src) (dst : Dst) (s : State) : Host.Outcome State Fault Refusal :=
  extendedI (fun ws _ => subOp ws) true false .word (encode (.cmpxW x src dst)) x src dst s

/-- CMPX.B (R209, R201). -/
def execCmpxB (x : Ext) (src : Src) (dst : Dst) (s : State) : Host.Outcome State Fault Refusal :=
  extendedI (fun ws _ => subOp ws) true false .byte (encode (.cmpxB x src dst)) x src dst s

/-- CMPX with al = 0, bw = 0: `ReservedOpcode` (R126, R160). -/
def execReservedCmpx (x : Ext) (src : Src) (dst : Dst) (s : State) : Host.Outcome State Fault Refusal :=
  reserved (encode (.reservedCmpx x src dst)) s

/-- DADDX.A (R210, R201). -/
def execDaddxA (x : Ext) (src : Src) (dst : Dst) (s : State) : Host.Outcome State Fault Refusal :=
  extendedI daddOp true true .ext (encode (.daddxA x src dst)) x src dst s

/-- DADDX.W (R210, R201). -/
def execDaddxW (x : Ext) (src : Src) (dst : Dst) (s : State) : Host.Outcome State Fault Refusal :=
  extendedI daddOp true true .word (encode (.daddxW x src dst)) x src dst s

/-- DADDX.B (R210, R201). -/
def execDaddxB (x : Ext) (src : Src) (dst : Dst) (s : State) : Host.Outcome State Fault Refusal :=
  extendedI daddOp true true .byte (encode (.daddxB x src dst)) x src dst s

/-- DADDX with al = 0, bw = 0: `ReservedOpcode` (R126, R160). -/
def execReservedDaddx (x : Ext) (src : Src) (dst : Dst) (s : State) : Host.Outcome State Fault Refusal :=
  reserved (encode (.reservedDaddx x src dst)) s

/-- BITX.A (R211, R201). -/
def execBitxA (x : Ext) (src : Src) (dst : Dst) (s : State) : Host.Outcome State Fault Refusal :=
  extendedI (fun ws _ => andOp ws) true false .ext (encode (.bitxA x src dst)) x src dst s

/-- BITX.W (R211, R201). -/
def execBitxW (x : Ext) (src : Src) (dst : Dst) (s : State) : Host.Outcome State Fault Refusal :=
  extendedI (fun ws _ => andOp ws) true false .word (encode (.bitxW x src dst)) x src dst s

/-- BITX.B (R211, R201). -/
def execBitxB (x : Ext) (src : Src) (dst : Dst) (s : State) : Host.Outcome State Fault Refusal :=
  extendedI (fun ws _ => andOp ws) true false .byte (encode (.bitxB x src dst)) x src dst s

/-- BITX with al = 0, bw = 0: `ReservedOpcode` (R126, R160). -/
def execReservedBitx (x : Ext) (src : Src) (dst : Dst) (s : State) : Host.Outcome State Fault Refusal :=
  reserved (encode (.reservedBitx x src dst)) s

/-- BICX.A (R212, R201). -/
def execBicxA (x : Ext) (src : Src) (dst : Dst) (s : State) : Host.Outcome State Fault Refusal :=
  extendedI (fun ws _ => bicOp ws) true true .ext (encode (.bicxA x src dst)) x src dst s

/-- BICX.W (R212, R201). -/
def execBicxW (x : Ext) (src : Src) (dst : Dst) (s : State) : Host.Outcome State Fault Refusal :=
  extendedI (fun ws _ => bicOp ws) true true .word (encode (.bicxW x src dst)) x src dst s

/-- BICX.B (R212, R201). -/
def execBicxB (x : Ext) (src : Src) (dst : Dst) (s : State) : Host.Outcome State Fault Refusal :=
  extendedI (fun ws _ => bicOp ws) true true .byte (encode (.bicxB x src dst)) x src dst s

/-- BICX with al = 0, bw = 0: `ReservedOpcode` (R126, R160). -/
def execReservedBicx (x : Ext) (src : Src) (dst : Dst) (s : State) : Host.Outcome State Fault Refusal :=
  reserved (encode (.reservedBicx x src dst)) s

/-- BISX.A (R213, R201). -/
def execBisxA (x : Ext) (src : Src) (dst : Dst) (s : State) : Host.Outcome State Fault Refusal :=
  extendedI (fun ws _ => bisOp ws) true true .ext (encode (.bisxA x src dst)) x src dst s

/-- BISX.W (R213, R201). -/
def execBisxW (x : Ext) (src : Src) (dst : Dst) (s : State) : Host.Outcome State Fault Refusal :=
  extendedI (fun ws _ => bisOp ws) true true .word (encode (.bisxW x src dst)) x src dst s

/-- BISX.B (R213, R201). -/
def execBisxB (x : Ext) (src : Src) (dst : Dst) (s : State) : Host.Outcome State Fault Refusal :=
  extendedI (fun ws _ => bisOp ws) true true .byte (encode (.bisxB x src dst)) x src dst s

/-- BISX with al = 0, bw = 0: `ReservedOpcode` (R126, R160). -/
def execReservedBisx (x : Ext) (src : Src) (dst : Dst) (s : State) : Host.Outcome State Fault Refusal :=
  reserved (encode (.reservedBisx x src dst)) s

/-- XORX.A (R214, R201). -/
def execXorxA (x : Ext) (src : Src) (dst : Dst) (s : State) : Host.Outcome State Fault Refusal :=
  extendedI (fun ws _ => xorOp ws) true true .ext (encode (.xorxA x src dst)) x src dst s

/-- XORX.W (R214, R201). -/
def execXorxW (x : Ext) (src : Src) (dst : Dst) (s : State) : Host.Outcome State Fault Refusal :=
  extendedI (fun ws _ => xorOp ws) true true .word (encode (.xorxW x src dst)) x src dst s

/-- XORX.B (R214, R201). -/
def execXorxB (x : Ext) (src : Src) (dst : Dst) (s : State) : Host.Outcome State Fault Refusal :=
  extendedI (fun ws _ => xorOp ws) true true .byte (encode (.xorxB x src dst)) x src dst s

/-- XORX with al = 0, bw = 0: `ReservedOpcode` (R126, R160). -/
def execReservedXorx (x : Ext) (src : Src) (dst : Dst) (s : State) : Host.Outcome State Fault Refusal :=
  reserved (encode (.reservedXorx x src dst)) s

/-- ANDX.A (R215, R201). -/
def execAndxA (x : Ext) (src : Src) (dst : Dst) (s : State) : Host.Outcome State Fault Refusal :=
  extendedI (fun ws _ => andOp ws) true true .ext (encode (.andxA x src dst)) x src dst s

/-- ANDX.W (R215, R201). -/
def execAndxW (x : Ext) (src : Src) (dst : Dst) (s : State) : Host.Outcome State Fault Refusal :=
  extendedI (fun ws _ => andOp ws) true true .word (encode (.andxW x src dst)) x src dst s

/-- ANDX.B (R215, R201). -/
def execAndxB (x : Ext) (src : Src) (dst : Dst) (s : State) : Host.Outcome State Fault Refusal :=
  extendedI (fun ws _ => andOp ws) true true .byte (encode (.andxB x src dst)) x src dst s

/-- ANDX with al = 0, bw = 0: `ReservedOpcode` (R126, R160). -/
def execReservedAndx (x : Ext) (src : Src) (dst : Dst) (s : State) : Host.Outcome State Fault Refusal :=
  reserved (encode (.reservedAndx x src dst)) s

end Sys2Proof.Machine
end

