-- ==== Sys2Proof/Machine/Dispatch.lean ====
section
/-! DEFINITION. One arm for each instruction, in the order of spec/opcode_table.json. The state an arm gets is the one
at the cycle's start: its program counter is the address of the instruction's first word. -/

namespace Sys2Proof.Machine

open Sys2Proof

def exec (i : Instr) (s : State) : Host.Outcome State Fault Refusal :=
  match i with
  | .mov bw src dst => Sys2Proof.Machine.execMov bw src dst s
  | .add bw src dst => Sys2Proof.Machine.execAdd bw src dst s
  | .addc bw src dst => Sys2Proof.Machine.execAddc bw src dst s
  | .subc bw src dst => Sys2Proof.Machine.execSubc bw src dst s
  | .sub bw src dst => Sys2Proof.Machine.execSub bw src dst s
  | .cmp bw src dst => Sys2Proof.Machine.execCmp bw src dst s
  | .dadd bw src dst => Sys2Proof.Machine.execDadd bw src dst s
  | .bit bw src dst => Sys2Proof.Machine.execBit bw src dst s
  | .bic bw src dst => Sys2Proof.Machine.execBic bw src dst s
  | .bis bw src dst => Sys2Proof.Machine.execBis bw src dst s
  | .xor bw src dst => Sys2Proof.Machine.execXor bw src dst s
  | .and bw src dst => Sys2Proof.Machine.execAnd bw src dst s
  | .movxA x src dst => Sys2Proof.Machine.execMovxA x src dst s
  | .movxW x src dst => Sys2Proof.Machine.execMovxW x src dst s
  | .movxB x src dst => Sys2Proof.Machine.execMovxB x src dst s
  | .reservedMovx x src dst => Sys2Proof.Machine.execReservedMovx x src dst s
  | .addxA x src dst => Sys2Proof.Machine.execAddxA x src dst s
  | .addxW x src dst => Sys2Proof.Machine.execAddxW x src dst s
  | .addxB x src dst => Sys2Proof.Machine.execAddxB x src dst s
  | .reservedAddx x src dst => Sys2Proof.Machine.execReservedAddx x src dst s
  | .addcxA x src dst => Sys2Proof.Machine.execAddcxA x src dst s
  | .addcxW x src dst => Sys2Proof.Machine.execAddcxW x src dst s
  | .addcxB x src dst => Sys2Proof.Machine.execAddcxB x src dst s
  | .reservedAddcx x src dst => Sys2Proof.Machine.execReservedAddcx x src dst s
  | .subcxA x src dst => Sys2Proof.Machine.execSubcxA x src dst s
  | .subcxW x src dst => Sys2Proof.Machine.execSubcxW x src dst s
  | .subcxB x src dst => Sys2Proof.Machine.execSubcxB x src dst s
  | .reservedSubcx x src dst => Sys2Proof.Machine.execReservedSubcx x src dst s
  | .subxA x src dst => Sys2Proof.Machine.execSubxA x src dst s
  | .subxW x src dst => Sys2Proof.Machine.execSubxW x src dst s
  | .subxB x src dst => Sys2Proof.Machine.execSubxB x src dst s
  | .reservedSubx x src dst => Sys2Proof.Machine.execReservedSubx x src dst s
  | .cmpxA x src dst => Sys2Proof.Machine.execCmpxA x src dst s
  | .cmpxW x src dst => Sys2Proof.Machine.execCmpxW x src dst s
  | .cmpxB x src dst => Sys2Proof.Machine.execCmpxB x src dst s
  | .reservedCmpx x src dst => Sys2Proof.Machine.execReservedCmpx x src dst s
  | .daddxA x src dst => Sys2Proof.Machine.execDaddxA x src dst s
  | .daddxW x src dst => Sys2Proof.Machine.execDaddxW x src dst s
  | .daddxB x src dst => Sys2Proof.Machine.execDaddxB x src dst s
  | .reservedDaddx x src dst => Sys2Proof.Machine.execReservedDaddx x src dst s
  | .bitxA x src dst => Sys2Proof.Machine.execBitxA x src dst s
  | .bitxW x src dst => Sys2Proof.Machine.execBitxW x src dst s
  | .bitxB x src dst => Sys2Proof.Machine.execBitxB x src dst s
  | .reservedBitx x src dst => Sys2Proof.Machine.execReservedBitx x src dst s
  | .bicxA x src dst => Sys2Proof.Machine.execBicxA x src dst s
  | .bicxW x src dst => Sys2Proof.Machine.execBicxW x src dst s
  | .bicxB x src dst => Sys2Proof.Machine.execBicxB x src dst s
  | .reservedBicx x src dst => Sys2Proof.Machine.execReservedBicx x src dst s
  | .bisxA x src dst => Sys2Proof.Machine.execBisxA x src dst s
  | .bisxW x src dst => Sys2Proof.Machine.execBisxW x src dst s
  | .bisxB x src dst => Sys2Proof.Machine.execBisxB x src dst s
  | .reservedBisx x src dst => Sys2Proof.Machine.execReservedBisx x src dst s
  | .xorxA x src dst => Sys2Proof.Machine.execXorxA x src dst s
  | .xorxW x src dst => Sys2Proof.Machine.execXorxW x src dst s
  | .xorxB x src dst => Sys2Proof.Machine.execXorxB x src dst s
  | .reservedXorx x src dst => Sys2Proof.Machine.execReservedXorx x src dst s
  | .andxA x src dst => Sys2Proof.Machine.execAndxA x src dst s
  | .andxW x src dst => Sys2Proof.Machine.execAndxW x src dst s
  | .andxB x src dst => Sys2Proof.Machine.execAndxB x src dst s
  | .reservedAndx x src dst => Sys2Proof.Machine.execReservedAndx x src dst s
  | .rrc bw opd => Sys2Proof.Machine.execRrc bw opd s
  | .swpb opd => Sys2Proof.Machine.execSwpb opd s
  | .swpbB opd => Sys2Proof.Machine.execSwpbB opd s
  | .rra bw opd => Sys2Proof.Machine.execRra bw opd s
  | .sxt opd => Sys2Proof.Machine.execSxt opd s
  | .sxtB opd => Sys2Proof.Machine.execSxtB opd s
  | .push bw opd => Sys2Proof.Machine.execPush bw opd s
  | .call bw opd => Sys2Proof.Machine.execCall bw opd s
  | .rrcxA x opd => Sys2Proof.Machine.execRrcxA x opd s
  | .rrcxW x opd => Sys2Proof.Machine.execRrcxW x opd s
  | .rrcxB x opd => Sys2Proof.Machine.execRrcxB x opd s
  | .reservedRrcx x opd => Sys2Proof.Machine.execReservedRrcx x opd s
  | .swpbxA x opd => Sys2Proof.Machine.execSwpbxA x opd s
  | .swpbxW x opd => Sys2Proof.Machine.execSwpbxW x opd s
  | .swpbxB x opd => Sys2Proof.Machine.execSwpbxB x opd s
  | .reservedSwpbx x opd => Sys2Proof.Machine.execReservedSwpbx x opd s
  | .rraxA x opd => Sys2Proof.Machine.execRraxA x opd s
  | .rraxW x opd => Sys2Proof.Machine.execRraxW x opd s
  | .rraxB x opd => Sys2Proof.Machine.execRraxB x opd s
  | .reservedRrax x opd => Sys2Proof.Machine.execReservedRrax x opd s
  | .sxtxA x opd => Sys2Proof.Machine.execSxtxA x opd s
  | .sxtxW x opd => Sys2Proof.Machine.execSxtxW x opd s
  | .sxtxB x opd => Sys2Proof.Machine.execSxtxB x opd s
  | .reservedSxtx x opd => Sys2Proof.Machine.execReservedSxtx x opd s
  | .pushxA x opd => Sys2Proof.Machine.execPushxA x opd s
  | .pushxW x opd => Sys2Proof.Machine.execPushxW x opd s
  | .pushxB x opd => Sys2Proof.Machine.execPushxB x opd s
  | .reservedPushx x opd => Sys2Proof.Machine.execReservedPushx x opd s
  | .callxA x opd => Sys2Proof.Machine.execCallxA x opd s
  | .callxW x opd => Sys2Proof.Machine.execCallxW x opd s
  | .callxB x opd => Sys2Proof.Machine.execCallxB x opd s
  | .reservedCallx x opd => Sys2Proof.Machine.execReservedCallx x opd s
  | .reservedPrefixAddr p lo => Sys2Proof.Machine.execReservedPrefixAddr p lo s
  | .reservedPrefixCalla p lo => Sys2Proof.Machine.execReservedPrefixCalla p lo s
  | .reservedPrefixPushm p lo => Sys2Proof.Machine.execReservedPrefixPushm p lo s
  | .reservedPrefixPrefix p lo => Sys2Proof.Machine.execReservedPrefixPrefix p lo s
  | .reservedPrefixJump p lo => Sys2Proof.Machine.execReservedPrefixJump p lo s
  | .jnz off => Sys2Proof.Machine.execJnz off s
  | .jz off => Sys2Proof.Machine.execJz off s
  | .jnc off => Sys2Proof.Machine.execJnc off s
  | .jc off => Sys2Proof.Machine.execJc off s
  | .jn off => Sys2Proof.Machine.execJn off s
  | .jge off => Sys2Proof.Machine.execJge off s
  | .jl off => Sys2Proof.Machine.execJl off s
  | .jmp off => Sys2Proof.Machine.execJmp off s
  | .movaInd rs d => Sys2Proof.Machine.execMovaInd rs d s
  | .movaInc rs d => Sys2Proof.Machine.execMovaInc rs d s
  | .movaAbs hi d => Sys2Proof.Machine.execMovaAbs hi d s
  | .movaIdx rs d => Sys2Proof.Machine.execMovaIdx rs d s
  | .movaToAbs rs hi => Sys2Proof.Machine.execMovaToAbs rs hi s
  | .movaToIdx rs d => Sys2Proof.Machine.execMovaToIdx rs d s
  | .movaImm hi d => Sys2Proof.Machine.execMovaImm hi d s
  | .movaReg rs d => Sys2Proof.Machine.execMovaReg rs d s
  | .cmpaImm hi d => Sys2Proof.Machine.execCmpaImm hi d s
  | .cmpaReg rs d => Sys2Proof.Machine.execCmpaReg rs d s
  | .addaImm hi d => Sys2Proof.Machine.execAddaImm hi d s
  | .addaReg rs d => Sys2Proof.Machine.execAddaReg rs d s
  | .subaImm hi d => Sys2Proof.Machine.execSubaImm hi d s
  | .subaReg rs d => Sys2Proof.Machine.execSubaReg rs d s
  | .reservedMovaPcInc d => Sys2Proof.Machine.execReservedMovaPcInc d s
  | .rrcmA n d => Sys2Proof.Machine.execRrcmA n d s
  | .rrcmW n d => Sys2Proof.Machine.execRrcmW n d s
  | .rramA n d => Sys2Proof.Machine.execRramA n d s
  | .rramW n d => Sys2Proof.Machine.execRramW n d s
  | .rlamA n d => Sys2Proof.Machine.execRlamA n d s
  | .rlamW n d => Sys2Proof.Machine.execRlamW n d s
  | .rrumA n d => Sys2Proof.Machine.execRrumA n d s
  | .rrumW n d => Sys2Proof.Machine.execRrumW n d s
  | .reti ignored => Sys2Proof.Machine.execReti ignored s
  | .callaReg d => Sys2Proof.Machine.execCallaReg d s
  | .callaIdx d => Sys2Proof.Machine.execCallaIdx d s
  | .callaInd d => Sys2Proof.Machine.execCallaInd d s
  | .callaInc d => Sys2Proof.Machine.execCallaInc d s
  | .callaAbs hi => Sys2Proof.Machine.execCallaAbs hi s
  | .callaSym hi => Sys2Proof.Machine.execCallaSym hi s
  | .callaImm hi => Sys2Proof.Machine.execCallaImm hi s
  | .reservedCallaPcInc => Sys2Proof.Machine.execReservedCallaPcInc s
  | .reservedMinor131 lo => Sys2Proof.Machine.execReservedMinor131 lo s
  | .reservedMinor132 lo => Sys2Proof.Machine.execReservedMinor132 lo s
  | .reservedMinor133 lo => Sys2Proof.Machine.execReservedMinor133 lo s
  | .reservedMinor13A lo => Sys2Proof.Machine.execReservedMinor13A lo s
  | .reservedMinor13C lo => Sys2Proof.Machine.execReservedMinor13C lo s
  | .pushmA n d => Sys2Proof.Machine.execPushmA n d s
  | .pushmW n d => Sys2Proof.Machine.execPushmW n d s
  | .popmA n d => Sys2Proof.Machine.execPopmA n d s
  | .popmW n d => Sys2Proof.Machine.execPopmW n d s

end Sys2Proof.Machine
end

