-- ==== Sys2Proof/Machine/Fetch.lean ====
section
/-! DEFINITION. Fetching and decoding the instruction at the program counter (R111, R310, R405), and placing one there. -/

namespace Sys2Proof.Machine

open Sys2Proof

/-- The words decoded, or `ReservedOpcode` with them (R160). -/
def decodeWords (ws : List Word) : Except FaultCause Instr :=
  match decode ws with
  | .ok (i, _) => .ok i
  | .error _ => .error (.reservedOpcode ws)

/-- `Decode(P)` (R111): word 0 is fetched at the program counter and, if it is an extension word, the core word 2 above
it. The state that goes on is the one at the cycle's start, less the device reads a fetch from a device took (R84). -/
def fetchDecode (s : State) : Except FaultCause (Instr × State) :=
  match fetchHere s with
  | .error c => .error c
  | .ok (w, s1) =>
    if isExtWord w then
      match fetchNext s1 with
      | .error c => .error c
      | .ok (c, s2) =>
        match decodeWords [w, c] with
        | .error e => .error e
        | .ok i => .ok (i, { s with deviceReads := s2.deviceReads })
    else
      match decodeWords [w] with
      | .error e => .error e
      | .ok i => .ok (i, s1)

/-- The next four instruction words come from the memory device, and a step would fetch them. -/
def fetchesFromMemory (s : State) : Bool :=
  s.halted == none && s.pc.toNat + 8 ≤ Config.memSize
    && [0, 2, 4, 6].all (fun k => resolve s.params (s.pc + k) == .memory)

/-- Words stored in the memory device from `a` on, in its byte order (R78). -/
def Memory.writeWords (m : Memory) (a : Nat) : List Word → Memory
  | [] => m
  | w :: ws => Memory.writeWords (m.writeLE a w.toNat 2) (a + 2) ws

/-- A state whose next four words come from memory: the state itself where they do, else the state restarted at address
0 with no device claiming an address (log entry 23). -/
def fetchable (s : State) : State :=
  if fetchesFromMemory s then s
  else
    { s.setPc 0 with
      halted := none
      params := { s.params with wdt := .absent, ports := Vector.replicate 8 .absent } }

/-- The words stored where the next step fetches its instruction. -/
def placeWords (s : State) (ws : List Word) : State :=
  let s1 := fetchable s
  { s1 with mem := s1.mem.writeWords s1.pc.toNat ws }

/-! ## Host transactions on a running block (R48, R455) -/

/-- `readRegs()`: the sixteen slots, slot 3 among them (R32, R48). -/
def State.readRegs (s : State) : Vector Slot 16 := s.regs

/-- `readFlags()`: C, Z, N and V (R48). -/
def State.readFlags (s : State) : Bool × Bool × Bool × Bool := (s.flagC, s.flagZ, s.flagN, s.flagV)

/-- `dump(addr, len)`: the bytes of a range of the memory device, none where the range leaves it or a device claims an
address in it (R455, D39). -/
def State.dump (s : State) (a len : Nat) : Option (List Byte) :=
  if a + len ≤ Config.memSize ∧ (List.range len).all (fun k => resolve s.params (BitVec.ofNat 32 (a + k)) == .memory)
  then some ((List.range len).map (fun k => s.mem.get (a + k)))
  else none

end Sys2Proof.Machine
end

