-- ==== Sys2Proof/Machine/Step.lean ====
section
/-! DEFINITION. One step is one `Cycle()` (R313): no cycle runs once the block has halted (R403); otherwise the
instruction at the program counter is fetched, decoded and executed, and a fault of the fetch or the decode is taken. -/

namespace Sys2Proof.Machine

open Sys2Proof

/-- One cycle (R313, R455). -/
def step (s : State) : Host.Outcome State Fault Refusal :=
  match s.halted with
  | some h => .fault (.halted h)
  | none =>
    match fetchDecode s with
    | .ok (i, s1) => exec i s1
    | .error c => .next (s.takeFault c)

/-- The instruction whose bits the opcode table numbers `w` stored where the next step fetches (log entries 7, 11, 23). -/
def State.withFetchWord (s : State) (nbits w : Nat) : State := placeWords s (tableWords nbits w)

end Sys2Proof.Machine
end

