-- ==== Sys2Proof/Machine/Record.lean ====
section
/-! DEFINITION. The decoder's output (R46): the Instruction record of a cycle with its two operand records, as the words
and the resolution of the operands give it (R112 to R132, R140 to R155). The execution resolves its operands by the same
operations and reads no record. Where the spec gives a field no value (R114; log entry 27) the field is `none`. -/

namespace Sys2Proof.Machine

open Sys2Proof

/-- The addressing modes (R18); INVALID is in the domain and never produced (R132). -/
inductive AddressingMode where
  | register
  | indexed
  | symbolic
  | absolute
  | indirectRegister
  | indirectAutoincrement
  | immediate
  | invalid
  deriving DecidableEq, Repr

/-- An InstructionOperand record (R46). `value` is `none` where the operand is not read (R146) and no constant (R140), `resolvedAddress` where
the mode has no address (R147), and `registerIndex` where no field of the word names a register for the operand: the spec
gives it no value there (DESIGN CHOICE, log entry 27). -/
structure OperandRecord where
  value : Option Slot
  resolvedAddress : Option Slot
  registerIndex : Option RegNum
  addressingMode : AddressingMode
  wordSize : Size
  needsValueFetch : Bool
  usedConstantGenerator : Bool
  deriving DecidableEq, Repr

/-- The Instruction record (R46); `format` is `none` where R114 leaves it unspecified, `source` and `destination` where
there is no such operand (R132). -/
structure InstrRecord where
  majorOpcode : Nat
  minorOpcode : Nat
  format : Option Nat
  extended : Bool
  repetition : Nat
  zc : Bool
  rawWords : List Word
  source : Option OperandRecord
  destination : Option OperandRecord
  deriving DecidableEq, Repr

/-! ## The opcode fields -/

/-- The major opcode of a core word (R112): 0, or its high byte with the two low bits cleared, or its high byte. -/
def majorOpcode (core : Word) : Nat :=
  let h := field core 15 8
  if h ≤ 0x0F then 0 else if h ≤ 0x3F then h / 4 * 4 else h

/-- The minor opcode of a core word (R113). -/
def minorOpcode (core : Word) : Nat :=
  let h := field core 15 8
  if h ≤ 0x0F then field core 7 4
  else if h ≤ 0x12 then field core 9 7
  else if h = 0x13 then field core 15 4
  else if h ≤ 0x1F then h
  else if h ≤ 0x3F then field core 12 10
  else 0

/-- The format of a core word (R114). -/
def formatOf (core : Word) : Option Nat :=
  let h := field core 15 8
  if 0x40 ≤ h then some 1 else if 0x20 ≤ h then some 3 else if 0x10 ≤ h ∧ h ≤ 0x12 then some 2 else none

/-- The word size of a format I or II word, `al` being that of its extension word (R125, R126). -/
def sizeOfBits (al : Option Bool) (bw : Bool) : Size :=
  match al, bw with
  | some false, _ => .ext
  | _, true => .byte
  | _, false => .word

/-! ## Operand records -/

/-- The address of a resolved operand, where its mode has one (R147). -/
def Place.address : Place → Option Slot
  | .mem ea => some ea
  | .reg _ | .none => Option.none

/-- The record of an operand of a mode whose register field holds `r`, once it is resolved to `o`: its value where it is
read or is the constant generator's, and its address where there is one (R46, R140, R147). -/
def operandRecord (mode : AddressingMode) (r : Option RegNum) (ws : Size) (reads cg : Bool) (o : Operand) :
    OperandRecord :=
  ⟨if reads || cg then some o.value else none, o.place.address, r, mode, ws, reads, cg⟩

/-- A source operand of format I, or the operand of format II (R130, R140, R146). -/
def srcRecord (ws : Size) (src : Src) (o : Operand) : OperandRecord :=
  match src with
  | .reg r => operandRecord .register (some r) ws true false o
  | .indexed r => operandRecord .indexed (some r) ws true false o
  | .symbolic => operandRecord .symbolic (some 0) ws true false o
  | .absolute => operandRecord .absolute (some 2) ws true false o
  | .indirect r => operandRecord .indirectRegister (some r) ws true false o
  | .autoinc r => operandRecord .indirectAutoincrement (some r) ws true false o
  | .immediate => operandRecord .immediate (some 0) ws true false o
  | .const k => operandRecord .immediate (some (srcReg (.const k))) ws true true o

/-- A destination operand of format I (R131, R140, R146). -/
def dstRecord (ws : Size) (reads : Bool) (dst : Dst) (o : Operand) : OperandRecord :=
  match dst with
  | .reg r => operandRecord .register (some r) ws reads false o
  | .indexed r => operandRecord .indexed (some r) ws reads false o
  | .symbolic => operandRecord .symbolic (some 0) ws reads false o
  | .absolute => operandRecord .absolute (some 2) ws reads false o
  | .constZero | .constOne => operandRecord .immediate (some 3) ws reads true o

/-- The operand records of an instruction, or the fault that resolving its operands takes first (R405). -/
abbrev OperandRecords := Except FaultCause (Option OperandRecord × Option OperandRecord)

/-- A source resolved, then a destination register read at width `ws`. -/
def sourceThenRegister (source : Operand → OperandRecord) (resolved : Except FaultCause (Operand × State)) (ws : Size)
    (d : RegNum) : OperandRecords :=
  match resolved with
  | .error c => .error c
  | .ok (a, s1) =>
    .ok (some (source a), some (operandRecord .register (some d) ws true false (opRegister ws d s1)))

/-- A MOVA to memory: the address's word is fetched, then the source register is read; the destination is not (R146,
R240). -/
def registerThenAddress (r : RegNum) (mode : AddressingMode) (d : Option RegNum)
    (ea : Except FaultCause (Slot × State)) : OperandRecords :=
  match ea with
  | .error c => .error c
  | .ok (a, s1) =>
    .ok (some (operandRecord .register (some r) .ext true false (opRegister .ext r s1)),
      some (operandRecord mode d .ext false false ⟨0, .mem a⟩))

/-- A count the word itself holds, as an IMMEDIATE operand (R153). -/
def countOperand (ws : Size) (k : Nat) : Operand := ⟨trunc ws (BitVec.ofNat 32 k), .none⟩

/-- An IMMEDIATE operand that no register field belongs to (log entry 27). -/
def immediateRecord (ws : Size) (o : Operand) : OperandRecord := operandRecord .immediate none ws true false o

/-- The operands of an address-group word (R119, R120, R240). An ABSOLUTE or IMMEDIATE operand here has no register
field, and its `registerIndex` is `none` (log entry 27). -/
def addrOperands (core : Word) (s : State) : OperandRecords :=
  let r := regField core 8
  let d := regField core 0
  let hi := some (nibble core 8)
  let ofMode (mode : AddressingMode) (r : Option RegNum) := operandRecord mode r .ext true false
  match field core 7 4 with
  | 0x0 => sourceThenRegister (ofMode .indirectRegister (some r)) (opIndirect .ext r s) .ext d
  | 0x1 => sourceThenRegister (ofMode .indirectAutoincrement (some r)) (opAutoinc .ext r s) .ext d
  | 0x2 => sourceThenRegister (ofMode .absolute none) (opAt .ext (eaAbsolute hi s)) .ext d
  | 0x3 => sourceThenRegister (ofMode .indexed (some r)) (opAt .ext (eaIndexed none r s)) .ext d
  | 0x4 => sourceThenRegister (immediateRecord .ext) (.ok (countOperand .ext (field core 11 10), s)) .ext d
  | 0x5 => sourceThenRegister (immediateRecord .word) (.ok (countOperand .word (field core 11 10), s)) .word d
  | 0x6 => registerThenAddress r .absolute none (eaAbsolute (some (nibble core 0)) s)
  | 0x7 => registerThenAddress r .indexed (some d) (eaIndexed none d s)
  | 0x8 | 0x9 | 0xA | 0xB => sourceThenRegister (immediateRecord .ext) (opImmediate .ext hi s) .ext d
  | _ => sourceThenRegister (ofMode .register (some r)) (.ok (opRegister .ext r s, s)) .ext d

/-- The operand of a RETI/CALLA word (R121): none for RETI. ABSOLUTE, SYMBOLIC and IMMEDIATE have no register field here,
and their `registerIndex` is `none` (log entry 27). -/
def callaOperand (core : Word) (s : State) : OperandRecords :=
  let d := regField core 0
  let hi := some (nibble core 0)
  let only (mode : AddressingMode) (r : Option RegNum) (resolved : Except FaultCause (Operand × State)) :
      OperandRecords :=
    match resolved with
    | .error c => .error c
    | .ok (a, _) => .ok (some (operandRecord mode r .ext true false a), none)
  match field core 7 4 with
  | 0x4 => only .register (some d) (.ok (opRegister .ext d s, s))
  | 0x5 => only .indexed (some d) (opAt .ext (eaIndexed none d s))
  | 0x6 => only .indirectRegister (some d) (opIndirect .ext d s)
  | 0x7 => only .indirectAutoincrement (some d) (opAutoinc .ext d s)
  | 0x8 => only .absolute none (opAt .ext (eaAbsolute hi s))
  | 0x9 => only .symbolic none (opAt .ext (eaSymbolic hi s))
  | 0xB => only .immediate none (opImmediate .ext hi s)
  | _ => .ok (none, none)

/-- The operand of a format II word (R117, R130). -/
def singleOperand (ws : Size) (hi : Option (BitVec 4)) (opd : Src) (s : State) : OperandRecords :=
  match resolveSrc ws hi opd s with
  | .error c => .error c
  | .ok (a, _) => .ok (some (srcRecord ws opd a), none)

/-- The operands of a format I word (R115, R145); MOV's destination is not read (R146). -/
def twoOperands (ws : Size) (hiS hiD : Option (BitVec 4)) (reads : Bool) (src : Src) (dst : Dst) (s : State) :
    OperandRecords :=
  match resolveSrc ws hiS src s with
  | .error c => .error c
  | .ok (a, s1) =>
    match resolveDst ws hiD reads dst s1 with
    | .error c => .error c
    | .ok (b, _) => .ok (some (srcRecord ws src a), some (dstRecord ws reads dst b))

/-- The operands of a core word after its extension word, where it has one (R117 to R131); `s` is the state in which they
are resolved. The count of PUSHM and POPM has no register field (log entry 27), and a jump has no operand. -/
def operandsOf (p : Option Word) (x : Option Ext) (core : Word) (s : State) : OperandRecords :=
  let h := field core 15 8
  let ws := sizeOfBits (p.map (bitAt · 6)) (bitAt core 6)
  if h ≤ 0x0F then addrOperands core s
  else if h ≤ 0x12 then
    singleOperand ws (x.bind extDstHi) (srcOf (regField core 0) (field core 5 4)) s
  else if h = 0x13 then callaOperand core s
  else if h ≤ 0x17 then
    let sz : Size := if bitAt core 8 then .word else .ext
    sourceThenRegister (immediateRecord sz) (.ok (countOperand sz (field core 7 4), s)) sz (regField core 0)
  else if h ≤ 0x3F then .ok (none, none)
  else
    twoOperands ws (x.bind extSrcHi) (x.bind extDstHi) (field core 15 12 != 4)
      (srcOf (regField core 8) (field core 5 4)) (dstOf (regField core 0) (bitAt core 7)) s

/-! ## The record of a cycle -/

/-- The operands of a core word are all in register mode by their raw fields, so that an extension word before it has its
register form (R124). -/
def registerForm (core : Word) : Bool := field core 5 4 == 0 && (field core 15 8 ≤ 0x12 || !bitAt core 7)

/-- The encodings that decode refuses (R160), `n` being the repetition field. -/
def reservedWords (p : Option Word) (core : Word) (n : Nat) : Bool :=
  let h := field core 15 8
  match p with
  | none =>
    if h ≤ 0x0F then field core 7 4 == 1 && field core 11 8 == 0
    else if h ≤ 0x12 then false
    else if h = 0x13 then
      [1, 2, 3, 10, 12, 13, 14, 15].contains (field core 7 4) || (field core 7 4 == 7 && field core 3 0 == 0)
    else if h ≤ 0x15 then !pushRangeOk (nibble core 4) (regField core 0)
    else if h ≤ 0x17 then !popRangeOk (nibble core 4) (regField core 0)
    else h ≤ 0x1F
  | some p =>
    !((0x10 ≤ h && h ≤ 0x12) || 0x40 ≤ h) || (!bitAt p 6 && !bitAt core 6) || (0 < n && field core 3 0 == 0)

/-- The record of the instruction whose extension and core words are `words` (R46), or the fault its decode or the
resolution of its operands takes. `s` is the state at the cycle's start. In a later execution of a repetition the record
holds the repetition field as it reads then: R312 reads the count register at the first decode alone and does not say what
a later record holds (DESIGN CHOICE, log entry 29). -/
def instrRecord (words : List Word) (s : State) : Except FaultCause InstrRecord :=
  match words with
  | [core] =>
    if reservedWords none core 0 then .error (.reservedOpcode words)
    else
      match operandsOf none none core s with
      | .error c => .error c
      | .ok ops => .ok ⟨majorOpcode core, minorOpcode core, formatOf core, false, 0, false, words, ops.1, ops.2⟩
  | [p, core] =>
    let x := extOf p (registerForm core)
    let s1 := s.setPc (low20 (s.pc + 2))
    let n := repetition x s1
    if reservedWords (some p) core n then .error (.reservedOpcode words)
    else
      match operandsOf (some p) (some x) core s1 with
      | .error c => .error c
      | .ok ops => .ok ⟨majorOpcode core, minorOpcode core, formatOf core, true, n, extZc x, words, ops.1, ops.2⟩
  | _ => .error (.reservedOpcode words)

/-- The record of the cycle that begins in a state (R46): the words at the program counter are fetched, decoded and their
operands resolved. -/
def cycleRecord (s : State) : Except FaultCause InstrRecord :=
  match fetchHere s with
  | .error c => .error c
  | .ok (w, s1) =>
    if isExtWord w then
      match fetchNext s1 with
      | .error c => .error c
      | .ok (c, s2) => instrRecord [w, c] { s with deviceReads := s2.deviceReads }
    else instrRecord [w] s1

end Sys2Proof.Machine
end

