-- ==== Sys2Proof/Machine/Startup.lean ====
section
/-! DEFINITION. The transaction `start(image, params, launch)` (spec/70_reset_and_hazards.md R450, R451, R455): from the
OPEN parameters, the launch values and a firmware image to the state in which the run loop begins. `State.reset` is one
state this can give; a program reaches the machine this way. -/

namespace Sys2Proof.Machine

open Sys2Proof

/-- The launch inputs of R11 that are values of the state: every register slot and the memory bytes no loader writes. -/
structure Launch where
  regs : Vector Slot 16
  mem : Memory
  deriving DecidableEq, Repr

/-- What `start` answers. -/
inductive StartResult where
  /-- the run loop begins in this state -/
  | started (s : State)
  /-- the image does not supply both bytes of the reset vector (R451, D38) -/
  | romLoadFailure
  /-- a byte of the image could not be written (R450) -/
  | loadFault (c : FaultCause)
  /-- the parameters are outside the spec: a device claims the reset vector (R451) -/
  | outsideSpec
  deriving DecidableEq, Repr

/-- The loader writes the image byte by byte through the bus (R450, step 2), in the order it lists them (log entry 15). A
byte at an address of 2^20 or more that a device claims goes to that device and is not fatal (DESIGN CHOICE, log
entry 30). -/
def loadImage : List (Slot × Byte) → State → Except FaultCause State
  | [], s => .ok s
  | (a, b) :: rest, s =>
    match busWrite s a 1 (BitVec.ofNat 32 b.toNat) with
    | .ok s1 => loadImage rest s1
    | .error c => .error c

/-- The image supplies the byte at an address. -/
def imageHas (image : List (Slot × Byte)) (a : Nat) : Bool := image.any (fun e => e.1.toNat == a)

/-- `pc <- zext_16(MemRead(RESET_VECTOR, 2))` (R451). -/
def loadPc (s : State) : Except FaultCause State :=
  match busRead s (BitVec.ofNat 32 Config.resetVector) 2 .read with
  | .ok (v, s1) => .ok (s1.setPc v)
  | .error c => .error c

/-- The block before its loader runs: the launch values, no repetition, no fault (R450, steps 1, 5, 6). -/
def launched (p : Params) (l : Launch) : State :=
  { regs := l.regs, mem := l.mem, rep := ⟨0, none⟩, halted := none, params := p, draws := 0, deviceReads := 0,
    sent := [] }

/-- `start` (R450). The image is written in the order it lists its bytes, which the spec says is address order; a write
that fails is reported before a missing reset vector (log entry 15). -/
def start (image : List (Slot × Byte)) (p : Params) (l : Launch) : StartResult :=
  if resolve p (BitVec.ofNat 32 Config.resetVector) = .memory
      ∧ resolve p (BitVec.ofNat 32 (Config.resetVector + 1)) = .memory then
    match loadImage image (launched p l) with
    | .error c => .loadFault c
    | .ok s =>
      if imageHas image Config.resetVector && imageHas image (Config.resetVector + 1) then
        match loadPc s with
        | .ok s1 => .started s1
        | .error c => .loadFault c
      else .romLoadFailure
  else .outsideSpec

end Sys2Proof.Machine
end

