-- ==== Sys2Proof/Safety.lean ====
section
/-! DEFINITION. What a safe run is and what a well-kept state is, and the effect of one instruction in the terms the
statements use: where its result went, what became of the flags, and that nothing else changed. -/

namespace Sys2Proof.Machine

open Sys2Proof

/-! ## Runs and well-kept states -/

/-- The run has not ended by a fault (R403). -/
def State.running (s : State) : Prop := s.halted = none

/-- Every slot holds a value below 2^20, as R31 says of every slot an instruction has written. -/
def State.slotsNarrow (s : State) : Prop := ∀ r : RegNum, (s.reg r).toNat < 2 ^ Config.addrBits

/-- The repetition state is one the rules can leave (R44, R313): at most 15 executions to run, and while one is in
progress the program counter is the address of its extension word. -/
def State.repKept (s : State) : Prop :=
  s.rep.left ≤ 15 ∧ (0 < s.rep.left → s.rep.at_ = some s.pc) ∧ (s.rep.left = 0 → s.rep.at_ = none)

/-- A well-kept state: narrow slots, memory in its canonical form, a legal repetition state. -/
def State.Inv (s : State) : Prop := s.slotsNarrow ∧ s.mem.wf ∧ s.repKept

/-- The word at the program counter is `JMP $`, the spec's convention for a program's end (R456). -/
def State.atJumpSelf (s : State) : Bool :=
  match fetchHere s with
  | .ok (w, _) => w == 0x3FFF#16
  | .error _ => false

/-- `k` cycles from `s` all complete and none of them faults. -/
def runsSafely : Nat → State → Prop
  | 0, s => s.running
  | k + 1, s => s.running ∧ ∃ t, step s = .next t ∧ runsSafely k t

/-- `t` is the state after exactly `k` cycles from `s`. -/
def reaches : Nat → State → State → Prop
  | 0, s, t => t = s
  | k + 1, s, t => ∃ u, step s = .next u ∧ reaches k u t

/-- The words lie in memory from `a` on, each at its address modulo 2^20, and a fetch of each reads them there (R78,
R110). -/
def State.holdsWords (s : State) (a : Slot) : List Word → Prop
  | [] => True
  | w :: ws =>
    resolve s.params a = .memory ∧ a.toNat + 2 ≤ Config.memSize ∧ s.mem.readLE a.toNat 2 = w.toNat
      ∧ s.holdsWords (low20 (a + 2)) ws

/-! ## SR and its flags -/

/-- An explicit write of R2 reaches bit `k` of SR: any bit under THROUGH, bits 0, 1, 2 and 8 under PRESERVE (R39, D20;
bit 3: log entry 4). -/
def srBitWritten (p : Params) (k : Nat) : Bool :=
  match p.srCtlWrite with
  | .through => true
  | .preserve => k == 0 || k == 1 || k == 2 || k == 8

/-- SR after an explicit write of the value `v` (R39). -/
def SrWritten (p : Params) (before v after : Slot) : Prop :=
  ∀ k < 32, after.getLsbD k = if srBitWritten p k then v.getLsbD k else before.getLsbD k

/-- What a rule of spec/40 says of C, Z, N and V after an operation. -/
inductive FlagRule where
  /-- no flag is written -/
  | kept
  /-- C, Z and N take these values, and V the last one, or any value where that is `none` (R186) -/
  | written (c z n : Bool) (v : Option Bool)

/-- SR went from `before` to `after` by the rule, and no bit but C, Z, N, V changed (R38). -/
def FlagRule.holds (f : FlagRule) (before after : Slot) : Prop :=
  match f with
  | .kept => after = before
  | .written c z n v =>
    after.getLsbD 0 = c ∧ after.getLsbD 1 = z ∧ after.getLsbD 2 = n ∧ (∀ b, v = some b → after.getLsbD 8 = b)
      ∧ ∀ k, k ≠ 0 → k ≠ 1 → k ≠ 2 → k ≠ 8 → after.getLsbD k = before.getLsbD k

/-! ## Numbers of a width -/

/-- 2^w for a width. -/
def full (ws : Size) : Nat := 2 ^ bits ws

/-- The sign bit's weight. -/
def half (ws : Size) : Nat := 2 ^ (bits ws - 1)

/-- A number has its sign bit set at a width (R171). -/
def isNeg (ws : Size) (v : Nat) : Bool := decide (half ws ≤ v)

/-- The value of a bit pattern as a signed number. -/
def signed (ws : Size) (v : Nat) : Int := if half ws ≤ v then (v : Int) - full ws else v

/-- A number as a slot. -/
def slotOf (v : Nat) : Slot := BitVec.ofNat 32 v

/-! ## The program counter and the repetition state after a cycle -/

/-- The program counter after a cycle of an instruction of `words` words with repetition field `n`, which wrote R0 where
`written` says so (R35, R313, R315). -/
def pcAfter (s : State) (n words : Nat) (written : Option Slot) : Slot :=
  if s.rep.left = 0 then (if 0 < n then s.pc else written.getD (low20 (s.pc + BitVec.ofNat 32 (2 * words))))
  else if s.rep.left = 1 then low20 (s.pc + BitVec.ofNat 32 (2 * words))
  else s.pc

/-- The repetition state after such a cycle (R313). -/
def repAfter (s : State) (n : Nat) : Rep :=
  if s.rep.left = 0 then (if 0 < n then ⟨n, some s.pc⟩ else s.rep)
  else if s.rep.left = 1 then ⟨0, none⟩
  else ⟨s.rep.left - 1, s.rep.at_⟩

/-! ## Where a result went -/

/-- A write of `n` bytes at `a` is accepted: in range in memory (R80), a width of the device otherwise (R83). -/
def accepts (s : State) (a : Slot) (n : Nat) : Prop :=
  match resolve s.params a with
  | .memory => a.toNat + n ≤ Config.memSize
  | d => (s.params.device d).implements n = true

/-- A result of width `ws` can be written to the place. -/
def Place.writable (ws : Size) (p : Place) (s : State) : Prop :=
  match p with
  | .mem ea => accepts s ea (nb ws)
  | _ => True

/-- From `s` to `t`, `n` bytes of `v` were stored at `a`, and nothing else of memory or of what the devices received
changed: the bytes of the memory device, or one more write of the device that claims `a` (R76, R78, R84). -/
def StoredAt (a : Slot) (n : Nat) (v : Slot) (s t : State) : Prop :=
  match resolve s.params a with
  | .memory =>
    t.sent = s.sent ∧ t.mem.readLE a.toNat n = v.toNat
      ∧ ∀ b, b < a.toNat ∨ a.toNat + n ≤ b → t.mem.get b = s.mem.get b
  | d => t.mem = s.mem ∧ t.sent = ⟨d, a, n, v⟩ :: s.sent

/-- The part of memory and of the devices' writes in the effect of a result `v` of width `ws` written to a place. -/
def Place.stored (ws : Size) (p : Place) (v : Slot) (s t : State) : Prop :=
  match p with
  | .mem ea => StoredAt ea (nb ws) v s t
  | _ => t.mem = s.mem ∧ t.sent = s.sent

/-- The effect of an instruction that completes, from `s` to `t`: an instruction of `words` words with repetition field
`n`, whose result `v` of width `ws` went to the place `p` (`Place.none` where it writes none), whose flags follow `f`,
and whose source operand advanced the register `auto`. Every register, SR bit, memory byte and device write not named
here is as it was. -/
structure Effect (words n : Nat) (ws : Size) (p : Place) (v : Slot) (f : FlagRule) (auto : Option RegNum)
    (s t : State) : Prop where
  /-- no fault was taken -/
  halted : t.halted = s.halted
  /-- the parameters are fixed (R75) -/
  params : t.params = s.params
  /-- the repetition state (R313) -/
  rep : t.rep = repAfter s n
  /-- the program counter (R35, R313, R315) -/
  pc : t.pc = pcAfter s n words (if p = .reg 0 then some v else none)
  /-- memory and the devices -/
  store : p.stored ws v s t
  /-- a register that takes the result takes it, for the three registers with rules of their own see the other fields -/
  result : ∀ r, p = .reg r → r ≠ 0 → r ≠ 2 → r ≠ 3 → t.reg r = v
  /-- SR where the instruction writes it explicitly: the written value stays, whatever the flags were (R39, R41) -/
  srResult : p = .reg 2 → SrWritten s.params s.sr v t.sr
  /-- SR where the source operand advanced it (R152) -/
  srAuto : p ≠ .reg 2 → auto = some 2 → SrWritten s.params s.sr (low20 (s.sr + BitVec.ofNat 32 (nb ws))) t.sr
  /-- SR otherwise: the flags (R38) -/
  flags : p ≠ .reg 2 → auto ≠ some 2 → f.holds s.sr t.sr
  /-- the register the source operand advanced (R152) -/
  advanced : ∀ r, auto = some r → r ≠ 0 → r ≠ 2 → r ≠ 3 → p ≠ .reg r →
    t.reg r = low20 (s.reg r + BitVec.ofNat 32 (nb ws))
  /-- every other register -/
  others : ∀ r, r ≠ 0 → r ≠ 2 → (r = 3 ∨ (p ≠ .reg r ∧ auto ≠ some r)) → t.reg r = s.reg r

/-! ## Formats I and II -/

/-- Extension words a source operand takes (R145). -/
def srcWords : Src → Nat
  | .indexed _ | .symbolic | .absolute | .immediate => 1
  | .reg _ | .indirect _ | .autoinc _ | .const _ => 0

/-- Extension words a destination operand takes (R145). -/
def dstWords : Dst → Nat
  | .indexed _ | .symbolic | .absolute => 1
  | .reg _ | .constZero | .constOne => 0

/-- The register a source operand advances. -/
def srcAuto : Src → Option RegNum
  | .autoinc r => some r
  | _ => none

/-- The words before the operands' own: the core word, and the extension word where there is one. -/
def coreWords : Option Ext → Nat
  | none => 1
  | some _ => 2

/-- The state in which the operands are resolved: past the extension word where there is one (R310). -/
def operandState (x : Option Ext) (s : State) : State :=
  match x with
  | none => s
  | some _ => s.setPc (low20 (s.pc + 2))

/-- The repetition field in a state: 0 without an extension word (R312). -/
def count (x : Option Ext) (s : State) : Nat :=
  match x with
  | none => 0
  | some e => repetition e (operandState x s)

/-- The zero-carry flag (R317). -/
def zeroCarry : Option Ext → Bool
  | none => false
  | some e => extZc e

/-- A two-operand instruction `i` of width `ws`, with the extension word `x` where it has one, runs: in every state whose
memory is in its canonical form, whenever both its operands can be resolved, its result can be written, and it is not a repeated instruction with destination R0 (R160),
`exec` answers a next state, with the result and the flags `rule` gives for the carry flag, the source value and the
destination value (R200, R201). -/
def RunsI (i : Instr) (ws : Size) (x : Option Ext) (src : Src) (dst : Dst) (reads stores : Bool)
    (rule : Bool → Slot → Slot → Slot × FlagRule) : Prop :=
  i.wf = true → ∀ s a s1 b s2, s.mem.wf →
    resolveSrc ws (x.bind extSrcHi) src (operandState x s) = .ok (a, s1) →
    resolveDst ws (x.bind extDstHi) reads dst s1 = .ok (b, s2) →
    (stores = true → b.place.writable ws s) →
    (0 < count x s → dst ≠ .reg 0) →
    ∃ t, exec i s = .next t ∧
      Effect (coreWords x + srcWords src + dstWords dst) (count x s) ws (if stores then b.place else .none)
        (rule s.flagC a.value b.value).1 (rule s.flagC a.value b.value).2 (srcAuto src) s t

/-- A two-operand operation in its four forms: plain, and after an extension word at each width (R201). -/
def RunsAllI (plain : BW → Src → Dst → Instr) (xA xW xB : Ext → Src → Dst → Instr) (reads stores : Bool)
    (rule : Size → Bool → Slot → Slot → Slot × FlagRule) : Prop :=
  ∀ src dst,
    (∀ bw, RunsI (plain bw src dst) (sizeOf bw) none src dst reads stores (rule (sizeOf bw))) ∧
    (∀ x, RunsI (xA x src dst) .ext (some x) src dst reads stores (rule .ext)) ∧
    (∀ x, RunsI (xW x src dst) .word (some x) src dst reads stores (rule .word)) ∧
    (∀ x, RunsI (xB x src dst) .byte (some x) src dst reads stores (rule .byte))

/-- A one-operand instruction runs, in the same sense (R290, R295); the result goes where the operand came from, and
`rule` gets the carry input. -/
def RunsII (i : Instr) (ws : Size) (x : Option Ext) (opd : Src) (rule : Bool → Slot → Slot × FlagRule) : Prop :=
  i.wf = true → ∀ s a s1, s.mem.wf →
    resolveSrc ws (x.bind extDstHi) opd (operandState x s) = .ok (a, s1) →
    a.place.writable ws s →
    (0 < count x s → opd ≠ .reg 0) →
    ∃ t, exec i s = .next t ∧
      Effect (coreWords x + srcWords opd) (count x s) ws a.place
        (rule (!zeroCarry x && s.flagC) a.value).1 (rule (!zeroCarry x && s.flagC) a.value).2 (srcAuto opd) s t

/-! ## The fault a cycle takes (R405) -/

/-- The fault of a write of `n` bytes that is not accepted: out of range in memory (R80), not implemented in a device
(R83). -/
def writeFault (s : State) (a : Slot) (n : Nat) : FaultCause :=
  if resolve s.params a = .memory then .addressOutOfRange a n .write else .notImplemented a n .write

/-- The instruction takes the fault. -/
def Takes (i : Instr) (s : State) (c : FaultCause) : Prop := exec i s = .next (s.takeFault c)

/-- A two-operand instruction takes its first fault in the cycle's order: that of the source's resolution, else that of
the destination's, else that of a store that is not accepted; a repeated instruction with destination R0 aside (R160). -/
def FaultsI (i : Instr) (ws : Size) (x : Option Ext) (src : Src) (dst : Dst) (reads stores : Bool) : Prop :=
  ∀ s, (0 < count x s → dst ≠ .reg 0) →
    (∀ c, resolveSrc ws (x.bind extSrcHi) src (operandState x s) = .error c → Takes i s c) ∧
    ∀ a s1, resolveSrc ws (x.bind extSrcHi) src (operandState x s) = .ok (a, s1) →
      (∀ c, resolveDst ws (x.bind extDstHi) reads dst s1 = .error c → Takes i s c) ∧
      ∀ b s2 ea, resolveDst ws (x.bind extDstHi) reads dst s1 = .ok (b, s2) → stores = true → b.place = .mem ea →
        ¬ accepts s ea (nb ws) → Takes i s (writeFault s ea (nb ws))

/-- The same of the four forms of a two-operand operation. -/
def FaultsAllI (plain : BW → Src → Dst → Instr) (xA xW xB : Ext → Src → Dst → Instr) (reads stores : Bool) : Prop :=
  ∀ src dst,
    (∀ bw, FaultsI (plain bw src dst) (sizeOf bw) none src dst reads stores) ∧
    (∀ x, FaultsI (xA x src dst) .ext (some x) src dst reads stores) ∧
    (∀ x, FaultsI (xW x src dst) .word (some x) src dst reads stores) ∧
    (∀ x, FaultsI (xB x src dst) .byte (some x) src dst reads stores)

/-- A one-operand instruction takes the fault of its operand's resolution, else that of a write-back that is not
accepted; a repeated instruction with operand R0 aside (R160). -/
def FaultsII (i : Instr) (ws : Size) (x : Option Ext) (opd : Src) : Prop :=
  ∀ s, (0 < count x s → opd ≠ .reg 0) →
    (∀ c, resolveSrc ws (x.bind extDstHi) opd (operandState x s) = .error c → Takes i s c) ∧
    ∀ a s1 ea, resolveSrc ws (x.bind extDstHi) opd (operandState x s) = .ok (a, s1) → a.place = .mem ea →
      ¬ accepts s ea (nb ws) → Takes i s (writeFault s ea (nb ws))

/-- An instruction takes the fault of reading its operand. -/
def FaultsRead (i : Instr) (read : State → Except FaultCause (Slot × State)) : Prop :=
  i.wf = true → ∀ s c, read s = .error c → Takes i s c

/-- A store of the address group takes the fault of its address's fetch, else that of a write that is not accepted. -/
def FaultsStore (i : Instr) (ea : State → Except FaultCause (Slot × State)) : Prop :=
  ∀ s, (∀ c, ea s = .error c → Takes i s c) ∧
    ∀ a u, ea s = .ok (a, u) → ¬ accepts s a 4 → Takes i s (writeFault s a 4)

/-- An instruction takes the fault of the first of its slots of `n` bytes that is not accepted. -/
def FaultsAtSlot (i : Instr) (n : Nat) (slots : List (Slot × Slot)) (s : State) : Prop :=
  ∀ before e rest, slots = before ++ e :: rest → (∀ f ∈ before, accepts s f.1 n) → ¬ accepts s e.1 n →
    Takes i s (writeFault s e.1 n)

/-! ## Lengths -/

/-- The index, absolute and immediate words that follow a core word, by its group and its addressing fields (R110, R119,
R121, R130, R131, R145). -/
def operandWords (core : Word) : Nat :=
  let c := core.toNat
  let source (r : Nat) := if (c / 16 % 4 = 1 ∧ r ≠ 3) ∨ (c / 16 % 4 = 3 ∧ r = 0) then 1 else 0
  if c < 0x1000 then (if c / 16 % 16 ∈ [0x2, 0x3, 0x6, 0x7, 0x8, 0x9, 0xA, 0xB] then 1 else 0)
  else if c < 0x1300 then source (c % 16)
  else if c < 0x1400 then (if c / 16 % 16 ∈ [0x5, 0x8, 0x9, 0xB] then 1 else 0)
  else if c < 0x4000 then 0
  else source (c / 256 % 16) + (if c / 128 % 2 = 1 ∧ c % 16 ≠ 3 then 1 else 0)

/-- The words of an instruction, those of its operands among them: 1 to 4 (R110). -/
def instrWords (i : Instr) : Nat := (encode i).length + operandWords ((encode i).getLastD 0)

/-! ## Sequences of slots -/

/-- Each value stored at its address, in order, and nothing else of memory or of
the devices' writes changed. -/
def StoredAll (n : Nat) : List (Slot × Slot) → State → State → Prop
  | [], s, t => t.mem = s.mem ∧ t.sent = s.sent
  | (a, v) :: rest, s, t => ∃ m : State, m.params = s.params ∧ StoredAt a n v s m ∧ StoredAll n rest m t

/-- Where values pushed one after another go: each `n` bytes below the one before, modulo 2^20 (R271, R281). -/
def pushSlots (n : Nat) : Slot → List Slot → List (Slot × Slot)
  | _, [] => []
  | sp, v :: vs => (low20 (sp - BitVec.ofNat 32 n), v) :: pushSlots n (low20 (sp - BitVec.ofNat 32 n)) vs

/-- `k` values of width `ws` read one after another upwards from `a`, each address modulo 2^20 (R282). -/
def readSlots (ws : Size) : Nat → Slot → State → Except FaultCause (List Slot × State)
  | 0, _, s => .ok ([], s)
  | k + 1, a, s =>
    match busRead s a (nb ws) .read with
    | .error c => .error c
    | .ok (v, s1) =>
      match readSlots ws k (low20 (a + BitVec.ofNat 32 (nb ws))) s1 with
      | .error c => .error c
      | .ok (vs, s2) => .ok (trunc ws v :: vs, s2)

/-! ## The address group -/

/-- A load of the address group, or a copy (R241 to R244, R247, R248), runs: whenever `read` gives its 20-bit operand,
that value goes to register `d`, no flag is written, and the source operand advances `auto`. -/
def RunsLoad (i : Instr) (words : Nat) (d : RegNum) (auto : Option RegNum)
    (read : State → Except FaultCause (Slot × State)) : Prop :=
  i.wf = true → ∀ s v u, read s = .ok (v, u) →
    ∃ t, exec i s = .next t ∧ Effect words 0 .ext (.reg d) (trunc .ext v) .kept auto s t

/-- A store of the address group (R245, R246) runs: whenever `ea` gives its address and four bytes can be written
there, they take the 20-bit value of register `r`, and no flag is written. -/
def RunsStore (i : Instr) (words : Nat) (r : RegNum) (ea : State → Except FaultCause (Slot × State)) : Prop :=
  i.wf = true → ∀ s a u, s.mem.wf → ea s = .ok (a, u) → accepts s a 4 →
    ∃ t, exec i s = .next t ∧ Effect words 0 .ext (.mem a) (trunc .ext (u.base r)) .kept none s t

/-- CMPA, ADDA or SUBA (R256 to R258) runs: whenever `read` gives its source, `rule` says the result for the source and
register `d`, which takes it where `stores`. -/
def RunsAddress (i : Instr) (words : Nat) (d : RegNum) (stores : Bool)
    (read : State → Except FaultCause (Slot × State)) (rule : Slot → Slot → Slot × FlagRule) : Prop :=
  i.wf = true → ∀ s v u, read s = .ok (v, u) →
    ∃ t, exec i s = .next t ∧
      Effect words 0 .ext (if stores then .reg d else .none) (rule (trunc .ext v) (trunc .ext (u.base d))).1
        (rule (trunc .ext v) (trunc .ext (u.base d))).2 none s t

/-- A rotate of the address group (R250) runs: `rule` says the result for C and register `d`, which takes it. -/
def RunsRotate (i : Instr) (ws : Size) (d : RegNum) (rule : Bool → Slot → Slot × FlagRule) : Prop :=
  ∀ s, ∃ t, exec i s = .next t ∧
    Effect 1 0 ws (.reg d) (rule s.flagC (trunc ws (s.base d))).1 (rule s.flagC (trunc ws (s.base d))).2 none s t

/-- The value of a register read as an operand, nothing fetched (R147). -/
def readReg (r : RegNum) (s : State) : Except FaultCause (Slot × State) := .ok (s.base r, s)

/-- The four bytes a register addresses (R150). -/
def readInd (r : RegNum) (s : State) : Except FaultCause (Slot × State) := busRead s (s.base r) 4 .read

/-- A fetched word's address or immediate with bits 19:16 above it (R149, R153). -/
def fetchHigh (hi : BitVec 4) (s : State) : Except FaultCause (Slot × State) :=
  match fetchNext s with
  | .ok (w, s1) => .ok (slotOf (hi.toNat * 65536 + w.toNat), s1)
  | .error c => .error c

/-- An indexed address: the register after the fetch, plus the fetched word as a signed number, modulo 2^20 (R148). -/
def fetchIndexed (r : RegNum) (s : State) : Except FaultCause (Slot × State) :=
  match fetchNext s with
  | .ok (w, s1) => .ok (slotOf ((((s1.base r).toNat : Int) + w.toInt) % 2 ^ 20).toNat, s1)
  | .error c => .error c

/-- A symbolic address: the fetched word's own address, plus the word with `hi` above it as a signed 20-bit number,
modulo 2^20 (R151). -/
def fetchSymbolic (hi : BitVec 4) (s : State) : Except FaultCause (Slot × State) :=
  match fetchNext s with
  | .ok (w, s1) =>
    .ok (slotOf (((s1.pc.toNat : Int) + signed .ext (hi.toNat * 65536 + w.toNat)) % 2 ^ 20).toNat, s1)
  | .error c => .error c

/-- The four bytes at a computed address. -/
def readAt (ea : State → Except FaultCause (Slot × State)) (s : State) : Except FaultCause (Slot × State) :=
  match ea s with
  | .ok (a, s1) => busRead s1 a 4 .read
  | .error c => .error c

/-! ## CALLA -/

/-- The stack pointer a CALLA pushes from: after its operand's autoincrement (R271, R275). -/
def callSp (auto : Option RegNum) (s : State) : Slot := if auto = some 1 then low20 (s.sp + 4) else s.sp

/-- Where a CALLA of `words` words pushes the two halves of its return address, the high half first (R271). -/
def callSlots (words : Nat) (auto : Option RegNum) (s : State) : List (Slot × Slot) :=
  let ret := (low20 (s.pc + BitVec.ofNat 32 (2 * words))).toNat
  pushSlots 2 (callSp auto s) [slotOf (ret / 65536), slotOf (ret % 65536)]

/-- The effect of a CALLA of `words` words to `target`, whose operand advanced `auto` (R271): the return address pushed,
the stack pointer 4 lower, the program counter at the target, no flag written, everything else as it was. -/
structure CallEffect (words : Nat) (target : Slot) (auto : Option RegNum) (s t : State) : Prop where
  halted : t.halted = s.halted
  params : t.params = s.params
  rep : t.rep = repAfter s 0
  pc : t.pc = pcAfter s 0 words (some target)
  store : StoredAll 2 (callSlots words auto s) s t
  sp : t.sp = low20 (callSp auto s - 4)
  srAuto : auto = some 2 → SrWritten s.params s.sr (low20 (s.sr + 4)) t.sr
  advanced : ∀ r, auto = some r → r ≠ 0 → r ≠ 1 → r ≠ 2 → r ≠ 3 → t.reg r = low20 (s.reg r + 4)
  others : ∀ r, r ≠ 0 → r ≠ 1 → r = 3 ∨ auto ≠ some r → t.reg r = s.reg r

/-- A CALLA takes the fault of reading its operand, else that of the first of its two pushes that is not accepted
(R405). -/
def FaultsCall (i : Instr) (words : Nat) (auto : Option RegNum) (read : State → Except FaultCause (Slot × State)) : Prop :=
  FaultsRead i read ∧
    (i.wf = true → ∀ s v u, read s = .ok (v, u) → FaultsAtSlot i 2 (callSlots words auto s) s)

/-- A CALLA runs: whenever `read` gives its operand and both halves of the return address can be pushed (R271). -/
def RunsCall (i : Instr) (words : Nat) (auto : Option RegNum) (read : State → Except FaultCause (Slot × State)) :
    Prop :=
  i.wf = true → ∀ s v u, s.mem.wf → read s = .ok (v, u) → (∀ e ∈ callSlots words auto s, accepts s e.1 2) →
    ∃ t, exec i s = .next t ∧ CallEffect words (trunc .ext v) auto s t

/-- The words a CALLA takes, its extension word among them; 0 for another instruction (R121). -/
def callaWords : Instr → Nat
  | .callaReg _ | .callaInd _ | .callaInc _ => 1
  | .callaIdx _ | .callaAbs _ | .callaSym _ | .callaImm _ => 2
  | _ => 0

/-- The register a CALLA's operand advances. -/
def callaAuto : Instr → Option RegNum
  | .callaInc d => some d
  | _ => none

/-! ## PUSHM and POPM -/

/-- The values a PUSHM of `n + 1` registers pushes, `R[d]` first (R281). -/
def pushValues (ws : Size) (n : BitVec 4) (d : RegNum) (s : State) : List Slot :=
  (List.range (n.toNat + 1)).map (fun k => trunc ws (s.base (Fin.ofNat 16 (d.val - k))))

/-- A PUSHM runs: whenever each slot can be written, the registers are stored there, the stack pointer is lower by as
much, and no flag and no other register changes (R281). -/
def RunsPush (i : Instr) (ws : Size) (n : BitVec 4) (d : RegNum) : Prop :=
  i.wf = true → ∀ s, s.mem.wf → (∀ e ∈ pushSlots (nb ws) s.sp (pushValues ws n d s), accepts s e.1 (nb ws)) →
    ∃ t, exec i s = .next t ∧ t.halted = s.halted ∧ t.params = s.params ∧ t.rep = repAfter s 0 ∧
      t.pc = pcAfter s 0 1 none ∧ StoredAll (nb ws) (pushSlots (nb ws) s.sp (pushValues ws n d s)) s t ∧
      t.sp = low20 (s.sp - BitVec.ofNat 32 (nb ws * (n.toNat + 1))) ∧ ∀ r, r ≠ 0 → r ≠ 1 → t.reg r = s.reg r

/-- A POPM runs: whenever each slot can be read, the registers take the values, R0 as a branch, R2 by R39, R3 not at all;
the stack pointer is higher by as much, and no memory and no other register changes (R282). -/
def RunsPop (i : Instr) (ws : Size) (n : BitVec 4) (d : RegNum) : Prop :=
  i.wf = true → ∀ s vs u, readSlots ws (n.toNat + 1) s.sp s = .ok (vs, u) →
    ∃ t, exec i s = .next t ∧ t.halted = s.halted ∧ t.params = s.params ∧ t.rep = repAfter s 0 ∧
      t.pc = pcAfter s 0 1 (if d = 0 then vs[0]? else none) ∧ t.mem = s.mem ∧ t.sent = s.sent ∧
      t.sp = low20 (s.sp + BitVec.ofNat 32 (nb ws * (n.toNat + 1))) ∧
      (∀ k v (r : RegNum), vs[k]? = some v → r.val = d.val + k → r ≠ 0 → r ≠ 2 → r ≠ 3 → t.reg r = v) ∧
      (∀ k v, vs[k]? = some v → 2 = d.val + k → SrWritten s.params s.sr v t.sr) ∧
      (∀ r : RegNum, r ≠ 0 → r ≠ 1 → (r = 3 ∨ r.val < d.val ∨ d.val + n.toNat < r.val) → t.reg r = s.reg r)

/-! ## The decoder's record (R46) -/

/-- The mode of a source operand (R130, R140). -/
def srcMode : Src → AddressingMode
  | .reg _ => .register
  | .indexed _ => .indexed
  | .symbolic => .symbolic
  | .absolute => .absolute
  | .indirect _ => .indirectRegister
  | .autoinc _ => .indirectAutoincrement
  | .immediate | .const _ => .immediate

/-- The mode of a destination operand (R131, R140). -/
def dstMode : Dst → AddressingMode
  | .reg _ => .register
  | .indexed _ => .indexed
  | .symbolic => .symbolic
  | .absolute => .absolute
  | .constZero | .constOne => .immediate

/-- The constant generator gives the source operand (R140). -/
def srcConstant : Src → Bool
  | .const _ => true
  | _ => false

/-- The constant generator gives the destination operand (R140). -/
def dstConstant : Dst → Bool
  | .constZero | .constOne => true
  | _ => false

/-- The record of a source operand that the execution resolves to `a` (R46, R130, R140, R146, R147). -/
def SrcRecorded (ws : Size) (src : Src) (a : Operand) (o : OperandRecord) : Prop :=
  o.value = some a.value ∧ (∀ ea, o.resolvedAddress = some ea ↔ a.place = .mem ea) ∧ o.registerIndex = some (srcReg src) ∧
    o.addressingMode = srcMode src ∧ o.wordSize = ws ∧ o.needsValueFetch = true ∧ o.usedConstantGenerator = srcConstant src

/-- The record of a destination operand that the execution resolves to `b`, where it is read and where it is not (R46,
R131, R140, R146, R147). -/
def DstRecorded (ws : Size) (reads : Bool) (dst : Dst) (b : Operand) (o : OperandRecord) : Prop :=
  (∀ v, o.value = some v ↔ (reads = true ∨ dstConstant dst = true) ∧ v = b.value) ∧
    (∀ ea, o.resolvedAddress = some ea ↔ b.place = .mem ea) ∧ o.registerIndex = some (dstReg dst) ∧
    o.addressingMode = dstMode dst ∧ o.wordSize = ws ∧ o.needsValueFetch = reads ∧
    o.usedConstantGenerator = dstConstant dst

/-- The record of a two-operand instruction holds the operands its execution resolves. -/
def RecordsI (i : Instr) (ws : Size) (x : Option Ext) (src : Src) (dst : Dst) (reads : Bool) : Prop :=
  i.wf = true → ∀ s a s1 b s2, (0 < count x s → dst ≠ .reg 0) →
    resolveSrc ws (x.bind extSrcHi) src (operandState x s) = .ok (a, s1) →
    resolveDst ws (x.bind extDstHi) reads dst s1 = .ok (b, s2) →
    ∃ r o q, instrRecord (encode i) s = .ok r ∧ r.source = some o ∧ SrcRecorded ws src a o ∧
      r.destination = some q ∧ DstRecorded ws reads dst b q

/-- The same of the four forms of a two-operand operation. -/
def RecordsAllI (plain : BW → Src → Dst → Instr) (xA xW xB : Ext → Src → Dst → Instr) (reads : Bool) : Prop :=
  ∀ src dst,
    (∀ bw, RecordsI (plain bw src dst) (sizeOf bw) none src dst reads) ∧
    (∀ x, RecordsI (xA x src dst) .ext (some x) src dst reads) ∧
    (∀ x, RecordsI (xW x src dst) .word (some x) src dst reads) ∧
    (∀ x, RecordsI (xB x src dst) .byte (some x) src dst reads)

/-- The record of a one-operand instruction holds the operand its execution resolves. -/
def RecordsII (i : Instr) (ws : Size) (x : Option Ext) (opd : Src) : Prop :=
  i.wf = true → ∀ s a s1, (0 < count x s → opd ≠ .reg 0) →
    resolveSrc ws (x.bind extDstHi) opd (operandState x s) = .ok (a, s1) →
    ∃ r o, instrRecord (encode i) s = .ok r ∧ r.source = some o ∧ SrcRecorded ws opd a o ∧ r.destination = none

/-- The record of a fixed-mode operand that is read: its value `v` masked to the width, its address `a` where it has one,
and no constant generator (R119 to R122, R140, R146, R147). -/
def fixedRecord (mode : AddressingMode) (index : Option RegNum) (ws : Size) (v : Slot) (a : Option Slot) :
    OperandRecord := ⟨some (trunc ws v), a, index, mode, ws, true, false⟩

/-- The record of a fixed-mode register operand read in a state. -/
def registerRecord (ws : Size) (d : RegNum) (u : State) : OperandRecord :=
  fixedRecord .register (some d) ws (u.base d) none

/-- The address a computation gives, where it gives one. -/
def addressOf (ea : State → Except FaultCause (Slot × State)) (s : State) : Option Slot :=
  match ea s with
  | .ok (a, _) => some a
  | .error _ => none

/-- The record of a fixed-mode instruction: whenever `read` gives its source, the operands of the record are `source` of
the state and the value, and `destination` of the state after the read (R119 to R122). -/
def RecordsFixed (i : Instr) (read : State → Except FaultCause (Slot × State)) (source : State → Slot → OperandRecord)
    (destination : State → Option OperandRecord) : Prop :=
  i.wf = true → ∀ s v u, read s = .ok (v, u) →
    ∃ r, instrRecord (encode i) s = .ok r ∧ r.source = some (source s v) ∧ r.destination = destination u

/-- The record of a MOVA to memory: the register as the source, and a destination at the address `ea` gives, which is not
read (R119, R146, R240). -/
def RecordsStore (i : Instr) (r : RegNum) (mode : AddressingMode) (index : Option RegNum)
    (ea : State → Except FaultCause (Slot × State)) : Prop :=
  ∀ s a u, ea s = .ok (a, u) →
    ∃ rec, instrRecord (encode i) s = .ok rec ∧ rec.source = some (registerRecord .ext r u) ∧
      rec.destination = some ⟨none, some a, index, mode, .ext, false, false⟩

/-- A number the word itself holds, as an operand that nothing is fetched for (R153). -/
def readCount (k : Nat) (s : State) : Except FaultCause (Slot × State) := .ok (slotOf k, s)

/-- The opcode fields of the record of a core word (R112, R113, R114). -/
def OpcodeFields (core : Word) (r : InstrRecord) : Prop :=
  let c := core.toNat
  r.majorOpcode = (if c < 0x1000 then 0 else if c < 0x4000 then c / 1024 * 4 else c / 256) ∧
    r.minorOpcode =
      (if c < 0x1000 then c / 16 % 16 else if c < 0x1300 then c / 128 % 8 else if c < 0x1400 then c / 16
        else if c < 0x2000 then c / 256 else if c < 0x4000 then c / 1024 % 8 else 0) ∧
    (0x4000 ≤ c → r.format = some 1) ∧ (0x1000 ≤ c → c < 0x1300 → r.format = some 2) ∧
    (0x2000 ≤ c → c < 0x4000 → r.format = some 3)

/-! ## The rules of spec/40, as numbers -/

/-- MOV (R178). -/
def movRule (_ : Size) (_ : Bool) (a _ : Slot) : Slot × FlagRule := (a, .kept)

/-- ADD, ADDC, ADDA with the given carry input (R173). -/
def addRule (ws : Size) (cin : Bool) (a b : Slot) : Slot × FlagRule :=
  let sum := a.toNat + b.toNat + (if cin then 1 else 0)
  let r := sum % full ws
  (slotOf r, .written (decide (full ws ≤ sum)) (decide (r = 0)) (isNeg ws r)
    (some (isNeg ws a.toNat == isNeg ws b.toNat && isNeg ws r != isNeg ws a.toNat)))

/-- The flags of the subtract group for source `a`, destination `b` and result `r` (R174). -/
def subFlagRule (ws : Size) (a b r : Nat) : FlagRule :=
  .written (decide (a ≤ b)) (decide (r = 0)) (isNeg ws r)
    (some (isNeg ws a != isNeg ws b && isNeg ws b != isNeg ws r))

/-- SUB, CMP, SUBA, CMPA (R174). -/
def subRule (ws : Size) (_ : Bool) (a b : Slot) : Slot × FlagRule :=
  let r := (b.toNat + full ws - a.toNat) % full ws
  (slotOf r, subFlagRule ws a.toNat b.toNat r)

/-- SUBC (R174). -/
def subcRule (ws : Size) (cin : Bool) (a b : Slot) : Slot × FlagRule :=
  let r := (b.toNat + (full ws - 1 - a.toNat) + (if cin then 1 else 0)) % full ws
  (slotOf r, subFlagRule ws a.toNat b.toNat r)

/-- AND, BIT (R175). -/
def andRule (ws : Size) (_ : Bool) (a b : Slot) : Slot × FlagRule :=
  let r := a.toNat &&& b.toNat
  (slotOf r, .written (decide (r ≠ 0)) (decide (r = 0)) (isNeg ws r) (some false))

/-- XOR (R176). -/
def xorRule (ws : Size) (_ : Bool) (a b : Slot) : Slot × FlagRule :=
  let r := a.toNat ^^^ b.toNat
  (slotOf r, .written (decide (r ≠ 0)) (decide (r = 0)) (isNeg ws r) (some (isNeg ws a.toNat && isNeg ws b.toNat)))

/-- BIC (R177). -/
def bicRule (_ : Size) (_ : Bool) (a b : Slot) : Slot × FlagRule := (b &&& ~~~ a, .kept)

/-- BIS (R177). -/
def bisRule (_ : Size) (_ : Bool) (a b : Slot) : Slot × FlagRule := (b ||| a, .kept)

/-- DADD, by its digit loop (R179). -/
def daddRule (ws : Size) (cin : Bool) (a b : Slot) : Slot × FlagRule :=
  let p := daddDigits (digits ws) a.toNat b.toNat (if cin then 1 else 0)
  (slotOf p.1, .written (decide (0 < p.2)) (decide (p.1 = 0)) (isNeg ws p.1) none)

/-- The flags after a right shift whose last bit out is `c` (R181). -/
def shiftFlagRule (ws : Size) (c : Bool) (r : Nat) : FlagRule :=
  .written c (decide (r = 0)) (isNeg ws r) (some false)

/-- Rotate right through carry `n` times: the value with the carry above it is one number of w + 1 bits (R180, R181). -/
def rrcRule (ws : Size) (n : Nat) (cin : Bool) (v : Slot) : Slot × FlagRule :=
  let x := v.toNat + (if cin then full ws else 0)
  let y := x / 2 ^ n + x % 2 ^ n * (2 * full ws / 2 ^ n)
  (slotOf (y % full ws), shiftFlagRule ws (decide (full ws ≤ y)) (y % full ws))

/-- Arithmetic shift right `n` times (R180, R181). -/
def rraRule (ws : Size) (n : Nat) (_ : Bool) (v : Slot) : Slot × FlagRule :=
  let r := (signed ws v.toNat / 2 ^ n % full ws).toNat
  (slotOf r, shiftFlagRule ws (decide (v.toNat / 2 ^ (n - 1) % 2 = 1)) r)

/-- Shift left `n` times; V is a draw (R180, R181). -/
def rlaRule (ws : Size) (n : Nat) (_ : Bool) (v : Slot) : Slot × FlagRule :=
  let r := v.toNat * 2 ^ n % full ws
  (slotOf r, .written (decide (v.toNat / 2 ^ (bits ws - n) % 2 = 1)) (decide (r = 0)) (isNeg ws r) none)

/-- Logical shift right `n` times (R180, R181). -/
def rruRule (ws : Size) (n : Nat) (_ : Bool) (v : Slot) : Slot × FlagRule :=
  let r := v.toNat / 2 ^ n
  (slotOf r, shiftFlagRule ws (decide (v.toNat / 2 ^ (n - 1) % 2 = 1)) r)

/-- SWPB (R182). -/
def swpbRule (_ : Bool) (v : Slot) : Slot × FlagRule :=
  (slotOf (v.toNat % 256 * 256 + v.toNat / 256 % 256), .kept)

/-- SXT (R183). -/
def sxtRule (_ : Bool) (v : Slot) : Slot × FlagRule :=
  let r := if v.toNat % 256 < 128 then v.toNat % 256 else v.toNat % 256 + 0xFF00
  (slotOf r, .written (decide (r ≠ 0)) (decide (r = 0)) (isNeg .word r) (some false))

/-- Z, C and N xor V say how the source `a` and the destination `b` compare at a width: equal, destination at least the
source as unsigned numbers, destination less than the source as signed numbers. -/
def FlagsOrder (ws : Size) (a b : Slot) (t : State) : Prop :=
  t.flagZ = decide (a = b) ∧ t.flagC = decide (a.toNat ≤ b.toNat) ∧
    ((t.flagN != t.flagV) = decide (signed ws b.toNat < signed ws a.toNat))

/-- The decimal number in the `n` low digits of `v`. -/
def decimal : Nat → Nat → Nat
  | 0, _ => 0
  | n + 1, v => v % 16 + 10 * decimal n (v / 16)

/-- Each of the `n` low digits of `v` is a decimal digit. -/
def isDecimal : Nat → Nat → Prop
  | 0, _ => True
  | n + 1, v => v % 16 ≤ 9 ∧ isDecimal n (v / 16)

end Sys2Proof.Machine
end

