-- ==== Sys2Proof/Certificates/Slice0/Obligations.lean ====
section
/-! DEFINITION. The statements for the provers. Each says what a rule of spec/ says of the machine, or a law of the whole
machine; OBLIGATIONS.json gives each its rule. -/

open Sys2Proof Sys2Proof.Machine

/-- Decoding the words of a well-formed instruction gives it back. For every well-formed instruction, the decoder
reads it from its encoded words, whatever words follow, and leaves those. (Derived: 30_encoding.md sections 2 to
7: the encoding tables, reserved rows included.) -/
def Obligations.DecodeOfEncode : Prop :=
  ∀ (i : Instr) (rest : List Word), i.wf = true → decode (encode i ++ rest) = .ok (i, rest)

/-- What the decoder reads is well formed, and encodes to the words it was read from. Whenever the decoder answers an
instruction and a rest, the instruction is well formed and the words are its encoding followed by the rest: each
word sequence has one meaning and no bit is dropped. (Derived: 30_encoding.md sections 1 to 7: the top-level
decode and the encoding tables.) -/
def Obligations.EncodeOfDecode : Prop :=
  ∀ (ws rest : List Word) (i : Instr), decode ws = .ok (i, rest) → i.wf = true ∧ ws = encode i ++ rest

/-- Every word selects an instruction, but for a PUSHM or POPM whose register range is illegal. The decoder answers
an instruction for every core word and the word after it, except that a word 0x14xx to 0x17xx whose register
range is illegal is refused by name; a PUSHM range is illegal when it goes below R0, a POPM range when it goes
above R15 or includes R1. (Derived: 30_encoding.md section 7: R160, R162; 45_pushm_popm.md section 1: R280.) -/
def Obligations.DecoderTotal : Prop :=
  ∀ w c : Word,
    ((∃ i rest, decode [w, c] = .ok (i, rest)) ∨ decode [w, c] = .error .reservedOpcode) ∧
    (decode [w, c] = .error .reservedOpcode ↔
      ((0x1400 ≤ w.toNat ∧ w.toNat < 0x1600 ∧ w.toNat % 16 < w.toNat / 16 % 16) ∨
        (0x1600 ≤ w.toNat ∧ w.toNat < 0x1800 ∧
          (15 < w.toNat % 16 + w.toNat / 16 % 16 ∨
            (w.toNat % 16 ≤ 1 ∧ 1 ≤ w.toNat % 16 + w.toNat / 16 % 16)))))

/-- Words written out from the encoding tables decode to their instructions. 0x4035, 0x43C1 after 0x1800, 0x04C5,
0x00B1, 0x144A, 0x3FFF, 0x1345, 0x1105, 0x0655 decode to MOV #N,R5, MOVX.A #0,x(SP), MOVA R4,R5, SUBA #imm,SP,
PUSHM.A #5,R10, JMP with offset -1, CALLA R5, RRA R5 and RLAM.W #2,R5. (Derived: 95_test_vectors.md section 1;
30_encoding.md section 2.) -/
def Obligations.SpecWordsDecode : Prop :=
  decode [0x4035] = .ok (.mov .word .immediate (.reg 5), []) ∧
  decode [0x1800, 0x43C1] = .ok (.movxA (.memForm 0 0 0) (.const .zero) (.indexed 1), []) ∧
  decode [0x04C5] = .ok (.movaReg 4 5, []) ∧
  decode [0x00B1] = .ok (.subaImm 0 1, []) ∧
  decode [0x144A] = .ok (.pushmA 4 10, []) ∧
  decode [0x3FFF] = .ok (.jmp 0x3FF, []) ∧
  decode [0x1345] = .ok (.callaReg 5, []) ∧
  decode [0x1105] = .ok (.rra .word (.reg 5), []) ∧
  decode [0x0655] = .ok (.rlamW 1 5, [])

/-- The opcode, op2, cond, minor and id fields select the instruction, and its operand fields are those of its group.
Without an extension word: core[15:12] = 4 to 15 selects MOV, ADD, ADDC, SUBC, SUB, CMP, DADD, BIT, BIC, BIS,
XOR, AND; op2 = core[9:7] selects RRC, SWPB, RRA, SXT, PUSH, CALL; cond = core[12:10] selects JNZ, JZ, JNC, JC,
JN, JGE, JL, JMP; core[7:4] of the address group selects its form and core[9:8] the rotate; core[15:4] selects
RETI, the form of CALLA or a reserved minor; core[15:8] = 0x14 to 0x17 selects PUSHM.A, PUSHM.W, POPM.A, POPM.W.
After an extension word, core[15:12] or op2 selects the operation, and al with bw the width or the reserved row.
Each with the fields of spec/30_encoding.md. As or Ad with its register selects the mode: register, indexed,
indirect and autoincrement; for register 0 SYMBOLIC with As or Ad = 1 and IMMEDIATE with As = 3; for register 2
ABSOLUTE with As or Ad = 1 and the constants 4 and 8; for register 3 the constants. (Derived: 30_encoding.md
sections 1 to 5: R111, R115 to R126, R130, R131, R140.) -/
def Obligations.FieldsSelectInstruction : Prop :=
  (∀ core : Word,
      let c := core.toNat
      let bw : BW := if c / 64 % 2 = 0 then .word else .byte
      let low : RegNum := Fin.ofNat 16 (c % 16)
      let high : RegNum := Fin.ofNat 16 (c / 256 % 16)
      let lowBits := BitVec.ofNat 4 (c % 16)
      let highBits := BitVec.ofNat 4 (c / 256 % 16)
      let count := BitVec.ofNat 4 (c / 16 % 16)
      let opd := srcOf low (c / 16 % 4)
      (∀ p ∈ [(4, Instr.mov), (5, .add), (6, .addc), (7, .subc), (8, .sub), (9, .cmp), (10, .dadd), (11, .bit),
          (12, .bic), (13, .bis), (14, .xor), (15, .and)],
        c / 4096 = p.1 →
          decode [core] = .ok (p.2 bw (srcOf high (c / 16 % 4)) (dstOf low (decide (c / 128 % 2 = 1))), [])) ∧
      (∀ p ∈ [(0, Instr.rrc bw opd), (1, if bw = .word then .swpb opd else .swpbB opd), (2, .rra bw opd),
          (3, if bw = .word then .sxt opd else .sxtB opd), (4, .push bw opd), (5, .call bw opd)],
        c / 128 = 32 + p.1 → decode [core] = .ok (p.2, [])) ∧
      (∀ p ∈ [(0, Instr.jnz), (1, .jz), (2, .jnc), (3, .jc), (4, .jn), (5, .jge), (6, .jl), (7, .jmp)],
        c / 1024 = 8 + p.1 → decode [core] = .ok (p.2 (BitVec.ofNat 10 (c % 1024)), [])) ∧
      (∀ p ∈ [(0x0, Instr.movaInd high low), (0x1, if high = 0 then .reservedMovaPcInc low else .movaInc high low),
          (0x2, .movaAbs highBits low), (0x3, .movaIdx high low), (0x6, .movaToAbs high lowBits),
          (0x7, .movaToIdx high low), (0x8, .movaImm highBits low), (0x9, .cmpaImm highBits low),
          (0xA, .addaImm highBits low), (0xB, .subaImm highBits low), (0xC, .movaReg high low),
          (0xD, .cmpaReg high low), (0xE, .addaReg high low), (0xF, .subaReg high low)],
        c < 0x1000 → c / 16 % 16 = p.1 → decode [core] = .ok (p.2, [])) ∧
      (∀ p ∈ [(4, 0, Instr.rrcmA), (4, 1, .rramA), (4, 2, .rlamA), (4, 3, .rrumA), (5, 0, .rrcmW), (5, 1, .rramW),
          (5, 2, .rlamW), (5, 3, .rrumW)],
        c < 0x1000 → c / 16 % 16 = p.1 → c / 256 % 4 = p.2.1 →
          decode [core] = .ok (p.2.2 (BitVec.ofNat 2 (c / 1024)) low, [])) ∧
      (∀ p ∈ [(0x130, Instr.reti lowBits), (0x131, .reservedMinor131 lowBits), (0x132, .reservedMinor132 lowBits),
          (0x133, .reservedMinor133 lowBits), (0x134, .callaReg low), (0x135, .callaIdx low), (0x136, .callaInd low),
          (0x137, if low = 0 then .reservedCallaPcInc else .callaInc low), (0x138, .callaAbs lowBits),
          (0x139, .callaSym lowBits), (0x13A, .reservedMinor13A lowBits), (0x13B, .callaImm lowBits)],
        c / 16 = p.1 → decode [core] = .ok (p.2, [])) ∧
      (0x13C0 ≤ c → c < 0x1400 → decode [core] = .ok (.reservedMinor13C (BitVec.ofNat 6 (c % 64)), [])) ∧
      (∀ p ∈ [(0x14, Instr.pushmA), (0x15, .pushmW)],
        c / 256 = p.1 → c / 16 % 16 ≤ c % 16 → decode [core] = .ok (p.2 count low, [])) ∧
      ∀ p ∈ [(0x16, Instr.popmA), (0x17, .popmW)],
        c / 256 = p.1 → c % 16 + c / 16 % 16 ≤ 15 → (2 ≤ c % 16 ∨ c % 256 = 0) →
          decode [core] = .ok (p.2 count low, [])) ∧
    (∀ pre core : Word, pre.toNat / 2048 = 3 →
      let q := pre.toNat
      let c := core.toNat
      let low : RegNum := Fin.ofNat 16 (c % 16)
      let regForm := Ext.regForm (BitVec.ofNat 2 (q / 512 % 4)) (decide (q / 256 % 2 = 1)) (decide (q / 128 % 2 = 1))
        (BitVec.ofNat 2 (q / 16 % 4)) (Fin.ofNat 16 (q % 16))
      let memForm := Ext.memForm (BitVec.ofNat 4 (q / 128 % 16)) (BitVec.ofNat 2 (q / 16 % 4)) (BitVec.ofNat 4 (q % 16))
      (∀ p ∈ [(4, Instr.movxA, .movxW, .movxB, .reservedMovx), (5, .addxA, .addxW, .addxB, .reservedAddx),
          (6, .addcxA, .addcxW, .addcxB, .reservedAddcx), (7, .subcxA, .subcxW, .subcxB, .reservedSubcx),
          (8, .subxA, .subxW, .subxB, .reservedSubx), (9, .cmpxA, .cmpxW, .cmpxB, .reservedCmpx),
          (10, .daddxA, .daddxW, .daddxB, .reservedDaddx), (11, .bitxA, .bitxW, .bitxB, .reservedBitx),
          (12, .bicxA, .bicxW, .bicxB, .reservedBicx), (13, .bisxA, .bisxW, .bisxB, .reservedBisx),
          (14, .xorxA, .xorxW, .xorxB, .reservedXorx), (15, .andxA, .andxW, .andxB, .reservedAndx)],
        c / 4096 = p.1 →
          decode [pre, core] = .ok (
            (if q / 64 % 2 = 0 then (if c / 64 % 2 = 1 then p.2.1 else p.2.2.2.2)
              else (if c / 64 % 2 = 0 then p.2.2.1 else p.2.2.2.1))
              (if c / 16 % 4 = 0 ∧ c / 128 % 2 = 0 then regForm else memForm) (srcOf (Fin.ofNat 16 (c / 256 % 16)) (c / 16 % 4))
              (dstOf low (decide (c / 128 % 2 = 1))), [])) ∧
      ∀ p ∈ [(0, Instr.rrcxA, .rrcxW, .rrcxB, .reservedRrcx), (1, .swpbxA, .swpbxW, .swpbxB, .reservedSwpbx),
          (2, .rraxA, .rraxW, .rraxB, .reservedRrax), (3, .sxtxA, .sxtxW, .sxtxB, .reservedSxtx),
          (4, .pushxA, .pushxW, .pushxB, .reservedPushx), (5, .callxA, .callxW, .callxB, .reservedCallx)],
        c / 128 = 32 + p.1 →
          decode [pre, core] = .ok (
            (if q / 64 % 2 = 0 then (if c / 64 % 2 = 1 then p.2.1 else p.2.2.2.2)
              else (if c / 64 % 2 = 0 then p.2.2.1 else p.2.2.2.1))
              (if c / 16 % 4 = 0 then regForm else memForm) (srcOf low (c / 16 % 4)), [])) ∧
    (∀ r : RegNum, r ≠ 0 → r ≠ 2 → r ≠ 3 →
      srcOf r 0 = .reg r ∧ srcOf r 1 = .indexed r ∧ srcOf r 2 = .indirect r ∧ srcOf r 3 = .autoinc r ∧
        dstOf r false = .reg r ∧ dstOf r true = .indexed r) ∧
    (srcOf 0 0 = .reg 0 ∧ srcOf 0 1 = .symbolic ∧ srcOf 0 2 = .indirect 0 ∧ srcOf 0 3 = .immediate ∧
      dstOf 0 false = .reg 0 ∧ dstOf 0 true = .symbolic) ∧
    (srcOf 2 0 = .reg 2 ∧ srcOf 2 1 = .absolute ∧ srcOf 2 2 = .const .four ∧ srcOf 2 3 = .const .eight ∧
      dstOf 2 false = .reg 2 ∧ dstOf 2 true = .absolute) ∧
    srcOf 3 0 = .const .zero ∧ srcOf 3 1 = .const .one ∧ srcOf 3 2 = .const .two ∧ srcOf 3 3 = .const .minusOne ∧
      dstOf 3 false = .constZero ∧ dstOf 3 true = .constOne

/-- A step runs the instruction whose words lie at the program counter. In a running state whose memory holds the
words of a well-formed instruction from the program counter on, the second word 2 further modulo 2^20, step is
exec of that instruction at that state. (Derived: 47_extension_prefix.md section 2: R313; 30_encoding.md section
1: R111.) -/
def Obligations.StepRunsTheDecoded : Prop :=
  ∀ (s : State) (i : Instr), s.running → i.wf = true → s.holdsWords s.pc (encode i) → step s = exec i s

/-- Once the block has halted no later cycle runs. At a state that has halted, step answers no next state: it answers
the fault that ended the run. (Stated: R45.) -/
def Obligations.HaltedRunsNoCycle : Prop :=
  ∀ (s : State) (h : Halt), s.halted = some h → step s = .fault (.halted h)

/-- Every step of a running state answers a next state. In every running state, step answers a next state: the
decoder is total and every fault is taken as a halted state, so that nothing is refused. (Derived:
47_extension_prefix.md section 2: R313; 30_encoding.md section 7: R162; 60_exceptions.md section 1: R402.) -/
def Obligations.RunningStepCompletes : Prop :=
  ∀ s : State, s.running → ∃ t, step s = .next t

/-- exec of every instruction answers a next state in every state. Whatever the instruction and the state, exec
answers a next state and never refuses. (Derived: 30_encoding.md section 7: R162; 60_exceptions.md section 1:
R402.) -/
def Obligations.ExecCompletes : Prop :=
  ∀ (i : Instr) (s : State), ∃ t, exec i s = .next t

/-- A cycle that faults changes nothing but the halt record. When a step of a running state leaves it halted, every
register, flag, memory byte, device write and the repetition state is as it was when the cycle began; only halted
changes, and it records the address of the cycle's first word. (The model's own count of device reads may have
advanced in the fetch: log entry 22.) (Derived: 60_exceptions.md section 1: R401, R402, R403.) -/
def Obligations.FaultsArePrecise : Prop :=
  ∀ s t : State, s.running → step s = .next t → t.halted ≠ none →
    ∃ c n, t = { s with halted := some ⟨c, s.pc⟩, deviceReads := n }

/-- A fetch of any word of an instruction whose bytes are not all in memory faults with AddressOutOfRange. In a
running state, a step takes AddressOutOfRange for a fetch of 2 bytes where the program counter belongs to memory
and is above MEM_SIZE - 2, and so for the core word 2 above an extension word. The same fetch of an index,
absolute or immediate word is the fault of the operand that takes it. A fetch whose two bytes are in memory, the
first odd or even, gives the little-endian word there. A further word is fetched 2 above, modulo 2^20. A write of
R0 at a width stores the value masked to that width. (Stated: R36.) -/
def Obligations.FetchOutOfRange : Prop :=
  (∀ s : State, s.running → resolve s.params s.pc = .memory → Config.memSize < s.pc.toNat + 2 →
      step s = .next (s.takeFault (.addressOutOfRange s.pc 2 .fetch))) ∧
    (∀ s : State, let next := low20 (s.pc + 2)
      resolve s.params next = .memory → Config.memSize < next.toNat + 2 →
      (∀ w : Word, s.running → s.holdsWords s.pc [w] → 0x1800 ≤ w.toNat → w.toNat < 0x2000 →
        step s = .next (s.takeFault (.addressOutOfRange next 2 .fetch))) ∧
      fetchNext s = .error (.addressOutOfRange next 2 .fetch) ∧
      ∀ ws hi,
        (∀ src, src = .immediate ∨ src = .absolute ∨ src = .symbolic ∨ (∃ r, src = .indexed r) →
          resolveSrc ws hi src s = .error (.addressOutOfRange next 2 .fetch)) ∧
        ∀ reads dst, dst = .absolute ∨ dst = .symbolic ∨ (∃ r, dst = .indexed r) →
          resolveDst ws hi reads dst s = .error (.addressOutOfRange next 2 .fetch)) ∧
    (∀ s : State, resolve s.params s.pc = .memory → s.pc.toNat + 2 ≤ Config.memSize →
      fetchHere s = .ok (BitVec.ofNat 16
        ((s.mem.get s.pc.toNat).toNat + 256 * (s.mem.get (s.pc.toNat + 1)).toNat), s)) ∧
    (∀ (s t : State) (w : Word), fetchNext s = .ok (w, t) → t.pc.toNat = (s.pc.toNat + 2) % 2 ^ 20) ∧
    (∀ (s : State) (v : Slot) (ws : Size), ((s.writeReg 0 v ws).pc).toNat = v.toNat % 2 ^ bits ws)

/-- A prefix before another group, and a PUSHM or POPM with an illegal register range, are ReservedOpcode. In a
running state: when the word at the program counter is an extension word and the word after it, both in memory,
has a high byte other than 0x10 to 0x12 and 0x40 to 0xFF, a step takes ReservedOpcode with both words; when the
word at the program counter, in memory, is a PUSHM whose range goes below R0, or a POPM whose range goes above
R15 or includes R1, a step takes ReservedOpcode with that word. (Derived: 47_extension_prefix.md section 1: R310;
45_pushm_popm.md section 1: R280; 30_encoding.md section 7: R160.) -/
def Obligations.ReservedWordsHalt : Prop :=
  (∀ (s : State) (w c : Word), s.running → s.holdsWords s.pc [w, c] →
      0x1800 ≤ w.toNat → w.toNat < 0x2000 →
      (c.toNat < 0x1000 ∨ (0x1300 ≤ c.toNat ∧ c.toNat < 0x4000)) →
      step s = .next (s.takeFault (.reservedOpcode [w, c]))) ∧
    ∀ (s : State) (w : Word), s.running → s.holdsWords s.pc [w] →
      ((0x1400 ≤ w.toNat ∧ w.toNat < 0x1600 ∧ w.toNat % 16 < w.toNat / 16 % 16) ∨
        (0x1600 ≤ w.toNat ∧ w.toNat < 0x1800 ∧
          (15 < w.toNat % 16 + w.toNat / 16 % 16 ∨
            (w.toNat % 16 ≤ 1 ∧ 1 ≤ w.toNat % 16 + w.toNat / 16 % 16)))) →
      step s = .next (s.takeFault (.reservedOpcode [w]))

/-- Every RESERVED row of the opcode table halts with ReservedOpcode and its words. The thirty reserved instructions
(an extended instruction with al = bw = 0, a prefix before another group, @PC+ of MOVA and CALLA, the reserved
minors) take ReservedOpcode with their own words in every state, so that only halted changes. (Derived:
30_encoding.md section 7: R160; 44_calla_reti.md section 2: R279; 60_exceptions.md section 1: R401, R402.) -/
def Obligations.ReservedRowsHalt : Prop :=
  ∀ s : State,
    (∀ x src dst, ∀ i ∈ [Instr.reservedMovx x src dst, .reservedAddx x src dst, .reservedAddcx x src dst,
        .reservedSubcx x src dst, .reservedSubx x src dst, .reservedCmpx x src dst, .reservedDaddx x src dst,
        .reservedBitx x src dst, .reservedBicx x src dst, .reservedBisx x src dst, .reservedXorx x src dst,
        .reservedAndx x src dst], exec i s = .next (s.takeFault (.reservedOpcode (encode i)))) ∧
    (∀ x opd, ∀ i ∈ [Instr.reservedRrcx x opd, .reservedSwpbx x opd, .reservedRrax x opd, .reservedSxtx x opd,
        .reservedPushx x opd, .reservedCallx x opd], exec i s = .next (s.takeFault (.reservedOpcode (encode i)))) ∧
    (∀ p lo12 lo8 lo10 lo11 lo13, ∀ i ∈ [Instr.reservedPrefixAddr p lo12, .reservedPrefixCalla p lo8,
        .reservedPrefixPushm p lo10, .reservedPrefixPrefix p lo11, .reservedPrefixJump p lo13],
      exec i s = .next (s.takeFault (.reservedOpcode (encode i)))) ∧
    (∀ d lo lo6, ∀ i ∈ [Instr.reservedMovaPcInc d, .reservedCallaPcInc, .reservedMinor131 lo, .reservedMinor132 lo,
        .reservedMinor133 lo, .reservedMinor13A lo, .reservedMinor13C lo6],
      exec i s = .next (s.takeFault (.reservedOpcode (encode i))))

/-- RETI, PUSH, CALL and SWPB or SXT at another width than WORD halt with UnimplementedInstruction. RETI takes
UnimplementedInstruction in every state; the others take it with their words once their operand is resolved, or
the fault of that resolution; a repeated one whose operand is R0 is ReservedOpcode first. Only halted changes.
(That a later execution of a repetition makes this check on the field as it then reads is the model's reading:
log entry 12.) (Derived: 30_encoding.md section 7: R161; 44_calla_reti.md section 1: R270; 46_single_operand.md
sections 2 and 4: R293, R294, R298; 60_exceptions.md section 1: R405.) -/
def Obligations.UnimplementedRowsHalt : Prop :=
  (∀ ign s, exec (.reti ign) s = .next (s.takeFault (.unimplementedInstruction (encode (.reti ign))))) ∧
    (∀ opd s, ∀ p ∈ [(Instr.swpbB opd, Size.byte), (.sxtB opd, .byte), (.push .word opd, .word), (.push .byte opd, .byte),
        (.call .word opd, .word), (.call .byte opd, .byte)],
      (∀ o u, resolveSrc p.2 none opd s = .ok (o, u) →
        exec p.1 s = .next (s.takeFault (.unimplementedInstruction (encode p.1)))) ∧
      (∀ c, resolveSrc p.2 none opd s = .error c → exec p.1 s = .next (s.takeFault c))) ∧
    (∀ x opd s, ∀ p ∈ [(Instr.swpbxA x opd, Size.ext), (.swpbxB x opd, .byte), (.sxtxA x opd, .ext), (.sxtxB x opd, .byte),
        (.pushxA x opd, .ext), (.pushxW x opd, .word), (.pushxB x opd, .byte), (.callxA x opd, .ext),
        (.callxW x opd, .word), (.callxB x opd, .byte)],
      (0 < count (some x) s → opd = .reg 0 → exec p.1 s = .next (s.takeFault (.reservedOpcode (encode p.1)))) ∧
      ((0 < count (some x) s → opd ≠ .reg 0) →
        (∀ o u, resolveSrc p.2 (extDstHi x) opd (operandState (some x) s) = .ok (o, u) →
          exec p.1 s = .next (s.takeFault (.unimplementedInstruction (encode p.1)))) ∧
        (∀ c, resolveSrc p.2 (extDstHi x) opd (operandState (some x) s) = .error c →
          exec p.1 s = .next (s.takeFault c))))

/-- A repeated instruction with destination R0 is ReservedOpcode. Every extended format I instruction with
destination register R0, and every extended RRC, RRA, SWPB and SXT with operand register R0, takes ReservedOpcode
with its words when its repetition count is above 0. (In a later execution of a repetition, whose field R314
ignores as a count, the check is made on the field as it then reads: the model's reading, log entry 12.)
(Derived: 47_extension_prefix.md section 2: R315; 30_encoding.md section 7: R160.) -/
def Obligations.RepeatedPcReserved : Prop :=
  ∀ (x : Ext) (s : State), 0 < count (some x) s →
    (∀ src, ∀ i ∈ [Instr.movxA x src (.reg 0), .movxW x src (.reg 0), .movxB x src (.reg 0), .addxA x src (.reg 0),
        .addxW x src (.reg 0), .addxB x src (.reg 0), .addcxA x src (.reg 0), .addcxW x src (.reg 0),
        .addcxB x src (.reg 0), .subcxA x src (.reg 0), .subcxW x src (.reg 0), .subcxB x src (.reg 0),
        .subxA x src (.reg 0), .subxW x src (.reg 0), .subxB x src (.reg 0), .cmpxA x src (.reg 0),
        .cmpxW x src (.reg 0), .cmpxB x src (.reg 0), .daddxA x src (.reg 0), .daddxW x src (.reg 0),
        .daddxB x src (.reg 0), .bitxA x src (.reg 0), .bitxW x src (.reg 0), .bitxB x src (.reg 0),
        .bicxA x src (.reg 0), .bicxW x src (.reg 0), .bicxB x src (.reg 0), .bisxA x src (.reg 0),
        .bisxW x src (.reg 0), .bisxB x src (.reg 0), .xorxA x src (.reg 0), .xorxW x src (.reg 0),
        .xorxB x src (.reg 0), .andxA x src (.reg 0), .andxW x src (.reg 0), .andxB x src (.reg 0)],
      exec i s = .next (s.takeFault (.reservedOpcode (encode i)))) ∧
    ∀ i ∈ [Instr.rrcxA x (.reg 0), .rrcxW x (.reg 0), .rrcxB x (.reg 0), .rraxA x (.reg 0), .rraxW x (.reg 0),
        .rraxB x (.reg 0), .swpbxW x (.reg 0), .sxtxW x (.reg 0)],
      exec i s = .next (s.takeFault (.reservedOpcode (encode i)))

/-- The first fault of a format I cycle, plain or extended, in the cycle's order, is the one taken. For each format I
instruction, without an extension word and after one at each width: a fault of the source operand's resolution is
taken; else one of the destination's; else, for an instruction that stores, a memory destination that cannot be
written is taken as AddressOutOfRange in memory and NotImplemented in a device. Only halted changes. A repeated
instruction with destination R0 is left to RepeatedPcReserved. (Derived: 60_exceptions.md section 1: R402, R405;
20_memory.md sections 3 and 4: R80, R83.) -/
def Obligations.FirstOperandFaultIsTaken : Prop :=
  FaultsAllI .mov .movxA .movxW .movxB false true ∧
    FaultsAllI .add .addxA .addxW .addxB true true ∧
    FaultsAllI .addc .addcxA .addcxW .addcxB true true ∧
    FaultsAllI .subc .subcxA .subcxW .subcxB true true ∧
    FaultsAllI .sub .subxA .subxW .subxB true true ∧
    FaultsAllI .cmp .cmpxA .cmpxW .cmpxB true false ∧
    FaultsAllI .dadd .daddxA .daddxW .daddxB true true ∧
    FaultsAllI .bit .bitxA .bitxW .bitxB true false ∧
    FaultsAllI .bic .bicxA .bicxW .bicxB true true ∧
    FaultsAllI .bis .bisxA .bisxW .bisxB true true ∧
    FaultsAllI .xor .xorxA .xorxW .xorxB true true ∧
    FaultsAllI .and .andxA .andxW .andxB true true

/-- The first fault of a cycle of format II, the address group, CALLA, PUSHM or POPM is the one taken. For RRC, RRA,
SWPB and SXT in every form with an operation: a fault of the operand's resolution, else a write-back that cannot
be done. For the address group: a fault of the single extension word or of the operand's read, else, for a store,
four bytes that cannot be written. For CALLA: a fault of reading the target, else the high half's push, else the
low half's. For PUSHM the first push in its order that cannot be done, and for POPM the first read. Only halted
changes. (Derived: 60_exceptions.md section 1: R402, R405; 20_memory.md sections 3 and 4: R80, R83;
46_single_operand.md section 1: R290; 44_calla_reti.md section 2: R271; 45_pushm_popm.md section 1: R281, R282.) -/
def Obligations.FirstFaultOfOtherGroups : Prop :=
  (∀ opd bw, FaultsII (.rrc bw opd) (sizeOf bw) none opd ∧ FaultsII (.rra bw opd) (sizeOf bw) none opd) ∧
    (∀ opd, FaultsII (.swpb opd) .word none opd ∧ FaultsII (.sxt opd) .word none opd) ∧
    (∀ x opd, ∀ p ∈ [(Instr.rrcxA x opd, Size.ext), (.rrcxW x opd, .word), (.rrcxB x opd, .byte), (.rraxA x opd, .ext),
        (.rraxW x opd, .word), (.rraxB x opd, .byte), (.swpbxW x opd, .word), (.sxtxW x opd, .word)],
      FaultsII p.1 p.2 (some x) opd) ∧
    (∀ r d, FaultsRead (.movaInd r d) (readInd r) ∧ FaultsRead (.movaInc r d) (readInd r) ∧
      FaultsRead (.movaIdx r d) (readAt (fetchIndexed r)) ∧ FaultsStore (.movaToIdx r d) (fetchIndexed d)) ∧
    (∀ hi d, FaultsRead (.movaAbs hi d) (readAt (fetchHigh hi)) ∧ FaultsStore (.movaToAbs d hi) (fetchHigh hi) ∧
      ∀ i ∈ [Instr.movaImm hi d, .cmpaImm hi d, .addaImm hi d, .subaImm hi d], FaultsRead i (fetchHigh hi)) ∧
    (∀ d, FaultsCall (.callaReg d) 1 none (readReg d) ∧ FaultsCall (.callaInd d) 1 none (readInd d) ∧
      FaultsCall (.callaInc d) 1 (some d) (readInd d) ∧ FaultsCall (.callaIdx d) 2 none (readAt (fetchIndexed d))) ∧
    (∀ hi, FaultsCall (.callaAbs hi) 2 none (readAt (fetchHigh hi)) ∧
      FaultsCall (.callaSym hi) 2 none (readAt (fetchSymbolic hi)) ∧ FaultsCall (.callaImm hi) 2 none (fetchHigh hi)) ∧
    ∀ n d s, ∀ p ∈ [((Instr.pushmA n d, Instr.popmA n d), Size.ext), ((.pushmW n d, .popmW n d), .word)],
      (p.1.1.wf = true → FaultsAtSlot p.1.1 (nb p.2) (pushSlots (nb p.2) s.sp (pushValues p.2 n d s)) s) ∧
      (p.1.2.wf = true → ∀ c, readSlots p.2 (n.toNat + 1) s.sp s = .error c → Takes p.1.2 s c)

/-- Every step keeps the state well kept. If every slot is below 2^20, memory is in its canonical form and the
repetition state is legal (at most 15 executions left, the program counter at the extension word while one is in
progress), then the same holds after any step that answers a next state. (Derived: 10_state.md sections 1 and 5:
R31, R44; 47_extension_prefix.md section 2: R313.) -/
def Obligations.InvKept : Prop :=
  ∀ s t : State, s.Inv → step s = .next t → t.Inv

/-- The state at reset is well kept. At reset every slot is below 2^20, memory is in its canonical form and no
repetition is in progress. The register and memory values at reset are the model's choice (log entries 5, 6 and
7). (Derived: 10_state.md section 7: R50.) -/
def Obligations.InvAtReset : Prop :=
  State.Inv State.reset

/-- At reset no repetition is in progress, nothing has faulted, and the program counter is the reset vector's word.
At reset rep is (0, -), halted is none, and the program counter is the 16-bit word at 0xFFFE. That this word and
every other register and byte is 0 is the model's choice (log entries 5, 6 and 7). (Derived: 10_state.md section
7: R50; 70_reset_and_hazards.md section 1: R451.) -/
def Obligations.ResetValues : Prop :=
  State.reset.rep = ⟨0, none⟩ ∧ State.reset.halted = none ∧
    busRead State.reset 0xFFFE 2 .read = .ok (State.reset.pc, State.reset) ∧
    ∀ r : RegNum, State.reset.reg r = 0

/-- A start loads the image, then the program counter from the reset vector, and changes nothing else of the launch
values. For parameters under which memory owns 0xFFFE and 0xFFFF, and launch memory in its canonical form: start
never answers that they are outside the spec. When it starts, each byte of memory is the last the image has for
it, or its launch value where the image has none; the image's bytes at a device's addresses went to that device,
in the image's order; the program counter is the little-endian word the loaded memory holds at 0xFFFE, R1 to R15
keep their launch values, rep is (0, -), halted is none and the parameters are those given. It starts when every
byte of the image can be written and bytes 0xFFFE and 0xFFFF are among them; it does not when one of those two is
missing, nor when a byte of the image belongs to memory at or above MEM_SIZE. (The model's choices: the image is
written in the order it lists its bytes, so that the last of a repeated address stays, log entry 15; device
writes are kept as a list, log entry 10; a byte at 2^20 or above that a device claims goes to it, log entry 30.)
(Derived: 70_reset_and_hazards.md section 1: R450, R451; 10_state.md section 7: R50.) -/
def Obligations.StartLoadsVector : Prop :=
  ∀ (image : List (Slot × Byte)) (p : Params) (l : Launch), l.mem.wf →
    resolve p 0xFFFE = .memory → resolve p 0xFFFF = .memory →
    let lacks := fun a : Nat => ∀ e ∈ image, e.1.toNat ≠ a
    start image p l ≠ .outsideSpec ∧
    (∀ s, start image p l = .started s →
      (∀ a : Nat, (∀ e ∈ image, resolve p e.1 = .memory → e.1.toNat ≠ a) → s.mem.get a = l.mem.get a) ∧
      (∀ before e after, image = before ++ e :: after → resolve p e.1 = .memory →
        (∀ f ∈ after, f.1 ≠ e.1) → s.mem.get e.1.toNat = e.2) ∧
      s.sent = ((image.filter (fun e => decide (resolve p e.1 ≠ .memory))).map
        (fun e => ⟨resolve p e.1, e.1, 1, slotOf e.2.toNat⟩)).reverse ∧
      s.pc.toNat = s.mem.readLE 0xFFFE 2 ∧ (∀ r : RegNum, r ≠ 0 → s.reg r = l.regs[r]) ∧ s.rep = ⟨0, none⟩ ∧
        s.halted = none ∧ s.params = p) ∧
    ((∀ e ∈ image, accepts (launched p l) e.1 1) → ¬ lacks 0xFFFE → ¬ lacks 0xFFFF → ∃ s, start image p l = .started s) ∧
    (lacks 0xFFFE ∨ lacks 0xFFFF ∨ (∃ e ∈ image, resolve p e.1 = .memory ∧ Config.memSize ≤ e.1.toNat) →
      ∀ s, start image p l ≠ .started s)

/-- No step changes the routing table or any other parameter. Every next state of a step has the parameters it
started with: the device ranges and widths, and the other open parameters. (Stated: R75.) -/
def Obligations.ParametersFixed : Prop :=
  ∀ s t : State, step s = .next t → t.params = s.params

/-- Every instruction write to R3 is discarded. Slot 3 keeps its value over every step; a fixed-mode operand that
names R3 reads 0. (Derived: 10_state.md section 1: R32.) -/
def Obligations.SlotThreeKept : Prop :=
  (∀ s t : State, step s = .next t → t.reg 3 = s.reg 3) ∧ ∀ s : State, s.base 3 = 0

/-- Under PRESERVE no step changes a bit of SR other than C, Z, N and V. With SR_CTL_WRITE = PRESERVE, every step
leaves every bit of SR but 0, 1, 2 and 8 as it was. Bit 3, which the mask in R39's formula also names, is kept as
the words of R39 and ruling D20 say (log entry 4). (Derived: 10_state.md section 3: R38, R39; 92_eei_decisions.md
D20.) -/
def Obligations.PreserveKeepsControlBits : Prop :=
  ∀ s t : State, s.params.srCtlWrite = .preserve → step s = .next t →
    ∀ k, k ≠ 0 → k ≠ 1 → k ≠ 2 → k ≠ 8 → t.sr.getLsbD k = s.sr.getLsbD k

/-- A step never takes back a write it sent to a device. After every step the devices have received what they had
received before, and possibly more writes, the newest first. That the writes are kept as a list is the model's
(log entry 10). (Derived: 20_memory.md section 4: R84.) -/
def Obligations.DeviceWritesStay : Prop :=
  ∀ s t : State, step s = .next t → ∃ l, t.sent = l ++ s.sent

/-- While a repetition is in progress it governs the program counter, whatever the instruction. When executions are
still to run and a cycle does not fault: if more than one is left, one fewer is left and the program counter
stays; if one is left, the repetition ends and the program counter is 2 above the instruction's last word, its
operands' words counted by its group and addressing fields, modulo 2^20, even where the instruction wrote R0.
(That a re-decoded instruction's write of R0 does not stand is the model's reading of R313 to R315: log entry
13.) (Derived: 47_extension_prefix.md section 2: R313, R314, R315; 30_encoding.md sections 1 and 6: R110, R145.) -/
def Obligations.RepetitionGovernsPc : Prop :=
  ∀ (i : Instr) (s t : State), s.running → exec i s = .next t → t.running →
    (1 < s.rep.left → t.rep = ⟨s.rep.left - 1, s.rep.at_⟩ ∧ t.pc = s.pc) ∧
    (s.rep.left = 1 → t.rep = ⟨0, none⟩ ∧
      (i.wf = true → t.pc = low20 (s.pc + BitVec.ofNat 32 (2 * instrWords i))))

/-- An address is routed to the first registered device that claims it, else to memory. resolve answers the watchdog
if one of its ranges holds the address; else the port of lowest number that claims it; else memory, for every
32-bit address. Range bounds are inclusive. An access of 1, 2 or 4 bytes at an address at or above MEM_SIZE that
no device claims faults at memory's bounds check. (Stated: R74.) -/
def Obligations.RoutingFirstWins : Prop :=
  ∀ (p : Params) (a : Slot),
    let inside := fun d : DeviceParams => ∃ r ∈ d.ranges, r.first.toNat ≤ a.toNat ∧ a.toNat ≤ r.last.toNat
    (inside p.wdt → resolve p a = .watchdog) ∧
    (∀ k : Fin 8, ¬ inside p.wdt → (∀ j : Fin 8, j < k → ¬ inside p.ports[j]) → inside p.ports[k] →
      resolve p a = .port k) ∧
    (¬ inside p.wdt → (∀ j : Fin 8, ¬ inside p.ports[j]) → resolve p a = .memory) ∧
    (∀ (s : State) (n : Nat), s.params = p → ¬ inside p.wdt → (∀ j : Fin 8, ¬ inside p.ports[j]) →
      Config.memSize ≤ a.toNat → (n = 1 ∨ n = 2 ∨ n = 4) →
      (∀ kind, busRead s a n kind = .error (.addressOutOfRange a n kind)) ∧
      ∀ v, busWrite s a n v = .error (.addressOutOfRange a n .write))

/-- Mixed-width reads after a write to memory see its bytes. After a 2-byte write at a, a 2-byte read there gives the
value and 1-byte reads at a and a+1 its bytes; after a 4-byte write, 2-byte reads at a and a+2 give its halves;
where every byte is in the memory device. (Stated: R79.) -/
def Obligations.ReadAfterWrite : Prop :=
  ∀ (s t : State) (a v : Slot), s.mem.wf →
    (a.toNat + 2 ≤ Config.memSize → resolve s.params a = .memory → resolve s.params (a + 1) = .memory →
      busWrite s a 2 v = .ok t →
      (v.toNat < 2 ^ 16 → busRead t a 2 .read = .ok (v, t)) ∧
        busRead t a 1 .read = .ok (v &&& 0xFF, t) ∧ busRead t (a + 1) 1 .read = .ok ((v >>> 8) &&& 0xFF, t)) ∧
    (a.toNat + 4 ≤ Config.memSize → resolve s.params a = .memory → resolve s.params (a + 1) = .memory →
      resolve s.params (a + 2) = .memory → resolve s.params (a + 3) = .memory → busWrite s a 4 v = .ok t →
      busRead t a 2 .read = .ok (v &&& 0xFFFF, t) ∧ busRead t (a + 2) 2 .read = .ok ((v >>> 16) &&& 0xFFFF, t))

/-- A write to memory stores its bytes little-endian and leaves every other byte. A write of n = 1, 2 or 4 bytes at a
in memory and in range succeeds; byte a+k then holds bits 8k+7..8k of the value, every other byte and everything
else of the state is as before; a read of n bytes gives their little-endian sum and changes nothing. (Stated:
R78.) -/
def Obligations.WriteTouchesItsBytes : Prop :=
  ∀ (s : State) (a v : Slot) (n : Nat), s.mem.wf → (n = 1 ∨ n = 2 ∨ n = 4) → resolve s.params a = .memory →
    a.toNat + n ≤ Config.memSize →
    (∃ t, busWrite s a n v = .ok t ∧ t = { s with mem := t.mem } ∧
      (∀ k < n, (t.mem.get (a.toNat + k)).toNat = v.toNat / 2 ^ (8 * k) % 256) ∧
      ∀ b, b < a.toNat ∨ a.toNat + n ≤ b → t.mem.get b = s.mem.get b) ∧
    ∀ kind, busRead s a n kind =
      .ok (slotOf (((List.range n).map (fun k => (s.mem.get (a.toNat + k)).toNat * 2 ^ (8 * k))).sum), s)

/-- A multi-byte access is performed whole by the device of its first byte. Whatever devices claim the addresses
after the first: a read or write that starts in memory uses memory's bytes, and one that starts in a device is
that device's alone. (Stated: R76.) -/
def Obligations.StartAddressDecides : Prop :=
  ∀ (s : State) (a v : Slot) (n : Nat), (n = 1 ∨ n = 2 ∨ n = 4) →
    (resolve s.params a = .memory → a.toNat + n ≤ Config.memSize →
      (∀ kind, busRead s a n kind = .ok (slotOf (s.mem.readLE a.toNat n), s)) ∧
      busWrite s a n v = .ok { s with mem := s.mem.writeLE a.toNat v.toNat n }) ∧
    (resolve s.params a ≠ .memory →
      (∀ kind x t, busRead s a n kind = .ok (x, t) → t.mem = s.mem ∧ t.sent = s.sent) ∧
      (∀ t, busWrite s a n v = .ok t → t.mem = s.mem ∧
        ∃ w : Slot, t.sent = ⟨resolve s.params a, a, n, w⟩ :: s.sent ∧ w.toNat = v.toNat % 2 ^ (8 * n)))

/-- An access of n bytes at a in memory is in range iff a + n is at most MEM_SIZE. For a width of the bus at an
address of memory: in range, the read and the write succeed; out of range, each raises AddressOutOfRange with the
address, the byte count and the kind. MEM_SIZE is 0x100000. (Stated: R80.) -/
def Obligations.MemoryBounds : Prop :=
  ∀ (s : State) (a v : Slot) (n : Nat) (kind : AccessKind), (n = 1 ∨ n = 2 ∨ n = 4) →
    resolve s.params a = .memory →
    (a.toNat + n ≤ 0x100000 ↔ ∃ x, busRead s a n kind = .ok x) ∧ (a.toNat + n ≤ 0x100000 ↔ ∃ x, busWrite s a n v = .ok x) ∧
    (0x100000 < a.toNat + n → busRead s a n kind = .error (.addressOutOfRange a n kind) ∧
      busWrite s a n v = .error (.addressOutOfRange a n .write))

/-- A bus access of another width than 1, 2 or 4 is UnsupportedAccessWidth. The generic read and write raise
UnsupportedAccessWidth, with the width, for every width but 1, 2 and 4. (Derived: 20_memory.md section 2: R77.) -/
def Obligations.OtherWidthsFault : Prop :=
  ∀ (s : State) (a v : Slot) (n : Nat) (kind : AccessKind), n ≠ 1 → n ≠ 2 → n ≠ 4 →
    busRead s a n kind = .error (.unsupportedAccessWidth n) ∧ busWrite s a n v = .error (.unsupportedAccessWidth n)

/-- A device takes the widths it implements, answers a value of the width, and faults on the others. For the device
that claims an address: with a width it does not implement, read and write raise NotImplemented; otherwise a read
answers a value of that many bytes and changes only the count of device reads, and a write is accepted and
changes only the list of device writes. (The count and the list are the model's own: log entries 9 and 10.)
(Derived: 20_memory.md section 4: R83, R84.) -/
def Obligations.DeviceAccess : Prop :=
  ∀ (s : State) (a v : Slot) (n : Nat) (kind : AccessKind), (n = 1 ∨ n = 2 ∨ n = 4) →
    resolve s.params a ≠ .memory →
    let has := (s.params.device (resolve s.params a)).implements n
    (has = false → busRead s a n kind = .error (.notImplemented a n kind) ∧
      busWrite s a n v = .error (.notImplemented a n .write)) ∧
    (has = true → (∃ x : Slot, x.toNat < 2 ^ (8 * n) ∧
        busRead s a n kind = .ok (x, { s with deviceReads := s.deviceReads + 1 })) ∧
      ∃ w : DeviceWrite, busWrite s a n v = .ok { s with sent := w :: s.sent } ∧ w.addr = a ∧ w.bytes = n ∧
        w.device = resolve s.params a ∧ w.value.toNat = v.toNat % 2 ^ (8 * n))

/-- A register write stores the value masked to the operation's width, and no other slot changes. WriteReg discards a
write of R3, writes R2 by SR_CTL_WRITE, and stores the masked value in any other slot; every other slot and
everything else of the state is as before; what it leaves is below 2^20 where the slot it writes was. (An
explicit write of R2 goes by SR_CTL_WRITE; that PRESERVE keeps bit 3 is the model's reading of R39 by its words
and D20: log entry 4.) (Derived: 10_state.md sections 1 and 3: R31, R32, R39.) -/
def Obligations.WriteRegMasks : Prop :=
  ∀ (s : State) (r : RegNum) (v : Slot) (ws : Size),
    (r ≠ 2 → r ≠ 3 → ((s.writeReg r v ws).reg r).toNat = v.toNat % 2 ^ bits ws) ∧
    (s.writeReg 3 v ws = s) ∧
    (∀ k < 32, (s.writeReg 2 v ws).sr.getLsbD k =
      if srBitWritten s.params k then v.getLsbD k && decide (k < bits ws) else s.sr.getLsbD k) ∧
    (∀ q, q ≠ r → (s.writeReg r v ws).reg q = s.reg q) ∧
    s.writeReg r v ws = { s with regs := (s.writeReg r v ws).regs }

/-- The constant generator's operands read as their constants, masked, and fetch nothing. Register 3 with As 0, 1, 2,
3 gives 0, 1, 2, -1 and register 2 with As 2, 3 gives 4, 8, at every width; the operand leaves the state as it is
and a write to it is discarded; -1 is 0xFF, 0xFFFF or 0xFFFFF by the width; a destination that names register 3
reads 0 or 1 and discards its write. (That usedConstantGenerator is then set is in RecordHoldsOperands.)
(Derived: 30_encoding.md section 5: R140, R141, R142.) -/
def Obligations.ConstantGenerator : Prop :=
  (∀ ws hi s, resolveSrc ws hi (srcOf 3 0) s = .ok (⟨0, .none⟩, s) ∧ resolveSrc ws hi (srcOf 3 1) s = .ok (⟨1, .none⟩, s) ∧
      resolveSrc ws hi (srcOf 3 2) s = .ok (⟨2, .none⟩, s) ∧
      resolveSrc ws hi (srcOf 3 3) s = .ok (⟨slotOf (full ws - 1), .none⟩, s) ∧
      resolveSrc ws hi (srcOf 2 2) s = .ok (⟨4, .none⟩, s) ∧ resolveSrc ws hi (srcOf 2 3) s = .ok (⟨8, .none⟩, s)) ∧
    (full .byte - 1 = 0xFF ∧ full .word - 1 = 0xFFFF ∧ full .ext - 1 = 0xFFFFF) ∧
    (∀ ws hi reads s, resolveDst ws hi reads (dstOf 3 false) s = .ok (⟨0, .none⟩, s) ∧
      resolveDst ws hi reads (dstOf 3 true) s = .ok (⟨1, .none⟩, s)) ∧
    ∀ ws v s, store ws .none v s = .ok s

/-- Each source mode reads the value, and from the address, its rule gives. REGISTER is the register masked;
INDIRECT_REGISTER and INDIRECT_AUTOINCREMENT read at the register's full value, the latter then advancing it by
1, 2 or 4; INDEXED, SYMBOLIC and ABSOLUTE read at the address their extension word and bits 19:16 give; IMMEDIATE
is that word masked. R0 reads as the last-fetched-word address plus PC_READ_BIAS, modulo 2^20, and R3 as 0.
(Derived: 30_encoding.md section 6: R145 to R155; 10_state.md section 2: R33, R34.) -/
def Obligations.SourceModes : Prop :=
  ∀ (ws : Size) (hi : Option (BitVec 4)) (s : State),
    let h := match hi with | none => 0 | some b => b.toNat * 65536
    let sx : Word → Int := fun w => match hi with
      | none => w.toInt
      | some _ => if h + w.toNat < 2 ^ 19 then (h + w.toNat : Int) else (h + w.toNat : Int) - 2 ^ 20
    let masked := fun v : Slot => slotOf (v.toNat % full ws)
    ((s.base 0).toNat = (s.pc.toNat + (match s.params.pcReadBias with | .zero => 0 | .two => 2)) % 2 ^ 20 ∧
      s.base 3 = 0 ∧ ∀ r, r ≠ 0 → r ≠ 3 → s.base r = s.reg r) ∧
    (∀ r, resolveSrc ws hi (.reg r) s = .ok (⟨masked (s.base r), .reg r⟩, s)) ∧
    (∀ r v u, busRead s (s.base r) (nb ws) .read = .ok (v, u) →
      resolveSrc ws hi (.indirect r) s = .ok (⟨masked v, .mem (s.base r)⟩, u) ∧
      (r ≠ 0 → r ≠ 2 → r ≠ 3 → ∃ t, resolveSrc ws hi (.autoinc r) s = .ok (⟨masked v, .mem (s.base r)⟩, t) ∧
        (t.reg r).toNat = ((s.reg r).toNat + nb ws) % 2 ^ 20 ∧ ∀ q, q ≠ r → t.reg q = s.reg q)) ∧
    (∀ w s1, fetchNext s = .ok (w, s1) →
      s1.pc.toNat = (s.pc.toNat + 2) % 2 ^ 20 ∧
      resolveSrc ws hi .immediate s = .ok (⟨masked (slotOf (h + w.toNat)), .none⟩, s1) ∧
      (∀ v u, busRead s1 (slotOf (h + w.toNat)) (nb ws) .read = .ok (v, u) →
        resolveSrc ws hi .absolute s = .ok (⟨masked v, .mem (slotOf (h + w.toNat))⟩, u)) ∧
      (∀ v u, busRead s1 (slotOf (((s1.pc.toNat : Int) + sx w) % 2 ^ 20).toNat) (nb ws) .read = .ok (v, u) →
        resolveSrc ws hi .symbolic s =
          .ok (⟨masked v, .mem (slotOf (((s1.pc.toNat : Int) + sx w) % 2 ^ 20).toNat)⟩, u)) ∧
      ∀ r v u, busRead s1 (slotOf ((((s1.base r).toNat : Int) + sx w) % 2 ^ 20).toNat) (nb ws) .read = .ok (v, u) →
        resolveSrc ws hi (.indexed r) s =
          .ok (⟨masked v, .mem (slotOf ((((s1.base r).toNat : Int) + sx w) % 2 ^ 20).toNat)⟩, u))

/-- A destination resolves as a source of its mode does, and MOV's memory destination is not read. A destination that
is read has the value, the place and the effect of the source operand of the same mode; one that is not read
makes no bus access past its extension word and has the same place. (Derived: 30_encoding.md sections 4 and 6:
R131, R146, R147.) -/
def Obligations.DestinationModes : Prop :=
  ∀ (ws : Size) (hi : Option (BitVec 4)) (s : State),
    (∀ r reads, resolveDst ws hi reads (.reg r) s = resolveSrc ws hi (.reg r) s) ∧
    (∀ r, resolveDst ws hi true (.indexed r) s = resolveSrc ws hi (.indexed r) s) ∧
    resolveDst ws hi true .symbolic s = resolveSrc ws hi .symbolic s ∧
    resolveDst ws hi true .absolute s = resolveSrc ws hi .absolute s ∧
    (∀ dst, dst = .symbolic ∨ dst = .absolute ∨ (∃ r, dst = .indexed r) → ∀ w s1, fetchNext s = .ok (w, s1) →
      ∃ o ea, resolveDst ws hi false dst s = .ok (o, s1) ∧ o.place = .mem ea ∧
        ∀ o' u, resolveDst ws hi true dst s = .ok (o', u) → o'.place = .mem ea)

/-- The decoder's record holds the opcode fields, the prefix's fields and the words of what it decodes. Whenever the
decoder gives a record, for a core word alone or after an extension word: the major opcode, the minor opcode and,
for formats I, II and III, the format are those R112 to R114 give the core word; extended says whether there is
an extension word, and rawWords holds these words. With all operands in register mode by their raw fields, zc is
bit 8 of the extension word and the repetition its bits 3:0, or bits 3:0 of the register they name; otherwise zc
is false and the repetition 0. (That the record of a later execution of a repetition holds the register's value
of that time is the model's choice: log entry 29.) (Derived: 10_state.md section 6: R46; 30_encoding.md sections
1 and 2: R112, R113, R114, R124; 47_extension_prefix.md section 2: R312.) -/
def Obligations.RecordHoldsFields : Prop :=
  (∀ core s r, instrRecord [core] s = .ok r →
      OpcodeFields core r ∧ r.extended = false ∧ r.repetition = 0 ∧ r.zc = false ∧ r.rawWords = [core]) ∧
    ∀ pre core s r, instrRecord [pre, core] s = .ok r →
      let inRegisters := core.toNat / 16 % 4 = 0 ∧ (core.toNat < 0x4000 ∨ core.toNat / 128 % 2 = 0)
      let n : RegNum := Fin.ofNat 16 (pre.toNat % 16)
      OpcodeFields core r ∧ r.extended = true ∧ r.rawWords = [pre, core] ∧
        (inRegisters → r.zc = pre.getLsbD 8 ∧
          r.repetition = if pre.getLsbD 7 then ((s.setPc (low20 (s.pc + 2))).base n).toNat % 16 else n.val) ∧
        (¬ inRegisters → r.zc = false ∧ r.repetition = 0)

/-- The operands of the decoder's record are those the execution resolves, with their modes and widths. For every
format I and format II instruction whose operands can be resolved, the record's operands have the resolved value
and address, the register field, the mode, the width, needsValueFetch for all but MOV's destination, and
usedConstantGenerator exactly for the constants. For the address group, CALLA, PUSHM and POPM both operand
records are given whole: the source with its fixed mode and width, its value, the count fields among them, and
its address; the destination register with its value after the source is resolved; MOVA's destination in memory,
which is not read; none for CALLA. (The model's choices of log entry 27 are in it: registerIndex of an operand
without a register field, and of SYMBOLIC, ABSOLUTE and IMMEDIATE ones, no value for a destination that is not
read, no destination for format II and CALLA, the width of the PUSHM and POPM count; and of log entry 28: MOVA
x(Rs),Rd at an address that wraps.) (Derived: 10_state.md section 6: R46; 30_encoding.md sections 2 to 6: R119 to
R122, R127, R130, R131, R140, R141, R146, R147, R153.) -/
def Obligations.RecordHoldsOperands : Prop :=
  RecordsAllI .mov .movxA .movxW .movxB false ∧
    RecordsAllI .add .addxA .addxW .addxB true ∧
    RecordsAllI .addc .addcxA .addcxW .addcxB true ∧
    RecordsAllI .subc .subcxA .subcxW .subcxB true ∧
    RecordsAllI .sub .subxA .subxW .subxB true ∧
    RecordsAllI .cmp .cmpxA .cmpxW .cmpxB true ∧
    RecordsAllI .dadd .daddxA .daddxW .daddxB true ∧
    RecordsAllI .bit .bitxA .bitxW .bitxB true ∧
    RecordsAllI .bic .bicxA .bicxW .bicxB true ∧
    RecordsAllI .bis .bisxA .bisxW .bisxB true ∧
    RecordsAllI .xor .xorxA .xorxW .xorxB true ∧
    RecordsAllI .and .andxA .andxW .andxB true ∧
    (∀ opd bw, RecordsII (.rrc bw opd) (sizeOf bw) none opd ∧ RecordsII (.rra bw opd) (sizeOf bw) none opd ∧
      RecordsII (.push bw opd) (sizeOf bw) none opd ∧ RecordsII (.call bw opd) (sizeOf bw) none opd) ∧
    (∀ opd, RecordsII (.swpb opd) .word none opd ∧ RecordsII (.swpbB opd) .byte none opd ∧
      RecordsII (.sxt opd) .word none opd ∧ RecordsII (.sxtB opd) .byte none opd) ∧
    (∀ x opd, ∀ p ∈ [(Instr.rrcxA x opd, Size.ext), (.rrcxW x opd, .word), (.rrcxB x opd, .byte), (.swpbxA x opd, .ext),
        (.swpbxW x opd, .word), (.swpbxB x opd, .byte), (.rraxA x opd, .ext), (.rraxW x opd, .word),
        (.rraxB x opd, .byte), (.sxtxA x opd, .ext), (.sxtxW x opd, .word), (.sxtxB x opd, .byte),
        (.pushxA x opd, .ext), (.pushxW x opd, .word), (.pushxB x opd, .byte), (.callxA x opd, .ext),
        (.callxW x opd, .word), (.callxB x opd, .byte)],
      RecordsII p.1 p.2 (some x) opd) ∧
    (∀ r d, let dest := fun u => some (registerRecord .ext d u)
      RecordsFixed (.movaInd r d) (readInd r)
        (fun s v => fixedRecord .indirectRegister (some r) .ext v (some (s.base r))) dest ∧
      RecordsFixed (.movaInc r d) (readInd r)
        (fun s v => fixedRecord .indirectAutoincrement (some r) .ext v (some (s.base r))) (fun u => dest (u.autoInc r 4)) ∧
      RecordsFixed (.movaIdx r d) (readAt (fetchIndexed r))
        (fun s v => fixedRecord .indexed (some r) .ext v (addressOf (fetchIndexed r) s)) dest ∧
      (∀ i ∈ [Instr.movaReg r d, .cmpaReg r d, .addaReg r d, .subaReg r d],
        RecordsFixed i (readReg r) (fun s _ => registerRecord .ext r s) dest) ∧
      RecordsStore (.movaToIdx r d) r .indexed (some d) (fetchIndexed d)) ∧
    (∀ hi d, let dest := fun u => some (registerRecord .ext d u)
      RecordsFixed (.movaAbs hi d) (readAt (fetchHigh hi))
        (fun s v => fixedRecord .absolute none .ext v (addressOf (fetchHigh hi) s)) dest ∧
      (∀ i ∈ [Instr.movaImm hi d, .cmpaImm hi d, .addaImm hi d, .subaImm hi d],
        RecordsFixed i (fetchHigh hi) (fun _ v => fixedRecord .immediate none .ext v none) dest) ∧
      RecordsStore (.movaToAbs d hi) d .absolute none (fetchHigh hi)) ∧
    (∀ n d, ∀ p ∈ [(Instr.rrcmA n d, Size.ext), (.rramA n d, .ext), (.rlamA n d, .ext), (.rrumA n d, .ext),
        (.rrcmW n d, .word), (.rramW n d, .word), (.rlamW n d, .word), (.rrumW n d, .word)],
      RecordsFixed p.1 (readCount n.toNat) (fun _ v => fixedRecord .immediate none p.2 v none)
        (fun u => some (registerRecord p.2 d u))) ∧
    (∀ n d, ∀ p ∈ [(Instr.pushmA n d, Size.ext), (.pushmW n d, .word), (.popmA n d, .ext), (.popmW n d, .word)],
      RecordsFixed p.1 (readCount n.toNat) (fun _ v => fixedRecord .immediate none p.2 v none)
        (fun u => some (registerRecord p.2 d u))) ∧
    (∀ d, RecordsFixed (.callaReg d) (readReg d) (fun s _ => registerRecord .ext d s) (fun _ => none) ∧
      RecordsFixed (.callaInd d) (readInd d)
        (fun s v => fixedRecord .indirectRegister (some d) .ext v (some (s.base d))) (fun _ => none) ∧
      RecordsFixed (.callaInc d) (readInd d)
        (fun s v => fixedRecord .indirectAutoincrement (some d) .ext v (some (s.base d))) (fun _ => none) ∧
      RecordsFixed (.callaIdx d) (readAt (fetchIndexed d))
        (fun s v => fixedRecord .indexed (some d) .ext v (addressOf (fetchIndexed d) s)) (fun _ => none)) ∧
    ∀ hi, RecordsFixed (.callaAbs hi) (readAt (fetchHigh hi))
        (fun s v => fixedRecord .absolute none .ext v (addressOf (fetchHigh hi) s)) (fun _ => none) ∧
      RecordsFixed (.callaSym hi) (readAt (fetchSymbolic hi))
        (fun s v => fixedRecord .symbolic none .ext v (addressOf (fetchSymbolic hi) s)) (fun _ => none) ∧
      RecordsFixed (.callaImm hi) (fetchHigh hi) (fun _ v => fixedRecord .immediate none .ext v none) (fun _ => none)

/-- MOV, MOVX and MOVA give the source value and write no flag. MOV and MOVX in every form, and the eight forms of
MOVA, complete whenever their operands can be read and their result written; the result is the source value at
the width, no flag changes, and nothing but the destination, the program counter, the repetition state and an
autoincremented register changes. (That MOVA x(Rs),Rd completes at an address that wraps is the model's choice:
log entry 28.) (A repeated instruction into R0 is in RepeatedPcReserved.) (An explicit write of R2 goes by
SR_CTL_WRITE; that PRESERVE keeps bit 3 is the model's reading of R39 by its words and D20: log entry 4.)
(Derived: 40_alu_flags.md section 4: R178; 41_two_operand.md sections 1 and 2: R200, R201, R204;
43_address_group.md section 2: R241 to R248.) -/
def Obligations.MoveCopies : Prop :=
  RunsAllI .mov .movxA .movxW .movxB false true movRule ∧
    (∀ s d, RunsLoad (.movaReg s d) 1 d none (readReg s)) ∧
    (∀ s d, RunsLoad (.movaInd s d) 1 d none (readInd s)) ∧
    (∀ s d, RunsLoad (.movaInc s d) 1 d (some s) (readInd s)) ∧
    (∀ hi d, RunsLoad (.movaAbs hi d) 2 d none (readAt (fetchHigh hi))) ∧
    (∀ s d, RunsLoad (.movaIdx s d) 2 d none (readAt (fetchIndexed s))) ∧
    (∀ hi d, RunsLoad (.movaImm hi d) 2 d none (fetchHigh hi)) ∧
    (∀ s hi, RunsStore (.movaToAbs s hi) 2 s (fetchHigh hi)) ∧
    ∀ s d, RunsStore (.movaToIdx s d) 2 s (fetchIndexed d)

/-- ADD, ADDX, ADDC, ADDCX and ADDA: result, flags and frame. In every form, whenever the operands can be read and
the result written: the result is the sum, with C added for ADDC and ADDCX, modulo 2^w; C is the carry out of the
width, Z and N are those of the result, V is set when equal operand signs differ from the result's; nothing else
changes. (A repeated instruction into R0 is in RepeatedPcReserved.) (An explicit write of R2 goes by
SR_CTL_WRITE; that PRESERVE keeps bit 3 is the model's reading of R39 by its words and D20: log entry 4.)
(Derived: 40_alu_flags.md sections 2 and 3: R172, R173; 41_two_operand.md sections 1 and 2: R200, R201, R205,
R206; 43_address_group.md section 4: R257.) -/
def Obligations.AddResultAndFlags : Prop :=
  RunsAllI .add .addxA .addxW .addxB true true (fun ws _ => addRule ws false) ∧
    RunsAllI .addc .addcxA .addcxW .addcxB true true addRule ∧
    (∀ hi d, RunsAddress (.addaImm hi d) 2 d true (fetchHigh hi) (addRule .ext false)) ∧
    ∀ s d, RunsAddress (.addaReg s d) 1 d true (readReg s) (addRule .ext false)

/-- SUB, SUBC, CMP, their X forms, SUBA and CMPA: result, flags and frame. In every form, whenever the operands can
be read and the result written: the result is destination minus source (minus 1 plus C for SUBC and SUBCX) modulo
2^w; C is destination >= source, Z and N are those of the result, V is set when the operand signs differ and the
destination's differs from the result's; CMP, CMPX and CMPA store nothing; nothing else changes. (A repeated
instruction into R0 is in RepeatedPcReserved.) (An explicit write of R2 goes by SR_CTL_WRITE; that PRESERVE keeps
bit 3 is the model's reading of R39 by its words and D20: log entry 4.) (Derived: 40_alu_flags.md sections 2 and
3: R172, R174; 41_two_operand.md sections 1 and 2: R200, R201, R207 to R209; 43_address_group.md section 4: R256,
R258.) -/
def Obligations.SubtractResultAndFlags : Prop :=
  RunsAllI .sub .subxA .subxW .subxB true true subRule ∧
    RunsAllI .subc .subcxA .subcxW .subcxB true true subcRule ∧
    RunsAllI .cmp .cmpxA .cmpxW .cmpxB true false subRule ∧
    (∀ hi d, RunsAddress (.subaImm hi d) 2 d true (fetchHigh hi) (subRule .ext false)) ∧
    (∀ s d, RunsAddress (.subaReg s d) 1 d true (readReg s) (subRule .ext false)) ∧
    (∀ hi d, RunsAddress (.cmpaImm hi d) 2 d false (fetchHigh hi) (subRule .ext false)) ∧
    ∀ s d, RunsAddress (.cmpaReg s d) 1 d false (readReg s) (subRule .ext false)

/-- AND, BIT, XOR and their X forms: result, flags and frame. In every form, whenever the operands can be read and
the result written: for AND and BIT the result is the bitwise and, V is 0, and BIT and BITX store nothing; for
XOR it is the exclusive or, and V is set when both operands are negative; C is result not 0, Z and N are those of
the result; nothing else changes. (A repeated instruction into R0 is in RepeatedPcReserved.) (An explicit write
of R2 goes by SR_CTL_WRITE; that PRESERVE keeps bit 3 is the model's reading of R39 by its words and D20: log
entry 4.) (Derived: 40_alu_flags.md section 4: R175, R176; 41_two_operand.md sections 1 and 2: R200, R201.) -/
def Obligations.LogicalResultAndFlags : Prop :=
  RunsAllI .and .andxA .andxW .andxB true true andRule ∧ RunsAllI .bit .bitxA .bitxW .bitxB true false andRule ∧
    RunsAllI .xor .xorxA .xorxW .xorxB true true xorRule

/-- BIC, BIS and their X forms: result and frame, no flag written. In every form, whenever the operands can be read
and the result written: the result is the destination with the source's bits cleared, or set; no flag and nothing
else changes. (A repeated instruction into R0 is in RepeatedPcReserved.) (An explicit write of R2 goes by
SR_CTL_WRITE; that PRESERVE keeps bit 3 is the model's reading of R39 by its words and D20: log entry 4.)
(Derived: 40_alu_flags.md section 4: R177; 41_two_operand.md sections 1 and 2: R200, R201.) -/
def Obligations.ClearAndSetBits : Prop :=
  RunsAllI .bic .bicxA .bicxW .bicxB true true bicRule ∧ RunsAllI .bis .bisxA .bisxW .bisxB true true bisRule

/-- DADD and DADDX: result by the digit loop, C, Z and N, and frame; V is free. In every form, whenever the operands
can be read and the result written: the result is that of the digit loop with carry input C, C is the carry out
of its last digit, Z and N are those of the result; nothing is said of V; nothing else changes. (A repeated
instruction into R0 is in RepeatedPcReserved.) (An explicit write of R2 goes by SR_CTL_WRITE; that PRESERVE keeps
bit 3 is the model's reading of R39 by its words and D20: log entry 4.) (Derived: 40_alu_flags.md section 5:
R179; 41_two_operand.md section 2: R210; 40_alu_flags.md section 8: R186.) -/
def Obligations.DecimalAddFrame : Prop :=
  RunsAllI .dadd .daddxA .daddxW .daddxB true true daddRule

/-- The decimal add is the digit loop: each digit sum above 9 is raised by 6, and its carry goes on. For every width
and operands there is the loop's sequence of carries: it starts at the carry input, digit i of the result is the
low nibble of the adjusted sum of the two digits and the carry, the next carry is the rest; C says whether the
unmasked result exceeds the mask, Z and N are those of the result, V is a draw. (Stated: R179.) -/
def Obligations.DecimalDigitLoop : Prop :=
  ∀ (ws : Size) (cin : Bool) (a b : Slot), ∃ c : Nat → Nat,
    let nd := match ws with | .byte => 2 | .word => 4 | .ext => 5
    let t := fun i => a.toNat / 16 ^ i % 16 + b.toNat / 16 ^ i % 16 + c i
    let t' := fun i => if 9 < t i then t i + 6 else t i
    let r := (daddOp ws cin a b).result.toNat
    c 0 = (if cin then 1 else 0) ∧ (∀ i < nd, r / 16 ^ i % 16 = t' i % 16 ∧ c (i + 1) = t' i / 16) ∧ r < 16 ^ nd ∧
      (daddOp ws cin a b).flags =
        .writeDrawV (decide (full ws ≤ r + c nd * 16 ^ nd)) (decide (r = 0)) (isNeg ws r) a b

/-- DADD of packed decimal numbers adds them as decimal numbers, with C the decimal carry. For DADD at WORD or BYTE
into a general register, with both operands in decimal digits: it completes, the register's digits are decimal
and stand for the sum of the two numbers and C, modulo 100 or 10000, and C after it says whether the sum reached
that. (EXTENDED and memory destinations are left to DecimalAddFrame and DecimalDigitLoop.) (Derived:
40_alu_flags.md section 5: R179; 41_two_operand.md section 2: R210.) -/
def Obligations.DecimalAddIsDecimal : Prop :=
  ∀ (bw : BW) (src : Src) (d : RegNum) (s : State) (a : Operand) (s1 : State), (Instr.dadd bw src (.reg d)).wf = true →
    d ≠ 0 → d ≠ 2 → s.rep.left = 0 → s.mem.wf → resolveSrc (sizeOf bw) none src s = .ok (a, s1) →
    let nd := digits (sizeOf bw)
    let old := (trunc (sizeOf bw) (s1.reg d)).toNat
    isDecimal nd a.value.toNat → isDecimal nd old →
    let sum := decimal nd a.value.toNat + decimal nd old + (if s.flagC then 1 else 0)
    ∃ t, exec (.dadd bw src (.reg d)) s = .next t ∧ isDecimal nd (t.reg d).toNat ∧
      decimal nd (t.reg d).toNat = sum % 10 ^ nd ∧ t.flagC = decide (10 ^ nd ≤ sum)

/-- After CMP, Z is equality, C is unsigned and N xor V signed order of destination and source. For CMP and CMPX in
every form, and both forms of CMPA: after it Z says the operands are equal, C that the destination is at least
the source as unsigned numbers, and N differs from V exactly when the destination is less than the source as
signed numbers of the width, so that JC, JZ and JL decide those orders. (Derived: 40_alu_flags.md section 3:
R174; 42_jumps.md section 2: R235, R238; 41_two_operand.md section 2: R209; 43_address_group.md section 4: R256.) -/
def Obligations.CompareDecidesOrder : Prop :=
  (∀ bw src dst s a s1 b s2, (Instr.cmp bw src dst).wf = true → resolveSrc (sizeOf bw) none src s = .ok (a, s1) →
      resolveDst (sizeOf bw) none true dst s1 = .ok (b, s2) →
      ∃ t, exec (.cmp bw src dst) s = .next t ∧ FlagsOrder (sizeOf bw) a.value b.value t) ∧
    (∀ p ∈ [(Instr.cmpxA, Size.ext), (.cmpxW, .word), (.cmpxB, .byte)], ∀ x src dst s a s1 b s2,
      (p.1 x src dst).wf = true → resolveSrc p.2 (extSrcHi x) src (operandState (some x) s) = .ok (a, s1) →
      resolveDst p.2 (extDstHi x) true dst s1 = .ok (b, s2) → (0 < count (some x) s → dst ≠ .reg 0) →
      ∃ t, exec (p.1 x src dst) s = .next t ∧ FlagsOrder p.2 a.value b.value t) ∧
    (∀ rs d s, ∃ t, exec (.cmpaReg rs d) s = .next t ∧
      FlagsOrder .ext (trunc .ext (s.base rs)) (trunc .ext (s.base d)) t) ∧
    ∀ hi d s v u, fetchHigh hi s = .ok (v, u) → ∃ t, exec (.cmpaImm hi d) s = .next t ∧
      FlagsOrder .ext v (trunc .ext (u.base d)) t

/-- RRC, RRCX and RRCM rotate the value with C as one number of w + 1 bits. In every form, whenever the operand can
be read and written: the value with C above it (0 under a zero-carry extension word) is rotated right by 1, or by
n for RRCM; C takes the last bit out, Z and N are those of the result, V is 0; nothing else changes. (A repeated
instruction into R0 is in RepeatedPcReserved.) (An explicit write of R2 goes by SR_CTL_WRITE; that PRESERVE keeps
bit 3 is the model's reading of R39 by its words and D20: log entry 4.) (Derived: 40_alu_flags.md section 6:
R180, R181; 46_single_operand.md sections 1 to 3: R290, R291, R295; 43_address_group.md section 3: R250, R251;
47_extension_prefix.md section 3: R317.) -/
def Obligations.RotateThroughCarry : Prop :=
  (∀ opd bw, RunsII (.rrc bw opd) (sizeOf bw) none opd (rrcRule (sizeOf bw) 1)) ∧
    (∀ opd x, RunsII (.rrcxA x opd) .ext (some x) opd (rrcRule .ext 1) ∧
      RunsII (.rrcxW x opd) .word (some x) opd (rrcRule .word 1) ∧
      RunsII (.rrcxB x opd) .byte (some x) opd (rrcRule .byte 1)) ∧
    ∀ n d, RunsRotate (.rrcmA n d) .ext d (rrcRule .ext (n.toNat + 1)) ∧
      RunsRotate (.rrcmW n d) .word d (rrcRule .word (n.toNat + 1))

/-- RRA, RRAX and RRAM divide the signed value by a power of two, rounding down. In every form, whenever the operand
can be read and written: the result is the signed value divided by 2, or by 2^n for RRAM, rounded down; C is the
last bit out (bit n-1), Z and N are those of the result, V is 0; nothing else changes. (A repeated instruction
into R0 is in RepeatedPcReserved.) (An explicit write of R2 goes by SR_CTL_WRITE; that PRESERVE keeps bit 3 is
the model's reading of R39 by its words and D20: log entry 4.) (Derived: 40_alu_flags.md section 6: R180, R181;
46_single_operand.md section 2: R292; 43_address_group.md section 3: R250, R252.) -/
def Obligations.ShiftRightArithmetic : Prop :=
  (∀ opd bw, RunsII (.rra bw opd) (sizeOf bw) none opd (rraRule (sizeOf bw) 1)) ∧
    (∀ opd x, RunsII (.rraxA x opd) .ext (some x) opd (rraRule .ext 1) ∧
      RunsII (.rraxW x opd) .word (some x) opd (rraRule .word 1) ∧
      RunsII (.rraxB x opd) .byte (some x) opd (rraRule .byte 1)) ∧
    ∀ n d, RunsRotate (.rramA n d) .ext d (rraRule .ext (n.toNat + 1)) ∧
      RunsRotate (.rramW n d) .word d (rraRule .word (n.toNat + 1))

/-- RLAM multiplies and RRUM divides by a power of two; RLAM leaves V free. RLAM gives the value times 2^n modulo 2^w
with C bit w-n of it, and says nothing of V; RRUM gives the value divided by 2^n with C bit n-1 of it and V 0; Z
and N are those of the result; nothing else changes. (An explicit write of R2 goes by SR_CTL_WRITE; that PRESERVE
keeps bit 3 is the model's reading of R39 by its words and D20: log entry 4.) (Derived: 40_alu_flags.md sections
6 and 8: R180, R181, R186; 43_address_group.md section 3: R250, R253, R254.) -/
def Obligations.ShiftLeftAndLogical : Prop :=
  ∀ n d, RunsRotate (.rlamA n d) .ext d (rlaRule .ext (n.toNat + 1)) ∧
      RunsRotate (.rlamW n d) .word d (rlaRule .word (n.toNat + 1)) ∧
      RunsRotate (.rrumA n d) .ext d (rruRule .ext (n.toNat + 1)) ∧
      RunsRotate (.rrumW n d) .word d (rruRule .word (n.toNat + 1))

/-- SWPB and SWPBX.W swap the bytes of the word and write no flag; SXT and SXTX.W sign-extend its low byte. Whenever
the operand can be read and written: for SWPB the low byte becomes the high byte and the high byte the low one,
and no flag changes; for SXT the result is the low byte as a signed number in 16 bits, C is result not 0, Z and N
are those of the result, V is 0; nothing else changes. (A repeated instruction into R0 is in RepeatedPcReserved.)
(An explicit write of R2 goes by SR_CTL_WRITE; that PRESERVE keeps bit 3 is the model's reading of R39 by its
words and D20: log entry 4.) (Derived: 40_alu_flags.md section 7: R182, R183; 46_single_operand.md sections 1 to
3: R290, R293 to R295.) -/
def Obligations.SwapAndSignExtend : Prop :=
  (∀ opd, RunsII (.swpb opd) .word none opd swpbRule ∧ ∀ x, RunsII (.swpbxW x opd) .word (some x) opd swpbRule) ∧
    ∀ opd, RunsII (.sxt opd) .word none opd sxtRule ∧ ∀ x, RunsII (.sxtxW x opd) .word (some x) opd sxtRule

/-- Each jump goes to P + 2 + 2 * offset when its condition holds and to P + 2 otherwise. JNZ, JZ, JNC, JC, JN, JGE,
JL and JMP are taken on Z = 0, Z = 1, C = 0, C = 1, N = 1, N xor V = 0, N xor V = 1 and always; taken, the
program counter becomes P + 2 plus twice the signed 10-bit offset, modulo 2^20, otherwise P + 2; no flag, no
other register and no memory changes. (Where a repetition is in progress it governs the program counter, R313.
That cond = core[12:10] selects the jump is in FieldsSelectInstruction.) (Derived: 42_jumps.md section 1: R230,
R231; 47_extension_prefix.md section 2: R313.) -/
def Obligations.JumpsFollowFlags : Prop :=
  ∀ (off : BitVec 10) (s : State), ∀ p ∈ [(Instr.jnz off, !s.flagZ), (.jz off, s.flagZ), (.jnc off, !s.flagC),
        (.jc off, s.flagC), (.jn off, s.flagN), (.jge off, !(s.flagN ^^ s.flagV)), (.jl off, s.flagN ^^ s.flagV),
        (.jmp off, true)],
      exec p.1 s = .next { s.setPc (pcAfter s 0 1
          (if p.2 then some (slotOf (((s.pc.toNat : Int) + 2 + 2 * off.toInt) % 2 ^ 20).toNat) else none)) with
        rep := repAfter s 0 }

/-- A running state at JMP $ steps to itself. At a running state with no repetition in progress whose memory holds
the word 0x3FFF at the program counter, below 2^20, a step gives that same state: the spec's convention for the
end of a program. (Derived: 70_reset_and_hazards.md section 2: R456; 42_jumps.md section 1: R232.) -/
def Obligations.JumpToItself : Prop :=
  ∀ s : State, s.running → s.rep.left = 0 → s.holdsWords s.pc [0x3FFF] → step s = .next s

/-- Each form of CALLA pushes the address after it, high half first, and goes to its target. Each of the seven forms,
whenever its operand can be read and both halves pushed: the address after its last word is stored as two 16-bit
words below the stack pointer, the high half first; the stack pointer is 4 lower, counted after an autoincrement;
the program counter takes the 20-bit operand; no flag and nothing else changes. (An explicit write of R2 goes by
SR_CTL_WRITE; that PRESERVE keeps bit 3 is the model's reading of R39 by its words and D20: log entry 4.)
(Derived: 44_calla_reti.md section 2: R271 to R278.) -/
def Obligations.CallaPushesReturn : Prop :=
  (∀ d, RunsCall (.callaReg d) 1 none (readReg d)) ∧
    (∀ d, RunsCall (.callaInd d) 1 none (readInd d)) ∧
    (∀ d, RunsCall (.callaInc d) 1 (some d) (readInd d)) ∧
    (∀ d, RunsCall (.callaIdx d) 2 none (readAt (fetchIndexed d))) ∧
    (∀ hi, RunsCall (.callaAbs hi) 2 none (readAt (fetchHigh hi))) ∧
    (∀ hi, RunsCall (.callaSym hi) 2 none (readAt (fetchSymbolic hi))) ∧
    ∀ hi, RunsCall (.callaImm hi) 2 none (fetchHigh hi)

/-- RETA after any CALLA returns to the address after it, with the stack pointer back. After a CALLA of any form that
completed with its return address in four bytes of memory, MOVA @SP+,PC goes to the address after the CALLA, and
changes no other register and no memory. The stack pointer is then what it was before the CALLA, modulo 2^20, or
4 more after CALLA @SP+, whose operand advanced it. (Derived: 44_calla_reti.md section 2: R271;
43_address_group.md section 2: R242; 30_encoding.md section 8: R166.) -/
def Obligations.RetaReturns : Prop :=
  ∀ (i : Instr) (s t : State), 0 < callaWords i → s.running → s.rep.left = 0 → s.mem.wf → exec i s = .next t →
    t.running → t.sp.toNat + 4 ≤ Config.memSize → resolve s.params t.sp = .memory →
    resolve s.params (t.sp + 2) = .memory →
    ∃ u, exec (.movaInc 1 0) t = .next u ∧ u.running ∧ u.pc = low20 (s.pc + BitVec.ofNat 32 (2 * callaWords i)) ∧
      u.sp = low20 (t.sp + 4) ∧
      u.sp.toNat = (s.sp.toNat + (if callaAuto i = some 1 then 4 else 0)) % 2 ^ 20 ∧ u.mem = t.mem ∧ u.sent = t.sent ∧
      ∀ r, r ≠ 0 → r ≠ 1 → u.reg r = t.reg r

/-- PUSHM.A and PUSHM.W store R[d] down to R[d-N+1] below the stack pointer. Whenever each slot can be written: the
registers' values before the instruction, masked to 20 or 16 bits, R0 and R3 read as operands, are stored in
slots of 4 or 2 bytes, R[d] highest; the stack pointer is lower by N slots; no flag, no other register and no
other byte changes. (Derived: 45_pushm_popm.md sections 1 and 2: R281, R283, R284.) -/
def Obligations.PushmStoresRegisters : Prop :=
  ∀ n d, RunsPush (.pushmA n d) .ext n d ∧ RunsPush (.pushmW n d) .word n d

/-- POPM.A and POPM.W load R[d] up to R[d+N-1] from the stack pointer up. Whenever each slot can be read: R[d] takes
the lowest slot and R[d+N-1] the highest, masked to 20 or 16 bits; a pop into R0 branches, into R2 writes SR,
into R3 is discarded; the stack pointer is higher by N slots; memory and every other register is as before. (An
explicit write of R2 goes by SR_CTL_WRITE; that PRESERVE keeps bit 3 is the model's reading of R39 by its words
and D20: log entry 4.) (Derived: 45_pushm_popm.md sections 1 and 2: R282, R285, R286.) -/
def Obligations.PopmLoadsRegisters : Prop :=
  ∀ n d, RunsPop (.popmA n d) .ext n d ∧ RunsPop (.popmW n d) .word n d

/-- POPM.A after PUSHM.A of the same registers restores every register but the program counter. From a state whose
slots are below 2^20: when PUSHM.A #N,R[d] can store each slot in memory, and the POPM of the same registers is
legal, PUSHM.A then POPM.A #N,R[d-N+1] completes with every register but the program counter as it was, the stack
pointer among them. (Slots in a device, which need not read back what was written, are left out.) (Derived:
45_pushm_popm.md section 1: R281, R282.) -/
def Obligations.PushThenPopRestores : Prop :=
  ∀ (n : BitVec 4) (d : RegNum) (s : State), (Instr.pushmA n d).wf = true →
    (Instr.popmA n (Fin.ofNat 16 (d.val - n.toNat))).wf = true → s.mem.wf → s.slotsNarrow → s.rep.left = 0 →
    (∀ e ∈ pushSlots 4 s.sp (pushValues .ext n d s),
      resolve s.params e.1 = .memory ∧ e.1.toNat + 4 ≤ Config.memSize) →
    ∃ t u, exec (.pushmA n d) s = .next t ∧ exec (.popmA n (Fin.ofNat 16 (d.val - n.toNat))) t = .next u ∧
      (s.running → u.running) ∧ u.mem = t.mem ∧ ∀ r, r ≠ 0 → u.reg r = s.reg r

/-- RPT #k RRAX.A Rd, run to its end, shifts k times and goes on after its two words. In a running state with no
repetition in progress whose memory holds, at the program counter, the extension word 0x1800 + n and the core
word of RRAX.A Rd for a general register: after n + 1 steps the register holds its 20-bit signed value divided by
2^(n+1), rounded down, no repetition is in progress, the program counter is P + 4, memory and every other
register but SR is as before; C is the last bit shifted out, Z and N are those of the result, V is 0 and no other
bit of SR changes. (Derived: 47_extension_prefix.md sections 2 and 4: R312 to R316, R318; 46_single_operand.md
sections 2 and 3: R292, R295.) -/
def Obligations.RepeatedShiftRuns : Prop :=
  ∀ (n d : RegNum) (s : State), d ≠ 0 → d ≠ 2 → d ≠ 3 → s.running → s.rep = ⟨0, none⟩ → s.mem.wf →
    s.pc.toNat < 2 ^ 20 →
    s.holdsWords s.pc [BitVec.ofNat 16 (0x1800 + n.val), BitVec.ofNat 16 (0x1140 + d.val)] →
    ∃ t, reaches (n.val + 1) s t ∧ t.running ∧ t.rep = ⟨0, none⟩ ∧ t.pc = low20 (s.pc + 4) ∧ t.mem = s.mem ∧
      t.reg d = slotOf (signed .ext ((s.reg d).toNat % 2 ^ 20) / 2 ^ (n.val + 1) % 2 ^ 20).toNat ∧
      (FlagRule.written ((s.reg d).getLsbD n.val) (decide (t.reg d = 0)) (isNeg .ext (t.reg d).toNat) (some false)).holds
        s.sr t.sr ∧
      ∀ r, r ≠ 0 → r ≠ 2 → r ≠ d → t.reg r = s.reg r
end

