-- ==== Sys2Proof/Laws/Memory.lean ====
section
/-! SUPPORT. The memory device's bytes: read after write, a write leaves every other byte alone, every write keeps the
canonical form, equal bytes are equal memories (spec/20_memory.md R78, R79, R81). -/

namespace Sys2Proof.Machine

open Sys2Proof

namespace Memory

/-- The empty memory is in canonical form. -/
theorem wf_nil : Memory.wf [] := ⟨List.Pairwise.nil, by simp⟩

/-- The tail of a memory in canonical form is in canonical form. -/
theorem wf_tail {c : Host.Cell} {m : Memory} (h : Memory.wf (c :: m)) : Memory.wf m :=
  ⟨(List.pairwise_cons.1 h.1).2, fun d hd => h.2 d (List.mem_cons_of_mem _ hd)⟩

/-- An address below every listed one reads as an unlisted address. -/
theorem get_below (m : Memory) (a : Nat) (h : ∀ c ∈ m, a < c.1) : Memory.get m a = Memory.unlisted := by
  induction m with
  | nil => rfl
  | cons c t ih =>
    obtain ⟨b, v⟩ := c
    have hb : a < b := h (b, v) (by simp)
    simp only [Memory.get]
    rw [if_neg (by omega)]
    exact ih fun d hd => h d (List.mem_cons_of_mem _ hd)

/-- Read after write, one byte: the address written gives the byte, any other what it gave before. -/
theorem get_set (m : Memory) (hm : m.wf) (a b : Nat) (v : Byte) :
    Memory.get (Memory.set m a v) b = if a = b then v else Memory.get m b := by
  induction m with
  | nil =>
    by_cases hv : v = Memory.unlisted
    · by_cases h : a = b <;> simp [Memory.set, Memory.get, hv, h]
    · simp [Memory.set, Memory.get, hv]
  | cons c t ih =>
    obtain ⟨k, w⟩ := c
    have ht := ih (wf_tail hm)
    have hlt : ∀ d ∈ t, k < d.1 := (List.pairwise_cons.1 hm.1).1
    have key : k = b → ∀ d ∈ t, b < d.1 := fun e => e ▸ hlt
    simp only [Memory.set]
    split
    · rename_i hak
      split
      · rename_i hv
        subst hv
        split
        · rename_i hab
          subst hab
          refine get_below _ _ ?_
          rintro d hd
          rcases List.mem_cons.1 hd with rfl | hd
          · exact hak
          · exact lt_trans hak (hlt d hd)
        · rfl
      · simp [Memory.get]
    · split
      · rename_i hak
        subst hak
        split
        · rename_i hv
          subst hv
          by_cases hab : a = b
          · subst hab
            simpa using get_below _ _ hlt
          · simp [Memory.get, hab]
        · by_cases hab : a = b <;> simp [Memory.get, hab]
      · simp only [Memory.get, ht]
        by_cases hkb : k = b
        · subst hkb; simp_all
        · simp [hkb]

theorem mem_set {m : Memory} {a : Nat} {v : Byte} {c : Host.Cell} (h : c ∈ Memory.set m a v) :
    c ∈ m ∨ (c = (a, v) ∧ v ≠ Memory.unlisted) := by
  induction m with
  | nil =>
    simp only [Memory.set] at h
    split at h
    · simp at h
    · right; simp_all
  | cons d t ih =>
    obtain ⟨k, w⟩ := d
    simp only [Memory.set] at h
    split at h
    · split at h
      · exact .inl h
      · rcases List.mem_cons.1 h with rfl | h
        · exact .inr ⟨rfl, ‹_›⟩
        · exact .inl h
    · split at h
      · split at h
        · exact .inl (List.mem_cons_of_mem _ h)
        · rcases List.mem_cons.1 h with rfl | h
          · exact .inr ⟨rfl, ‹_›⟩
          · exact .inl (List.mem_cons_of_mem _ h)
      · rcases List.mem_cons.1 h with rfl | h
        · exact .inl (by simp)
        · rcases ih h with h | h
          · exact .inl (List.mem_cons_of_mem _ h)
          · exact .inr h

/-- A byte written inside the array keeps the canonical form. -/
theorem wf_set (m : Memory) (hm : m.wf) (a : Nat) (v : Byte) (ha : a < Config.memSize) :
    Memory.wf (Memory.set m a v) := by
  refine ⟨?_, fun c hc => ?_⟩
  · induction m with
    | nil => simp only [Memory.set]; split <;> simp
    | cons d t ih =>
      obtain ⟨k, w⟩ := d
      have hp := List.pairwise_cons.1 hm.1
      have ht := ih (wf_tail hm)
      simp only [Memory.set]
      split
      · rename_i hak
        split
        · exact hm.1
        · refine List.pairwise_cons.2 ⟨fun c hc => ?_, hm.1⟩
          rcases List.mem_cons.1 hc with rfl | hc
          · exact hak
          · exact lt_trans hak (hp.1 c hc)
      · split
        · rename_i hak
          subst hak
          split
          · exact hp.2
          · exact List.pairwise_cons.2 ⟨hp.1, hp.2⟩
        · refine List.pairwise_cons.2 ⟨fun c hc => ?_, ht⟩
          rcases mem_set hc with hc | ⟨rfl, -⟩
          · exact hp.1 c hc
          · show k < a
            omega
  · rcases mem_set hc with hc | ⟨rfl, hv⟩
    · exact hm.2 c hc
    · exact ⟨hv, ha⟩

/-- Bytes written inside the array keep the canonical form. -/
theorem wf_writeLE (m : Memory) (hm : m.wf) (a v n : Nat) (h : a + n ≤ Config.memSize) :
    Memory.wf (Memory.writeLE m a v n) := by
  induction n generalizing m a v with
  | zero => exact hm
  | succ n ih => exact ih _ (wf_set m hm a _ (by omega)) (a + 1) (v / 256) (by omega)

/-- A byte outside the bytes written is what it was. -/
theorem get_writeLE_out (m : Memory) (hm : m.wf) (a v n b : Nat) (hn : a + n ≤ Config.memSize)
    (h : b < a ∨ a + n ≤ b) : Memory.get (Memory.writeLE m a v n) b = Memory.get m b := by
  induction n generalizing m a v with
  | zero => rfl
  | succ n ih =>
    simp only [Memory.writeLE]
    rw [ih _ (wf_set m hm a _ (by omega)) (a + 1) (v / 256) (by omega) (by omega), get_set m hm, if_neg (by omega)]

/-- The `k`-th byte written is the `k`-th byte of the value, least significant first. -/
theorem get_writeLE_in (m : Memory) (hm : m.wf) (a v n k : Nat) (hn : a + n ≤ Config.memSize) (h : k < n) :
    Memory.get (Memory.writeLE m a v n) (a + k) = BitVec.ofNat 8 (v / 256 ^ k) := by
  induction n generalizing m a v k with
  | zero => omega
  | succ n ih =>
    have hw := wf_set m hm a (BitVec.ofNat 8 v) (by omega)
    simp only [Memory.writeLE]
    rcases k with _ | k
    · rw [get_writeLE_out _ hw _ _ _ _ (by omega) (by omega), get_set m hm]
      simp
    · have := ih _ hw (a + 1) (v / 256) k (by omega) (by omega)
      rw [show a + (k + 1) = a + 1 + k by omega, this, Nat.div_div_eq_div_mul, ← pow_succ']

/-- A little-endian number depends on its bytes alone. -/
theorem readLE_congr {m m' : Memory} {a n : Nat} (h : ∀ k < n, Memory.get m (a + k) = Memory.get m' (a + k)) :
    Memory.readLE m a n = Memory.readLE m' a n := by
  induction n generalizing a with
  | zero => rfl
  | succ n ih =>
    simp only [Memory.readLE]
    rw [show Memory.get m a = Memory.get m' a by simpa using h 0 (by omega),
      ih fun k hk => by simpa [Nat.add_assoc, Nat.add_comm 1 k] using h (k + 1) (by omega)]

/-- A number of `n` bytes is below `256 ^ n`. -/
theorem readLE_lt (m : Memory) (a n : Nat) : Memory.readLE m a n < 256 ^ n := by
  induction n generalizing a with
  | zero => simp [Memory.readLE]
  | succ n ih =>
    have := ih (a + 1)
    have hb : (Memory.get m a).toNat < 256 := (Memory.get m a).isLt
    simp only [Memory.readLE, pow_succ]
    omega

/-- Read after write: the number stored in `n` bytes reads back, modulo `256 ^ n` (R79). -/
theorem readLE_writeLE (m : Memory) (hm : m.wf) (a v n : Nat) (hn : a + n ≤ Config.memSize) :
    Memory.readLE (Memory.writeLE m a v n) a n = v % 256 ^ n := by
  induction n generalizing m a v with
  | zero => simp [Memory.readLE, Nat.mod_one]
  | succ n ih =>
    have hw := wf_set m hm a (BitVec.ofNat 8 v) (by omega)
    have h0 := get_writeLE_in m hm a v (n + 1) 0 hn (by omega)
    simp only [Nat.add_zero, pow_zero, Nat.div_one] at h0
    have ht := ih _ hw (a + 1) (v / 256) (by omega)
    simp only [Memory.readLE]
    rw [h0]
    simp only [Memory.writeLE]
    rw [ht, pow_succ', Nat.mod_mul]
    simp

/-- A number elsewhere is what it was. -/
theorem readLE_writeLE_out (m : Memory) (hm : m.wf) (a v n b k : Nat) (hn : a + n ≤ Config.memSize)
    (h : b + k ≤ a ∨ a + n ≤ b) : Memory.readLE (Memory.writeLE m a v n) b k = Memory.readLE m b k :=
  readLE_congr fun j hj => get_writeLE_out m hm a v n (b + j) hn (by omega)

/-- A number of `n + k` bytes is its low `n` bytes and the number of the `k` bytes above them. -/
theorem readLE_add (m : Memory) (a n k : Nat) :
    Memory.readLE m a (n + k) = Memory.readLE m a n + 256 ^ n * Memory.readLE m (a + n) k := by
  induction n generalizing a with
  | zero => simp [Memory.readLE]
  | succ n ih =>
    rw [show n + 1 + k = (n + k) + 1 by omega]
    simp only [Memory.readLE, ih (a + 1), pow_succ]
    rw [show a + 1 + n = a + (n + 1) by omega]
    ring

/-- Memories in canonical form with the same bytes are the same. -/
theorem ext_get {m m' : Memory} (hm : m.wf) (hm' : m'.wf) (h : ∀ a, Memory.get m a = Memory.get m' a) : m = m' := by
  induction m generalizing m' with
  | nil =>
    cases m' with
    | nil => rfl
    | cons d t =>
      obtain ⟨b, w⟩ := d
      have := h b
      simp only [Memory.get, if_true] at this
      exact absurd this.symm (hm'.2 (b, w) (by simp)).1
  | cons c t ih =>
    obtain ⟨k, v⟩ := c
    have hk : ∀ d ∈ t, k < d.1 := (List.pairwise_cons.1 hm.1).1
    have hv : v ≠ Memory.unlisted := (hm.2 (k, v) (by simp)).1
    cases m' with
    | nil =>
      have := h k
      simp only [Memory.get, if_true] at this
      exact absurd this hv
    | cons d t' =>
      obtain ⟨b, w⟩ := d
      have hb : ∀ d ∈ t', b < d.1 := (List.pairwise_cons.1 hm'.1).1
      have hw : w ≠ Memory.unlisted := (hm'.2 (b, w) (by simp)).1
      have hkb : k = b := by
        rcases lt_trichotomy k b with hlt | heq | hlt
        · have hh := h k
          rw [show Memory.get ((b, w) :: t') k = Memory.unlisted from get_below _ _ (by
            rintro d hd
            rcases List.mem_cons.1 hd with rfl | hd
            · exact hlt
            · exact lt_trans hlt (hb d hd))] at hh
          simp only [Memory.get, if_true] at hh
          exact absurd hh hv
        · exact heq
        · have hh := h b
          rw [show Memory.get ((k, v) :: t) b = Memory.unlisted from get_below _ _ (by
            rintro d hd
            rcases List.mem_cons.1 hd with rfl | hd
            · exact hlt
            · exact lt_trans hlt (hk d hd))] at hh
          simp only [Memory.get, if_true] at hh
          exact absurd hh.symm hw
      subst hkb
      have hvw : v = w := by simpa [Memory.get] using h k
      subst hvw
      congr 1
      refine ih (wf_tail hm) (wf_tail hm') fun a => ?_
      by_cases ha : k = a
      · subst ha
        rw [get_below _ _ hk, get_below _ _ hb]
      · simpa [Memory.get, ha] using h a

end Memory

end Sys2Proof.Machine
end

