-- ==== Sys2Proof/Laws/State.lean ====
section
/-! SUPPORT. One lemma per field per update of the state, so that no proof unfolds a record update. -/

namespace Sys2Proof.Machine

open Sys2Proof

namespace State

variable (s : State) (r q : RegNum) (v : Slot)

/-! ## Reading a register after an update -/

@[simp] theorem reg_setReg : (s.setReg r v).reg q = if r = q then v else s.reg q := by
  simp [setReg, reg, Vector.getElem_set, Fin.ext_iff]

/-- A state with the slots of `t` and any other fields has the registers of `t`. -/
@[simp] theorem reg_mk (t : State) (m : Memory) (p : Rep) (h : Option Halt) (a : Params) (d n : Nat)
    (l : List DeviceWrite) : State.reg ⟨t.regs, m, p, h, a, d, n, l⟩ r = t.reg r := rfl

/-! ## The other fields after a register write -/

@[simp] theorem setReg_mem : (s.setReg r v).mem = s.mem := rfl
@[simp] theorem setReg_rep : (s.setReg r v).rep = s.rep := rfl
@[simp] theorem setReg_halted : (s.setReg r v).halted = s.halted := rfl
@[simp] theorem setReg_params : (s.setReg r v).params = s.params := rfl
@[simp] theorem setReg_draws : (s.setReg r v).draws = s.draws := rfl
@[simp] theorem setReg_deviceReads : (s.setReg r v).deviceReads = s.deviceReads := rfl
@[simp] theorem setReg_sent : (s.setReg r v).sent = s.sent := rfl

@[simp] theorem setPc_mem : (s.setPc v).mem = s.mem := rfl
@[simp] theorem setPc_rep : (s.setPc v).rep = s.rep := rfl
@[simp] theorem setPc_halted : (s.setPc v).halted = s.halted := rfl
@[simp] theorem setPc_params : (s.setPc v).params = s.params := rfl
@[simp] theorem setPc_draws : (s.setPc v).draws = s.draws := rfl
@[simp] theorem setPc_deviceReads : (s.setPc v).deviceReads = s.deviceReads := rfl
@[simp] theorem setPc_sent : (s.setPc v).sent = s.sent := rfl
@[simp] theorem reg_setPc : (s.setPc v).reg q = if q = 0 then v else s.reg q := by
  simp only [setPc, reg_setReg, eq_comm]

/-! ## The named registers -/

@[simp] theorem pc_setReg : (s.setReg r v).pc = if r = 0 then v else s.pc := by simp [pc]
@[simp] theorem sp_setReg : (s.setReg r v).sp = if r = 1 then v else s.sp := by simp [sp]
@[simp] theorem sr_setReg : (s.setReg r v).sr = if r = 2 then v else s.sr := by simp [sr]
@[simp] theorem pc_setPc : (s.setPc v).pc = v := by simp [pc]
@[simp] theorem sp_setPc : (s.setPc v).sp = s.sp := by simp [sp]
@[simp] theorem sr_setPc : (s.setPc v).sr = s.sr := by simp [sr]

@[simp] theorem pc_mk (t : State) (m : Memory) (p : Rep) (h : Option Halt) (a : Params) (d n : Nat)
    (l : List DeviceWrite) : State.pc ⟨t.regs, m, p, h, a, d, n, l⟩ = t.pc := rfl
@[simp] theorem sp_mk (t : State) (m : Memory) (p : Rep) (h : Option Halt) (a : Params) (d n : Nat)
    (l : List DeviceWrite) : State.sp ⟨t.regs, m, p, h, a, d, n, l⟩ = t.sp := rfl
@[simp] theorem sr_mk (t : State) (m : Memory) (p : Rep) (h : Option Halt) (a : Params) (d n : Nat)
    (l : List DeviceWrite) : State.sr ⟨t.regs, m, p, h, a, d, n, l⟩ = t.sr := rfl

/-! ## A state is its registers and its other fields -/

/-- Two states with the same slots and the same other fields are the same. -/
theorem ext_reg {s t : State} (hr : ∀ r, s.reg r = t.reg r) (hm : s.mem = t.mem) (hp : s.rep = t.rep)
    (hh : s.halted = t.halted) (ha : s.params = t.params) (hd : s.draws = t.draws)
    (hn : s.deviceReads = t.deviceReads) (hs : s.sent = t.sent) : s = t := by
  obtain ⟨sr, _, _, _, _, _, _, _⟩ := s
  obtain ⟨tr, _, _, _, _, _, _, _⟩ := t
  have : sr = tr := by
    apply Vector.ext
    intro i hi
    simpa [reg] using hr ⟨i, hi⟩
  simp_all

/-- The last write of a slot is the one that stays. -/
theorem setReg_setReg (v w : Slot) : (s.setReg r v).setReg r w = s.setReg r w :=
  ext_reg (fun q => by by_cases h : r = q <;> simp [h]) rfl rfl rfl rfl rfl rfl rfl

/-! ## Taking a fault (R402) -/

variable (c : FaultCause)

@[simp] theorem takeFault_reg : (s.takeFault c).reg r = s.reg r := rfl
@[simp] theorem takeFault_mem : (s.takeFault c).mem = s.mem := rfl
@[simp] theorem takeFault_rep : (s.takeFault c).rep = s.rep := rfl
@[simp] theorem takeFault_params : (s.takeFault c).params = s.params := rfl
@[simp] theorem takeFault_draws : (s.takeFault c).draws = s.draws := rfl
@[simp] theorem takeFault_deviceReads : (s.takeFault c).deviceReads = s.deviceReads := rfl
@[simp] theorem takeFault_sent : (s.takeFault c).sent = s.sent := rfl
@[simp] theorem takeFault_halted : (s.takeFault c).halted = some ⟨c, s.pc⟩ := rfl

end State

end Sys2Proof.Machine
end

