-- ==== Sys2Proof/Laws/Ops.lean ====
section
/-! SUPPORT. What each shared operation over registers, memory and the bus does, said once: a proof cites these and does
not unfold the operation. -/

namespace Sys2Proof.Machine

open Sys2Proof

/-! ## Memory -/

/-- Placing words keeps the canonical form. -/
theorem Memory.wf_writeWords (m : Memory) (hm : m.wf) (a : Nat) (ws : List Word)
    (h : a + 2 * ws.length ≤ Config.memSize) : Memory.wf (Memory.writeWords m a ws) := by
  induction ws generalizing m a with
  | nil => exact hm
  | cons w ws ih =>
    simp only [List.length_cons] at h
    exact ih _ (Memory.wf_writeLE _ hm _ _ _ (by omega)) _ (by omega)

/-- Memory at reset is in its canonical form. -/
theorem State.reset_mem_wf : State.reset.mem.wf := Memory.wf_nil

/-! ## Numbers -/

theorem two_pow_bits_le (ws : Size) : 2 ^ bits ws ≤ 2 ^ 20 := by cases ws <;> simp [bits]

theorem two_pow_bits_le_bytes (ws : Size) : 2 ^ bits ws ≤ 256 ^ nb ws := by cases ws <;> simp [bits, nb]

theorem bits_pos (ws : Size) : 0 < bits ws := by cases ws <;> simp [bits]

@[simp] theorem trunc_toNat (ws : Size) (v : Slot) : (trunc ws v).toNat = v.toNat % 2 ^ bits ws := by
  have h : v.toNat % 2 ^ bits ws < 2 ^ bits ws := Nat.mod_lt _ (by positivity)
  have := two_pow_bits_le ws
  simp only [trunc, BitVec.toNat_ofNat]
  exact Nat.mod_eq_of_lt (by omega)

theorem trunc_lt (ws : Size) (v : Slot) : (trunc ws v).toNat < 2 ^ bits ws := by
  rw [trunc_toNat]; exact Nat.mod_lt _ (by positivity)

theorem trunc_of_lt {ws : Size} {v : Slot} (h : v.toNat < 2 ^ bits ws) : trunc ws v = v := by
  apply BitVec.eq_of_toNat_eq
  rw [trunc_toNat, Nat.mod_eq_of_lt h]

@[simp] theorem low20_toNat (v : Slot) : (low20 v).toNat = v.toNat % 2 ^ 20 := by
  simp only [low20, Config.addrBits, BitVec.toNat_ofNat]
  omega

theorem low20_lt (v : Slot) : (low20 v).toNat < 2 ^ 20 := by rw [low20_toNat]; exact Nat.mod_lt _ (by positivity)

/-- Address arithmetic may be reduced early (R31). -/
theorem low20_add (a b : Slot) : low20 (low20 a + b) = low20 (a + b) := by
  apply BitVec.eq_of_toNat_eq
  simp only [low20_toNat, BitVec.toNat_add]
  omega

theorem low20_low20 (a : Slot) : low20 (low20 a) = low20 a := by
  apply BitVec.eq_of_toNat_eq
  simp only [low20_toNat]
  omega

/-! ## The bus -/

/-- The watchdog is registered first (R72). -/
theorem resolve_watchdog {p : Params} {a : Slot} (h : p.wdt.claims a = true) : resolve p a = .watchdog := by
  simp [resolve, h]

/-- What a read that succeeds answers: a bus width, a number of that many bytes, and the same state but for the count of
device reads; from memory, its bytes and the state itself (R76, R77, R80, R81, R84). -/
theorem busRead_ok {s t : State} {a v : Slot} {n : Nat} {k : AccessKind} (h : busRead s a n k = .ok (v, t)) :
    busWidth n = true ∧ v.toNat < 256 ^ n ∧ t = { s with deviceReads := t.deviceReads } ∧
      (resolve s.params a = .memory →
        t = s ∧ a.toNat + n ≤ Config.memSize ∧ v = BitVec.ofNat 32 (s.mem.readLE a.toNat n)) := by
  unfold busRead at h
  split at h
  · rename_i hw
    have hn : n ≤ 4 := by simp [busWidth] at hw; omega
    have h256 : (256 : Nat) ^ n = 2 ^ (8 * n) := by rw [show (256 : Nat) = 2 ^ 8 by norm_num, ← pow_mul]
    split at h
    · rename_i hr
      split at h
      · simp only [Except.ok.injEq, Prod.mk.injEq] at h
        obtain ⟨rfl, rfl⟩ := h
        have hl := Memory.readLE_lt s.mem a.toNat n
        refine ⟨hw, ?_, rfl, fun _ => ⟨rfl, ‹_›, rfl⟩⟩
        exact lt_of_le_of_lt (by simpa using Nat.mod_le _ _) hl
      · exact absurd h (by simp)
    · rename_i hr
      split at h
      · simp only [Except.ok.injEq, Prod.mk.injEq] at h
        obtain ⟨rfl, rfl⟩ := h
        refine ⟨hw, ?_, rfl, fun e => absurd e hr⟩
        rw [h256]
        exact lt_of_le_of_lt (by simpa using Nat.mod_le _ _) (Nat.mod_lt _ (by positivity))
      · exact absurd h (by simp)
  · exact absurd h (by simp)

/-- A read from memory that is in range succeeds (R80). -/
theorem busRead_memory {s : State} {a : Slot} {n : Nat} {k : AccessKind} (hw : busWidth n = true)
    (hr : resolve s.params a = .memory) (h : a.toNat + n ≤ Config.memSize) :
    busRead s a n k = .ok (BitVec.ofNat 32 (s.mem.readLE a.toNat n), s) := by
  simp [busRead, hw, hr, h]

/-- A read from memory out of range faults (R80). -/
theorem busRead_range {s : State} {a : Slot} {n : Nat} {k : AccessKind} (hw : busWidth n = true)
    (hr : resolve s.params a = .memory) (h : Config.memSize < a.toNat + n) :
    busRead s a n k = .error (.addressOutOfRange a n k) := by
  simp [busRead, hw, hr, show ¬ a.toNat + n ≤ Config.memSize by omega]

/-- What a write that succeeds does: it is accepted, memory takes the bytes or the device one more write, and nothing
else changes (R76, R78, R80, R84). -/
theorem busWrite_ok {s t : State} {a v : Slot} {n : Nat} (h : busWrite s a n v = .ok t) :
    busWidth n = true ∧
      ((resolve s.params a = .memory ∧ a.toNat + n ≤ Config.memSize ∧
          t = { s with mem := s.mem.writeLE a.toNat v.toNat n }) ∨
        (resolve s.params a ≠ .memory ∧ (s.params.device (resolve s.params a)).implements n = true ∧
          t = { s with
            sent := ⟨resolve s.params a, a, n, BitVec.ofNat 32 (v.toNat % 2 ^ (8 * n))⟩ :: s.sent })) := by
  unfold busWrite at h
  split at h
  · rename_i hw
    split at h
    · rename_i hr
      split at h
      · simp only [Except.ok.injEq] at h
        exact ⟨hw, .inl ⟨hr, ‹_›, h.symm⟩⟩
      · exact absurd h (by simp)
    · rename_i hr
      split at h
      · simp only [Except.ok.injEq] at h
        exact ⟨hw, .inr ⟨hr, ‹_›, h.symm⟩⟩
      · exact absurd h (by simp)
  · exact absurd h (by simp)

/-- A write to memory that is in range succeeds (R80). -/
theorem busWrite_memory {s : State} {a v : Slot} {n : Nat} (hw : busWidth n = true)
    (hr : resolve s.params a = .memory) (h : a.toNat + n ≤ Config.memSize) :
    busWrite s a n v = .ok { s with mem := s.mem.writeLE a.toNat v.toNat n } := by
  simp [busWrite, hw, hr, h]

/-- A write to a device that implements its width succeeds (R83, R84). -/
theorem busWrite_device {s : State} {a v : Slot} {n : Nat} (hw : busWidth n = true)
    (hr : resolve s.params a ≠ .memory) (h : (s.params.device (resolve s.params a)).implements n = true) :
    busWrite s a n v = .ok { s with
      sent := ⟨resolve s.params a, a, n, BitVec.ofNat 32 (v.toNat % 2 ^ (8 * n))⟩ :: s.sent } := by
  unfold busWrite
  rw [if_pos hw]
  split
  · rename_i e; exact absurd e hr
  · rw [if_pos h]

theorem busWidth_nb (ws : Size) : busWidth (nb ws) = true := by cases ws <;> rfl

/-! ## Fetching -/

/-- What a fetch that succeeds leaves: the same state but for the count of device reads; from memory the state itself and
the word there (R33, R78). -/
theorem fetchHere_ok {s t : State} {w : Word} (h : fetchHere s = .ok (w, t)) :
    t = { s with deviceReads := t.deviceReads } ∧
      (resolve s.params s.pc = .memory →
        t = s ∧ s.pc.toNat + 2 ≤ Config.memSize ∧ w.toNat = s.mem.readLE s.pc.toNat 2) := by
  unfold fetchHere at h
  split at h
  · rename_i v s1 hb
    simp only [Except.ok.injEq, Prod.mk.injEq] at h
    obtain ⟨rfl, rfl⟩ := h
    obtain ⟨-, -, h1, h2⟩ := busRead_ok hb
    refine ⟨h1, fun hr => ?_⟩
    obtain ⟨h3, h4, rfl⟩ := h2 hr
    refine ⟨h3, h4, ?_⟩
    have := Memory.readLE_lt s.mem s.pc.toNat 2
    simp only [BitVec.toNat_ofNat]
    omega
  · exact absurd h (by simp)

/-- A further word: the program counter is 2 further, modulo 2^20, and nothing else but the count of device reads
changes (R33). -/
theorem fetchNext_ok {s t : State} {w : Word} (h : fetchNext s = .ok (w, t)) :
    t = { s.setPc (low20 (s.pc + 2)) with deviceReads := t.deviceReads } := by
  simpa using (fetchHere_ok h).1

/-- A fetch from memory in range succeeds. -/
theorem fetchHere_memory {s : State} (hr : resolve s.params s.pc = .memory)
    (h : s.pc.toNat + 2 ≤ Config.memSize) :
    fetchHere s = .ok (BitVec.ofNat 16 (s.mem.readLE s.pc.toNat 2), s) := by
  have := Memory.readLE_lt s.mem s.pc.toNat 2
  simp only [fetchHere, busRead_memory (by rfl) hr h, BitVec.toNat_ofNat]
  congr 3
  omega

/-! ## Register writes -/

@[simp] theorem setReg_self_regs (s : State) (r : RegNum) : s.setReg r (s.reg r) = s :=
  State.ext_reg (fun q => by by_cases h : r = q <;> simp [h]) rfl rfl rfl rfl rfl rfl rfl

@[simp] theorem writeSR_mem (s : State) (v : Slot) : (s.writeSR v).mem = s.mem := rfl
@[simp] theorem writeSR_rep (s : State) (v : Slot) : (s.writeSR v).rep = s.rep := rfl
@[simp] theorem writeSR_halted (s : State) (v : Slot) : (s.writeSR v).halted = s.halted := rfl
@[simp] theorem writeSR_params (s : State) (v : Slot) : (s.writeSR v).params = s.params := rfl
@[simp] theorem writeSR_draws (s : State) (v : Slot) : (s.writeSR v).draws = s.draws := rfl
@[simp] theorem writeSR_deviceReads (s : State) (v : Slot) : (s.writeSR v).deviceReads = s.deviceReads := rfl
@[simp] theorem writeSR_sent (s : State) (v : Slot) : (s.writeSR v).sent = s.sent := rfl

theorem writeSR_reg (s : State) (v : Slot) (r : RegNum) (h : r ≠ 2) : (s.writeSR v).reg r = s.reg r := by
  simp [State.writeSR, Ne.symm h]

theorem writeReg_fields (s : State) (r : RegNum) (v : Slot) (ws : Size) :
    (s.writeReg r v ws).mem = s.mem ∧ (s.writeReg r v ws).rep = s.rep ∧ (s.writeReg r v ws).halted = s.halted ∧
      (s.writeReg r v ws).params = s.params ∧ (s.writeReg r v ws).draws = s.draws ∧
      (s.writeReg r v ws).deviceReads = s.deviceReads ∧ (s.writeReg r v ws).sent = s.sent := by
  unfold State.writeReg
  split
  · simp
  · split <;> simp

@[simp] theorem writeReg_mem (s : State) (r : RegNum) (v : Slot) (ws : Size) : (s.writeReg r v ws).mem = s.mem :=
  (writeReg_fields s r v ws).1
@[simp] theorem writeReg_rep (s : State) (r : RegNum) (v : Slot) (ws : Size) : (s.writeReg r v ws).rep = s.rep :=
  (writeReg_fields s r v ws).2.1
@[simp] theorem writeReg_halted (s : State) (r : RegNum) (v : Slot) (ws : Size) :
    (s.writeReg r v ws).halted = s.halted := (writeReg_fields s r v ws).2.2.1
@[simp] theorem writeReg_params (s : State) (r : RegNum) (v : Slot) (ws : Size) :
    (s.writeReg r v ws).params = s.params := (writeReg_fields s r v ws).2.2.2.1
@[simp] theorem writeReg_draws (s : State) (r : RegNum) (v : Slot) (ws : Size) :
    (s.writeReg r v ws).draws = s.draws := (writeReg_fields s r v ws).2.2.2.2.1
@[simp] theorem writeReg_deviceReads (s : State) (r : RegNum) (v : Slot) (ws : Size) :
    (s.writeReg r v ws).deviceReads = s.deviceReads := (writeReg_fields s r v ws).2.2.2.2.2.1
@[simp] theorem writeReg_sent (s : State) (r : RegNum) (v : Slot) (ws : Size) : (s.writeReg r v ws).sent = s.sent :=
  (writeReg_fields s r v ws).2.2.2.2.2.2

/-- `WriteReg` on a register other than R2 and R3 stores the masked value there, and leaves every other (R31). -/
theorem writeReg_reg (s : State) (r q : RegNum) (v : Slot) (ws : Size) (h2 : r ≠ 2) (h3 : r ≠ 3) :
    (s.writeReg r v ws).reg q = if r = q then trunc ws v else s.reg q := by
  simp [State.writeReg, h2, h3]

/-- `WriteReg` leaves every register but its own. -/
theorem writeReg_other (s : State) (r q : RegNum) (v : Slot) (ws : Size) (h : r ≠ q) :
    (s.writeReg r v ws).reg q = s.reg q := by
  unfold State.writeReg
  split
  · rfl
  · split
    · rename_i h2; exact writeSR_reg _ _ _ (by rw [← h2]; exact Ne.symm h)
    · simp [h]

/-- `WriteReg` on R3 is discarded (R32). -/
@[simp] theorem writeReg_three (s : State) (v : Slot) (ws : Size) : s.writeReg 3 v ws = s := by simp [State.writeReg]

/-- `WriteReg` on R2 is an explicit write of SR (R39). -/
theorem writeReg_two (s : State) (v : Slot) (ws : Size) : s.writeReg 2 v ws = s.writeSR (trunc ws v) := by
  simp [State.writeReg]

theorem autoInc_fields (s : State) (r : RegNum) (k : Nat) :
    (s.autoInc r k).mem = s.mem ∧ (s.autoInc r k).rep = s.rep ∧ (s.autoInc r k).halted = s.halted ∧
      (s.autoInc r k).params = s.params ∧ (s.autoInc r k).draws = s.draws ∧
      (s.autoInc r k).deviceReads = s.deviceReads ∧ (s.autoInc r k).sent = s.sent := by
  unfold State.autoInc
  dsimp only
  split
  · simp
  · split <;> simp

@[simp] theorem autoInc_mem (s : State) (r : RegNum) (k : Nat) : (s.autoInc r k).mem = s.mem := (autoInc_fields s r k).1
@[simp] theorem autoInc_rep (s : State) (r : RegNum) (k : Nat) : (s.autoInc r k).rep = s.rep :=
  (autoInc_fields s r k).2.1
@[simp] theorem autoInc_halted (s : State) (r : RegNum) (k : Nat) : (s.autoInc r k).halted = s.halted :=
  (autoInc_fields s r k).2.2.1
@[simp] theorem autoInc_params (s : State) (r : RegNum) (k : Nat) : (s.autoInc r k).params = s.params :=
  (autoInc_fields s r k).2.2.2.1
@[simp] theorem autoInc_draws (s : State) (r : RegNum) (k : Nat) : (s.autoInc r k).draws = s.draws :=
  (autoInc_fields s r k).2.2.2.2.1
@[simp] theorem autoInc_deviceReads (s : State) (r : RegNum) (k : Nat) :
    (s.autoInc r k).deviceReads = s.deviceReads := (autoInc_fields s r k).2.2.2.2.2.1
@[simp] theorem autoInc_sent (s : State) (r : RegNum) (k : Nat) : (s.autoInc r k).sent = s.sent :=
  (autoInc_fields s r k).2.2.2.2.2.2

/-- The autoincrement leaves every register but its own, and R0 and R3 in any case (R152). -/
theorem autoInc_other (s : State) (r q : RegNum) (k : Nat) (h : r ≠ q ∨ q = 0 ∨ q = 3) :
    (s.autoInc r k).reg q = s.reg q := by
  unfold State.autoInc
  dsimp only
  split
  · rfl
  · rename_i h03
    have hrq : r ≠ q := by
      rcases h with h | rfl | rfl
      · exact h
      · exact fun e => h03 (.inl e)
      · exact fun e => h03 (.inr e)
    split
    · rename_i h2; exact writeSR_reg _ _ _ (by rw [← h2]; exact Ne.symm hrq)
    · simp [hrq]

/-- The register an autoincrement names advances by the operand's bytes (R152). -/
theorem autoInc_reg (s : State) (r : RegNum) (k : Nat) (h0 : r ≠ 0) (h2 : r ≠ 2) (h3 : r ≠ 3) :
    (s.autoInc r k).reg r = low20 (s.reg r + BitVec.ofNat 32 k) := by
  simp [State.autoInc, h0, h2, h3]

/-- The autoincrement of R2 is an explicit write of SR (R152, R39). -/
theorem autoInc_two (s : State) (k : Nat) : s.autoInc 2 k = s.writeSR (low20 (s.sr + BitVec.ofNat 32 k)) := by
  simp [State.autoInc, State.sr]

/-! ## The flag-update port -/

@[simp] theorem setFlags_mem (s : State) (c z n v : Bool) : (s.setFlags c z n v).mem = s.mem := rfl
@[simp] theorem setFlags_rep (s : State) (c z n v : Bool) : (s.setFlags c z n v).rep = s.rep := rfl
@[simp] theorem setFlags_halted (s : State) (c z n v : Bool) : (s.setFlags c z n v).halted = s.halted := rfl
@[simp] theorem setFlags_params (s : State) (c z n v : Bool) : (s.setFlags c z n v).params = s.params := rfl
@[simp] theorem setFlags_draws (s : State) (c z n v : Bool) : (s.setFlags c z n v).draws = s.draws := rfl
@[simp] theorem setFlags_deviceReads (s : State) (c z n v : Bool) :
    (s.setFlags c z n v).deviceReads = s.deviceReads := rfl
@[simp] theorem setFlags_sent (s : State) (c z n v : Bool) : (s.setFlags c z n v).sent = s.sent := rfl

theorem setFlags_reg (s : State) (c z n v : Bool) (r : RegNum) (h : r ≠ 2) :
    (s.setFlags c z n v).reg r = s.reg r := by
  simp [State.setFlags, Ne.symm h]

theorem packFlags_getLsbD (c z n v : Bool) (k : Nat) :
    (packFlags c z n v).getLsbD k =
      if k = 0 then c else if k = 1 then z else if k = 2 then n else if k = 8 then v else false := by
  rcases Nat.lt_or_ge k 32 with hk | hk
  · cases c <;> cases z <;> cases n <;> cases v <;> revert k <;> decide
  · rw [BitVec.getLsbD_of_ge _ _ hk]
    simp [show k ≠ 0 by omega, show k ≠ 1 by omega, show k ≠ 2 by omega, show k ≠ 8 by omega]

theorem flagMask_getLsbD (k : Nat) :
    flagMask.getLsbD k = (k == 0 || k == 1 || k == 2 || k == 8) := by
  rcases Nat.lt_or_ge k 32 with hk | hk
  · revert k; decide
  · rw [BitVec.getLsbD_of_ge _ _ hk]
    simp [show k ≠ 0 by omega, show k ≠ 1 by omega, show k ≠ 2 by omega, show k ≠ 8 by omega]

/-- The flag-update port writes C, Z, N and V and leaves every other bit of SR (R38). -/
theorem setFlags_sr (s : State) (c z n v : Bool) (k : Nat) :
    (s.setFlags c z n v).sr.getLsbD k =
      if k = 0 then c else if k = 1 then z else if k = 2 then n else if k = 8 then v else s.sr.getLsbD k := by
  simp only [State.setFlags, State.sr_setReg, if_true, BitVec.getLsbD_or, BitVec.getLsbD_and, BitVec.getLsbD_not,
    packFlags_getLsbD, flagMask_getLsbD]
  rcases Nat.lt_or_ge k 32 with hk | hk
  · by_cases h0 : k = 0
    · simp [h0]
    · by_cases h1 : k = 1
      · simp [h1]
      · by_cases h2 : k = 2
        · simp [h2]
        · by_cases h8 : k = 8 <;> simp [h0, h1, h2, h8, hk]
  · have := BitVec.getLsbD_of_ge s.sr k hk
    simp [show k ≠ 0 by omega, show k ≠ 1 by omega, show k ≠ 2 by omega, show k ≠ 8 by omega, this]

@[simp] theorem applyFlags_mem (s : State) (f : FlagUpdate) : (s.applyFlags f).mem = s.mem := by cases f <;> rfl
@[simp] theorem applyFlags_rep (s : State) (f : FlagUpdate) : (s.applyFlags f).rep = s.rep := by cases f <;> rfl
@[simp] theorem applyFlags_halted (s : State) (f : FlagUpdate) : (s.applyFlags f).halted = s.halted := by
  cases f <;> rfl
@[simp] theorem applyFlags_params (s : State) (f : FlagUpdate) : (s.applyFlags f).params = s.params := by
  cases f <;> rfl
@[simp] theorem applyFlags_deviceReads (s : State) (f : FlagUpdate) :
    (s.applyFlags f).deviceReads = s.deviceReads := by cases f <;> rfl
@[simp] theorem applyFlags_sent (s : State) (f : FlagUpdate) : (s.applyFlags f).sent = s.sent := by cases f <;> rfl

theorem applyFlags_reg (s : State) (f : FlagUpdate) (r : RegNum) (h : r ≠ 2) : (s.applyFlags f).reg r = s.reg r := by
  cases f with
  | keep => rfl
  | write c z n v => exact setFlags_reg _ _ _ _ _ _ h
  | writeDrawV c z n a b => exact setFlags_reg _ _ _ _ _ _ h

/-! ## Taking a fault, ending a cycle -/

/-- A cycle always answers a next state: the fault taken, or the execution finished (R313, R402). -/
theorem cycle_next (s : State) (n : Nat) (body : Except FaultCause Done) :
    (∃ d, body = .ok d ∧ cycle s n body = .next (finish s n d)) ∨
      (∃ c, body = .error c ∧ cycle s n body = .next (s.takeFault c)) := by
  cases body with
  | ok d => exact .inl ⟨d, rfl, rfl⟩
  | error c => exact .inr ⟨c, rfl, rfl⟩

theorem finish_fields (s : State) (n : Nat) (d : Done) :
    (finish s n d).mem = d.st.mem ∧ (finish s n d).halted = d.st.halted ∧ (finish s n d).params = d.st.params ∧
      (finish s n d).draws = d.st.draws ∧ (finish s n d).deviceReads = d.st.deviceReads ∧
      (finish s n d).sent = d.st.sent := by
  unfold finish
  repeat' split
  all_goals simp

@[simp] theorem finish_mem (s : State) (n : Nat) (d : Done) : (finish s n d).mem = d.st.mem := (finish_fields s n d).1
@[simp] theorem finish_halted (s : State) (n : Nat) (d : Done) : (finish s n d).halted = d.st.halted :=
  (finish_fields s n d).2.1
@[simp] theorem finish_params (s : State) (n : Nat) (d : Done) : (finish s n d).params = d.st.params :=
  (finish_fields s n d).2.2.1
@[simp] theorem finish_sent (s : State) (n : Nat) (d : Done) : (finish s n d).sent = d.st.sent :=
  (finish_fields s n d).2.2.2.2.2

/-- The end of a cycle changes no register but the program counter. -/
theorem finish_reg (s : State) (n : Nat) (d : Done) (r : RegNum) (h : r ≠ 0) :
    (finish s n d).reg r = d.st.reg r := by
  unfold finish
  repeat' split
  all_goals simp [h]

end Sys2Proof.Machine
end

