-- ==== Sys2Proof/Laws/Operands.lean ====
section
/-! SUPPORT. What resolving an operand and storing a result do, said once for every mode (spec/30_encoding.md R145 to
R156). -/

namespace Sys2Proof.Machine

open Sys2Proof

/-- The program counter moved past `k` extension words of one operand, 0 or 1 (R33). -/
def skipWords (k : Nat) (s : State) : State := if k = 0 then s else s.setPc (low20 (s.pc + 2))

/-- The register an operand advances, advanced (R152). -/
def advance (r : Option RegNum) (k : Nat) (s : State) : State :=
  match r with
  | none => s
  | some q => s.autoInc q k

@[simp] theorem skipWords_zero (s : State) : skipWords 0 s = s := rfl
@[simp] theorem skipWords_one (s : State) : skipWords 1 s = s.setPc (low20 (s.pc + 2)) := rfl
@[simp] theorem skipWords_mem (k : Nat) (s : State) : (skipWords k s).mem = s.mem := by unfold skipWords; split <;> rfl
@[simp] theorem skipWords_rep (k : Nat) (s : State) : (skipWords k s).rep = s.rep := by unfold skipWords; split <;> rfl
@[simp] theorem skipWords_halted (k : Nat) (s : State) : (skipWords k s).halted = s.halted := by
  unfold skipWords; split <;> rfl
@[simp] theorem skipWords_params (k : Nat) (s : State) : (skipWords k s).params = s.params := by
  unfold skipWords; split <;> rfl
@[simp] theorem skipWords_draws (k : Nat) (s : State) : (skipWords k s).draws = s.draws := by
  unfold skipWords; split <;> rfl
@[simp] theorem skipWords_sent (k : Nat) (s : State) : (skipWords k s).sent = s.sent := by
  unfold skipWords; split <;> rfl

theorem skipWords_reg (k : Nat) (s : State) (r : RegNum) (h : r ≠ 0) : (skipWords k s).reg r = s.reg r := by
  unfold skipWords; split <;> simp [h]

@[simp] theorem skipWords_sr (k : Nat) (s : State) : (skipWords k s).sr = s.sr := skipWords_reg k s 2 (by decide)

/-- The address of the word after `j` words and one operand's own, however it is reduced (R33, R35). -/
theorem skipWords_pc (k : Nat) (hk : k ≤ 1) (s : State) (v : Slot) :
    low20 ((skipWords k s).pc + v) = low20 (s.pc + BitVec.ofNat 32 (2 * k) + v) := by
  rcases Nat.le_one_iff_eq_zero_or_eq_one.1 hk with rfl | rfl
  · simp
  · simp [low20_add]

@[simp] theorem advance_mem (r : Option RegNum) (k : Nat) (s : State) : (advance r k s).mem = s.mem := by
  cases r <;> simp [advance]
@[simp] theorem advance_rep (r : Option RegNum) (k : Nat) (s : State) : (advance r k s).rep = s.rep := by
  cases r <;> simp [advance]
@[simp] theorem advance_halted (r : Option RegNum) (k : Nat) (s : State) : (advance r k s).halted = s.halted := by
  cases r <;> simp [advance]
@[simp] theorem advance_params (r : Option RegNum) (k : Nat) (s : State) : (advance r k s).params = s.params := by
  cases r <;> simp [advance]
@[simp] theorem advance_draws (r : Option RegNum) (k : Nat) (s : State) : (advance r k s).draws = s.draws := by
  cases r <;> simp [advance]
@[simp] theorem advance_sent (r : Option RegNum) (k : Nat) (s : State) : (advance r k s).sent = s.sent := by
  cases r <;> simp [advance]

/-- An advance leaves every register but the one it names. -/
theorem advance_other (o : Option RegNum) (k : Nat) (s : State) (q : RegNum) (h : o ≠ some q ∨ q = 0 ∨ q = 3) :
    (advance o k s).reg q = s.reg q := by
  cases o with
  | none => rfl
  | some r => exact autoInc_other s r q k (by simpa using h)

@[simp] theorem advance_pc (o : Option RegNum) (k : Nat) (s : State) : (advance o k s).pc = s.pc :=
  advance_other o k s 0 (.inr (.inl rfl))

theorem srcWords_le (src : Src) : srcWords src ≤ 1 := by cases src <;> simp [srcWords]
theorem dstWords_le (dst : Dst) : dstWords dst ≤ 1 := by cases dst <;> simp [dstWords]

/-! ## Addresses -/

/-- Each address form that takes an extension word moves past that word and changes nothing else. -/
theorem eaIndexed_ok {hi : Option (BitVec 4)} {r : RegNum} {s t : State} {a : Slot}
    (h : eaIndexed hi r s = .ok (a, t)) :
    t = { skipWords 1 s with deviceReads := t.deviceReads } ∧ a.toNat < 2 ^ 20 := by
  unfold eaIndexed at h
  split at h
  · rename_i w s1 hf
    simp only [Except.ok.injEq, Prod.mk.injEq] at h
    obtain ⟨rfl, rfl⟩ := h
    exact ⟨by simpa using fetchNext_ok hf, low20_lt _⟩
  · exact absurd h (by simp)

theorem eaSymbolic_ok {hi : Option (BitVec 4)} {s t : State} {a : Slot} (h : eaSymbolic hi s = .ok (a, t)) :
    t = { skipWords 1 s with deviceReads := t.deviceReads } ∧ a.toNat < 2 ^ 20 := by
  unfold eaSymbolic at h
  split at h
  · rename_i w s1 hf
    simp only [Except.ok.injEq, Prod.mk.injEq] at h
    obtain ⟨rfl, rfl⟩ := h
    exact ⟨by simpa using fetchNext_ok hf, low20_lt _⟩
  · exact absurd h (by simp)

theorem extValue_lt (hi : Option (BitVec 4)) (w : Word) : (extValue hi w).toNat < 2 ^ 20 := by
  have := w.isLt
  cases hi with
  | none => simp only [extValue, BitVec.toNat_ofNat]; omega
  | some h => have := h.isLt; simp only [extValue, BitVec.toNat_ofNat]; omega

theorem eaAbsolute_ok {hi : Option (BitVec 4)} {s t : State} {a : Slot} (h : eaAbsolute hi s = .ok (a, t)) :
    t = { skipWords 1 s with deviceReads := t.deviceReads } ∧ a.toNat < 2 ^ 20 := by
  unfold eaAbsolute at h
  split at h
  · rename_i w s1 hf
    simp only [Except.ok.injEq, Prod.mk.injEq] at h
    obtain ⟨rfl, rfl⟩ := h
    exact ⟨by simpa using fetchNext_ok hf, extValue_lt _ _⟩
  · exact absurd h (by simp)

/-! ## Memory operands -/

/-- A memory operand: its masked value, its place, and the same state but for the count of device reads (R147). -/
theorem opMemory_ok {ws : Size} {ea : Slot} {s t : State} {o : Operand} (h : opMemory ws ea s = .ok (o, t)) :
    t = { s with deviceReads := t.deviceReads } ∧ o.value.toNat < 2 ^ bits ws ∧ o.place = .mem ea ∧
      (resolve s.params ea = .memory →
        t = s ∧ ea.toNat + nb ws ≤ Config.memSize ∧ o.value.toNat = s.mem.readLE ea.toNat (nb ws) % 2 ^ bits ws) := by
  unfold opMemory at h
  split at h
  · rename_i v s1 hb
    simp only [Except.ok.injEq, Prod.mk.injEq] at h
    obtain ⟨rfl, rfl⟩ := h
    obtain ⟨-, -, h1, h2⟩ := busRead_ok hb
    refine ⟨h1, trunc_lt _ _, rfl, fun hr => ?_⟩
    obtain ⟨h3, h4, rfl⟩ := h2 hr
    refine ⟨h3, h4, ?_⟩
    have hl := Memory.readLE_lt s.mem ea.toNat (nb ws)
    have : (256 : Nat) ^ nb ws ≤ 2 ^ 32 := by cases ws <;> simp [nb]
    rw [trunc_toNat, BitVec.toNat_ofNat, Nat.mod_eq_of_lt (lt_of_lt_of_le hl this)]
  · exact absurd h (by simp)

/-! ## A source operand -/

theorem cg_lt (ws : Size) (k : CgConst) : (trunc ws (cgValue k)).toNat < 2 ^ bits ws := trunc_lt _ _

/-- What resolving a source operand does: it moves past its extension word, advances its autoincrement register, counts
its device reads, and changes nothing else; its value is masked to the width (R145, R147, R152). -/
theorem resolveSrc_ok {ws : Size} {hi : Option (BitVec 4)} {src : Src} {s t : State} {o : Operand}
    (h : resolveSrc ws hi src s = .ok (o, t)) :
    t = { advance (srcAuto src) (nb ws) (skipWords (srcWords src) s) with deviceReads := t.deviceReads } ∧
      o.value.toNat < 2 ^ bits ws ∧
      (∀ r, o.place = .reg r ↔ src = .reg r) := by
  cases src with
  | reg r =>
    simp only [resolveSrc, Except.ok.injEq, Prod.mk.injEq] at h
    obtain ⟨rfl, rfl⟩ := h
    exact ⟨rfl, trunc_lt _ _, fun q => by simp [opRegister]⟩
  | const k =>
    simp only [resolveSrc, Except.ok.injEq, Prod.mk.injEq] at h
    obtain ⟨rfl, rfl⟩ := h
    exact ⟨rfl, trunc_lt _ _, by simp⟩
  | immediate =>
    simp only [resolveSrc, opImmediate] at h
    split at h
    · rename_i w s1 hf
      simp only [Except.ok.injEq, Prod.mk.injEq] at h
      obtain ⟨rfl, rfl⟩ := h
      exact ⟨by simpa [srcAuto, advance, srcWords] using fetchNext_ok hf, trunc_lt _ _, by simp⟩
    · exact absurd h (by simp)
  | indirect r =>
    obtain ⟨h1, h2, h3, -⟩ := opMemory_ok h
    exact ⟨by simpa [srcAuto, advance, srcWords] using h1, h2, by simp [h3]⟩
  | autoinc r =>
    simp only [resolveSrc, opAutoinc] at h
    split at h
    · rename_i o1 s1 hm
      simp only [Except.ok.injEq, Prod.mk.injEq] at h
      obtain ⟨rfl, rfl⟩ := h
      obtain ⟨h1, h2, h3, -⟩ := opMemory_ok hm
      refine ⟨?_, h2, by simp [h3]⟩
      simp only [srcAuto, advance, srcWords, skipWords_zero, autoInc_deviceReads]
      conv_lhs => rw [h1]
      refine State.ext_reg (fun q => ?_) (by simp) (by simp) (by simp) (by simp) (by simp) (by simp) (by simp)
      simp only [State.reg_mk, State.autoInc, State.writeSR, State.sr]
      split_ifs <;> simp
    · exact absurd h (by simp)
  | indexed r =>
    simp only [resolveSrc, opAt] at h
    split at h
    · rename_i a s1 he
      obtain ⟨e1, -⟩ := eaIndexed_ok he
      obtain ⟨h1, h2, h3, -⟩ := opMemory_ok h
      refine ⟨?_, h2, by simp [h3]⟩
      rw [h1, e1]
      rfl
    · exact absurd h (by simp)
  | symbolic =>
    simp only [resolveSrc, opAt] at h
    split at h
    · rename_i a s1 he
      obtain ⟨e1, -⟩ := eaSymbolic_ok he
      obtain ⟨h1, h2, h3, -⟩ := opMemory_ok h
      refine ⟨?_, h2, by simp [h3]⟩
      rw [h1, e1]
      rfl
    · exact absurd h (by simp)
  | absolute =>
    simp only [resolveSrc, opAt] at h
    split at h
    · rename_i a s1 he
      obtain ⟨e1, -⟩ := eaAbsolute_ok he
      obtain ⟨h1, h2, h3, -⟩ := opMemory_ok h
      refine ⟨?_, h2, by simp [h3]⟩
      rw [h1, e1]
      rfl
    · exact absurd h (by simp)

/-! ## A destination operand -/

theorem dstAt_ok {ws : Size} {reads : Bool} {s t : State} {o : Operand}
    {ea : Except FaultCause (Slot × State)} (h : dstAt ws reads ea = .ok (o, t))
    (he : ∀ a u, ea = .ok (a, u) → u = { skipWords 1 s with deviceReads := u.deviceReads }) :
    t = { skipWords 1 s with deviceReads := t.deviceReads } ∧ o.value.toNat < 2 ^ bits ws ∧
      (∀ r, o.place ≠ .reg r) := by
  unfold dstAt at h
  split at h
  · rename_i a s1
    have e1 := he a s1 rfl
    split at h
    · obtain ⟨h1, h2, h3, -⟩ := opMemory_ok h
      refine ⟨?_, h2, by simp [h3]⟩
      rw [h1, e1]
    · simp only [Except.ok.injEq, Prod.mk.injEq] at h
      obtain ⟨rfl, rfl⟩ := h
      exact ⟨e1, by simp, by simp⟩
  · exact absurd h (by simp)

/-- What resolving a destination operand does: it moves past its extension word, counts its device reads, and changes
nothing else; its value is masked to the width (R142, R145, R146). -/
theorem resolveDst_ok {ws : Size} {hi : Option (BitVec 4)} {reads : Bool} {dst : Dst} {s t : State} {o : Operand}
    (h : resolveDst ws hi reads dst s = .ok (o, t)) :
    t = { skipWords (dstWords dst) s with deviceReads := t.deviceReads } ∧ o.value.toNat < 2 ^ bits ws ∧
      (∀ r, o.place = .reg r ↔ dst = .reg r) := by
  cases dst with
  | reg r =>
    simp only [resolveDst, Except.ok.injEq, Prod.mk.injEq] at h
    obtain ⟨rfl, rfl⟩ := h
    exact ⟨rfl, trunc_lt _ _, fun q => by simp [opRegister]⟩
  | constZero =>
    simp only [resolveDst, Except.ok.injEq, Prod.mk.injEq] at h
    obtain ⟨rfl, rfl⟩ := h
    exact ⟨rfl, by simp, by simp⟩
  | constOne =>
    simp only [resolveDst, Except.ok.injEq, Prod.mk.injEq] at h
    obtain ⟨rfl, rfl⟩ := h
    refine ⟨rfl, ?_, by simp⟩
    cases ws <;> simp [bits]
  | indexed r =>
    obtain ⟨h1, h2, h3⟩ := dstAt_ok (s := s) h fun a u e => (eaIndexed_ok e).1
    exact ⟨h1, h2, fun q => by simp [h3 q]⟩
  | symbolic =>
    obtain ⟨h1, h2, h3⟩ := dstAt_ok (s := s) h fun a u e => (eaSymbolic_ok e).1
    exact ⟨h1, h2, fun q => by simp [h3 q]⟩
  | absolute =>
    obtain ⟨h1, h2, h3⟩ := dstAt_ok (s := s) h fun a u e => (eaAbsolute_ok e).1
    exact ⟨h1, h2, fun q => by simp [h3 q]⟩

/-! ## Storing a result -/

/-- A result can be stored wherever the place accepts it (R156). -/
theorem store_writable {ws : Size} {p : Place} {v : Slot} {s : State} (h : p.writable ws s) :
    ∃ t, store ws p v s = .ok t := by
  cases p with
  | reg r => exact ⟨_, rfl⟩
  | none => exact ⟨_, rfl⟩
  | mem ea =>
    simp only [Place.writable, accepts] at h
    split at h
    · rename_i hr
      exact ⟨_, busWrite_memory (busWidth_nb ws) hr h⟩
    · rename_i d hr
      exact ⟨_, busWrite_device (busWidth_nb ws) (by simpa using hr) h⟩

/-- A write that succeeds stores its bytes there and changes nothing else of memory or of the devices' writes. -/
theorem busWrite_storedAt {s t : State} {a v : Slot} {n : Nat} (hm : s.mem.wf) (hv : v.toNat < 256 ^ n)
    (h : busWrite s a n v = .ok t) : StoredAt a n v s t := by
  obtain ⟨hw, h | h⟩ := busWrite_ok h
  · obtain ⟨hr, hn, rfl⟩ := h
    unfold StoredAt
    split
    · refine ⟨rfl, ?_, fun b hb => Memory.get_writeLE_out _ hm _ _ _ _ hn hb⟩
      simpa [Nat.mod_eq_of_lt hv] using Memory.readLE_writeLE s.mem hm a.toNat v.toNat n hn
    · rename_i e
      exact absurd hr (by simpa using e)
  · obtain ⟨hr, -, rfl⟩ := h
    unfold StoredAt
    split
    · rename_i e; exact absurd e hr
    · refine ⟨rfl, ?_⟩
      have : v.toNat % 2 ^ (8 * n) = v.toNat := Nat.mod_eq_of_lt (by rwa [pow_mul, show (2 : Nat) ^ 8 = 256 by norm_num])
      simp [this]

/-- What storing a result does: memory and the devices' writes change at its place only, and every register but its place
stays (R156). -/
theorem store_ok {ws : Size} {p : Place} {v : Slot} {s t : State} (hm : s.mem.wf) (h : store ws p v s = .ok t) :
    p.stored ws (trunc ws v) s t ∧ t.rep = s.rep ∧ t.halted = s.halted ∧ t.params = s.params ∧
      (∀ r, p ≠ .reg r → t.reg r = s.reg r) ∧ (∀ r, p = .reg r → t = s.writeReg r v ws) := by
  cases p with
  | none =>
    simp only [store, Except.ok.injEq] at h
    subst h
    exact ⟨⟨rfl, rfl⟩, rfl, rfl, rfl, fun _ _ => rfl, fun r h => by simp at h⟩
  | reg r =>
    simp only [store, Except.ok.injEq] at h
    subst h
    exact ⟨by simp [Place.stored], by simp, by simp, by simp,
      fun q hq => writeReg_other _ _ _ _ _ (by simpa using hq), fun q hq => by simp_all⟩
  | mem ea =>
    simp only [store] at h
    have hv : (trunc ws v).toNat < 256 ^ nb ws := lt_of_lt_of_le (trunc_lt _ _) (two_pow_bits_le_bytes ws)
    refine ⟨busWrite_storedAt hm hv h, ?_⟩
    obtain ⟨-, h | h⟩ := busWrite_ok h
    · obtain ⟨-, -, rfl⟩ := h
      exact ⟨rfl, rfl, rfl, fun _ _ => rfl, fun r e => by simp at e⟩
    · obtain ⟨-, -, rfl⟩ := h
      exact ⟨rfl, rfl, rfl, fun _ _ => rfl, fun r e => by simp at e⟩

end Sys2Proof.Machine
end

