-- ==== Sys2Proof/Laws/Exec.lean ====
section
/-! SUPPORT. What the common executions do: from resolved operands, a result, its flags and its store to the effect of the
whole cycle. -/

namespace Sys2Proof.Machine

open Sys2Proof

/-! ## SR -/

theorem srKept_getLsbD (p : Params) (k : Nat) (hk : k < 32) : (srKept p).getLsbD k = !srBitWritten p k := by
  unfold srKept srBitWritten
  cases p.srCtlWrite with
  | through => simp
  | preserve => revert k; decide

/-- An explicit write of SR takes the written value's bits where R39 lets it, and keeps the others (R39). -/
theorem writeSR_written (s : State) (v : Slot) : SrWritten s.params s.sr v (s.writeSR v).sr := by
  intro k hk
  simp only [State.writeSR, State.sr_setReg, if_true, BitVec.getLsbD_or, BitVec.getLsbD_and, BitVec.getLsbD_not,
    srKept_getLsbD _ _ hk, hk, decide_true, Bool.true_and]
  cases srBitWritten s.params k <;> simp

/-- The flags are among the bits every explicit write reaches. -/
theorem srBitWritten_flag (p : Params) (k : Nat) (h : srBitWritten p k = false) :
    k ≠ 0 ∧ k ≠ 1 ∧ k ≠ 2 ∧ k ≠ 8 := by
  unfold srBitWritten at h
  split at h
  · simp at h
  · simp at h; omega

/-! ## Flags -/

/-- What an operation does to the flags is what a rule says. -/
def FlagUpdate.follows (u : FlagUpdate) (f : FlagRule) : Prop :=
  match u, f with
  | .keep, .kept => True
  | .write c z n v, .written c' z' n' v' => c = c' ∧ z = z' ∧ n = n' ∧ ∀ b, v' = some b → v = b
  | .writeDrawV c z n _ _, .written c' z' n' v' => c = c' ∧ z = z' ∧ n = n' ∧ v' = none
  | _, _ => False

/-- The flags written follow the rule the operation follows (R38). -/
theorem applyFlags_holds {u : FlagUpdate} {f : FlagRule} (h : u.follows f) (s : State) :
    f.holds s.sr (s.applyFlags u).sr := by
  cases u <;> cases f <;> simp only [FlagUpdate.follows] at h
  · rfl
  · obtain ⟨rfl, rfl, rfl, hv⟩ := h
    refine ⟨(setFlags_sr ..).trans (by simp), (setFlags_sr ..).trans (by simp), (setFlags_sr ..).trans (by simp),
      fun b hb => (setFlags_sr ..).trans (by simp [hv b hb]), fun k h0 h1 h2 h8 => ?_⟩
    simp [State.applyFlags, setFlags_sr, h0, h1, h2, h8]
  · obtain ⟨rfl, rfl, rfl, rfl⟩ := h
    refine ⟨(setFlags_sr ..).trans (by simp), (setFlags_sr ..).trans (by simp), (setFlags_sr ..).trans (by simp),
      fun b hb => by simp at hb, fun k h0 h1 h2 h8 => (setFlags_sr ..).trans ?_⟩
    simp [h0, h1, h2, h8]

/-- No bit but C, Z, N and V is written by a flag update (R38). -/
theorem applyFlags_bit (u : FlagUpdate) (s : State) (k : Nat) (h : k ≠ 0 ∧ k ≠ 1 ∧ k ≠ 2 ∧ k ≠ 8) :
    (s.applyFlags u).sr.getLsbD k = s.sr.getLsbD k := by
  obtain ⟨h0, h1, h2, h8⟩ := h
  cases u <;> simp [State.applyFlags, setFlags_sr, h0, h1, h2, h8]

/-! ## States on the way -/

/-- `u` is `s` after `words` words were fetched and the register `auto` was advanced by `k`, and nothing else but the
count of device reads changed. -/
structure Resolved (words : Nat) (auto : Option RegNum) (k : Nat) (s u : State) : Prop where
  mem : u.mem = s.mem
  rep : u.rep = s.rep
  halted : u.halted = s.halted
  params : u.params = s.params
  sent : u.sent = s.sent
  regs : ∀ r, r ≠ 0 → u.reg r = (advance auto k s).reg r
  next : low20 (u.pc + 2) = low20 (s.pc + BitVec.ofNat 32 (2 * words))

/-- At the cycle's start one word has been fetched. -/
theorem Resolved.here (k : Nat) (s : State) : Resolved 1 none k s s :=
  ⟨rfl, rfl, rfl, rfl, rfl, fun _ _ => rfl, rfl⟩

/-- Past an extension word and the core word two have (R310). -/
theorem Resolved.operandState (x : Option Ext) (k : Nat) (s : State) :
    Resolved (coreWords x) none k s (operandState x s) := by
  cases x with
  | none => exact .here k s
  | some e =>
    refine ⟨rfl, rfl, rfl, rfl, rfl, fun r hr => by simp [Machine.operandState, advance, hr], ?_⟩
    simp only [Machine.operandState, State.pc_setPc, low20_add, coreWords]
    congr 1
    rw [BitVec.add_assoc]
    rfl

theorem Resolved.ofEq {words k w : Nat} {auto auto' : Option RegNum} {s u t : State} (h : Resolved words none k s u)
    (hw : w ≤ 1) (ht : t = { advance auto' k (skipWords w u) with deviceReads := t.deviceReads })
    (ha : auto = auto') : Resolved (words + w) auto k s t := by
  subst ha
  rw [ht]
  refine ⟨by simp [h.mem], by simp [h.rep], by simp [h.halted], by simp [h.params], by simp [h.sent], fun r hr => ?_, ?_⟩
  · simp only [State.reg_mk]
    cases auto with
    | none => simpa [advance, skipWords_reg _ _ _ hr] using h.regs r hr
    | some q =>
      have hq : ∀ r, r ≠ 0 → (skipWords w u).reg r = s.reg r := fun r hr => by
        rw [skipWords_reg _ _ _ hr]; exact h.regs r hr
      simp only [advance, State.autoInc, State.writeSR, State.sr]
      split_ifs with h0 h2
      · exact hq r hr
      · simp [State.reg_setReg, h2, hq 2 (by decide), hq r hr, h.params]
      · simp [State.reg_setReg, hq r hr, hq q (by rintro rfl; simp at h0)]
  · simp only [State.pc_mk, advance_pc, skipWords_pc _ hw]
    rw [show u.pc + BitVec.ofNat 32 (2 * w) + 2 = (u.pc + 2) + BitVec.ofNat 32 (2 * w) by
      rw [BitVec.add_assoc, BitVec.add_assoc, BitVec.add_comm 2], ← low20_add, h.next, low20_add, BitVec.add_assoc,
      ← BitVec.ofNat_add, ← Nat.mul_add]

theorem Resolved.ofEq' {words k w : Nat} {auto : Option RegNum} {s u t : State} (h : Resolved words auto k s u)
    (hw : w ≤ 1) (ht : t = { skipWords w u with deviceReads := t.deviceReads }) : Resolved (words + w) auto k s t := by
  rw [ht]
  refine ⟨by simp [h.mem], by simp [h.rep], by simp [h.halted], by simp [h.params], by simp [h.sent], fun r hr => ?_, ?_⟩
  · simpa [skipWords_reg _ _ _ hr] using h.regs r hr
  · simp only [State.pc_mk, skipWords_pc _ hw]
    rw [show u.pc + BitVec.ofNat 32 (2 * w) + 2 = (u.pc + 2) + BitVec.ofNat 32 (2 * w) by
      rw [BitVec.add_assoc, BitVec.add_assoc, BitVec.add_comm 2], ← low20_add, h.next, low20_add, BitVec.add_assoc,
      ← BitVec.ofNat_add, ← Nat.mul_add]

/-- Resolving a source operand (R145). -/
theorem Resolved.src {words : Nat} {ws : Size} {hi : Option (BitVec 4)} {src : Src} {s u t : State} {o : Operand}
    (h : Resolved words none (nb ws) s u) (hs : resolveSrc ws hi src u = .ok (o, t)) :
    Resolved (words + srcWords src) (srcAuto src) (nb ws) s t :=
  h.ofEq (srcWords_le src) (resolveSrc_ok hs).1 rfl

/-- Resolving a destination operand (R145). -/
theorem Resolved.dst {words k : Nat} {auto : Option RegNum} {ws : Size} {hi : Option (BitVec 4)} {reads : Bool}
    {dst : Dst} {s u t : State} {o : Operand} (h : Resolved words auto k s u)
    (hd : resolveDst ws hi reads dst u = .ok (o, t)) : Resolved (words + dstWords dst) auto k s t :=
  h.ofEq' (dstWords_le dst) (resolveDst_ok hd).1

/-- SR on the way, where no operand advanced R2. -/
theorem Resolved.sr {words k : Nat} {auto : Option RegNum} {s u : State} (h : Resolved words auto k s u)
    (ha : auto ≠ some 2) : u.sr = s.sr := by
  have := h.regs 2 (by decide)
  rw [State.sr, this, advance_other _ _ _ _ (.inl ha)]
  rfl

/-- SR on the way, where an operand advanced R2 (R152, R39). -/
theorem Resolved.srAuto {words k : Nat} {s u : State} (h : Resolved words (some 2) k s u) :
    SrWritten s.params s.sr (low20 (s.sr + BitVec.ofNat 32 k)) u.sr := by
  have := h.regs 2 (by decide)
  have e : u.sr = (s.writeSR (low20 (s.sr + BitVec.ofNat 32 k))).sr := by
    rw [State.sr, this, advance, autoInc_two]; rfl
  rw [e]
  exact writeSR_written _ _

/-- The bits no explicit write of SR reaches are as they were. -/
theorem Resolved.srBit {words k j : Nat} {auto : Option RegNum} {s u : State} (h : Resolved words auto k s u)
    (hj : j < 32) (hb : srBitWritten s.params j = false) : u.sr.getLsbD j = s.sr.getLsbD j := by
  by_cases ha : auto = some 2
  · subst ha
    simpa [hb] using h.srAuto j hj
  · rw [h.sr ha]

/-! ## The end of a cycle -/

/-- The program counter and the repetition state after a cycle (R35, R313, R315). -/
theorem finish_pc {s : State} {n words : Nat} {d : Done} {w : Option Slot} (hr : d.st.rep = s.rep)
    (hl : low20 (d.lfa + 2) = low20 (s.pc + BitVec.ofNat 32 (2 * words)))
    (hw : d.wrotePc = true → w = some d.st.pc) (hn : d.wrotePc = false → w = none) :
    (finish s n d).pc = pcAfter s n words w ∧ (finish s n d).rep = repAfter s n := by
  unfold finish pcAfter repAfter
  by_cases h0 : s.rep.left = 0
  · simp only [h0, if_true]
    by_cases hn0 : 0 < n
    · simp [hn0]
    · cases hb : d.wrotePc
      · simp only [hn0, hn hb, hr, if_false, Bool.false_eq_true, Option.getD_none, State.pc_setPc, State.setPc_rep, and_true]
        exact hl
      · simp [hn0, hw hb, hr]
  · by_cases h1 : s.rep.left = 1
    · simp only [h1, if_true, if_false, one_ne_zero, Nat.sub_self, lt_irrefl, State.pc_mk, State.pc_setPc, and_true]
      exact hl
    · have : 0 < s.rep.left - 1 := by omega
      simp [h0, h1, this]

/-- A result and its flags written after the operands are resolved: the effect of the whole cycle. -/
theorem effect_of_store {words n : Nat} {ws : Size} {p : Place} {v : Slot} {u : FlagUpdate} {f : FlagRule}
    {auto : Option RegNum} {s s2 s4 : State} (h : Resolved words auto (nb ws) s s2) (hm : s.mem.wf)
    (hv : v.toNat < 2 ^ bits ws) (hf : u.follows f) (ha : auto = some 2 → f = .kept)
    (hs : store ws p v (s2.applyFlags u) = .ok s4) :
    Effect words n ws p v f auto s (finish s n ⟨s4, s2.pc, p.isPc⟩) := by
  have hm2 : (s2.applyFlags u).mem.wf := by rw [applyFlags_mem, h.mem]; exact hm
  obtain ⟨h1, h2, h3, h4, h5, h6⟩ := store_ok hm2 hs
  rw [trunc_of_lt hv] at h1
  have hrep : s4.rep = s.rep := by rw [h2, applyFlags_rep, h.rep]
  have hpc := finish_pc (s := s) (n := n) (words := words) (d := ⟨s4, s2.pc, p.isPc⟩)
    (w := if p = .reg 0 then some v else none) hrep h.next
    (by
      intro hp
      have hp0 : p = .reg 0 := by simpa [Place.isPc] using hp
      have hs4 := h6 0 hp0
      simp only [hp0, if_true]
      rw [hs4, State.pc, writeReg_reg _ _ _ _ _ (by decide) (by decide), if_pos rfl, trunc_of_lt hv])
    (by
      intro hp
      have hp0 : p ≠ .reg 0 := by simpa [Place.isPc] using hp
      simp [hp0])
  have hsrf : ∀ t : State, (t = finish s n ⟨s4, s2.pc, p.isPc⟩) → t.sr = s4.sr := by
    rintro t rfl; exact finish_reg _ _ _ 2 (by decide)
  have hoth : ∀ r, r ≠ 0 → r ≠ 2 → p ≠ .reg r → s4.reg r = (advance auto (nb ws) s).reg r := fun r h0 h2 hp => by
    rw [h5 r hp, applyFlags_reg _ _ _ h2, h.regs r h0]
  constructor
  · rw [finish_halted, h3, applyFlags_halted, h.halted]
  · rw [finish_params, h4, applyFlags_params, h.params]
  · exact hpc.2
  · exact hpc.1
  · cases p with
    | none =>
      exact ⟨by rw [finish_mem, h1.1, applyFlags_mem, h.mem], by rw [finish_sent, h1.2, applyFlags_sent, h.sent]⟩
    | reg r =>
      exact ⟨by rw [finish_mem, h1.1, applyFlags_mem, h.mem], by rw [finish_sent, h1.2, applyFlags_sent, h.sent]⟩
    | mem ea =>
      simp only [Place.stored, StoredAt, applyFlags_params, applyFlags_mem, applyFlags_sent, h.params, h.mem,
        h.sent] at h1 ⊢
      simpa using h1
  · intro r hp h0 h2' h3'
    rw [finish_reg _ _ _ _ h0]
    simp only [h6 r hp]
    rw [writeReg_reg _ _ _ _ _ h2' h3', if_pos rfl, trunc_of_lt hv]
  · intro hp
    rw [hsrf _ rfl, h6 2 hp, writeReg_two, trunc_of_lt hv]
    intro k hk
    rw [writeSR_written _ _ k hk]
    simp only [applyFlags_params, h.params]
    split
    · rfl
    · rename_i hb
      have hb : srBitWritten s.params k = false := by simpa using hb
      rw [applyFlags_bit _ _ _ (srBitWritten_flag _ _ hb), h.srBit hk hb]
  · intro hp ha2
    have hk := ha ha2
    subst hk ha2
    have hu : u = .keep := by cases u <;> simp [FlagUpdate.follows] at hf ⊢
    subst hu
    rw [hsrf _ rfl, show s4.sr = s2.sr from h5 2 hp]
    exact h.srAuto
  · intro hp ha2
    rw [hsrf _ rfl, show s4.sr = (s2.applyFlags u).sr from h5 2 hp, ← h.sr ha2]
    exact applyFlags_holds hf s2
  · intro r har h0 h2' h3' hp
    rw [finish_reg _ _ _ _ h0]
    simp only
    rw [hoth r h0 h2' hp, har, advance, autoInc_reg _ _ _ h0 h2' h3']
  · intro r h0 h2' hr
    rw [finish_reg _ _ _ _ h0]
    simp only
    rcases hr with rfl | ⟨hp, hau⟩
    · by_cases hp : p = .reg 3
      · rw [h6 3 hp, writeReg_three, applyFlags_reg _ _ _ (by decide), h.regs 3 (by decide),
          advance_other _ _ _ _ (.inr (.inr rfl))]
      · rw [hoth 3 (by decide) (by decide) hp, advance_other _ _ _ _ (.inr (.inr rfl))]
    · rw [hoth r h0 h2' hp, advance_other _ _ _ _ (.inl hau)]

/-! ## The common executions -/

/-- The operand state of an instruction is a fetch further at most; its flags are those of the cycle's start. -/
theorem flagC_of_sr {s t : State} (h : t.sr = s.sr) : t.flagC = s.flagC := by simp [State.flagC, h]

theorem srcAuto_ne_two {src : Src} (h : src.wf = true) : srcAuto src ≠ some 2 := by
  cases src <;> simp [srcAuto, Src.wf] at h ⊢
  exact h.1.2

/-- Format I, once its operands are resolved and its place accepts the result (R200). -/
theorem formatI_effect {alu : Size → Bool → Slot → Slot → AluOut} {reads stores zc : Bool} {ws : Size}
    {hiS hiD : Option (BitVec 4)} {src : Src} {dst : Dst} {x : Option Ext} {s s1 s2 : State} {a b : Operand}
    {rule : Bool → Slot → Slot → Slot × FlagRule} (n : Nat) (hwf : src.wf = true) (hm : s.mem.wf)
    (hs : resolveSrc ws hiS src (operandState x s) = .ok (a, s1))
    (hd : resolveDst ws hiD reads dst s1 = .ok (b, s2))
    (hw : stores = true → b.place.writable ws s)
    (halu : ∀ c u v, u.toNat < 2 ^ bits ws → v.toNat < 2 ^ bits ws →
      (stores = true → (alu ws c u v).result = (rule c u v).1 ∧ (rule c u v).1.toNat < 2 ^ bits ws) ∧
        (alu ws c u v).flags.follows (rule c u v).2) :
    ∃ d, formatI alu reads stores ws hiS hiD zc src dst (operandState x s) = .ok d ∧
      Effect (coreWords x + srcWords src + dstWords dst) n ws (if stores then b.place else .none)
        (rule s.flagC a.value b.value).1 (rule s.flagC a.value b.value).2 (srcAuto src) s (finish s n d) := by
  have hR := ((Resolved.operandState x (nb ws) s).src hs).dst hd
  have hc : carryIn zc s2 = s.flagC := by
    simp only [carryIn, Config.zcScope]
    rw [← flagC_of_sr (hR.sr (srcAuto_ne_two hwf))]
    simp
  have ha := (resolveSrc_ok hs).2.1
  have hb := (resolveDst_ok hd).2.1
  obtain ⟨hres, hfl⟩ := halu s.flagC a.value b.value ha hb
  cases stores with
  | true =>
    obtain ⟨hr1, hr2⟩ := hres rfl
    have hw' : b.place.writable ws (s2.applyFlags (alu ws s.flagC a.value b.value).flags) := by
      have := hw rfl
      unfold Place.writable at this ⊢
      split <;> simp_all [accepts, hR.params]
    obtain ⟨s4, h4⟩ := store_writable (v := (rule s.flagC a.value b.value).1) hw'
    refine ⟨⟨s4, s2.pc, b.place.isPc⟩, ?_, ?_⟩
    · simp only [formatI, hs, hd, hc, hr1, h4, if_true]
    · exact effect_of_store hR hm hr2 hfl (fun h => absurd h (srcAuto_ne_two hwf)) h4
  | false =>
    refine ⟨⟨s2.applyFlags (alu ws s.flagC a.value b.value).flags, s2.pc, false⟩, ?_, ?_⟩
    · simp only [formatI, hs, hd, hc]
      simp
    · have := effect_of_store (n := n) (ws := ws) (p := .none) (v := 0) hR hm (by simp) hfl
        (fun h => absurd h (srcAuto_ne_two hwf)) rfl
      rw [show Place.isPc .none = false from rfl] at this
      obtain ⟨e1, e2, e3, e4, e5, e6, e7, e8, e9, e10, e11⟩ := this
      exact ⟨e1, e2, e3, by simpa using e4, by simpa [Place.stored] using e5, by simp, by simp, by simpa using e8,
        by simpa using e9, by simpa using e10, by simpa using e11⟩

/-- Format II, once its operand is resolved and its place accepts the result (R290). -/
theorem formatII_effect {alu : Size → Bool → Slot → AluOut} {ws : Size} {hi : Option (BitVec 4)} {zc : Bool} {opd : Src}
    {x : Option Ext} {s s1 : State} {a : Operand} {rule : Bool → Slot → Slot × FlagRule} (n : Nat)
    (hwf : opd.wf = true) (hm : s.mem.wf) (hs : resolveSrc ws hi opd (operandState x s) = .ok (a, s1))
    (hw : a.place.writable ws s)
    (halu : ∀ c u, u.toNat < 2 ^ bits ws → (alu ws c u).result = (rule c u).1 ∧ (rule c u).1.toNat < 2 ^ bits ws ∧
      (alu ws c u).flags.follows (rule c u).2) :
    ∃ d, formatII alu ws hi zc opd (operandState x s) = .ok d ∧
      Effect (coreWords x + srcWords opd) n ws a.place (rule (!zc && s.flagC) a.value).1
        (rule (!zc && s.flagC) a.value).2 (srcAuto opd) s (finish s n d) := by
  have hR := (Resolved.operandState x (nb ws) s).src hs
  have hc : carryInRrc zc s1 = (!zc && s.flagC) := by
    rw [carryInRrc, flagC_of_sr (hR.sr (srcAuto_ne_two hwf))]
    cases zc <;> rfl
  obtain ⟨hr1, hr2, hfl⟩ := halu (!zc && s.flagC) a.value (resolveSrc_ok hs).2.1
  have hw' : a.place.writable ws (s1.applyFlags (alu ws (!zc && s.flagC) a.value).flags) := by
    unfold Place.writable at hw ⊢
    split <;> simp_all [accepts, hR.params]
  obtain ⟨s4, h4⟩ := store_writable (v := (rule (!zc && s.flagC) a.value).1) hw'
  refine ⟨⟨s4, s1.pc, a.place.isPc⟩, ?_, ?_⟩
  · simp only [formatII, hs, hc, hr1, h4]
  · exact effect_of_store hR hm hr2 hfl (fun h => absurd h (srcAuto_ne_two hwf)) h4

/-- An extended instruction that is not a repeated one with destination R0 runs its body past its extension word
(R310, R315). -/
theorem extended_run {words : List Word} {x : Ext} {dstPc : Bool} {body : State → Except FaultCause Done} {s : State}
    (h : 0 < count (some x) s → dstPc = false) :
    extended words x dstPc body s = cycle s (count (some x) s) (body (operandState (some x) s)) := by
  have h' : ¬(0 < repetition x (s.setPc (low20 (s.pc + 2))) ∧ dstPc = true) := fun ⟨h1, h2⟩ => by simp [h h1] at h2
  rw [extended]
  simp only [if_neg h', count, operandState]

/-- A repeated instruction with destination R0 is reserved (R160, R315). -/
theorem extended_reserved {words : List Word} {x : Ext} {body : State → Except FaultCause Done} {s : State}
    (h : 0 < count (some x) s) : extended words x true body s = .next (s.takeFault (.reservedOpcode words)) := by
  have h' : 0 < repetition x (s.setPc (low20 (s.pc + 2))) := h
  rw [extended]
  simp only [h', and_self, if_true, cycle]

end Sys2Proof.Machine
end

