-- ==== Sys2Proof/Laws/Alu.lean ====
section
/-! SUPPORT. Each operation function of spec/40_alu_flags.md gives the result and the flags its rule says, as numbers. -/

namespace Sys2Proof.Machine

open Sys2Proof

/-- The sign of a value of the width (R171). -/
theorem neg_eq (ws : Size) (v : Slot) (h : v.toNat < 2 ^ bits ws) : neg ws v = isNeg ws v.toNat := by
  unfold neg isNeg half
  rw [← BitVec.testBit_toNat, Nat.testBit_eq_decide_div_mod_eq]
  cases ws <;> simp only [bits] at * <;> congr 1 <;> simp <;> omega

/-- A value of the width is zero (R171). -/
theorem isZero_eq (ws : Size) (v : Slot) (h : v.toNat < 2 ^ bits ws) : isZero ws v = decide (v.toNat = 0) := by
  unfold isZero; rw [Nat.mod_eq_of_lt h]; cases hh : decide (v.toNat = 0) <;> simp_all

/-- A number of the width as a slot. -/
theorem slotOf_toNat (ws : Size) (r : Nat) (h : r < 2 ^ bits ws) : (slotOf r).toNat = r := by
  have := two_pow_bits_le ws
  simp only [slotOf, BitVec.toNat_ofNat]; exact Nat.mod_eq_of_lt (by omega)

theorem full_pos (ws) : 0 < full ws := by unfold full; positivity

/-- `AddOp` gives what R173 says. -/
theorem addOp_rule (ws : Size) (c : Bool) (u v : Slot) (hu : u.toNat < 2 ^ bits ws) (hv : v.toNat < 2 ^ bits ws) :
   (addOp ws c u v).result = (addRule ws c u v).1 ∧ (addRule ws c u v).1.toNat < 2 ^ bits ws ∧ (addOp ws c u v).flags.follows (addRule ws c u v).2 := by
  have hlt : (u.toNat + v.toNat + (if c then 1 else 0)) % full ws < 2 ^ bits ws := Nat.mod_lt _ (full_pos ws)
  have hs := slotOf_toNat ws _ hlt
  have hb : bitNat c = (if c then 1 else 0) := rfl
  simp only [addOp, addRule, FlagUpdate.follows, hb]
  refine ⟨rfl, by rw [hs]; exact hlt, rfl, ?_, ?_, ?_⟩
  · have := isZero_eq ws _ (hs.symm ▸ hlt); rw [hs] at this; exact this
  · have := neg_eq ws _ (hs.symm ▸ hlt); rw [hs] at this; exact this
  · have h1 := neg_eq ws _ (hs.symm ▸ hlt); rw [hs] at h1
    intro b hb
    rw [← Option.some_inj.1 hb, neg_eq ws u hu, neg_eq ws v hv]
    simp only [slotOf, full] at h1 ⊢
    rw [h1]

/-- The flags of the subtract group are those R174 says. -/
theorem subFlags_rule (ws : Size) (u v : Slot) (r : Nat) (hu : u.toNat < 2 ^ bits ws) (hv : v.toNat < 2 ^ bits ws) (hlt : r < 2 ^ bits ws) :
   (subFlags ws u v (slotOf r)).follows (subFlagRule ws u.toNat v.toNat r) := by
  have hs := slotOf_toNat ws _ hlt
  have h1 := neg_eq ws _ (hs.symm ▸ hlt); rw [hs] at h1
  have h2 := isZero_eq ws _ (hs.symm ▸ hlt); rw [hs] at h2
  refine ⟨rfl, h2, h1, fun b hb => ?_⟩
  rw [← Option.some_inj.1 hb, neg_eq ws u hu, neg_eq ws v hv, h1]

/-- `SubOp` without a carry gives what R174 says. -/
theorem subOp_rule (ws : Size) (c : Bool) (u v : Slot) (hu : u.toNat < 2 ^ bits ws) (hv : v.toNat < 2 ^ bits ws) :
   (subOp ws u v).result = (subRule ws c u v).1 ∧ (subRule ws c u v).1.toNat < 2 ^ bits ws ∧ (subOp ws u v).flags.follows (subRule ws c u v).2 := by
  have e : (((v.toNat : Int) - u.toNat) % 2 ^ bits ws).toNat = (v.toNat + full ws - u.toNat) % full ws := by
    cases ws <;> simp only [full, bits] at * <;> norm_num at * <;> omega
  have hlt : (v.toNat + full ws - u.toNat) % full ws < 2 ^ bits ws := Nat.mod_lt _ (full_pos ws)
  have hs := slotOf_toNat ws _ hlt
  simp only [subOp, subRule, e]
  exact ⟨rfl, by rw [hs]; exact hlt, subFlags_rule ws u v _ hu hv hlt⟩

/-- `SubOp` with a carry gives what R174 says. -/
theorem subcOp_rule (ws : Size) (c : Bool) (u v : Slot) (hu : u.toNat < 2 ^ bits ws) (hv : v.toNat < 2 ^ bits ws) :
   (subcOp ws c u v).result = (subcRule ws c u v).1 ∧ (subcRule ws c u v).1.toNat < 2 ^ bits ws ∧ (subcOp ws c u v).flags.follows (subcRule ws c u v).2 := by
  have e : (trunc ws (~~~ u)).toNat = full ws - 1 - u.toNat := by
    rw [trunc_toNat, BitVec.toNat_not]
    cases ws <;> simp only [full, bits] at * <;> norm_num at * <;> omega
  have hlt : (v.toNat + (full ws - 1 - u.toNat) + (if c then 1 else 0)) % full ws < 2 ^ bits ws := Nat.mod_lt _ (full_pos ws)
  have hs := slotOf_toNat ws _ hlt
  have hb : bitNat c = (if c then 1 else 0) := rfl
  simp only [subcOp, subcRule, e, hb]
  exact ⟨rfl, by rw [hs]; exact hlt, subFlags_rule ws u v _ hu hv hlt⟩

/-- `AndOp` gives what R175 says. -/
theorem andOp_rule (ws : Size) (c : Bool) (u v : Slot) (_ : u.toNat < 2 ^ bits ws) (hv : v.toNat < 2 ^ bits ws) :
   (andOp ws u v).result = (andRule ws c u v).1 ∧ (andRule ws c u v).1.toNat < 2 ^ bits ws ∧ (andOp ws u v).flags.follows (andRule ws c u v).2 := by
  have e : u &&& v = slotOf (u.toNat &&& v.toNat) := by apply BitVec.eq_of_toNat_eq; rw [BitVec.toNat_and, slotOf_toNat ws _ (Nat.and_lt_two_pow _ hv)]
  have hlt := Nat.and_lt_two_pow u.toNat hv
  have hs := slotOf_toNat ws _ hlt
  have h1 := neg_eq ws _ (hs.symm ▸ hlt); rw [hs] at h1
  have h2 := isZero_eq ws _ (hs.symm ▸ hlt); rw [hs] at h2
  simp only [andOp, andRule, e]
  refine ⟨trivial, by rw [hs]; exact hlt, ?_, h2, h1, fun b hb => by simpa using hb⟩
  rw [h2]; simp

/-- `XorOp` gives what R176 says. -/
theorem xorOp_rule (ws : Size) (c : Bool) (u v : Slot) (hu : u.toNat < 2 ^ bits ws) (hv : v.toNat < 2 ^ bits ws) :
   (xorOp ws u v).result = (xorRule ws c u v).1 ∧ (xorRule ws c u v).1.toNat < 2 ^ bits ws ∧ (xorOp ws u v).flags.follows (xorRule ws c u v).2 := by
  have hlt := Nat.xor_lt_two_pow hu hv
  have e : u ^^^ v = slotOf (u.toNat ^^^ v.toNat) := by apply BitVec.eq_of_toNat_eq; rw [BitVec.toNat_xor, slotOf_toNat ws _ hlt]
  have hs := slotOf_toNat ws _ hlt
  have h1 := neg_eq ws _ (hs.symm ▸ hlt); rw [hs] at h1
  have h2 := isZero_eq ws _ (hs.symm ▸ hlt); rw [hs] at h2
  simp only [xorOp, xorRule, e]
  refine ⟨trivial, by rw [hs]; exact hlt, ?_, h2, h1, fun b hb => ?_⟩
  · rw [h2]; simp
  · rw [← Option.some_inj.1 hb, neg_eq ws u hu, neg_eq ws v hv]

/-- `BicOp` gives what R177 says. -/
theorem bicOp_rule (ws : Size) (c : Bool) (u v : Slot) (hv : v.toNat < 2 ^ bits ws) :
   (bicOp ws u v).result = (bicRule ws c u v).1 ∧ (bicRule ws c u v).1.toNat < 2 ^ bits ws := by
  have h : (v &&& ~~~ u).toNat < 2 ^ bits ws := by
    rw [BitVec.toNat_and]; exact lt_of_le_of_lt Nat.and_le_left hv
  exact ⟨trunc_of_lt h, h⟩

/-- `BisOp` gives what R177 says. -/
theorem bisOp_rule (ws : Size) (c : Bool) (u v : Slot) (hu : u.toNat < 2 ^ bits ws)  (hv : v.toNat < 2 ^ bits ws) :
   (bisOp ws u v).result = (bisRule ws c u v).1 ∧ (bisRule ws c u v).1.toNat < 2 ^ bits ws := by
  have h : (v ||| u).toNat < 2 ^ bits ws := by
    rw [BitVec.toNat_or]; exact Nat.or_lt_two_pow hv hu
  exact ⟨trunc_of_lt h, h⟩

/-- The digit loop gives a number of that many digits (R179). -/
theorem daddDigits_lt (k a b c : Nat) : (daddDigits k a b c).1 < 16 ^ k := by
  induction k generalizing a b c with
  | zero => simp [daddDigits]
  | succ k ih =>
    simp only [daddDigits]
    have := ih (a/16) (b/16) ((if 9 < a % 16 + b % 16 + c then a % 16 + b % 16 + c + 6 else a % 16 + b % 16 + c) / 16)
    rw [pow_succ]; omega

/-- `DaddOp` gives what the digit loop of R179 says. -/
theorem daddOp_rule (ws : Size) (c : Bool) (u v : Slot) :
   (daddOp ws c u v).result = (daddRule ws c u v).1 ∧ (daddRule ws c u v).1.toNat < 2 ^ bits ws ∧ (daddOp ws c u v).flags.follows (daddRule ws c u v).2 := by
  have hb : bitNat c = (if c then 1 else 0) := rfl
  have hl := daddDigits_lt (digits ws) u.toNat v.toNat (if c then 1 else 0)
  have e : 16 ^ digits ws = 2 ^ bits ws := by cases ws <;> simp [digits, bits]
  rw [e] at hl
  have hs := slotOf_toNat ws _ hl
  have h1 := neg_eq ws _ (hs.symm ▸ hl); rw [hs] at h1
  have h2 := isZero_eq ws _ (hs.symm ▸ hl); rw [hs] at h2
  simp only [daddOp, daddRule, hb, e]
  refine ⟨rfl, by rw [hs]; exact hl, ?_, h2, h1, rfl⟩
  generalize daddDigits (digits ws) u.toNat v.toNat (if c then 1 else 0) = p at *
  congr 1
  simp only [eq_iff_iff]
  constructor
  · intro h; by_contra hh; have : p.2 = 0 := by omega
    rw [this] at h; omega
  · intro h; nlinarith [Nat.one_le_two_pow (n := bits ws)]

end Sys2Proof.Machine
end

