-- ==== Sys2Proof/Laws/Codec.lean ====
section
/-! SUPPORT. The fields of the encoder's words, each read back, and which words begin an extended instruction. -/

namespace Sys2Proof

/-! ## Fields of a number -/

@[simp] theorem field_ofNat (n hi lo : Nat) :
    field (BitVec.ofNat 16 n) hi lo = n % 65536 / 2 ^ lo % 2 ^ (hi + 1 - lo) := by simp [field]

theorem bitNat_lt (b : Bool) : bitNat b < 2 := by cases b <;> simp [bitNat]

theorem bwNat_lt (b : BW) : bwNat b < 2 := by cases b <;> simp [bwNat]

theorem srcAs_lt (s : Src) : srcAs s < 4 := by cases s <;> simp [srcAs]; rename_i k; cases k <;> simp

@[simp] theorem bwOf_bwNat (b : BW) : bwOf (bwNat b == 1) = b := by cases b <;> rfl

@[simp] theorem bitNat_beq (b : Bool) : (bitNat b == 1) = b := by cases b <;> rfl

@[simp] theorem finOf_val (r : RegNum) : Fin.ofNat 16 r.val = r :=
  Fin.ext (Nat.mod_eq_of_lt r.isLt)

/-! ## Operands -/

/-- A well-formed source operand is read back from its As and register fields (R130, R140). -/
theorem srcOf_fields {s : Src} (h : s.wf = true) : srcOf (srcReg s) (srcAs s) = s := by
  cases s <;> simp_all [Src.wf, srcOf, srcReg, srcAs, Config.as3Autoinc]
  rename_i k
  cases k <;> simp

/-- A well-formed destination operand is read back from its Ad and register fields (R131, R142). -/
theorem dstOf_fields {d : Dst} (h : d.wf = true) : dstOf (dstReg d) (dstAd d) = d := by
  cases d <;> simp_all [Dst.wf, dstOf, dstReg, dstAd]

/-- The raw As field of a source operand is 0 exactly where `rawReg` says so (R124). -/
theorem srcAs_eq_zero (s : Src) : (srcAs s == 0) = s.rawReg := by
  cases s <;> try rfl
  rename_i k
  cases k <;> rfl

/-- The raw Ad field of a destination operand is 0 exactly where `rawReg` says so (R124). -/
theorem dstAd_not (d : Dst) : (!dstAd d) = d.rawReg := by cases d <;> rfl

/-! ## Core words -/

/-- The fields of a format I word (R115). -/
theorem wordI_fields {op : Nat} (h : op < 16) (bw : BW) (src : Src) (dst : Dst) :
    field (wordI op bw src dst) 15 12 = op ∧ field (wordI op bw src dst) 15 8 = op * 16 + (srcReg src).val ∧
      field (wordI op bw src dst) 15 11 = op * 2 + (srcReg src).val / 8 ∧
      field (wordI op bw src dst) 11 8 = (srcReg src).val ∧ field (wordI op bw src dst) 7 7 = bitNat (dstAd dst) ∧
      field (wordI op bw src dst) 6 6 = bwNat bw ∧ field (wordI op bw src dst) 5 4 = srcAs src ∧
      field (wordI op bw src dst) 3 0 = (dstReg dst).val := by
  have := srcAs_lt src
  have := bwNat_lt bw
  have := bitNat_lt (dstAd dst)
  have := (srcReg src).isLt
  have := (dstReg dst).isLt
  simp only [wordI, field_ofNat]
  norm_num
  omega

/-- The fields of a format II word (R117). -/
theorem wordII_fields {op : Nat} (h : op < 6) (bw : BW) (opd : Src) :
    field (wordII op bw opd) 15 8 = 0x10 + op / 2 ∧ field (wordII op bw opd) 15 11 = 2 ∧
      field (wordII op bw opd) 9 7 = op ∧ field (wordII op bw opd) 6 6 = bwNat bw ∧
      field (wordII op bw opd) 5 4 = srcAs opd ∧ field (wordII op bw opd) 3 0 = (srcReg opd).val := by
  have := srcAs_lt opd
  have := bwNat_lt bw
  have := (srcReg opd).isLt
  simp only [wordII, field_ofNat]
  norm_num
  omega

/-! ## Which words begin an extended instruction -/

/-- A word is an extension word exactly when it is 0x1800 to 0x1FFF (R123). -/
theorem isExtWord_ofNat {n : Nat} (h : n < 65536) :
    isExtWord (BitVec.ofNat 16 n) = decide (0x1800 ≤ n ∧ n < 0x2000) := by
  simp only [isExtWord, field_ofNat]
  rw [Bool.eq_iff_iff, beq_iff_eq, decide_eq_true_eq]
  norm_num only
  omega

theorem isExtWord_wordI {op : Nat} (h : 4 ≤ op ∧ op < 16) (bw : BW) (src : Src) (dst : Dst) :
    isExtWord (wordI op bw src dst) = false := by
  have := (wordI_fields h.2 bw src dst).2.2.1
  simp only [isExtWord, this, beq_eq_false_iff_ne]
  omega

theorem isExtWord_wordII {op : Nat} (h : op < 6) (bw : BW) (opd : Src) : isExtWord (wordII op bw opd) = false := by
  simp only [isExtWord, (wordII_fields h bw opd).2.1]
  rfl

theorem isExtWord_wordJ {c : Nat} (h : c < 8) (off : BitVec 10) : isExtWord (wordJ c off) = false := by
  have := off.isLt
  rw [wordJ, isExtWord_ofNat (by omega), decide_eq_false_iff_not]
  omega

theorem isExtWord_wordA {m s d : Nat} (h : m < 16) (hs : s < 16) (hd : d < 16) : isExtWord (wordA m s d) = false := by
  rw [wordA, isExtWord_ofNat (by omega), decide_eq_false_iff_not]
  omega

theorem isExtWord_wordRot (n : BitVec 2) {i w : Nat} (hi : i < 4) (hw : w < 2) (d : RegNum) :
    isExtWord (wordRot n i w d) = false := by
  have := n.isLt
  have := d.isLt
  rw [wordRot, isExtWord_ofNat (by omega), decide_eq_false_iff_not]
  omega

theorem isExtWord_wordC {m d : Nat} (h : m < 0x140) (hd : d < 16) : isExtWord (wordC m d) = false := by
  rw [wordC, isExtWord_ofNat (by omega), decide_eq_false_iff_not]
  omega

theorem isExtWord_wordP {m : Nat} (h : m < 0x18) (n : BitVec 4) (d : RegNum) : isExtWord (wordP m n d) = false := by
  have := n.isLt
  have := d.isLt
  rw [wordP, isExtWord_ofNat (by omega), decide_eq_false_iff_not]
  omega

theorem isExtWord_rawWord {base lo : Nat} (h : base + lo < 0x1800) : isExtWord (rawWord base lo) = false := by
  rw [rawWord, isExtWord_ofNat (by omega), decide_eq_false_iff_not]
  omega

@[simp] theorem isExtWord_extWord (al : Bool) (x : Ext) : isExtWord (extWord al x) = true := by
  have := bitNat_lt al
  cases x with
  | regForm i z b j n =>
    have := i.isLt
    have := j.isLt
    have := n.isLt
    have := bitNat_lt z
    have := bitNat_lt b
    rw [extWord, isExtWord_ofNat (by omega), decide_eq_true_eq]
    omega
  | memForm h j l =>
    have := h.isLt
    have := j.isLt
    have := l.isLt
    rw [extWord, isExtWord_ofNat (by omega), decide_eq_true_eq]
    omega

@[simp] theorem isExtWord_rawExt (p : BitVec 11) : isExtWord (rawExt p) = true := by
  have := p.isLt
  rw [rawExt, isExtWord_ofNat (by omega), decide_eq_true_eq]
  omega

end Sys2Proof
end

