-- ==== Sys2Proof/Laws/Evolves.lean ====
section
/-! SUPPORT. What no part of a cycle changes, and what every part of it keeps: one relation between the states of a cycle,
shown for each shared operation. -/

namespace Sys2Proof.Machine

open Sys2Proof

/-- From `s` to `t`, in the course of one cycle: the parameters, the repetition state, the fault record, slot 3 and the
bits of SR no explicit write reaches are as they were; the devices' writes have only grown; memory stays in its canonical
form and every slot below 2^20. -/
structure Evolves (s t : State) : Prop where
  params : t.params = s.params
  rep : t.rep = s.rep
  halted : t.halted = s.halted
  three : t.reg 3 = s.reg 3
  sent : ∃ l, t.sent = l ++ s.sent
  mem : s.mem.wf → t.mem.wf
  narrow : s.slotsNarrow → t.slotsNarrow
  srBits : ∀ k, srBitWritten s.params k = false → t.sr.getLsbD k = s.sr.getLsbD k

namespace Evolves

theorem refl (s : State) : Evolves s s :=
  ⟨rfl, rfl, rfl, rfl, ⟨[], rfl⟩, id, id, fun _ _ => rfl⟩

theorem trans {s t u : State} (h : Evolves s t) (h' : Evolves t u) : Evolves s u := by
  obtain ⟨l, hl⟩ := h.sent
  obtain ⟨l', hl'⟩ := h'.sent
  exact ⟨h'.params.trans h.params, h'.rep.trans h.rep, h'.halted.trans h.halted, h'.three.trans h.three,
    ⟨l' ++ l, by rw [hl', hl, List.append_assoc]⟩, h'.mem ∘ h.mem, h'.narrow ∘ h.narrow,
    fun k hk => (h'.srBits k (by rw [h.params]; exact hk)).trans (h.srBits k hk)⟩

/-- The model's own counters are no part of it. -/
theorem withReads {s t u : State} (h : Evolves s t) (e : u = { t with deviceReads := u.deviceReads }) :
    Evolves s u := by
  rw [e]
  exact ⟨h.params, h.rep, h.halted, h.three, h.sent, h.mem, h.narrow, h.srBits⟩

/-- A slot other than SR and slot 3 set to a value below 2^20. -/
theorem setReg {s : State} {r : RegNum} {v : Slot} (h2 : r ≠ 2) (h3 : r ≠ 3)
    (hv : s.slotsNarrow → v.toNat < 2 ^ 20) : Evolves s (s.setReg r v) := by
  refine ⟨rfl, rfl, rfl, by simp [h3], ⟨[], rfl⟩, id, fun hn q => ?_, fun k _ => by simp [h2]⟩
  rw [State.reg_setReg]
  split
  · exact hv hn
  · exact hn q

theorem setPc {s : State} {v : Slot} (hv : s.slotsNarrow → v.toNat < 2 ^ 20) : Evolves s (s.setPc v) :=
  setReg (r := 0) (by decide) (by decide) hv

/-- A bitwise choice of two numbers below 2^20 is below 2^20. -/
theorem merge_lt {a b m : Slot} (ha : a.toNat < 2 ^ 20) (hb : b.toNat < 2 ^ 20) :
    ((a &&& m) ||| (b &&& ~~~ m)).toNat < 2 ^ 20 := by
  rw [BitVec.toNat_or, BitVec.toNat_and, BitVec.toNat_and]
  exact Nat.or_lt_two_pow (lt_of_le_of_lt Nat.and_le_left ha) (lt_of_le_of_lt Nat.and_le_left hb)

/-- An explicit write of SR (R39). -/
theorem writeSR {s : State} {v : Slot} (hv : v.toNat < 2 ^ 20) : Evolves s (s.writeSR v) := by
  refine ⟨rfl, rfl, rfl, writeSR_reg _ _ _ (by decide), ⟨[], rfl⟩, id, fun hn q => ?_, fun k hk => ?_⟩
  · by_cases hq : q = 2
    · subst hq
      simp only [State.writeSR, State.reg_setReg, if_true]
      exact merge_lt (hn 2) hv
    · rw [writeSR_reg _ _ _ hq]; exact hn q
  · rcases Nat.lt_or_ge k 32 with h | h
    · simpa [hk] using writeSR_written s v k h
    · rw [BitVec.getLsbD_of_ge _ _ h, BitVec.getLsbD_of_ge _ _ h]

/-- The flag-update port (R38). -/
theorem applyFlags (s : State) (u : FlagUpdate) : Evolves s (s.applyFlags u) := by
  refine ⟨by simp, by simp, by simp, applyFlags_reg _ _ _ (by decide), ⟨[], by simp⟩, by simp, fun hn q => ?_,
    fun k hk => applyFlags_bit _ _ _ (srBitWritten_flag _ _ hk)⟩
  by_cases hq : q = 2
  · subst hq
    have hp : ∀ c z n v, (packFlags c z n v).toNat < 2 ^ 20 := by decide
    have key : ∀ c z n v, ((s.setFlags c z n v).reg 2).toNat < 2 ^ 20 := fun c z n v => by
      simp only [State.setFlags, State.reg_setReg, if_true]
      rw [BitVec.toNat_or, BitVec.toNat_and]
      exact Nat.or_lt_two_pow (lt_of_le_of_lt Nat.and_le_left (hn 2)) (hp c z n v)
    cases u with
    | keep => exact hn 2
    | write c z n v => exact key ..
    | writeDrawV c z n a b => exact key ..
  · rw [applyFlags_reg _ _ _ hq]; exact hn q

/-- `WriteReg` (R31). -/
theorem writeReg (s : State) (r : RegNum) (v : Slot) (ws : Size) : Evolves s (s.writeReg r v ws) := by
  have hv : (trunc ws v).toNat < 2 ^ 20 := lt_of_lt_of_le (trunc_lt ws v) (two_pow_bits_le ws)
  unfold State.writeReg
  split
  · exact refl s
  · split
    · exact writeSR hv
    · exact setReg ‹_› ‹_› fun _ => hv

/-- The autoincrement (R152). -/
theorem autoInc (s : State) (r : RegNum) (k : Nat) : Evolves s (s.autoInc r k) := by
  unfold State.autoInc
  dsimp only
  split
  · exact refl s
  · rename_i h
    split
    · exact writeSR (low20_lt _)
    · exact setReg ‹_› (fun e => h (.inr e)) fun _ => low20_lt _

theorem advance (o : Option RegNum) (k : Nat) (s : State) : Evolves s (advance o k s) := by
  cases o with
  | none => exact refl s
  | some r => exact autoInc s r k

theorem skipWords (k : Nat) (s : State) : Evolves s (skipWords k s) := by
  unfold Machine.skipWords
  split
  · exact refl s
  · exact setPc fun _ => low20_lt _

theorem operandState (x : Option Ext) (s : State) : Evolves s (operandState x s) := by
  cases x with
  | none => exact refl s
  | some e => exact setPc fun _ => low20_lt _

/-! ## The bus -/

theorem busRead {s t : State} {a v : Slot} {n : Nat} {k : AccessKind} (h : busRead s a n k = .ok (v, t)) :
    Evolves s t := (refl s).withReads (busRead_ok h).2.2.1

theorem fetchHere {s t : State} {w : Word} (h : fetchHere s = .ok (w, t)) : Evolves s t :=
  (refl s).withReads (fetchHere_ok h).1

theorem fetchNext {s t : State} {w : Word} (h : fetchNext s = .ok (w, t)) : Evolves s t :=
  (setPc (v := low20 (s.pc + 2)) fun _ => low20_lt _).withReads (fetchNext_ok h)

theorem busWrite {s t : State} {a v : Slot} {n : Nat} (h : busWrite s a n v = .ok t) : Evolves s t := by
  rcases (busWrite_ok h).2 with ⟨-, hn, rfl⟩ | ⟨-, -, rfl⟩
  · exact ⟨rfl, rfl, rfl, rfl, ⟨[], rfl⟩, fun hm => Memory.wf_writeLE _ hm _ _ _ hn, id, fun _ _ => rfl⟩
  · exact ⟨rfl, rfl, rfl, rfl, ⟨[_], rfl⟩, id, id, fun _ _ => rfl⟩

/-! ## Operands and stores -/

theorem resolveSrc {ws : Size} {hi : Option (BitVec 4)} {src : Src} {s t : State} {o : Operand}
    (h : resolveSrc ws hi src s = .ok (o, t)) : Evolves s t :=
  ((skipWords _ s).trans (advance _ _ _)).withReads (resolveSrc_ok h).1

theorem resolveDst {ws : Size} {hi : Option (BitVec 4)} {reads : Bool} {dst : Dst} {s t : State} {o : Operand}
    (h : resolveDst ws hi reads dst s = .ok (o, t)) : Evolves s t :=
  (skipWords _ s).withReads (resolveDst_ok h).1

theorem opMemory {ws : Size} {ea : Slot} {s t : State} {o : Operand} (h : opMemory ws ea s = .ok (o, t)) :
    Evolves s t := (refl s).withReads (opMemory_ok h).1

theorem store {ws : Size} {p : Place} {v : Slot} {s t : State} (h : store ws p v s = .ok t) : Evolves s t := by
  cases p with
  | reg r => cases h; exact writeReg _ _ _ _
  | mem ea => exact busWrite h
  | none => cases h; exact refl _

/-! ## Stack sequences -/

theorem pushAll {sz : Nat} {vs : List Slot} {sp sp' : Slot} {s t : State} (h : pushAll sz vs sp s = .ok (sp', t)) :
    Evolves s t ∧ (sp'.toNat < 2 ^ 20 ∨ vs = []) := by
  induction vs generalizing sp s with
  | nil => cases h; exact ⟨refl _, .inr rfl⟩
  | cons v vs ih =>
    simp only [Machine.pushAll] at h
    split at h
    · rename_i s1 hw
      obtain ⟨h1, h2⟩ := ih h
      refine ⟨(busWrite hw).trans h1, .inl ?_⟩
      rcases h2 with h2 | rfl
      · exact h2
      · cases h; exact low20_lt _
    · exact absurd h (by simp)

theorem popAll {ws : Size} {rs : List RegNum} {sp sp' : Slot} {s t : State} (h : popAll ws rs sp s = .ok (sp', t)) :
    Evolves s t ∧ (sp'.toNat < 2 ^ 20 ∨ rs = []) := by
  induction rs generalizing sp s with
  | nil => cases h; exact ⟨refl _, .inr rfl⟩
  | cons r rs ih =>
    simp only [Machine.popAll] at h
    split at h
    · rename_i v s1 hr
      obtain ⟨h1, h2⟩ := ih h
      refine ⟨((busRead hr).trans (writeReg _ _ _ _)).trans h1, .inl ?_⟩
      rcases h2 with h2 | rfl
      · exact h2
      · cases h; exact low20_lt _
    · exact absurd h (by simp)

/-! ## The common executions -/

theorem formatI {alu : Size → Bool → Slot → Slot → AluOut} {reads stores zc : Bool} {ws : Size}
    {hiS hiD : Option (BitVec 4)} {src : Src} {dst : Dst} {s : State} {d : Done}
    (h : formatI alu reads stores ws hiS hiD zc src dst s = .ok d) : Evolves s d.st := by
  unfold Machine.formatI at h
  split at h
  · exact absurd h (by simp)
  · rename_i a s1 hs
    split at h
    · exact absurd h (by simp)
    · rename_i b s2 hd
      have e := fun u => ((resolveSrc hs).trans (resolveDst hd)).trans (applyFlags s2 u)
      dsimp only at h
      split at h
      · split at h
        · exact absurd h (by simp)
        · rename_i s4 h4
          cases h
          exact (e _).trans (store h4)
      · cases h
        exact e _

theorem formatII {alu : Size → Bool → Slot → AluOut} {ws : Size} {hi : Option (BitVec 4)} {zc : Bool} {opd : Src}
    {s : State} {d : Done} (h : formatII alu ws hi zc opd s = .ok d) : Evolves s d.st := by
  unfold Machine.formatII at h
  split at h
  · exact absurd h (by simp)
  · rename_i a s1 hs
    dsimp only at h
    split at h
    · exact absurd h (by simp)
    · rename_i s2 h2
      cases h
      exact ((resolveSrc hs).trans (applyFlags s1 _)).trans (store h2)

end Evolves

/-! ## The whole cycle -/

/-- What a cycle from `s` can leave: a fault taken, and then nothing else changed; or an execution finished, and then the
state evolved but for the program counter and the repetition state, which go by R35, R313 and R315. -/
structure CycleKeeps (s : State) (n : Nat) (t : State) : Prop where
  params : t.params = s.params
  three : t.reg 3 = s.reg 3
  sent : ∃ l, t.sent = l ++ s.sent
  mem : s.mem.wf → t.mem.wf
  narrow : s.slotsNarrow → t.slotsNarrow
  srBits : ∀ k, srBitWritten s.params k = false → t.sr.getLsbD k = s.sr.getLsbD k
  ends : (∃ c, t = s.takeFault c) ∨
    (t.halted = s.halted ∧ t.rep = repAfter s n ∧ (0 < t.rep.left → t.pc = s.pc))

/-- Every cycle whose execution evolves its state keeps all this (R313, R402). -/
theorem cycle_keeps {s t : State} {n : Nat} {body : Except FaultCause Done}
    (hb : ∀ d, body = .ok d → Evolves s d.st) (h : cycle s n body = .next t) : CycleKeeps s n t := by
  cases body with
  | error c =>
    cases h
    exact ⟨rfl, rfl, ⟨[], rfl⟩, id, id, fun _ _ => rfl, .inl ⟨c, rfl⟩⟩
  | ok d =>
    cases h
    have e := hb d rfl
    refine ⟨by rw [finish_params, e.params], by rw [finish_reg _ _ _ _ (by decide), e.three],
      by rw [finish_sent]; exact e.sent, by rw [finish_mem]; exact e.mem, fun hn q => ?_, fun k hk => ?_,
      .inr ⟨by rw [finish_halted, e.halted], ?_, ?_⟩⟩
    · by_cases hq : q = 0
      · subst hq
        have h0 := e.narrow hn 0
        unfold finish
        repeat' split
        all_goals first
          | exact h0
          | (simp only [State.reg_mk, State.reg_setPc, if_true]; first | exact hn 0 | exact low20_lt _)
      · rw [finish_reg _ _ _ _ hq]; exact e.narrow hn q
    · rw [State.sr, finish_reg _ _ _ _ (by decide)]; exact e.srBits k hk
    · unfold finish repAfter
      by_cases h0 : s.rep.left = 0
      · by_cases hn0 : 0 < n
        · simp [h0, hn0]
        · cases hb : d.wrotePc <;> simp [h0, hn0, e.rep]
      · by_cases h1 : s.rep.left = 1
        · simp [h1]
        · simp [h0, h1, show 1 < s.rep.left by omega]
    · unfold finish
      by_cases h0 : s.rep.left = 0
      · by_cases hn0 : 0 < n
        · simp [h0, hn0]
        · cases hb : d.wrotePc <;> simp [h0, hn0, e.rep]
      · by_cases h1 : s.rep.left = 1
        · simp [h1]
        · simp [h0, show 1 < s.rep.left by omega]

/-- The repetition field is at most 15 (R124, R312). -/
theorem repetition_le (x : Ext) (s : State) : repetition x s ≤ 15 := by
  cases x with
  | regForm r1 z byReg r2 n =>
    simp only [repetition]
    split
    · omega
    · have := n.isLt; omega
  | memForm => simp [repetition]

end Sys2Proof.Machine
end

