-- ==== Sys2Proof/Laws/Stack.lean ====
section
/-! SUPPORT. What the stack sequences do (R271, R281, R282): where the pushed values go, what the popped registers take,
and where the stack pointer ends. -/

namespace Sys2Proof.Machine

open Sys2Proof

/-- A write that is accepted succeeds (R80, R83). -/
theorem busWrite_accepts {s : State} {a v : Slot} {n : Nat} (hw : busWidth n = true) (h : accepts s a n) :
    ∃ t, busWrite s a n v = .ok t := by
  unfold accepts at h
  split at h
  · exact ⟨_, busWrite_memory hw ‹_› h⟩
  · exact ⟨_, busWrite_device hw ‹_› h⟩

/-- A write that succeeds changes only memory and the devices' writes. -/
theorem busWrite_frame {s t : State} {a v : Slot} {n : Nat} (h : busWrite s a n v = .ok t) :
    t = { s with mem := t.mem, sent := t.sent } := by
  rcases (busWrite_ok h).2 with ⟨-, -, rfl⟩ | ⟨-, -, rfl⟩ <;> rfl

/-- The stack pointer after `k` slots of `n` bytes are pushed from `sp`, modulo 2^20 at each (R271, R281). -/
def spDown (n : Nat) : Nat → Slot → Slot
  | 0, sp => sp
  | k + 1, sp => spDown n k (low20 (sp - BitVec.ofNat 32 n))

/-- The stack pointer after `k` slots of `n` bytes are popped from `sp`, modulo 2^20 at each (R282). -/
def spUp (n : Nat) : Nat → Slot → Slot
  | 0, sp => sp
  | k + 1, sp => spUp n k (low20 (sp + BitVec.ofNat 32 n))

/-- Reducing modulo 2^20 at each push is reducing once. -/
theorem spDown_eq (n k : Nat) (sp : Slot) : spDown n (k + 1) sp = low20 (sp - BitVec.ofNat 32 (n * (k + 1))) := by
  induction k generalizing sp with
  | zero => simp [spDown]
  | succ k ih =>
    rw [spDown, ih, BitVec.sub_eq_add_neg, low20_add]
    congr 1
    rw [show n * (k + 1 + 1) = n + n * (k + 1) by ring, BitVec.ofNat_add]
    simp only [BitVec.sub_eq_add_neg, BitVec.neg_add]
    rw [BitVec.add_assoc]

/-- Reducing modulo 2^20 at each pop is reducing once. -/
theorem spUp_eq (n k : Nat) (sp : Slot) : spUp n (k + 1) sp = low20 (sp + BitVec.ofNat 32 (n * (k + 1))) := by
  induction k generalizing sp with
  | zero => simp [spUp]
  | succ k ih =>
    rw [spUp, ih, low20_add]
    congr 1
    rw [show n * (k + 1 + 1) = n + n * (k + 1) by ring, BitVec.ofNat_add, BitVec.add_assoc]

/-- A push sequence whose slots are accepted succeeds: each value is in its slot, the stack pointer is below them, and
nothing else changes (R271, R281). -/
theorem pushAll_ok {n : Nat} {vs : List Slot} {sp : Slot} {s : State} (hn : busWidth n = true) (hm : s.mem.wf)
    (hv : ∀ v ∈ vs, v.toNat < 256 ^ n) (ha : ∀ e ∈ pushSlots n sp vs, accepts s e.1 n) :
    ∃ t, pushAll n vs sp s = .ok (spDown n vs.length sp, t) ∧ StoredAll n (pushSlots n sp vs) s t ∧
      t = { s with mem := t.mem, sent := t.sent } := by
  induction vs generalizing sp s with
  | nil => exact ⟨s, rfl, ⟨rfl, rfl⟩, rfl⟩
  | cons v vs ih =>
    obtain ⟨m, hw⟩ := busWrite_accepts (v := v) hn (ha _ List.mem_cons_self)
    have hf := busWrite_frame hw
    have hp : m.params = s.params := (Evolves.busWrite hw).params
    obtain ⟨t, h1, h2, h3⟩ := ih (sp := low20 (sp - BitVec.ofNat 32 n)) ((Evolves.busWrite hw).mem hm)
      (fun u hu => hv u (List.mem_cons_of_mem _ hu))
      (fun e he => by have := ha e (List.mem_cons_of_mem _ he); unfold accepts at this ⊢; rwa [hp])
    refine ⟨t, ?_, ⟨m, hp, busWrite_storedAt hm (hv v List.mem_cons_self) hw, h2⟩, ?_⟩
    · simp only [pushAll, hw, h1, List.length_cons, spDown]
    · rw [h3, hf]

/-- `WriteReg` masks what it writes, so a masked value is written alike (R31). -/
@[simp] theorem writeReg_trunc (s : State) (r : RegNum) (v : Slot) (ws : Size) :
    s.writeReg r (trunc ws v) ws = s.writeReg r v ws := by
  simp only [State.writeReg, trunc_of_lt (trunc_lt ws v)]

/-- `WriteReg` neither reads nor writes the model's count of device reads. -/
theorem writeReg_withReads (s : State) (r : RegNum) (v : Slot) (ws : Size) (k : Nat) :
    State.writeReg { s with deviceReads := k } r v ws = { s.writeReg r v ws with deviceReads := k } := by
  unfold State.writeReg
  split
  · rfl
  · split <;> rfl

/-- The same of a sequence of such writes. -/
theorem writeRegs_withReads (l : List (RegNum × Slot)) (s : State) (ws : Size) (k : Nat) :
    l.foldl (fun x p => x.writeReg p.1 p.2 ws) { s with deviceReads := k } =
      { l.foldl (fun x p => x.writeReg p.1 p.2 ws) s with deviceReads := k } := by
  induction l generalizing s with
  | nil => rfl
  | cons p l ih => rw [List.foldl_cons, List.foldl_cons, writeReg_withReads, ih]

/-- A pop sequence whose slots can be read succeeds: each register takes its value, in order, and nothing else but the
count of device reads changes (R282). -/
theorem popAll_ok {ws : Size} {rs : List RegNum} {sp : Slot} {s s' u : State} {vs : List Slot}
    (hr : readSlots ws rs.length sp s' = .ok (vs, u)) (hm : s'.mem = s.mem) (hp : s'.params = s.params)
    (hd : s'.deviceReads = s.deviceReads) :
    ∃ t, popAll ws rs sp s = .ok (spUp (nb ws) rs.length sp, t) ∧
      t = { (rs.zip vs).foldl (fun x p => x.writeReg p.1 p.2 ws) s with deviceReads := u.deviceReads } := by
  induction rs generalizing sp s s' vs with
  | nil =>
    simp only [List.length_nil, readSlots, Except.ok.injEq, Prod.mk.injEq] at hr
    obtain ⟨rfl, rfl⟩ := hr
    exact ⟨s, rfl, by rw [hd]; rfl⟩
  | cons r rs ih =>
    simp only [List.length_cons, readSlots] at hr
    split at hr
    · exact absurd hr (by simp)
    · rename_i v s1 hb
      split at hr
      · exact absurd hr (by simp)
      · rename_i ws' s2 hr2
        simp only [Except.ok.injEq, Prod.mk.injEq] at hr
        obtain ⟨rfl, rfl⟩ := hr
        have key : busRead s sp (nb ws) .read = .ok (v, { s with deviceReads := s1.deviceReads }) := by
          have hs1 := (busRead_ok hb).2.2.1
          revert hb
          simp only [busRead, busWidth_nb, if_true, hm, hp, hd]
          split
          · split <;> simp +contextual
            rintro - rfl; simp [hd]
          · split <;> simp +contextual
            rintro - rfl; rfl
        have hs1 := (busRead_ok hb).2.2.1
        obtain ⟨t, h1, h2⟩ := ih (s := (State.writeReg { s with deviceReads := s1.deviceReads } r v ws)) hr2
          (by rw [hs1]; simp [hm]) (by rw [hs1]; simp [hp]) (by simp)
        refine ⟨t, by simp only [popAll, key, h1, List.length_cons, spUp], ?_⟩
        rw [h2, List.zip_cons_cons, List.foldl_cons, writeReg_withReads, writeRegs_withReads]
        simp

end Sys2Proof.Machine
end

