-- ==== Sys2Proof/Laws/Faults.lean ====
section
/-! SUPPORT. Which fault each common execution takes, in the order of R405: the first step of the cycle that fails. -/

namespace Sys2Proof.Machine

open Sys2Proof

/-- A write that is not accepted raises its fault (R80, R83). -/
theorem busWrite_refused {s : State} {a v : Slot} {n : Nat} (hw : busWidth n = true) (h : ¬ accepts s a n) :
    busWrite s a n v = .error (writeFault s a n) := by
  unfold accepts at h
  unfold busWrite writeFault
  rw [if_pos hw]
  split at h <;> rename_i hd
  · rw [hd]
    simp [h]
  · have : resolve s.params a ≠ .memory := fun e => hd e
    cases hr : resolve s.params a <;> simp_all

/-- Whether a write is accepted, and its fault, rest on the parameters alone. -/
theorem accepts_congr {s t : State} (h : t.params = s.params) (a : Slot) (n : Nat) :
    (accepts t a n ↔ accepts s a n) ∧ writeFault t a n = writeFault s a n := by
  simp [accepts, writeFault, h]

/-- A store to memory that is not accepted raises its fault (R156). -/
theorem store_refused {ws : Size} {ea v : Slot} {s t : State} (hp : t.params = s.params) (h : ¬ accepts s ea (nb ws)) :
    store ws (.mem ea) v t = .error (writeFault s ea (nb ws)) := by
  rw [store, busWrite_refused (busWidth_nb ws) (mt (accepts_congr hp ea _).1.1 h), (accepts_congr hp ea _).2]

/-- Format I raises the fault of its source, else of its destination, else of its store (R200, R405). -/
theorem formatI_fault {alu : Size → Bool → Slot → Slot → AluOut} {reads stores zc : Bool} {ws : Size}
    {hiS hiD : Option (BitVec 4)} {src : Src} {dst : Dst} {s u : State} (hu : u.params = s.params) :
    (∀ c, resolveSrc ws hiS src u = .error c → formatI alu reads stores ws hiS hiD zc src dst u = .error c) ∧
    ∀ a s1, resolveSrc ws hiS src u = .ok (a, s1) →
      (∀ c, resolveDst ws hiD reads dst s1 = .error c → formatI alu reads stores ws hiS hiD zc src dst u = .error c) ∧
      ∀ b s2 ea, resolveDst ws hiD reads dst s1 = .ok (b, s2) → stores = true → b.place = .mem ea →
        ¬ accepts s ea (nb ws) →
        formatI alu reads stores ws hiS hiD zc src dst u = .error (writeFault s ea (nb ws)) := by
  refine ⟨fun c h => by simp [formatI, h], fun a s1 h => ⟨fun c h' => by simp [formatI, h, h'], ?_⟩⟩
  intro b s2 ea h' hs hb ha
  have hp : s2.params = s.params := by
    rw [(resolveDst_ok h').1, (resolveSrc_ok h).1]
    simp [hu]
  simp only [formatI, h, h', hs, if_true, hb]
  rw [store_refused (s := s) (by simpa using hp) ha]

/-- Format II raises the fault of its operand, else of its write-back (R290, R405). -/
theorem formatII_fault {alu : Size → Bool → Slot → AluOut} {ws : Size} {hi : Option (BitVec 4)} {zc : Bool} {opd : Src}
    {s u : State} (hu : u.params = s.params) :
    (∀ c, resolveSrc ws hi opd u = .error c → formatII alu ws hi zc opd u = .error c) ∧
    ∀ a s1 ea, resolveSrc ws hi opd u = .ok (a, s1) → a.place = .mem ea → ¬ accepts s ea (nb ws) →
      formatII alu ws hi zc opd u = .error (writeFault s ea (nb ws)) := by
  refine ⟨fun c h => by simp [formatII, h], fun a s1 ea h hb ha => ?_⟩
  have hp : s1.params = s.params := by
    rw [(resolveSrc_ok h).1]
    simp [hu]
  simp only [formatII, h, hb]
  rw [store_refused (s := s) (by simpa using hp) ha]

/-- A push sequence raises the fault of its first slot that is not accepted (R271, R281, R405). -/
theorem pushAll_fault {n : Nat} (hn : busWidth n = true) {s : State} {e : Slot × Slot} {rest : List (Slot × Slot)} :
    ∀ (before : List (Slot × Slot)) (vs : List Slot) (sp : Slot) (u : State), u.params = s.params →
      pushSlots n sp vs = before ++ e :: rest → (∀ f ∈ before, accepts s f.1 n) → ¬ accepts s e.1 n →
      pushAll n vs sp u = .error (writeFault s e.1 n) := by
  intro before
  induction before with
  | nil =>
    intro vs sp u hu h _ he
    cases vs with
    | nil => simp [pushSlots] at h
    | cons v vs =>
      simp only [pushSlots, List.nil_append, List.cons.injEq] at h
      obtain ⟨rfl, -⟩ := h
      simp only [pushAll]
      rw [busWrite_refused hn (mt (accepts_congr hu _ n).1.1 he), (accepts_congr hu _ n).2]
  | cons f before ih =>
    intro vs sp u hu h hb he
    cases vs with
    | nil => simp [pushSlots] at h
    | cons v vs =>
      simp only [pushSlots, List.cons_append, List.cons.injEq] at h
      obtain ⟨rfl, h⟩ := h
      have ha := (accepts_congr hu (low20 (sp - BitVec.ofNat 32 n)) n).1.2 (hb _ List.mem_cons_self)
      obtain ⟨t, ht⟩ := busWrite_accepts (v := v) hn ha
      simp only [pushAll, ht]
      exact ih vs _ t (by rw [busWrite_frame ht, hu]) h (fun f hf => hb f (by simp [hf])) he

end Sys2Proof.Machine
end

