-- ==== Sys2Proof/Laws/PerInstr.lean ====
section
/-! SUPPORT. Statements about every instruction, one lemma for each constructor. -/

namespace Sys2Proof.Laws

open Sys2Proof

/-- An instruction is one word that is no extension word, or two of which the first is one (R110, R111, R123). -/
def EncodedWords.Statement (i : Instr) : Prop :=
  (∃ w, encode i = [w] ∧ isExtWord w = false) ∨ ∃ w c, encode i = [w, c] ∧ isExtWord w = true

/-- A one-word instruction. -/
theorem EncodedWords.of_one {i : Instr} {w : Word} (h : encode i = [w]) (hw : isExtWord w = false) :
    EncodedWords.Statement i := .inl ⟨w, h, hw⟩

/-- An extended instruction. -/
theorem EncodedWords.of_two {i : Instr} {w c : Word} (h : encode i = [w, c]) (hw : isExtWord w = true) :
    EncodedWords.Statement i := .inr ⟨w, c, h, hw⟩

theorem EncodedWords.mov (bw : BW) (src : Src) (dst : Dst) : EncodedWords.Statement (.mov bw src dst) :=
  of_one rfl (isExtWord_wordI (by decide) ..)

theorem EncodedWords.add (bw : BW) (src : Src) (dst : Dst) : EncodedWords.Statement (.add bw src dst) :=
  of_one rfl (isExtWord_wordI (by decide) ..)

theorem EncodedWords.addc (bw : BW) (src : Src) (dst : Dst) : EncodedWords.Statement (.addc bw src dst) :=
  of_one rfl (isExtWord_wordI (by decide) ..)

theorem EncodedWords.subc (bw : BW) (src : Src) (dst : Dst) : EncodedWords.Statement (.subc bw src dst) :=
  of_one rfl (isExtWord_wordI (by decide) ..)

theorem EncodedWords.sub (bw : BW) (src : Src) (dst : Dst) : EncodedWords.Statement (.sub bw src dst) :=
  of_one rfl (isExtWord_wordI (by decide) ..)

theorem EncodedWords.cmp (bw : BW) (src : Src) (dst : Dst) : EncodedWords.Statement (.cmp bw src dst) :=
  of_one rfl (isExtWord_wordI (by decide) ..)

theorem EncodedWords.dadd (bw : BW) (src : Src) (dst : Dst) : EncodedWords.Statement (.dadd bw src dst) :=
  of_one rfl (isExtWord_wordI (by decide) ..)

theorem EncodedWords.bit (bw : BW) (src : Src) (dst : Dst) : EncodedWords.Statement (.bit bw src dst) :=
  of_one rfl (isExtWord_wordI (by decide) ..)

theorem EncodedWords.bic (bw : BW) (src : Src) (dst : Dst) : EncodedWords.Statement (.bic bw src dst) :=
  of_one rfl (isExtWord_wordI (by decide) ..)

theorem EncodedWords.bis (bw : BW) (src : Src) (dst : Dst) : EncodedWords.Statement (.bis bw src dst) :=
  of_one rfl (isExtWord_wordI (by decide) ..)

theorem EncodedWords.xor (bw : BW) (src : Src) (dst : Dst) : EncodedWords.Statement (.xor bw src dst) :=
  of_one rfl (isExtWord_wordI (by decide) ..)

theorem EncodedWords.and (bw : BW) (src : Src) (dst : Dst) : EncodedWords.Statement (.and bw src dst) :=
  of_one rfl (isExtWord_wordI (by decide) ..)

theorem EncodedWords.movxA (x : Ext) (src : Src) (dst : Dst) : EncodedWords.Statement (.movxA x src dst) :=
  of_two rfl (isExtWord_extWord ..)

theorem EncodedWords.movxW (x : Ext) (src : Src) (dst : Dst) : EncodedWords.Statement (.movxW x src dst) :=
  of_two rfl (isExtWord_extWord ..)

theorem EncodedWords.movxB (x : Ext) (src : Src) (dst : Dst) : EncodedWords.Statement (.movxB x src dst) :=
  of_two rfl (isExtWord_extWord ..)

theorem EncodedWords.reservedMovx (x : Ext) (src : Src) (dst : Dst) : EncodedWords.Statement (.reservedMovx x src dst) :=
  of_two rfl (isExtWord_extWord ..)

theorem EncodedWords.addxA (x : Ext) (src : Src) (dst : Dst) : EncodedWords.Statement (.addxA x src dst) :=
  of_two rfl (isExtWord_extWord ..)

theorem EncodedWords.addxW (x : Ext) (src : Src) (dst : Dst) : EncodedWords.Statement (.addxW x src dst) :=
  of_two rfl (isExtWord_extWord ..)

theorem EncodedWords.addxB (x : Ext) (src : Src) (dst : Dst) : EncodedWords.Statement (.addxB x src dst) :=
  of_two rfl (isExtWord_extWord ..)

theorem EncodedWords.reservedAddx (x : Ext) (src : Src) (dst : Dst) : EncodedWords.Statement (.reservedAddx x src dst) :=
  of_two rfl (isExtWord_extWord ..)

theorem EncodedWords.addcxA (x : Ext) (src : Src) (dst : Dst) : EncodedWords.Statement (.addcxA x src dst) :=
  of_two rfl (isExtWord_extWord ..)

theorem EncodedWords.addcxW (x : Ext) (src : Src) (dst : Dst) : EncodedWords.Statement (.addcxW x src dst) :=
  of_two rfl (isExtWord_extWord ..)

theorem EncodedWords.addcxB (x : Ext) (src : Src) (dst : Dst) : EncodedWords.Statement (.addcxB x src dst) :=
  of_two rfl (isExtWord_extWord ..)

theorem EncodedWords.reservedAddcx (x : Ext) (src : Src) (dst : Dst) : EncodedWords.Statement (.reservedAddcx x src dst) :=
  of_two rfl (isExtWord_extWord ..)

theorem EncodedWords.subcxA (x : Ext) (src : Src) (dst : Dst) : EncodedWords.Statement (.subcxA x src dst) :=
  of_two rfl (isExtWord_extWord ..)

theorem EncodedWords.subcxW (x : Ext) (src : Src) (dst : Dst) : EncodedWords.Statement (.subcxW x src dst) :=
  of_two rfl (isExtWord_extWord ..)

theorem EncodedWords.subcxB (x : Ext) (src : Src) (dst : Dst) : EncodedWords.Statement (.subcxB x src dst) :=
  of_two rfl (isExtWord_extWord ..)

theorem EncodedWords.reservedSubcx (x : Ext) (src : Src) (dst : Dst) : EncodedWords.Statement (.reservedSubcx x src dst) :=
  of_two rfl (isExtWord_extWord ..)

theorem EncodedWords.subxA (x : Ext) (src : Src) (dst : Dst) : EncodedWords.Statement (.subxA x src dst) :=
  of_two rfl (isExtWord_extWord ..)

theorem EncodedWords.subxW (x : Ext) (src : Src) (dst : Dst) : EncodedWords.Statement (.subxW x src dst) :=
  of_two rfl (isExtWord_extWord ..)

theorem EncodedWords.subxB (x : Ext) (src : Src) (dst : Dst) : EncodedWords.Statement (.subxB x src dst) :=
  of_two rfl (isExtWord_extWord ..)

theorem EncodedWords.reservedSubx (x : Ext) (src : Src) (dst : Dst) : EncodedWords.Statement (.reservedSubx x src dst) :=
  of_two rfl (isExtWord_extWord ..)

theorem EncodedWords.cmpxA (x : Ext) (src : Src) (dst : Dst) : EncodedWords.Statement (.cmpxA x src dst) :=
  of_two rfl (isExtWord_extWord ..)

theorem EncodedWords.cmpxW (x : Ext) (src : Src) (dst : Dst) : EncodedWords.Statement (.cmpxW x src dst) :=
  of_two rfl (isExtWord_extWord ..)

theorem EncodedWords.cmpxB (x : Ext) (src : Src) (dst : Dst) : EncodedWords.Statement (.cmpxB x src dst) :=
  of_two rfl (isExtWord_extWord ..)

theorem EncodedWords.reservedCmpx (x : Ext) (src : Src) (dst : Dst) : EncodedWords.Statement (.reservedCmpx x src dst) :=
  of_two rfl (isExtWord_extWord ..)

theorem EncodedWords.daddxA (x : Ext) (src : Src) (dst : Dst) : EncodedWords.Statement (.daddxA x src dst) :=
  of_two rfl (isExtWord_extWord ..)

theorem EncodedWords.daddxW (x : Ext) (src : Src) (dst : Dst) : EncodedWords.Statement (.daddxW x src dst) :=
  of_two rfl (isExtWord_extWord ..)

theorem EncodedWords.daddxB (x : Ext) (src : Src) (dst : Dst) : EncodedWords.Statement (.daddxB x src dst) :=
  of_two rfl (isExtWord_extWord ..)

theorem EncodedWords.reservedDaddx (x : Ext) (src : Src) (dst : Dst) : EncodedWords.Statement (.reservedDaddx x src dst) :=
  of_two rfl (isExtWord_extWord ..)

theorem EncodedWords.bitxA (x : Ext) (src : Src) (dst : Dst) : EncodedWords.Statement (.bitxA x src dst) :=
  of_two rfl (isExtWord_extWord ..)

theorem EncodedWords.bitxW (x : Ext) (src : Src) (dst : Dst) : EncodedWords.Statement (.bitxW x src dst) :=
  of_two rfl (isExtWord_extWord ..)

theorem EncodedWords.bitxB (x : Ext) (src : Src) (dst : Dst) : EncodedWords.Statement (.bitxB x src dst) :=
  of_two rfl (isExtWord_extWord ..)

theorem EncodedWords.reservedBitx (x : Ext) (src : Src) (dst : Dst) : EncodedWords.Statement (.reservedBitx x src dst) :=
  of_two rfl (isExtWord_extWord ..)

theorem EncodedWords.bicxA (x : Ext) (src : Src) (dst : Dst) : EncodedWords.Statement (.bicxA x src dst) :=
  of_two rfl (isExtWord_extWord ..)

theorem EncodedWords.bicxW (x : Ext) (src : Src) (dst : Dst) : EncodedWords.Statement (.bicxW x src dst) :=
  of_two rfl (isExtWord_extWord ..)

theorem EncodedWords.bicxB (x : Ext) (src : Src) (dst : Dst) : EncodedWords.Statement (.bicxB x src dst) :=
  of_two rfl (isExtWord_extWord ..)

theorem EncodedWords.reservedBicx (x : Ext) (src : Src) (dst : Dst) : EncodedWords.Statement (.reservedBicx x src dst) :=
  of_two rfl (isExtWord_extWord ..)

theorem EncodedWords.bisxA (x : Ext) (src : Src) (dst : Dst) : EncodedWords.Statement (.bisxA x src dst) :=
  of_two rfl (isExtWord_extWord ..)

theorem EncodedWords.bisxW (x : Ext) (src : Src) (dst : Dst) : EncodedWords.Statement (.bisxW x src dst) :=
  of_two rfl (isExtWord_extWord ..)

theorem EncodedWords.bisxB (x : Ext) (src : Src) (dst : Dst) : EncodedWords.Statement (.bisxB x src dst) :=
  of_two rfl (isExtWord_extWord ..)

theorem EncodedWords.reservedBisx (x : Ext) (src : Src) (dst : Dst) : EncodedWords.Statement (.reservedBisx x src dst) :=
  of_two rfl (isExtWord_extWord ..)

theorem EncodedWords.xorxA (x : Ext) (src : Src) (dst : Dst) : EncodedWords.Statement (.xorxA x src dst) :=
  of_two rfl (isExtWord_extWord ..)

theorem EncodedWords.xorxW (x : Ext) (src : Src) (dst : Dst) : EncodedWords.Statement (.xorxW x src dst) :=
  of_two rfl (isExtWord_extWord ..)

theorem EncodedWords.xorxB (x : Ext) (src : Src) (dst : Dst) : EncodedWords.Statement (.xorxB x src dst) :=
  of_two rfl (isExtWord_extWord ..)

theorem EncodedWords.reservedXorx (x : Ext) (src : Src) (dst : Dst) : EncodedWords.Statement (.reservedXorx x src dst) :=
  of_two rfl (isExtWord_extWord ..)

theorem EncodedWords.andxA (x : Ext) (src : Src) (dst : Dst) : EncodedWords.Statement (.andxA x src dst) :=
  of_two rfl (isExtWord_extWord ..)

theorem EncodedWords.andxW (x : Ext) (src : Src) (dst : Dst) : EncodedWords.Statement (.andxW x src dst) :=
  of_two rfl (isExtWord_extWord ..)

theorem EncodedWords.andxB (x : Ext) (src : Src) (dst : Dst) : EncodedWords.Statement (.andxB x src dst) :=
  of_two rfl (isExtWord_extWord ..)

theorem EncodedWords.reservedAndx (x : Ext) (src : Src) (dst : Dst) : EncodedWords.Statement (.reservedAndx x src dst) :=
  of_two rfl (isExtWord_extWord ..)

theorem EncodedWords.rrc (bw : BW) (opd : Src) : EncodedWords.Statement (.rrc bw opd) :=
  of_one rfl (isExtWord_wordII (by decide) ..)

theorem EncodedWords.swpb (opd : Src) : EncodedWords.Statement (.swpb opd) :=
  of_one rfl (isExtWord_wordII (by decide) ..)

theorem EncodedWords.swpbB (opd : Src) : EncodedWords.Statement (.swpbB opd) :=
  of_one rfl (isExtWord_wordII (by decide) ..)

theorem EncodedWords.rra (bw : BW) (opd : Src) : EncodedWords.Statement (.rra bw opd) :=
  of_one rfl (isExtWord_wordII (by decide) ..)

theorem EncodedWords.sxt (opd : Src) : EncodedWords.Statement (.sxt opd) :=
  of_one rfl (isExtWord_wordII (by decide) ..)

theorem EncodedWords.sxtB (opd : Src) : EncodedWords.Statement (.sxtB opd) :=
  of_one rfl (isExtWord_wordII (by decide) ..)

theorem EncodedWords.push (bw : BW) (opd : Src) : EncodedWords.Statement (.push bw opd) :=
  of_one rfl (isExtWord_wordII (by decide) ..)

theorem EncodedWords.call (bw : BW) (opd : Src) : EncodedWords.Statement (.call bw opd) :=
  of_one rfl (isExtWord_wordII (by decide) ..)

theorem EncodedWords.rrcxA (x : Ext) (opd : Src) : EncodedWords.Statement (.rrcxA x opd) :=
  of_two rfl (isExtWord_extWord ..)

theorem EncodedWords.rrcxW (x : Ext) (opd : Src) : EncodedWords.Statement (.rrcxW x opd) :=
  of_two rfl (isExtWord_extWord ..)

theorem EncodedWords.rrcxB (x : Ext) (opd : Src) : EncodedWords.Statement (.rrcxB x opd) :=
  of_two rfl (isExtWord_extWord ..)

theorem EncodedWords.reservedRrcx (x : Ext) (opd : Src) : EncodedWords.Statement (.reservedRrcx x opd) :=
  of_two rfl (isExtWord_extWord ..)

theorem EncodedWords.swpbxA (x : Ext) (opd : Src) : EncodedWords.Statement (.swpbxA x opd) :=
  of_two rfl (isExtWord_extWord ..)

theorem EncodedWords.swpbxW (x : Ext) (opd : Src) : EncodedWords.Statement (.swpbxW x opd) :=
  of_two rfl (isExtWord_extWord ..)

theorem EncodedWords.swpbxB (x : Ext) (opd : Src) : EncodedWords.Statement (.swpbxB x opd) :=
  of_two rfl (isExtWord_extWord ..)

theorem EncodedWords.reservedSwpbx (x : Ext) (opd : Src) : EncodedWords.Statement (.reservedSwpbx x opd) :=
  of_two rfl (isExtWord_extWord ..)

theorem EncodedWords.rraxA (x : Ext) (opd : Src) : EncodedWords.Statement (.rraxA x opd) :=
  of_two rfl (isExtWord_extWord ..)

theorem EncodedWords.rraxW (x : Ext) (opd : Src) : EncodedWords.Statement (.rraxW x opd) :=
  of_two rfl (isExtWord_extWord ..)

theorem EncodedWords.rraxB (x : Ext) (opd : Src) : EncodedWords.Statement (.rraxB x opd) :=
  of_two rfl (isExtWord_extWord ..)

theorem EncodedWords.reservedRrax (x : Ext) (opd : Src) : EncodedWords.Statement (.reservedRrax x opd) :=
  of_two rfl (isExtWord_extWord ..)

theorem EncodedWords.sxtxA (x : Ext) (opd : Src) : EncodedWords.Statement (.sxtxA x opd) :=
  of_two rfl (isExtWord_extWord ..)

theorem EncodedWords.sxtxW (x : Ext) (opd : Src) : EncodedWords.Statement (.sxtxW x opd) :=
  of_two rfl (isExtWord_extWord ..)

theorem EncodedWords.sxtxB (x : Ext) (opd : Src) : EncodedWords.Statement (.sxtxB x opd) :=
  of_two rfl (isExtWord_extWord ..)

theorem EncodedWords.reservedSxtx (x : Ext) (opd : Src) : EncodedWords.Statement (.reservedSxtx x opd) :=
  of_two rfl (isExtWord_extWord ..)

theorem EncodedWords.pushxA (x : Ext) (opd : Src) : EncodedWords.Statement (.pushxA x opd) :=
  of_two rfl (isExtWord_extWord ..)

theorem EncodedWords.pushxW (x : Ext) (opd : Src) : EncodedWords.Statement (.pushxW x opd) :=
  of_two rfl (isExtWord_extWord ..)

theorem EncodedWords.pushxB (x : Ext) (opd : Src) : EncodedWords.Statement (.pushxB x opd) :=
  of_two rfl (isExtWord_extWord ..)

theorem EncodedWords.reservedPushx (x : Ext) (opd : Src) : EncodedWords.Statement (.reservedPushx x opd) :=
  of_two rfl (isExtWord_extWord ..)

theorem EncodedWords.callxA (x : Ext) (opd : Src) : EncodedWords.Statement (.callxA x opd) :=
  of_two rfl (isExtWord_extWord ..)

theorem EncodedWords.callxW (x : Ext) (opd : Src) : EncodedWords.Statement (.callxW x opd) :=
  of_two rfl (isExtWord_extWord ..)

theorem EncodedWords.callxB (x : Ext) (opd : Src) : EncodedWords.Statement (.callxB x opd) :=
  of_two rfl (isExtWord_extWord ..)

theorem EncodedWords.reservedCallx (x : Ext) (opd : Src) : EncodedWords.Statement (.reservedCallx x opd) :=
  of_two rfl (isExtWord_extWord ..)

theorem EncodedWords.reservedPrefixAddr (p : BitVec 11) (lo : BitVec 12) : EncodedWords.Statement (.reservedPrefixAddr p lo) :=
  of_two rfl (isExtWord_rawExt _)

theorem EncodedWords.reservedPrefixCalla (p : BitVec 11) (lo : BitVec 8) : EncodedWords.Statement (.reservedPrefixCalla p lo) :=
  of_two rfl (isExtWord_rawExt _)

theorem EncodedWords.reservedPrefixPushm (p : BitVec 11) (lo : BitVec 10) : EncodedWords.Statement (.reservedPrefixPushm p lo) :=
  of_two rfl (isExtWord_rawExt _)

theorem EncodedWords.reservedPrefixPrefix (p lo : BitVec 11) : EncodedWords.Statement (.reservedPrefixPrefix p lo) :=
  of_two rfl (isExtWord_rawExt _)

theorem EncodedWords.reservedPrefixJump (p : BitVec 11) (lo : BitVec 13) : EncodedWords.Statement (.reservedPrefixJump p lo) :=
  of_two rfl (isExtWord_rawExt _)

theorem EncodedWords.jnz (off : BitVec 10) : EncodedWords.Statement (.jnz off) :=
  of_one rfl (isExtWord_wordJ (by decide) _)

theorem EncodedWords.jz (off : BitVec 10) : EncodedWords.Statement (.jz off) :=
  of_one rfl (isExtWord_wordJ (by decide) _)

theorem EncodedWords.jnc (off : BitVec 10) : EncodedWords.Statement (.jnc off) :=
  of_one rfl (isExtWord_wordJ (by decide) _)

theorem EncodedWords.jc (off : BitVec 10) : EncodedWords.Statement (.jc off) :=
  of_one rfl (isExtWord_wordJ (by decide) _)

theorem EncodedWords.jn (off : BitVec 10) : EncodedWords.Statement (.jn off) :=
  of_one rfl (isExtWord_wordJ (by decide) _)

theorem EncodedWords.jge (off : BitVec 10) : EncodedWords.Statement (.jge off) :=
  of_one rfl (isExtWord_wordJ (by decide) _)

theorem EncodedWords.jl (off : BitVec 10) : EncodedWords.Statement (.jl off) :=
  of_one rfl (isExtWord_wordJ (by decide) _)

theorem EncodedWords.jmp (off : BitVec 10) : EncodedWords.Statement (.jmp off) :=
  of_one rfl (isExtWord_wordJ (by decide) _)

theorem EncodedWords.movaInd (s d : RegNum) : EncodedWords.Statement (.movaInd s d) :=
  of_one rfl (isExtWord_wordA (by decide) (by omega) (by omega))

theorem EncodedWords.movaInc (s d : RegNum) : EncodedWords.Statement (.movaInc s d) :=
  of_one rfl (isExtWord_wordA (by decide) (by omega) (by omega))

theorem EncodedWords.movaAbs (hi : BitVec 4) (d : RegNum) : EncodedWords.Statement (.movaAbs hi d) :=
  of_one rfl (isExtWord_wordA (by decide) (by omega) (by omega))

theorem EncodedWords.movaIdx (s d : RegNum) : EncodedWords.Statement (.movaIdx s d) :=
  of_one rfl (isExtWord_wordA (by decide) (by omega) (by omega))

theorem EncodedWords.movaToAbs (s : RegNum) (hi : BitVec 4) : EncodedWords.Statement (.movaToAbs s hi) :=
  of_one rfl (isExtWord_wordA (by decide) (by omega) (by omega))

theorem EncodedWords.movaToIdx (s d : RegNum) : EncodedWords.Statement (.movaToIdx s d) :=
  of_one rfl (isExtWord_wordA (by decide) (by omega) (by omega))

theorem EncodedWords.movaImm (hi : BitVec 4) (d : RegNum) : EncodedWords.Statement (.movaImm hi d) :=
  of_one rfl (isExtWord_wordA (by decide) (by omega) (by omega))

theorem EncodedWords.movaReg (s d : RegNum) : EncodedWords.Statement (.movaReg s d) :=
  of_one rfl (isExtWord_wordA (by decide) (by omega) (by omega))

theorem EncodedWords.cmpaImm (hi : BitVec 4) (d : RegNum) : EncodedWords.Statement (.cmpaImm hi d) :=
  of_one rfl (isExtWord_wordA (by decide) (by omega) (by omega))

theorem EncodedWords.cmpaReg (s d : RegNum) : EncodedWords.Statement (.cmpaReg s d) :=
  of_one rfl (isExtWord_wordA (by decide) (by omega) (by omega))

theorem EncodedWords.addaImm (hi : BitVec 4) (d : RegNum) : EncodedWords.Statement (.addaImm hi d) :=
  of_one rfl (isExtWord_wordA (by decide) (by omega) (by omega))

theorem EncodedWords.addaReg (s d : RegNum) : EncodedWords.Statement (.addaReg s d) :=
  of_one rfl (isExtWord_wordA (by decide) (by omega) (by omega))

theorem EncodedWords.subaImm (hi : BitVec 4) (d : RegNum) : EncodedWords.Statement (.subaImm hi d) :=
  of_one rfl (isExtWord_wordA (by decide) (by omega) (by omega))

theorem EncodedWords.subaReg (s d : RegNum) : EncodedWords.Statement (.subaReg s d) :=
  of_one rfl (isExtWord_wordA (by decide) (by omega) (by omega))

theorem EncodedWords.reservedMovaPcInc (d : RegNum) : EncodedWords.Statement (.reservedMovaPcInc d) :=
  of_one rfl (isExtWord_wordA (by decide) (by omega) (by omega))

theorem EncodedWords.rrcmA (n : BitVec 2) (d : RegNum) : EncodedWords.Statement (.rrcmA n d) :=
  of_one rfl (isExtWord_wordRot _ (by decide) (by decide) _)

theorem EncodedWords.rrcmW (n : BitVec 2) (d : RegNum) : EncodedWords.Statement (.rrcmW n d) :=
  of_one rfl (isExtWord_wordRot _ (by decide) (by decide) _)

theorem EncodedWords.rramA (n : BitVec 2) (d : RegNum) : EncodedWords.Statement (.rramA n d) :=
  of_one rfl (isExtWord_wordRot _ (by decide) (by decide) _)

theorem EncodedWords.rramW (n : BitVec 2) (d : RegNum) : EncodedWords.Statement (.rramW n d) :=
  of_one rfl (isExtWord_wordRot _ (by decide) (by decide) _)

theorem EncodedWords.rlamA (n : BitVec 2) (d : RegNum) : EncodedWords.Statement (.rlamA n d) :=
  of_one rfl (isExtWord_wordRot _ (by decide) (by decide) _)

theorem EncodedWords.rlamW (n : BitVec 2) (d : RegNum) : EncodedWords.Statement (.rlamW n d) :=
  of_one rfl (isExtWord_wordRot _ (by decide) (by decide) _)

theorem EncodedWords.rrumA (n : BitVec 2) (d : RegNum) : EncodedWords.Statement (.rrumA n d) :=
  of_one rfl (isExtWord_wordRot _ (by decide) (by decide) _)

theorem EncodedWords.rrumW (n : BitVec 2) (d : RegNum) : EncodedWords.Statement (.rrumW n d) :=
  of_one rfl (isExtWord_wordRot _ (by decide) (by decide) _)

theorem EncodedWords.reti (ignored : BitVec 4) : EncodedWords.Statement (.reti ignored) :=
  of_one rfl (isExtWord_wordC (by decide) (by omega))

theorem EncodedWords.callaReg (d : RegNum) : EncodedWords.Statement (.callaReg d) :=
  of_one rfl (isExtWord_wordC (by decide) (by omega))

theorem EncodedWords.callaIdx (d : RegNum) : EncodedWords.Statement (.callaIdx d) :=
  of_one rfl (isExtWord_wordC (by decide) (by omega))

theorem EncodedWords.callaInd (d : RegNum) : EncodedWords.Statement (.callaInd d) :=
  of_one rfl (isExtWord_wordC (by decide) (by omega))

theorem EncodedWords.callaInc (d : RegNum) : EncodedWords.Statement (.callaInc d) :=
  of_one rfl (isExtWord_wordC (by decide) (by omega))

theorem EncodedWords.callaAbs (hi : BitVec 4) : EncodedWords.Statement (.callaAbs hi) :=
  of_one rfl (isExtWord_wordC (by decide) (by omega))

theorem EncodedWords.callaSym (hi : BitVec 4) : EncodedWords.Statement (.callaSym hi) :=
  of_one rfl (isExtWord_wordC (by decide) (by omega))

theorem EncodedWords.callaImm (hi : BitVec 4) : EncodedWords.Statement (.callaImm hi) :=
  of_one rfl (isExtWord_wordC (by decide) (by omega))

theorem EncodedWords.reservedCallaPcInc : EncodedWords.Statement (.reservedCallaPcInc) :=
  of_one rfl (isExtWord_wordC (by decide) (by omega))

theorem EncodedWords.reservedMinor131 (lo : BitVec 4) : EncodedWords.Statement (.reservedMinor131 lo) :=
  of_one rfl (isExtWord_rawWord (by omega))

theorem EncodedWords.reservedMinor132 (lo : BitVec 4) : EncodedWords.Statement (.reservedMinor132 lo) :=
  of_one rfl (isExtWord_rawWord (by omega))

theorem EncodedWords.reservedMinor133 (lo : BitVec 4) : EncodedWords.Statement (.reservedMinor133 lo) :=
  of_one rfl (isExtWord_rawWord (by omega))

theorem EncodedWords.reservedMinor13A (lo : BitVec 4) : EncodedWords.Statement (.reservedMinor13A lo) :=
  of_one rfl (isExtWord_rawWord (by omega))

theorem EncodedWords.reservedMinor13C (lo : BitVec 6) : EncodedWords.Statement (.reservedMinor13C lo) :=
  of_one rfl (isExtWord_rawWord (by omega))

theorem EncodedWords.pushmA (n : BitVec 4) (d : RegNum) : EncodedWords.Statement (.pushmA n d) :=
  of_one rfl (isExtWord_wordP (by decide) _ _)

theorem EncodedWords.pushmW (n : BitVec 4) (d : RegNum) : EncodedWords.Statement (.pushmW n d) :=
  of_one rfl (isExtWord_wordP (by decide) _ _)

theorem EncodedWords.popmA (n : BitVec 4) (d : RegNum) : EncodedWords.Statement (.popmA n d) :=
  of_one rfl (isExtWord_wordP (by decide) _ _)

theorem EncodedWords.popmW (n : BitVec 4) (d : RegNum) : EncodedWords.Statement (.popmW n d) :=
  of_one rfl (isExtWord_wordP (by decide) _ _)

end Sys2Proof.Laws
end

