-- ==== Sys2Proof/Tests/Slice0.lean ====
section
/-! SUPPORT. The model's own tests: ill-formed terms, one decoded word for each instruction, single steps with the results
of spec/95_test_vectors.md, and for each statement with hypotheses a state and operands that meet them. -/

namespace Sys2Proof.Tests

open Sys2Proof Sys2Proof.Machine

/-! ## Helpers -/

/-- The reset state with the words at 0x4400 and the program counter there. -/
def code (ws : List Word) : State := { State.reset.setPc 0x4400 with mem := Memory.writeWords [] 0x4400 ws }

/-- Registers set. -/
def regs (l : List (RegNum × Slot)) (s : State) : State := l.foldl (fun s p => s.setReg p.1 p.2) s

/-- The low `n` bytes of `v` placed at `a`. -/
def bytes (a n v : Nat) (s : State) : State := { s with mem := s.mem.writeLE a v n }

/-- One step gives a next state of which the test holds. -/
def after (s : State) (p : State → Bool) : Bool :=
  match step s with
  | .next t => p t
  | _ => false

/-- The four flags. -/
def flags (t : State) (c z n v : Bool) : Bool := t.flagC == c && t.flagZ == z && t.flagN == n && t.flagV == v

/-- The number of the fault taken. -/
def tagOf (t : State) : Option Nat := t.halted.map (fun h => h.cause.tag)

/-! ## Ill-formed terms, one for each check of `Instr.wf` -/

theorem test_wf_source_register_three : (Instr.mov .word (.reg 3) (.reg 5)).wf = false := rfl
theorem test_wf_source_indexed : (Instr.mov .word (.indexed 0) (.reg 5)).wf = false ∧
    (Instr.mov .word (.indexed 2) (.reg 5)).wf = false ∧ (Instr.mov .word (.indexed 3) (.reg 5)).wf = false :=
  ⟨rfl, rfl, rfl⟩
theorem test_wf_source_indirect : (Instr.add .word (.indirect 2) (.reg 5)).wf = false ∧
    (Instr.add .word (.indirect 3) (.reg 5)).wf = false := ⟨rfl, rfl⟩
theorem test_wf_source_autoinc : (Instr.rra .word (.autoinc 0)).wf = false ∧ (Instr.rra .word (.autoinc 2)).wf = false ∧
    (Instr.rra .word (.autoinc 3)).wf = false := ⟨rfl, rfl, rfl⟩
theorem test_wf_destination_register_three : (Instr.sub .byte (.reg 4) (.reg 3)).wf = false := rfl
theorem test_wf_destination_indexed : (Instr.xor .word (.reg 4) (.indexed 0)).wf = false ∧
    (Instr.xor .word (.reg 4) (.indexed 2)).wf = false ∧ (Instr.xor .word (.reg 4) (.indexed 3)).wf = false :=
  ⟨rfl, rfl, rfl⟩
theorem test_wf_memory_form_for_registers : (Instr.movxA (.memForm 0 0 0) (.reg 4) (.reg 5)).wf = false ∧
    (Instr.rrcxW (.memForm 0 0 0) (.reg 4)).wf = false := ⟨rfl, rfl⟩
theorem test_wf_register_form_for_memory : (Instr.movxA (.regForm 0 false false 0 0) (.reg 4) .absolute).wf = false ∧
    (Instr.rrcxW (.regForm 0 false false 0 0) (.indirect 4)).wf = false := ⟨rfl, rfl⟩
theorem test_wf_mova_pc_autoinc : (Instr.movaInc 0 5).wf = false := rfl
theorem test_wf_calla_pc_autoinc : (Instr.callaInc 0).wf = false := rfl
theorem test_wf_pushm_below_r0 : (Instr.pushmA 1 0).wf = false ∧ (Instr.pushmW 4 3).wf = false := ⟨rfl, rfl⟩
theorem test_wf_popm_above_r15 : (Instr.popmA 1 15).wf = false ∧ (Instr.popmW 15 4).wf = false := ⟨rfl, rfl⟩
theorem test_wf_popm_of_r1 : (Instr.popmA 0 1).wf = false ∧ (Instr.popmW 1 0).wf = false := ⟨rfl, rfl⟩

/-! ## Decoding: each instruction from a word written out from the opcode table's match and the field places of
spec/30_encoding.md -/

theorem test_decode_formatI :
    decode [0x47D6] = .ok (.mov .byte (.indexed 7) (.indexed 6), []) ∧
    decode [0x5090] = .ok (.add .word (.symbolic) (.symbolic), []) ∧
    decode [0x62D2] = .ok (.addc .byte (.absolute) (.absolute), []) ∧
    decode [0x7923] = .ok (.subc .word (.indirect 9) (.constZero), []) ∧
    decode [0x8AF3] = .ok (.sub .byte (.autoinc 10) (.constOne), []) ∧
    decode [0x903F] = .ok (.cmp .word (.immediate) (.reg 15), []) ∧
    decode [0xA345] = .ok (.dadd .byte (.const .zero) (.reg 5), []) ∧
    decode [0xB396] = .ok (.bit .word (.const .one) (.indexed 6), []) ∧
    decode [0xC3E0] = .ok (.bic .byte (.const .two) (.symbolic), []) ∧
    decode [0xD3B2] = .ok (.bis .word (.const .minusOne) (.absolute), []) ∧
    decode [0xE263] = .ok (.xor .byte (.const .four) (.constZero), []) ∧
    decode [0xF2B3] = .ok (.and .word (.const .eight) (.constOne), []) :=
  ⟨rfl, rfl, rfl, rfl, rfl, rfl, rfl, rfl, rfl, rfl, rfl, rfl⟩

theorem test_decode_extI_A :
    decode [0x1B0D, 0x444F] = .ok (.movxA (.regForm 1 true false 0 13) (.reg 4) (.reg 15), []) ∧
    decode [0x1A93, 0x59E6] = .ok (.addxA (.memForm 5 1 3) (.indirect 9) (.indexed 6), []) ∧
    decode [0x1C9F, 0x63D2] = .ok (.addcxA (.memForm 9 1 15) (.const .one) (.absolute), []) ∧
    decode [0x1E9B, 0x72F3] = .ok (.subcxA (.memForm 13 1 11) (.const .eight) (.constOne), []) ∧
    decode [0x1897, 0x8255] = .ok (.subxA (.memForm 1 1 7) (.absolute) (.reg 5), []) ∧
    decode [0x1A93, 0x93C0] = .ok (.cmpxA (.memForm 5 1 3) (.const .zero) (.symbolic), []) ∧
    decode [0x1C9F, 0xA263] = .ok (.daddxA (.memForm 9 1 15) (.const .four) (.constZero), []) ∧
    decode [0x1E9B, 0xB05F] = .ok (.bitxA (.memForm 13 1 11) (.symbolic) (.reg 15), []) ∧
    decode [0x1897, 0xC0F6] = .ok (.bicxA (.memForm 1 1 7) (.immediate) (.indexed 6), []) ∧
    decode [0x1A93, 0xD3F2] = .ok (.bisxA (.memForm 5 1 3) (.const .minusOne) (.absolute), []) ∧
    decode [0x1C9F, 0xE7D3] = .ok (.xorxA (.memForm 9 1 15) (.indexed 7) (.constOne), []) ∧
    decode [0x1E9B, 0xFA75] = .ok (.andxA (.memForm 13 1 11) (.autoinc 10) (.reg 5), []) :=
  ⟨rfl, rfl, rfl, rfl, rfl, rfl, rfl, rfl, rfl, rfl, rfl, rfl⟩

theorem test_decode_extI_W :
    decode [0x1B6A, 0x4715] = .ok (.movxW (.memForm 6 2 10) (.indexed 7) (.reg 5), []) ∧
    decode [0x1D66, 0x5AB0] = .ok (.addxW (.memForm 10 2 6) (.autoinc 10) (.symbolic), []) ∧
    decode [0x1F62, 0x6323] = .ok (.addcxW (.memForm 14 2 2) (.const .two) (.constZero), []) ∧
    decode [0x1CCA, 0x740F] = .ok (.subcxW (.regForm 2 false true 0 10) (.reg 4) (.reg 15), []) ∧
    decode [0x1B6A, 0x89A6] = .ok (.subxW (.memForm 6 2 10) (.indirect 9) (.indexed 6), []) ∧
    decode [0x1D66, 0x9392] = .ok (.cmpxW (.memForm 10 2 6) (.const .one) (.absolute), []) ∧
    decode [0x1F62, 0xA2B3] = .ok (.daddxW (.memForm 14 2 2) (.const .eight) (.constOne), []) ∧
    decode [0x196E, 0xB215] = .ok (.bitxW (.memForm 2 2 14) (.absolute) (.reg 5), []) ∧
    decode [0x1B6A, 0xC380] = .ok (.bicxW (.memForm 6 2 10) (.const .zero) (.symbolic), []) ∧
    decode [0x1D66, 0xD223] = .ok (.bisxW (.memForm 10 2 6) (.const .four) (.constZero), []) ∧
    decode [0x1F62, 0xE01F] = .ok (.xorxW (.memForm 14 2 2) (.symbolic) (.reg 15), []) ∧
    decode [0x196E, 0xF0B6] = .ok (.andxW (.memForm 2 2 14) (.immediate) (.indexed 6), []) :=
  ⟨rfl, rfl, rfl, rfl, rfl, rfl, rfl, rfl, rfl, rfl, rfl, rfl⟩

theorem test_decode_extI_B :
    decode [0x1DFD, 0x4055] = .ok (.movxB (.memForm 11 3 13) (.symbolic) (.reg 5), []) ∧
    decode [0x1FF9, 0x50F0] = .ok (.addxB (.memForm 15 3 9) (.immediate) (.symbolic), []) ∧
    decode [0x19F5, 0x6373] = .ok (.addcxB (.memForm 3 3 5) (.const .minusOne) (.constZero), []) ∧
    decode [0x1BF1, 0x775F] = .ok (.subcxB (.memForm 7 3 1) (.indexed 7) (.reg 15), []) ∧
    decode [0x1DFD, 0x8AF6] = .ok (.subxB (.memForm 11 3 13) (.autoinc 10) (.indexed 6), []) ∧
    decode [0x1FF9, 0x93E2] = .ok (.cmpxB (.memForm 15 3 9) (.const .two) (.absolute), []) ∧
    decode [0x19F5, 0xA4C3] = .ok (.daddxB (.memForm 3 3 5) (.reg 4) (.constOne), []) ∧
    decode [0x1BF1, 0xB965] = .ok (.bitxB (.memForm 7 3 1) (.indirect 9) (.reg 5), []) ∧
    decode [0x1DFD, 0xC3D0] = .ok (.bicxB (.memForm 11 3 13) (.const .one) (.symbolic), []) ∧
    decode [0x1FF9, 0xD273] = .ok (.bisxB (.memForm 15 3 9) (.const .eight) (.constZero), []) ∧
    decode [0x19F5, 0xE25F] = .ok (.xorxB (.memForm 3 3 5) (.absolute) (.reg 15), []) ∧
    decode [0x1BF1, 0xF3C6] = .ok (.andxB (.memForm 7 3 1) (.const .zero) (.indexed 6), []) :=
  ⟨rfl, rfl, rfl, rfl, rfl, rfl, rfl, rfl, rfl, rfl, rfl, rfl⟩

theorem test_decode_extI_reserved :
    decode [0x1800, 0x4296] = .ok (.reservedMovx (.memForm 0 0 0) (.absolute) (.indexed 6), []) ∧
    decode [0x1A0C, 0x5382] = .ok (.reservedAddx (.memForm 4 0 12) (.const .zero) (.absolute), []) ∧
    decode [0x1C08, 0x62A3] = .ok (.reservedAddcx (.memForm 8 0 8) (.const .four) (.constOne), []) ∧
    decode [0x1E04, 0x7015] = .ok (.reservedSubcx (.memForm 12 0 4) (.symbolic) (.reg 5), []) ∧
    decode [0x1800, 0x80B0] = .ok (.reservedSubx (.memForm 0 0 0) (.immediate) (.symbolic), []) ∧
    decode [0x1A0C, 0x9333] = .ok (.reservedCmpx (.memForm 4 0 12) (.const .minusOne) (.constZero), []) ∧
    decode [0x1C08, 0xA71F] = .ok (.reservedDaddx (.memForm 8 0 8) (.indexed 7) (.reg 15), []) ∧
    decode [0x1E04, 0xBAB6] = .ok (.reservedBitx (.memForm 12 0 4) (.autoinc 10) (.indexed 6), []) ∧
    decode [0x1800, 0xC3A2] = .ok (.reservedBicx (.memForm 0 0 0) (.const .two) (.absolute), []) ∧
    decode [0x1A0C, 0xD483] = .ok (.reservedBisx (.memForm 4 0 12) (.reg 4) (.constOne), []) ∧
    decode [0x1C08, 0xE925] = .ok (.reservedXorx (.memForm 8 0 8) (.indirect 9) (.reg 5), []) ∧
    decode [0x1E04, 0xF390] = .ok (.reservedAndx (.memForm 12 0 4) (.const .one) (.symbolic), []) :=
  ⟨rfl, rfl, rfl, rfl, rfl, rfl, rfl, rfl, rfl, rfl, rfl, rfl⟩

theorem test_decode_formatII :
    decode [0x1063] = .ok (.rrc .byte (.const .two), []) ∧
    decode [0x10B3] = .ok (.swpb (.const .minusOne), []) ∧
    decode [0x10E2] = .ok (.swpbB (.const .four), []) ∧
    decode [0x1132] = .ok (.rra .word (.const .eight), []) ∧
    decode [0x1184] = .ok (.sxt (.reg 4), []) ∧
    decode [0x11D7] = .ok (.sxtB (.indexed 7), []) ∧
    decode [0x1250] = .ok (.push .byte (.symbolic), []) ∧
    decode [0x1292] = .ok (.call .word (.absolute), []) :=
  ⟨rfl, rfl, rfl, rfl, rfl, rfl, rfl, rfl⟩

theorem test_decode_extII :
    decode [0x1C9F, 0x1072] = .ok (.rrcxA (.memForm 9 1 15) (.const .eight), []) ∧
    decode [0x1F62, 0x1010] = .ok (.rrcxW (.memForm 14 2 2) (.symbolic), []) ∧
    decode [0x19F5, 0x107A] = .ok (.rrcxB (.memForm 3 3 5) (.autoinc 10), []) ∧
    decode [0x1C08, 0x1013] = .ok (.reservedRrcx (.memForm 8 0 8) (.const .one), []) ∧
    decode [0x1E9B, 0x10E2] = .ok (.swpbxA (.memForm 13 1 11) (.const .four), []) ∧
    decode [0x196E, 0x1097] = .ok (.swpbxW (.memForm 2 2 14) (.indexed 7), []) ∧
    decode [0x1BF1, 0x10E9] = .ok (.swpbxB (.memForm 7 3 1) (.indirect 9), []) ∧
    decode [0x181C, 0x1083] = .ok (.reservedSwpbx (.regForm 0 false false 1 12) (.const .zero), []) ∧
    decode [0x1897, 0x1173] = .ok (.rraxA (.memForm 1 1 7) (.const .minusOne), []) ∧
    decode [0x1CEE, 0x1104] = .ok (.rraxW (.regForm 2 false true 2 14) (.reg 4), []) ∧
    decode [0x1DFD, 0x1152] = .ok (.rraxB (.memForm 11 3 13) (.absolute), []) ∧
    decode [0x1800, 0x1130] = .ok (.reservedRrax (.memForm 0 0 0) (.immediate), []) ∧
    decode [0x1A93, 0x11E3] = .ok (.sxtxA (.memForm 5 1 3) (.const .two), []) ∧
    decode [0x1D66, 0x11B2] = .ok (.sxtxW (.memForm 10 2 6) (.const .eight), []) ∧
    decode [0x1FF9, 0x11D0] = .ok (.sxtxB (.memForm 15 3 9) (.symbolic), []) ∧
    decode [0x1A0C, 0x11BA] = .ok (.reservedSxtx (.memForm 4 0 12) (.autoinc 10), []) ∧
    decode [0x1C9F, 0x1253] = .ok (.pushxA (.memForm 9 1 15) (.const .one), []) ∧
    decode [0x1F62, 0x1222] = .ok (.pushxW (.memForm 14 2 2) (.const .four), []) ∧
    decode [0x19F5, 0x1257] = .ok (.pushxB (.memForm 3 3 5) (.indexed 7), []) ∧
    decode [0x1C08, 0x1229] = .ok (.reservedPushx (.memForm 8 0 8) (.indirect 9), []) ∧
    decode [0x1B19, 0x12C3] = .ok (.callxA (.regForm 1 true false 1 9) (.const .zero), []) ∧
    decode [0x196E, 0x12B3] = .ok (.callxW (.memForm 2 2 14) (.const .minusOne), []) ∧
    decode [0x1FEB, 0x12C4] = .ok (.callxB (.regForm 3 true true 2 11) (.reg 4), []) ∧
    decode [0x1E04, 0x1292] = .ok (.reservedCallx (.memForm 12 0 4) (.absolute), []) :=
  ⟨rfl, rfl, rfl, rfl, rfl, rfl, rfl, rfl, rfl, rfl, rfl, rfl, rfl, rfl, rfl, rfl, rfl, rfl, rfl, rfl, rfl, rfl, rfl, rfl⟩

theorem test_decode_prefixed :
    decode [0x1BE1, 0x05F1] = .ok (.reservedPrefixAddr 993 1521, []) ∧
    decode [0x1D36, 0x1396] = .ok (.reservedPrefixCalla 1334 150, []) ∧
    decode [0x1E8B, 0x173B] = .ok (.reservedPrefixPushm 1675 827, []) ∧
    decode [0x1FE0, 0x1DE0] = .ok (.reservedPrefixPrefix 2016 1504, []) ∧
    decode [0x1935, 0x2085] = .ok (.reservedPrefixJump 309 133, []) :=
  ⟨rfl, rfl, rfl, rfl, rfl⟩

theorem test_decode_jumps :
    decode [0x2046] = .ok (.jnz 70, []) ∧
    decode [0x24D9] = .ok (.jz 217, []) ∧
    decode [0x296C] = .ok (.jnc 364, []) ∧
    decode [0x2DFF] = .ok (.jc 511, []) ∧
    decode [0x3292] = .ok (.jn 658, []) ∧
    decode [0x3725] = .ok (.jge 805, []) ∧
    decode [0x3BB8] = .ok (.jl 952, []) ∧
    decode [0x3C4B] = .ok (.jmp 75, []) :=
  ⟨rfl, rfl, rfl, rfl, rfl, rfl, rfl, rfl⟩

theorem test_decode_addressGroup :
    decode [0x0808] = .ok (.movaInd 8 8, []) ∧
    decode [0x0911] = .ok (.movaInc 9 1, []) ∧
    decode [0x0A28] = .ok (.movaAbs 10 8, []) ∧
    decode [0x0B31] = .ok (.movaIdx 11 1, []) ∧
    decode [0x0C68] = .ok (.movaToAbs 12 8, []) ∧
    decode [0x0D71] = .ok (.movaToIdx 13 1, []) ∧
    decode [0x0E88] = .ok (.movaImm 14 8, []) ∧
    decode [0x01C1] = .ok (.movaReg 1 1, []) ∧
    decode [0x0298] = .ok (.cmpaImm 2 8, []) ∧
    decode [0x03D1] = .ok (.cmpaReg 3 1, []) ∧
    decode [0x04A8] = .ok (.addaImm 4 8, []) ∧
    decode [0x05E1] = .ok (.addaReg 5 1, []) ∧
    decode [0x06B8] = .ok (.subaImm 6 8, []) ∧
    decode [0x07F1] = .ok (.subaReg 7 1, []) ∧
    decode [0x0018] = .ok (.reservedMovaPcInc 8, []) :=
  ⟨rfl, rfl, rfl, rfl, rfl, rfl, rfl, rfl, rfl, rfl, rfl, rfl, rfl, rfl, rfl⟩

theorem test_decode_rotates :
    decode [0x084A] = .ok (.rrcmA 2 10, []) ∧
    decode [0x0C5F] = .ok (.rrcmW 3 15, []) ∧
    decode [0x0144] = .ok (.rramA 0 4, []) ∧
    decode [0x0559] = .ok (.rramW 1 9, []) ∧
    decode [0x0A4E] = .ok (.rlamA 2 14, []) ∧
    decode [0x0E53] = .ok (.rlamW 3 3, []) ∧
    decode [0x0348] = .ok (.rrumA 0 8, []) ∧
    decode [0x075D] = .ok (.rrumW 1 13, []) :=
  ⟨rfl, rfl, rfl, rfl, rfl, rfl, rfl, rfl⟩

theorem test_decode_calla :
    decode [0x1301] = .ok (.reti 1, []) ∧
    decode [0x1344] = .ok (.callaReg 4, []) ∧
    decode [0x1357] = .ok (.callaIdx 7, []) ∧
    decode [0x136A] = .ok (.callaInd 10, []) ∧
    decode [0x137D] = .ok (.callaInc 13, []) ∧
    decode [0x1381] = .ok (.callaAbs 1, []) ∧
    decode [0x1394] = .ok (.callaSym 4, []) ∧
    decode [0x13B7] = .ok (.callaImm 7, []) ∧
    decode [0x1370] = .ok (.reservedCallaPcInc, []) ∧
    decode [0x131D] = .ok (.reservedMinor131 13, []) ∧
    decode [0x1321] = .ok (.reservedMinor132 1, []) ∧
    decode [0x1334] = .ok (.reservedMinor133 4, []) ∧
    decode [0x13A7] = .ok (.reservedMinor13A 7, []) ∧
    decode [0x13EE] = .ok (.reservedMinor13C 46, []) :=
  ⟨rfl, rfl, rfl, rfl, rfl, rfl, rfl, rfl, rfl, rfl, rfl, rfl, rfl, rfl⟩

theorem test_decode_pushPop :
    decode [0x144A] = .ok (.pushmA 4 10, []) ∧
    decode [0x1515] = .ok (.pushmW 1 5, []) ∧
    decode [0x1646] = .ok (.popmA 4 6, []) ∧
    decode [0x17B4] = .ok (.popmW 11 4, []) :=
  ⟨rfl, rfl, rfl, rfl⟩

theorem test_decode_refuses_illegal_ranges :
    decode [0x1410] = .error .reservedOpcode ∧ decode [0x15FE] = .error .reservedOpcode ∧
    decode [0x161F] = .error .reservedOpcode ∧ decode [0x1601] = .error .reservedOpcode ∧
    decode [0x1710] = .error .reservedOpcode := ⟨rfl, rfl, rfl, rfl, rfl⟩

/-- A prefix with no word after it, and no word at all, are refused by name. -/
theorem test_decode_refuses_truncated : decode [] = .error .truncated ∧ decode [0x1800] = .error .truncated := ⟨rfl, rfl⟩

/-- The opcode table writes an extended instruction with its extension word on top (log entry 11). -/
theorem test_decode_table_words :
    decodeTableWord 16 0x4405 = some (.mov .word (.reg 4) (.reg 5)) ∧
    decodeTableWord 32 0x18004445 = some (.movxA (.regForm 0 false false 0 0) (.reg 4) (.reg 5)) := ⟨rfl, rfl⟩

/-! ## One step, results of spec/95_test_vectors.md -/

theorem test_mov_constant_minus_one : after (code [0x4335])
    (fun t => t.reg 5 == 0xFFFF && t.pc == 0x4402) = true := by decide

theorem test_mov_byte_clears_above : after (regs [(4, 0x1234), (5, 0xFFFFF)] (code [0x4445]))
    (fun t => t.reg 5 == 0x34) = true := by decide

theorem test_movxA_20_bits : after (regs [(4, 0x12345), (5, 0x3)] (code [0x1800, 0x4445]))
    (fun t => t.reg 5 == 0x12345 && t.pc == 0x4404) = true := by decide

theorem test_movxA_to_high_address : after (code [0x1882, 0x40F2, 0x2345, 0x3000])
    (fun t => t.mem.readLE 0x23000 4 == 0x12345 && t.pc == 0x4408) = true := by decide

theorem test_add_overflow : after (regs [(4, 0x1), (5, 0x7FFF)] (code [0x5405]))
    (fun t => t.reg 5 == 0x8000 && flags t false false true true) = true := by decide

theorem test_add_byte_carry : after (regs [(4, 0x80), (5, 0x80)] (code [0x5445]))
    (fun t => t.reg 5 == 0x0 && flags t true true false true) = true := by decide

theorem test_addxA_carry : after (regs [(4, 0x80000), (5, 0x80000)] (code [0x1800, 0x5445]))
    (fun t => t.reg 5 == 0x0 && flags t true true false true) = true := by decide

theorem test_addc_carry_in : after (regs [(2, 0x1), (4, 0x0), (5, 0xFFFF)] (code [0x6405]))
    (fun t => t.reg 5 == 0x0 && flags t true true false false) = true := by decide

theorem test_subc_without_carry : after (regs [(4, 0x3), (5, 0x3)] (code [0x7405]))
    (fun t => t.reg 5 == 0xFFFF && flags t true false true false) = true := by decide

theorem test_sub_borrow : after (regs [(4, 0x5), (5, 0x3)] (code [0x8405]))
    (fun t => t.reg 5 == 0xFFFE && flags t false false true false) = true := by decide

theorem test_sub_overflow : after (regs [(4, 0x1), (5, 0x8000)] (code [0x8405]))
    (fun t => t.reg 5 == 0x7FFF && flags t true false false true) = true := by decide

theorem test_cmp_keeps_destination : after (regs [(4, 0x3), (5, 0x2)] (code [0x9405]))
    (fun t => t.reg 5 == 0x2 && flags t false false true false) = true := by decide

theorem test_dadd_carry_between_digits : after (regs [(4, 0x1), (5, 0x99)] (code [0xA405]))
    (fun t => t.reg 5 == 0x100) = true := by decide

/-- C, Z and N of 1 + 9999; V is a draw (R179, R186). -/
theorem test_dadd_flags : (daddOp .word false 1 0x9999).flags = .writeDrawV true true false 1 0x9999 := by decide

theorem test_daddxA_carry_out : after (regs [(4, 0x1), (5, 0x99999)] (code [0x1800, 0xA445]))
    (fun t => t.reg 5 == 0x0) = true := by decide

theorem test_bit_keeps_destination : after (regs [(4, 0xF0), (5, 0xF0F)] (code [0xB405]))
    (fun t => t.reg 5 == 0xF0F && flags t false true false false) = true := by decide

theorem test_bic_no_flags : after (regs [(2, 0x5), (4, 0xFF), (5, 0x1234)] (code [0xC405]))
    (fun t => t.reg 5 == 0x1200 && t.reg 2 == 0x5) = true := by decide

theorem test_bis_no_flags : after (regs [(4, 0xF), (5, 0x1230)] (code [0xD405]))
    (fun t => t.reg 5 == 0x123F && t.reg 2 == 0x0) = true := by decide

theorem test_xor_two_negatives_set_v : after (regs [(4, 0x8000), (5, 0x8001)] (code [0xE405]))
    (fun t => t.reg 5 == 0x1 && flags t true false false true) = true := by decide

theorem test_and_carry_is_not_zero : after (regs [(4, 0x8000), (5, 0x8001)] (code [0xF405]))
    (fun t => t.reg 5 == 0x8000 && flags t true false true false) = true := by decide

theorem test_add_to_memory : after (bytes 0x2004 1 0x9 (regs [(4, 0x1), (5, 0x2000)] (code [0x5485, 0x0004])))
    (fun t => t.mem.readLE 0x2004 2 == 0xA && t.pc == 0x4404) = true := by decide

theorem test_mov_autoincrement_before_destination : after (bytes 0x2000 2 0x1111 (regs [(5, 0x2000)] (code [0x45B5, 0x0000])))
    (fun t => t.reg 5 == 0x2002 && t.mem.readLE 0x2002 2 == 0x1111) = true := by decide

theorem test_movx_clear_leaves_next_byte : after (bytes 0x24 1 0x5 (bytes 0x20 4 0x4030201 (regs [(1, 0x20)] (code [0x1800, 0x43C1, 0x0000]))))
    (fun t => t.mem.readLE 0x20 4 == 0x0 && t.mem.readLE 0x24 1 == 0x5 && t.pc == 0x4406) = true := by decide

theorem test_jl_taken : after (regs [(2, 0x100)] (code [0x3805]))
    (fun t => t.pc == 0x440C) = true := by decide

theorem test_jl_not_taken : after (regs [(2, 0x104)] (code [0x3805]))
    (fun t => t.pc == 0x4402) = true := by decide

theorem test_jmp_back_wraps : after (code [0x3E00])
    (fun t => t.pc == 0x4002) = true := by decide

theorem test_jnc_taken : after (code [0x2805])
    (fun t => t.pc == 0x440C) = true := by decide

theorem test_mova_indirect : after (bytes 0x2000 4 0x12345678 (regs [(4, 0x2000)] (code [0x0405])))
    (fun t => t.reg 5 == 0x45678) = true := by decide

theorem test_mova_autoincrement : after (bytes 0x2000 4 0x12345678 (regs [(4, 0x2000)] (code [0x0415])))
    (fun t => t.reg 5 == 0x45678 && t.reg 4 == 0x2004) = true := by decide

theorem test_mova_absolute : after (bytes 0x12000 4 0xF0001 (code [0x0125, 0x2000]))
    (fun t => t.reg 5 == 0xF0001 && t.pc == 0x4404) = true := by decide

theorem test_mova_indexed : after (bytes 0x2004 4 0x5000 (regs [(4, 0x2000)] (code [0x0435, 0x0004])))
    (fun t => t.reg 5 == 0x5000) = true := by decide

theorem test_mova_to_absolute : after (regs [(4, 0x12345)] (code [0x0461, 0x2000]))
    (fun t => t.mem.readLE 0x12000 4 == 0x12345) = true := by decide

theorem test_mova_to_indexed : after (regs [(4, 0x12345), (5, 0x2000)] (code [0x0475, 0x0002]))
    (fun t => t.mem.readLE 0x2002 4 == 0x12345) = true := by decide

theorem test_mova_register : after (regs [(4, 0x4D2)] (code [0x04C5]))
    (fun t => t.reg 5 == 0x4D2 && t.reg 4 == 0x4D2 && t.pc == 0x4402) = true := by decide

theorem test_rrcmA : after (regs [(2, 0x1), (5, 0x1)] (code [0x0045]))
    (fun t => t.reg 5 == 0x80000 && flags t true false true false) = true := by decide

theorem test_rramA_four : after (regs [(5, 0x80000)] (code [0x0D45]))
    (fun t => t.reg 5 == 0xF8000 && flags t false false true false) = true := by decide

theorem test_rlamW_two : after (regs [(5, 0x4001)] (code [0x0655]))
    (fun t => t.reg 5 == 0x4) = true := by decide

theorem test_rlamW_flags : (shiftOutDraw .word 0x4001 2 (shiftN (rla1 .word) 2 0x4001 false)).flags =
    .writeDrawV true false false 0x4001 2 := by decide

theorem test_rrumA_three : after (regs [(5, 0x8000F)] (code [0x0B45]))
    (fun t => t.reg 5 == 0x10001 && flags t true false false false) = true := by decide

theorem test_cmpa_immediate : after (regs [(5, 0x12345)] (code [0x0195, 0x2345]))
    (fun t => t.reg 5 == 0x12345 && flags t true true false false && t.pc == 0x4404) = true := by decide

theorem test_adda_register : after (regs [(4, 0x80000), (5, 0x80000)] (code [0x04E5]))
    (fun t => t.reg 5 == 0x0 && flags t true true false true) = true := by decide

theorem test_suba_immediate : after (regs [(1, 0x20)] (code [0x00B1, 0x000E]))
    (fun t => t.reg 1 == 0x12 && flags t true false false false) = true := by decide

theorem test_calla_register : after (regs [(1, 0x2400), (5, 0x12000)] (code [0x1345]))
    (fun t => t.reg 1 == 0x23FC && t.mem.readLE 0x23FC 4 == 0x4402 && t.pc == 0x12000) = true := by decide

theorem test_calla_indexed : after (bytes 0x2004 4 0x5000 (regs [(1, 0x2400), (5, 0x2000)] (code [0x1355, 0x0004])))
    (fun t => t.mem.readLE 0x23FC 4 == 0x4404 && t.pc == 0x5000) = true := by decide

theorem test_calla_indirect : after (bytes 0x2000 4 0x15000 (regs [(1, 0x2400), (5, 0x2000)] (code [0x1365])))
    (fun t => t.pc == 0x15000) = true := by decide

theorem test_calla_autoincrement : after (bytes 0x2000 4 0x5000 (regs [(1, 0x2400), (5, 0x2000)] (code [0x1375])))
    (fun t => t.reg 5 == 0x2004 && t.reg 1 == 0x23FC && t.pc == 0x5000) = true := by decide

theorem test_calla_absolute : after (bytes 0x12000 4 0x4400 (regs [(1, 0x2400)] (code [0x1381, 0x2000])))
    (fun t => t.mem.readLE 0x23FC 4 == 0x4404 && t.pc == 0x4400) = true := by decide

theorem test_calla_symbolic : after (bytes 0x4412 4 0x6000 (regs [(1, 0x2400)] (code [0x1390, 0x0010])))
    (fun t => t.pc == 0x6000) = true := by decide

theorem test_calla_stack_out_of_range : after (regs [(1, 0x1)] (code [0x13B0, 0x4420]))
    (fun t => t.reg 1 == 0x1 && tagOf t == some 3) = true := by decide

theorem test_pushmA_five : after (regs [(1, 0x2400), (6, 0x6), (7, 0x7), (8, 0x8), (9, 0x9), (10, 0xA)] (code [0x144A]))
    (fun t => t.reg 1 == 0x23EC && t.mem.readLE 0x23EC 4 == 0x6 && t.mem.readLE 0x23FC 4 == 0xA && t.pc == 0x4402) = true := by decide

theorem test_pushmW_of_sp : after (regs [(1, 0x2400)] (code [0x1501]))
    (fun t => t.reg 1 == 0x23FE && t.mem.readLE 0x23FE 2 == 0x2400) = true := by decide

theorem test_popmW_two : after (bytes 0x23FC 4 0x22221111 (regs [(1, 0x23FC)] (code [0x1714])))
    (fun t => t.reg 4 == 0x1111 && t.reg 5 == 0x2222 && t.reg 1 == 0x2400) = true := by decide

theorem test_popmA_pc : after (bytes 0x23FC 4 0x4410 (regs [(1, 0x23FC)] (code [0x1600])))
    (fun t => t.reg 1 == 0x2400 && t.pc == 0x4410) = true := by decide

theorem test_rrc : after (regs [(2, 0x1), (5, 0x1)] (code [0x1005]))
    (fun t => t.reg 5 == 0x8000 && flags t true false true false) = true := by decide

theorem test_rrcx_zero_carry : after (regs [(2, 0x1), (5, 0x80001)] (code [0x1900, 0x1045]))
    (fun t => t.reg 5 == 0x40000 && flags t true false false false) = true := by decide

theorem test_rra_autoincrement_writes_old_address : after (bytes 0x2000 1 0x4 (regs [(5, 0x2000)] (code [0x1135])))
    (fun t => t.reg 5 == 0x2002 && t.mem.readLE 0x2000 2 == 0x2) = true := by decide

theorem test_swpb : after (regs [(5, 0x1234)] (code [0x1085]))
    (fun t => t.reg 5 == 0x3412) = true := by decide

theorem test_sxt_negative : after (regs [(5, 0x80)] (code [0x1185]))
    (fun t => t.reg 5 == 0xFF80 && flags t true false true false) = true := by decide

theorem test_repetition_starts : after (regs [(4, 0x100)] (code [0x1803, 0x1144]))
    (fun t => t.reg 4 == 0x80 && t.pc == 0x4400) = true := by decide

theorem test_reti_unimplemented : after (code [0x1305])
    (fun t => t.pc == 0x4400 && tagOf t == some 2) = true := by decide

theorem test_push_unimplemented : after (code [0x1205])
    (fun t => tagOf t == some 2) = true := by decide

theorem test_swpb_byte_unimplemented : after (code [0x10C5])
    (fun t => tagOf t == some 2) = true := by decide

theorem test_reserved_minor : after (code [0x13A5])
    (fun t => tagOf t == some 1) = true := by decide

theorem test_reserved_width : after (code [0x1800, 0x4405])
    (fun t => tagOf t == some 1) = true := by decide

theorem test_repeated_write_of_pc : after (code [0x1801, 0x4440])
    (fun t => tagOf t == some 1) = true := by decide

theorem test_prefix_prefix : after (code [0x1800, 0x1800])
    (fun t => tagOf t == some 1) = true := by decide

theorem test_fault_keeps_autoincrement_back : after (bytes 0x2000 2 0x1234 (regs [(4, 0x2000)] (code [0x184F, 0x44B2, 0xFFFF])))
    (fun t => t.reg 4 == 0x2000 && tagOf t == some 3) = true := by decide

/-- The decoder's record of `ADD.B @R9+, 4(R6)` (R46, R112 to R114, R130, R131): the byte at R9 and the one at R6 + 4,
with the index word fetched in between. -/
theorem test_record_of_add :
    instrRecord [0x59F6] (bytes 0x2104 1 0x7E (bytes 0x2000 1 0x5A (regs [(6, 0x2100), (9, 0x2000)] (code [0x59F6, 4])))) =
      .ok ⟨0x59, 0, some 1, false, 0, false, [0x59F6],
        some ⟨some 0x5A, some 0x2000, some 9, .indirectAutoincrement, .byte, true, false⟩,
        some ⟨some 0x7E, some 0x2104, some 6, .indexed, .byte, true, false⟩⟩ := by decide

/-- The source of a record: a constant (R141), and the worked words of R240 and R280. -/
theorem test_record_sources :
    let source := fun ws => (instrRecord (ws.take 1) (code ws)).toOption.bind (fun r => r.source)
    source [0x4335] = some ⟨some 0xFFFF, none, some 3, .immediate, .word, true, true⟩ ∧
    source [0x00B1, 0x000E] = some ⟨some 0xE, none, none, .immediate, .ext, true, false⟩ ∧
    source [0x144A] = some ⟨some 4, none, none, .immediate, .ext, true, false⟩ := by decide

/-! ## A state and operands for the hypotheses of each statement, at the ends of their ranges -/

/-- Parameters under which the watchdog claims 0x120 to 0x123, port 1 claims every address, with word accesses only. -/
def devices : Params :=
  { Params.reset with
    wdt := ⟨[⟨0x120, 0x123⟩], false, true, false⟩
    ports := Vector.ofFn (fun k => if k = 0 then ⟨[⟨0, 0x3FFF⟩], false, true, false⟩ else .absent) }

/-- The reset state with those devices. -/
def withDevices : State := { State.reset with params := devices }

/-- A repetition field of 1, and one of 15. -/
def once : Ext := .regForm 0 false false 0 1
def most : Ext := .regForm 3 true false 3 15
/-- An extension word without repetition, and one for operands in memory. -/
def plain : Ext := .regForm 0 false false 0 0
def high : Ext := .memForm 1 0 2

theorem witness_DecodeOfEncode : (Instr.movaReg 0 15).wf = true ∧ (Instr.pushmA 15 15).wf = true ∧
    (Instr.popmA 0 0).wf = true ∧ (Instr.popmW 13 2).wf = true ∧ (Instr.rrcxB high .symbolic).wf = true :=
  ⟨rfl, rfl, rfl, rfl, rfl⟩

theorem witness_EncodeOfDecode : decode [0x1800, 0x43C1, 7] = .ok (.movxA (.memForm 0 0 0) (.const .zero) (.indexed 1), [7]) ∧
    decode [0xFFFF, 7] = .ok (.and .byte (.autoinc 15) (.indexed 15), [7]) := ⟨rfl, rfl⟩

theorem witness_DecoderTotal : decode [0x1411, 7] = .ok (.pushmA 1 1, [7]) ∧ decode [0x1410, 7] = .error .reservedOpcode ∧
    decode [0x161E, 7] = .ok (.popmA 1 14, [7]) ∧ decode [0x161F, 7] = .error .reservedOpcode ∧
    decode [0x1602, 7] = .ok (.popmA 0 2, [7]) ∧ decode [0x1601, 7] = .error .reservedOpcode :=
  ⟨rfl, rfl, rfl, rfl, rfl, rfl⟩

/-- One word for each clause on core words, and both forms of the extension word. -/
theorem witness_FieldsSelectInstruction :
    (0xFFFF : Word).toNat / 4096 = 15 ∧ (0x12BF : Word).toNat / 128 = 32 + 5 ∧ (0x3FFF : Word).toNat / 1024 = 8 + 7 ∧
    (0x0FFF : Word).toNat / 16 % 16 = 0xF ∧ (0x0F5F : Word).toNat / 256 % 4 = 3 ∧ (0x13BF : Word).toNat / 16 = 0x13B ∧
    (0x13C0 ≤ (0x13FF : Word).toNat ∧ (0x13FF : Word).toNat < 0x1400) ∧
    (0x15FF : Word).toNat / 16 % 16 ≤ (0x15FF : Word).toNat % 16 ∧
    (0x17D2 : Word).toNat % 16 + (0x17D2 : Word).toNat / 16 % 16 ≤ 15 ∧ (0x1600 : Word).toNat % 256 = 0 ∧
    (0x1800 : Word).toNat / 2048 = 3 ∧ (0x1FFF : Word).toNat / 2048 = 3 := by decide

theorem witness_StepRunsTheDecoded :
    ((code [0x4405]).running ∧ (Instr.mov .word (.reg 4) (.reg 5)).wf = true ∧
      (code [0x4405]).holdsWords (code [0x4405]).pc (encode (.mov .word (.reg 4) (.reg 5)))) ∧
    (let s := (bytes 0 2 0x4445 (bytes 0xFFFFE 2 0x1800 State.reset)).setPc 0xFFFFE;
      s.running ∧ (Instr.movxA plain (.reg 4) (.reg 5)).wf = true ∧
        s.holdsWords s.pc (encode (.movxA plain (.reg 4) (.reg 5)))) :=
  ⟨⟨rfl, rfl, by decide, by decide, by decide, trivial⟩,
    ⟨rfl, rfl, by decide, by decide, by decide, by decide, by decide, by decide, trivial⟩⟩

theorem witness_HaltedRunsNoCycle : ∃ h, (State.reset.takeFault (.unsupportedAccessWidth 3)).halted = some h := ⟨_, rfl⟩

theorem witness_RunningStepCompletes : (code [0x1310]).running := rfl

theorem witness_FaultsArePrecise : ∃ t, (code [0x1310]).running ∧ step (code [0x1310]) = .next t ∧ t.halted ≠ none :=
  ⟨_, rfl, rfl, by decide⟩

/-- The last byte of memory; a core word, and an operand's word, that would begin there; and the last word in memory. -/
theorem witness_FetchOutOfRange :
    (let s := State.reset.setPc 0xFFFFF;
      s.running ∧ resolve s.params s.pc = .memory ∧ Config.memSize < s.pc.toNat + 2) ∧
    (let s := (bytes 0xFFFFD 2 0x1840 State.reset).setPc 0xFFFFD;
      resolve s.params (low20 (s.pc + 2)) = .memory ∧ Config.memSize < (low20 (s.pc + 2)).toNat + 2 ∧ s.running ∧
        s.holdsWords s.pc [0x1840]) ∧
    (let s := State.reset.setPc 0xFFFFE;
      (resolve s.params s.pc = .memory ∧ s.pc.toNat + 2 ≤ Config.memSize) ∧ ∃ t, fetchNext s = .ok (0, t)) :=
  ⟨⟨rfl, rfl, by decide⟩, ⟨rfl, by decide, rfl, by decide, by decide, by decide, trivial⟩, ⟨rfl, by decide⟩, _, rfl⟩

theorem witness_ReservedWordsHalt :
    (∀ c ∈ ([0x0000, 0x0FFF, 0x1300, 0x3FFF] : List Word), (code [0x1FFF, c]).running ∧
      (code [0x1FFF, c]).holdsWords (code [0x1FFF, c]).pc [0x1FFF, c]) ∧
    ∀ w ∈ ([0x1410, 0x15FE, 0x161F, 0x1710] : List Word), (code [w]).running ∧
      (code [w]).holdsWords (code [w]).pc [w] := by
  refine ⟨fun c hc => ⟨rfl, ?_⟩, fun w hw => ⟨rfl, ?_⟩⟩
  · fin_cases hc <;> exact ⟨by decide, by decide, by decide, by decide, by decide, by decide, trivial⟩
  · fin_cases hw <;> exact ⟨by decide, by decide, by decide, trivial⟩

/-- An operand that resolves, one that does not, and a repeated instruction. -/
theorem witness_UnimplementedRowsHalt :
    (∃ o u, resolveSrc .byte none (.reg 4) State.reset = .ok (o, u)) ∧
    (∃ c, resolveSrc .word none (.indirect 4) (regs [(4, 0xFFFFF)] State.reset) = .error c) ∧
    0 < count (some once) State.reset ∧ count (some plain) State.reset = 0 ∧
    (∃ o u, resolveSrc .ext (extDstHi plain) (.reg 4) (operandState (some plain) State.reset) = .ok (o, u)) ∧
    (∃ c, resolveSrc .word (extDstHi high) (.indirect 4) (operandState (some high) (regs [(4, 0xFFFFF)] State.reset)) =
      .error c) :=
  ⟨⟨_, _, rfl⟩, ⟨_, rfl⟩, by decide, rfl, ⟨_, _, rfl⟩, ⟨_, rfl⟩⟩

/-- Counts of 1, of 15, and one taken from a register. -/
theorem witness_RepeatedPcReserved : 0 < count (some once) State.reset ∧ 0 < count (some most) State.reset ∧
    0 < count (some (.regForm 0 false true 0 5)) (regs [(5, 0xFFFF1)] State.reset) := by decide

theorem witness_FirstOperandFaultIsTaken :
    (∃ c, resolveSrc .word none (.indirect 4) (regs [(4, 0xFFFFF)] State.reset) = .error c) ∧
    (∃ a s1 c, resolveSrc .word none (.reg 5) (regs [(4, 0xFFFFF)] State.reset) = .ok (a, s1) ∧
      resolveDst .word none true (.indexed 4) s1 = .error c) ∧
    (∃ a s1 b s2, resolveSrc .word none (.reg 5) (regs [(4, 0xFFFFF)] State.reset) = .ok (a, s1) ∧
      resolveDst .word none false (.indexed 4) s1 = .ok (b, s2) ∧ b.place = .mem 0xFFFFF) ∧
    ¬ accepts (regs [(4, 0xFFFFF)] State.reset) 0xFFFFF 2 ∧ ¬ accepts withDevices 0x120 1 :=
  ⟨⟨_, rfl⟩, ⟨_, _, _, rfl, rfl⟩, ⟨_, _, _, _, rfl, rfl, rfl⟩, by
    show ¬ ((0xFFFFF : Slot).toNat + 2 ≤ Config.memSize)
    decide, by
    show ¬ ((⟨[⟨0x120, 0x123⟩], false, true, false⟩ : DeviceParams).implements 1 = true)
    decide⟩

/-- The same after an extension word. -/
theorem witness_FirstOperandFaultIsTaken_extended :
    count (some plain) (regs [(4, 0xFFFFF)] State.reset) = 0 ∧
    (∃ c, resolveSrc .ext (extSrcHi high) (.indirect 4) (operandState (some high) (regs [(4, 0xFFFFF)] State.reset)) =
      .error c) ∧
    (∃ a s1 c, resolveSrc .ext (extSrcHi high) (.reg 5) (operandState (some high) (regs [(4, 0xFFFFF)] State.reset)) =
      .ok (a, s1) ∧ resolveDst .ext (some 0) true (.indexed 4) s1 = .error c) ∧
    ∃ a s1 b s2, resolveSrc .ext (extSrcHi high) (.reg 5) (operandState (some high) (regs [(4, 0xFFFFF)] State.reset)) =
      .ok (a, s1) ∧ resolveDst .ext (some 0) false (.indexed 4) s1 = .ok (b, s2) ∧ b.place = .mem 0xFFFFF ∧
      (0xFFFFF : Slot).toNat + nb .ext > Config.memSize :=
  ⟨rfl, ⟨_, rfl⟩, ⟨_, _, _, rfl, rfl⟩, _, _, _, _, rfl, rfl, rfl, by decide⟩

/-- A write that a device does not take. -/
theorem refused_by_device : ¬ accepts withDevices 0x120 1 ∧ ¬ accepts withDevices 0x120 4 := by
  constructor
  · show ¬ ((⟨[⟨0x120, 0x123⟩], false, true, false⟩ : DeviceParams).implements 1 = true)
    decide
  · show ¬ ((⟨[⟨0x120, 0x123⟩], false, true, false⟩ : DeviceParams).implements 4 = true)
    decide

/-- Operands out of range and addresses refused, the low half of a CALLA and the second slot of a PUSHM among them. -/
theorem witness_FirstFaultOfOtherGroups :
    let s := regs [(1, 2), (4, 0xFFFFD)] State.reset;
    (∃ c, resolveSrc .word none (.indirect 5) (regs [(5, 0xFFFFF)] s) = .error c) ∧ (∃ c, readInd 4 s = .error c) ∧
    (∃ c, readAt (fetchIndexed 4) s = .error c) ∧ (∃ c, fetchHigh 3 (s.setPc 0xFFFFD) = .error c) ∧
    (∃ u, fetchIndexed 4 s = .ok (0xFFFFD, u)) ∧ (Instr.callaReg 5).wf = true ∧
    (∃ v u, readReg 5 (s.setReg 1 1) = .ok (v, u)) ∧
    callSlots 1 none (s.setReg 1 1) = [] ++ (0xFFFFF, 0) :: [(0xFFFFD, 2)] ∧
    callSlots 1 none (s.setReg 1 2) = [(0, 0)] ++ (0xFFFFE, 2) :: [] ∧ ¬ accepts withDevices 0x120 4 ∧
    (Instr.pushmA 1 5).wf = true ∧ pushSlots 4 2 (pushValues .ext 1 5 s) = [] ++ (0xFFFFE, 0) :: [(0xFFFFA, 0xFFFFD)] ∧
    (Instr.popmA 1 5).wf = true ∧ ∃ c, readSlots .ext 2 0xFFFFA s = .error c :=
  ⟨⟨_, rfl⟩, ⟨_, rfl⟩, ⟨_, rfl⟩, ⟨_, rfl⟩, ⟨_, rfl⟩, rfl, ⟨_, _, rfl⟩, by decide, by decide, refused_by_device.2, rfl,
    by decide, rfl, _, rfl⟩

/-- A well-kept state at an instruction, and one with fifteen executions of a repetition still to run. -/
theorem witness_InvKept :
    ((code [0x4405]).Inv ∧ ∃ t, step (code [0x4405]) = .next t) ∧
    (let s := { code [0x180F, 0x1144] with rep := ⟨15, some 0x4400⟩ };
      s.Inv ∧ ∃ t, step s = .next t) := by
  have narrow : ∀ r : RegNum, ((code [0x4405]).reg r).toNat < 2 ^ Config.addrBits := by decide
  have narrow' : ∀ r : RegNum, ((code [0x180F, 0x1144]).reg r).toNat < 2 ^ Config.addrBits := by decide
  refine ⟨⟨⟨narrow, by decide, ?_⟩, _, rfl⟩, ⟨⟨narrow', by decide, ?_⟩, _, rfl⟩⟩
  · exact ⟨by decide, by decide, by decide⟩
  · exact ⟨by decide, by decide, by decide⟩

/-- An image with both bytes of the vector and one byte twice, an image without, and one outside memory. -/
theorem witness_StartLoadsVector :
    Memory.wf [(0x200, 9)] ∧ resolve Params.reset 0xFFFE = .memory ∧ resolve Params.reset 0xFFFF = .memory ∧
    (∃ s, start [(0x200, 1), (0xFFFE, 0x00), (0xFFFF, 0x44), (0x200, 2)] Params.reset
      ⟨Vector.replicate 16 7, [(0x200, 9)]⟩ = .started s ∧ s.pc = 0x4400 ∧ s.mem.get 0x200 = 2) ∧
    start [(0xFFFF, 0x44)] Params.reset ⟨Vector.replicate 16 7, []⟩ = .romLoadFailure ∧
    start [(0x100000, 0x44)] Params.reset ⟨Vector.replicate 16 7, []⟩ =
      .loadFault (.addressOutOfRange 0x100000 1 .write) :=
  ⟨by decide, rfl, rfl, ⟨_, rfl, by decide, by decide⟩, by decide, by decide⟩

/-- A step that answers a next state: of ParametersFixed, SlotThreeKept and DeviceWritesStay. -/
theorem witness_next_state : ∃ t, step (code [0x4403]) = .next t := ⟨_, rfl⟩

theorem witness_PreserveKeepsControlBits :
    let s := { code [0x4302] with params := { Params.reset with srCtlWrite := .preserve } };
    s.params.srCtlWrite = .preserve ∧ ∃ t, step s = .next t := ⟨rfl, _, rfl⟩

/-- Two executions left, and one. -/
theorem witness_RepetitionGovernsPc :
    (let s := { State.reset with rep := ⟨2, some 0⟩ };
      s.running ∧ 1 < s.rep.left ∧ ∃ t, exec (.jmp 5) s = .next t ∧ t.running) ∧
    (let s := { State.reset with rep := ⟨1, some 0⟩ };
      s.running ∧ s.rep.left = 1 ∧ (Instr.jmp 5).wf = true ∧ ∃ t, exec (.jmp 5) s = .next t ∧ t.running) :=
  ⟨⟨rfl, by decide, _, rfl, rfl⟩, ⟨rfl, rfl, rfl, _, rfl, rfl⟩⟩

/-- A core word, an extension word in the register form whose count is in a register, and one in the other form. -/
theorem witness_RecordHoldsFields : (∃ r, instrRecord [0x00B1] State.reset = .ok r) ∧
    (∃ r, instrRecord [0x1985, 0x1144] (regs [(5, 0xFFFFF)] State.reset) = .ok r ∧ r.repetition = 15 ∧ r.zc = true) ∧
    ∃ r, instrRecord [0x1FFF, 0x43F1] State.reset = .ok r ∧ r.repetition = 0 ∧ r.zc = false :=
  ⟨⟨_, rfl⟩, ⟨_, rfl, rfl, rfl⟩, _, rfl, rfl, rfl⟩

/-- Two operands in memory, before and after an extension word, and one of each fixed mode. -/
theorem witness_RecordHoldsOperands :
    (Instr.add .byte (.autoinc 9) (.indexed 6)).wf = true ∧
    (∃ a s1 b s2, resolveSrc .byte none (.autoinc 9) State.reset = .ok (a, s1) ∧
      resolveDst .byte none true (.indexed 6) s1 = .ok (b, s2)) ∧
    (Instr.movxA high (.autoinc 9) .symbolic).wf = true ∧ count (some high) State.reset = 0 ∧
    (∃ a s1 b s2, resolveSrc .ext (extSrcHi high) (.autoinc 9) (operandState (some high) State.reset) = .ok (a, s1) ∧
      resolveDst .ext (extDstHi high) false .symbolic s1 = .ok (b, s2)) ∧
    (Instr.movaInc 15 0).wf = true ∧ (∃ v u, readInd 15 State.reset = .ok (v, u)) ∧
    (∃ v u, readAt (fetchSymbolic 15) State.reset = .ok (v, u)) ∧ (∃ v u, fetchHigh 15 State.reset = .ok (v, u)) ∧
    (∃ a u, fetchIndexed 4 State.reset = .ok (a, u)) ∧ (Instr.pushmW 15 15).wf = true ∧ (Instr.popmA 13 2).wf = true ∧
    ∃ v u, readCount 15 State.reset = .ok (v, u) :=
  ⟨rfl, ⟨_, _, _, _, rfl, rfl⟩, rfl, rfl, ⟨_, _, _, _, rfl, rfl⟩, rfl, ⟨_, _, rfl⟩, ⟨_, _, rfl⟩, ⟨_, _, rfl⟩,
    ⟨_, _, rfl⟩, rfl, rfl, _, _, rfl⟩

/-- The ends of a range, an address two devices claim, and one none claims. -/
theorem witness_RoutingFirstWins : resolve devices 0x120 = .watchdog ∧ resolve devices 0x123 = .watchdog ∧
    resolve devices 0x124 = .port 0 ∧ resolve devices 0x3FFF = .port 0 ∧ resolve devices 0x4000 = .memory ∧
    withDevices.params = devices ∧ Config.memSize ≤ (0x100000 : Slot).toNat ∧ resolve devices 0x100000 = .memory := by decide

theorem witness_ReadAfterWrite :
    (Memory.wf State.reset.mem ∧ (0xFFFFE : Slot).toNat + 2 ≤ Config.memSize ∧
      resolve State.reset.params 0xFFFFE = .memory ∧ resolve State.reset.params (0xFFFFE + 1) = .memory ∧
      (0xABCD : Slot).toNat < 2 ^ 16 ∧ ∃ t, busWrite State.reset 0xFFFFE 2 0xABCD = .ok t) ∧
    ((0xFFFFC : Slot).toNat + 4 ≤ Config.memSize ∧ resolve State.reset.params 0xFFFFC = .memory ∧
      resolve State.reset.params (0xFFFFC + 1) = .memory ∧ resolve State.reset.params (0xFFFFC + 2) = .memory ∧
      resolve State.reset.params (0xFFFFC + 3) = .memory ∧ ∃ t, busWrite State.reset 0xFFFFC 4 0x89ABCDEF = .ok t) :=
  ⟨⟨by decide, by decide, rfl, rfl, by decide, _, rfl⟩, ⟨by decide, rfl, rfl, rfl, rfl, _, rfl⟩⟩

/-- The last byte of memory, and an access that leaves it. -/
theorem witness_MemoryAccess : Memory.wf State.reset.mem ∧ resolve State.reset.params 0xFFFFF = .memory ∧
    (0xFFFFF : Slot).toNat + 1 ≤ Config.memSize ∧ 0x100000 < (0xFFFFF : Slot).toNat + 2 ∧
    0x100000 < (0xFFFFD : Slot).toNat + 4 := by decide

/-- A device that implements words only: of DeviceAccess and StartAddressDecides. -/
theorem witness_DeviceAccess : resolve withDevices.params 0x3FFF ≠ .memory ∧
    (withDevices.params.device (resolve withDevices.params 0x3FFF)).implements 1 = false ∧
    (withDevices.params.device (resolve withDevices.params 0x3FFF)).implements 2 = true ∧
    (∃ x t, busRead withDevices 0x3FFF 2 .read = .ok (x, t)) ∧ ∃ t, busWrite withDevices 0x3FFF 2 5 = .ok t :=
  ⟨by decide, by decide, by decide, ⟨_, _, rfl⟩, _, rfl⟩

/-- Widths just outside the three. -/
theorem witness_OtherWidthsFault : (0 ≠ 1 ∧ 0 ≠ 2 ∧ 0 ≠ 4) ∧ (3 ≠ 1 ∧ 3 ≠ 2 ∧ 3 ≠ 4) ∧ (5 ≠ 1 ∧ 5 ≠ 2 ∧ 5 ≠ 4) := by decide

theorem witness_WriteRegMasks : ((0 : RegNum) ≠ 2 ∧ (0 : RegNum) ≠ 3) ∧ ((15 : RegNum) ≠ 2 ∧ (15 : RegNum) ≠ 3) := by decide

/-- Each mode's read at an offset whose sign bit is set. -/
theorem witness_SourceModes :
    let s := code [0x4405, 0x8000];
    (∃ v u, busRead s (s.base 5) (nb .ext) .read = .ok (v, u)) ∧
    ∃ s1, fetchNext s = .ok (0x8000, s1) ∧ (∃ v u, busRead s1 (slotOf 0x8000) (nb .ext) .read = .ok (v, u)) ∧
      (∃ v u, busRead s1 (slotOf 0xFC402) (nb .ext) .read = .ok (v, u)) ∧
      ∃ v u, busRead s1 (slotOf 0xF8000) (nb .ext) .read = .ok (v, u) :=
  ⟨⟨_, _, rfl⟩, _, rfl, ⟨_, _, rfl⟩, ⟨_, _, rfl⟩, _, _, rfl⟩

theorem witness_DestinationModes : ∃ w s1 o u, fetchNext State.reset = .ok (w, s1) ∧
    resolveDst .ext (some 15) true .absolute State.reset = .ok (o, u) := ⟨_, _, _, _, rfl, rfl⟩

/-! ### Formats I and II -/

/-- The hypotheses of `RunsI`. -/
def MeetsI (i : Instr) (ws : Size) (x : Option Ext) (src : Src) (dst : Dst) (reads stores : Bool) (s : State) : Prop :=
  i.wf = true ∧ s.mem.wf ∧ ∃ a s1 b s2, resolveSrc ws (x.bind extSrcHi) src (operandState x s) = .ok (a, s1) ∧
    resolveDst ws (x.bind extDstHi) reads dst s1 = .ok (b, s2) ∧ (stores = true → b.place.writable ws s) ∧
    (0 < count x s → dst ≠ .reg 0)

/-- Two registers meet them, whatever the instruction and the extension word. -/
theorem meetsI_registers {i : Instr} (h : i.wf = true) (ws : Size) (x : Option Ext) (reads stores : Bool) :
    MeetsI i ws x (.reg 4) (.reg 5) reads stores State.reset :=
  ⟨h, by decide, _, _, _, _, rfl, rfl, fun _ => trivial, fun _ => by decide⟩

/-- Two operands in memory meet them. -/
theorem meetsI_memory {i : Instr} (h : i.wf = true) (ws : Size) (x : Option Ext) (hx : x = none ∨ x = some high)
    (reads stores : Bool) : MeetsI i ws x (.autoinc 4) .absolute reads stores State.reset := by
  refine ⟨h, by decide, ?_⟩
  rcases hx with rfl | rfl <;> cases ws <;> cases reads
  all_goals
    refine ⟨_, _, _, _, rfl, rfl, fun _ => ?_, fun _ => by decide⟩
    simp only [Place.writable]
    exact of_decide_eq_true (p := (_ : Nat) + _ ≤ Config.memSize) rfl

theorem witness_MoveCopies :
    MeetsI (.mov .word (.autoinc 4) .absolute) .word none (.autoinc 4) .absolute false true State.reset ∧
    MeetsI (.movxA high (.autoinc 4) .absolute) .ext (some high) (.autoinc 4) .absolute false true State.reset ∧
    MeetsI (.movxW most (.reg 4) (.reg 5)) .word (some most) (.reg 4) (.reg 5) false true State.reset ∧
    MeetsI (.movxB plain (.reg 4) (.reg 5)) .byte (some plain) (.reg 4) (.reg 5) false true State.reset :=
  ⟨meetsI_memory rfl _ _ (.inl rfl) .., meetsI_memory rfl _ _ (.inr rfl) ..,
    meetsI_registers rfl .., meetsI_registers rfl ..⟩

theorem witness_AddResultAndFlags :
    MeetsI (.add .word (.autoinc 4) .absolute) .word none (.autoinc 4) .absolute true true State.reset ∧
    MeetsI (.addxA high (.autoinc 4) .absolute) .ext (some high) (.autoinc 4) .absolute true true State.reset ∧
    MeetsI (.addxW most (.reg 4) (.reg 5)) .word (some most) (.reg 4) (.reg 5) true true State.reset ∧
    MeetsI (.addxB plain (.reg 4) (.reg 5)) .byte (some plain) (.reg 4) (.reg 5) true true State.reset ∧
    MeetsI (.addc .word (.autoinc 4) .absolute) .word none (.autoinc 4) .absolute true true State.reset ∧
    MeetsI (.addcxA high (.autoinc 4) .absolute) .ext (some high) (.autoinc 4) .absolute true true State.reset ∧
    MeetsI (.addcxW most (.reg 4) (.reg 5)) .word (some most) (.reg 4) (.reg 5) true true State.reset ∧
    MeetsI (.addcxB plain (.reg 4) (.reg 5)) .byte (some plain) (.reg 4) (.reg 5) true true State.reset :=
  ⟨meetsI_memory rfl _ _ (.inl rfl) .., meetsI_memory rfl _ _ (.inr rfl) ..,
    meetsI_registers rfl .., meetsI_registers rfl ..,
    meetsI_memory rfl _ _ (.inl rfl) .., meetsI_memory rfl _ _ (.inr rfl) ..,
    meetsI_registers rfl .., meetsI_registers rfl ..⟩

theorem witness_SubtractResultAndFlags :
    MeetsI (.sub .word (.autoinc 4) .absolute) .word none (.autoinc 4) .absolute true true State.reset ∧
    MeetsI (.subxA high (.autoinc 4) .absolute) .ext (some high) (.autoinc 4) .absolute true true State.reset ∧
    MeetsI (.subxW most (.reg 4) (.reg 5)) .word (some most) (.reg 4) (.reg 5) true true State.reset ∧
    MeetsI (.subxB plain (.reg 4) (.reg 5)) .byte (some plain) (.reg 4) (.reg 5) true true State.reset ∧
    MeetsI (.subc .word (.autoinc 4) .absolute) .word none (.autoinc 4) .absolute true true State.reset ∧
    MeetsI (.subcxA high (.autoinc 4) .absolute) .ext (some high) (.autoinc 4) .absolute true true State.reset ∧
    MeetsI (.subcxW most (.reg 4) (.reg 5)) .word (some most) (.reg 4) (.reg 5) true true State.reset ∧
    MeetsI (.subcxB plain (.reg 4) (.reg 5)) .byte (some plain) (.reg 4) (.reg 5) true true State.reset ∧
    MeetsI (.cmp .word (.autoinc 4) .absolute) .word none (.autoinc 4) .absolute true false State.reset ∧
    MeetsI (.cmpxA high (.autoinc 4) .absolute) .ext (some high) (.autoinc 4) .absolute true false State.reset ∧
    MeetsI (.cmpxW most (.reg 4) (.reg 5)) .word (some most) (.reg 4) (.reg 5) true false State.reset ∧
    MeetsI (.cmpxB plain (.reg 4) (.reg 5)) .byte (some plain) (.reg 4) (.reg 5) true false State.reset :=
  ⟨meetsI_memory rfl _ _ (.inl rfl) .., meetsI_memory rfl _ _ (.inr rfl) ..,
    meetsI_registers rfl .., meetsI_registers rfl ..,
    meetsI_memory rfl _ _ (.inl rfl) .., meetsI_memory rfl _ _ (.inr rfl) ..,
    meetsI_registers rfl .., meetsI_registers rfl ..,
    meetsI_memory rfl _ _ (.inl rfl) .., meetsI_memory rfl _ _ (.inr rfl) ..,
    meetsI_registers rfl .., meetsI_registers rfl ..⟩

theorem witness_LogicalResultAndFlags :
    MeetsI (.and .word (.autoinc 4) .absolute) .word none (.autoinc 4) .absolute true true State.reset ∧
    MeetsI (.andxA high (.autoinc 4) .absolute) .ext (some high) (.autoinc 4) .absolute true true State.reset ∧
    MeetsI (.andxW most (.reg 4) (.reg 5)) .word (some most) (.reg 4) (.reg 5) true true State.reset ∧
    MeetsI (.andxB plain (.reg 4) (.reg 5)) .byte (some plain) (.reg 4) (.reg 5) true true State.reset ∧
    MeetsI (.bit .word (.autoinc 4) .absolute) .word none (.autoinc 4) .absolute true false State.reset ∧
    MeetsI (.bitxA high (.autoinc 4) .absolute) .ext (some high) (.autoinc 4) .absolute true false State.reset ∧
    MeetsI (.bitxW most (.reg 4) (.reg 5)) .word (some most) (.reg 4) (.reg 5) true false State.reset ∧
    MeetsI (.bitxB plain (.reg 4) (.reg 5)) .byte (some plain) (.reg 4) (.reg 5) true false State.reset ∧
    MeetsI (.xor .word (.autoinc 4) .absolute) .word none (.autoinc 4) .absolute true true State.reset ∧
    MeetsI (.xorxA high (.autoinc 4) .absolute) .ext (some high) (.autoinc 4) .absolute true true State.reset ∧
    MeetsI (.xorxW most (.reg 4) (.reg 5)) .word (some most) (.reg 4) (.reg 5) true true State.reset ∧
    MeetsI (.xorxB plain (.reg 4) (.reg 5)) .byte (some plain) (.reg 4) (.reg 5) true true State.reset :=
  ⟨meetsI_memory rfl _ _ (.inl rfl) .., meetsI_memory rfl _ _ (.inr rfl) ..,
    meetsI_registers rfl .., meetsI_registers rfl ..,
    meetsI_memory rfl _ _ (.inl rfl) .., meetsI_memory rfl _ _ (.inr rfl) ..,
    meetsI_registers rfl .., meetsI_registers rfl ..,
    meetsI_memory rfl _ _ (.inl rfl) .., meetsI_memory rfl _ _ (.inr rfl) ..,
    meetsI_registers rfl .., meetsI_registers rfl ..⟩

theorem witness_ClearAndSetBits :
    MeetsI (.bic .word (.autoinc 4) .absolute) .word none (.autoinc 4) .absolute true true State.reset ∧
    MeetsI (.bicxA high (.autoinc 4) .absolute) .ext (some high) (.autoinc 4) .absolute true true State.reset ∧
    MeetsI (.bicxW most (.reg 4) (.reg 5)) .word (some most) (.reg 4) (.reg 5) true true State.reset ∧
    MeetsI (.bicxB plain (.reg 4) (.reg 5)) .byte (some plain) (.reg 4) (.reg 5) true true State.reset ∧
    MeetsI (.bis .word (.autoinc 4) .absolute) .word none (.autoinc 4) .absolute true true State.reset ∧
    MeetsI (.bisxA high (.autoinc 4) .absolute) .ext (some high) (.autoinc 4) .absolute true true State.reset ∧
    MeetsI (.bisxW most (.reg 4) (.reg 5)) .word (some most) (.reg 4) (.reg 5) true true State.reset ∧
    MeetsI (.bisxB plain (.reg 4) (.reg 5)) .byte (some plain) (.reg 4) (.reg 5) true true State.reset :=
  ⟨meetsI_memory rfl _ _ (.inl rfl) .., meetsI_memory rfl _ _ (.inr rfl) ..,
    meetsI_registers rfl .., meetsI_registers rfl ..,
    meetsI_memory rfl _ _ (.inl rfl) .., meetsI_memory rfl _ _ (.inr rfl) ..,
    meetsI_registers rfl .., meetsI_registers rfl ..⟩

theorem witness_DecimalAddFrame :
    MeetsI (.dadd .word (.autoinc 4) .absolute) .word none (.autoinc 4) .absolute true true State.reset ∧
    MeetsI (.daddxA high (.autoinc 4) .absolute) .ext (some high) (.autoinc 4) .absolute true true State.reset ∧
    MeetsI (.daddxW most (.reg 4) (.reg 5)) .word (some most) (.reg 4) (.reg 5) true true State.reset ∧
    MeetsI (.daddxB plain (.reg 4) (.reg 5)) .byte (some plain) (.reg 4) (.reg 5) true true State.reset :=
  ⟨meetsI_memory rfl _ _ (.inl rfl) .., meetsI_memory rfl _ _ (.inr rfl) ..,
    meetsI_registers rfl .., meetsI_registers rfl ..⟩

theorem witness_CompareDecidesOrder :
    MeetsI (.cmp .byte (.reg 4) (.reg 5)) .byte none (.reg 4) (.reg 5) true false State.reset ∧
    MeetsI (.cmpxA most (.reg 4) (.reg 5)) .ext (some most) (.reg 4) (.reg 5) true false State.reset ∧
    ∃ v u, fetchHigh 15 State.reset = .ok (v, u) :=
  ⟨meetsI_registers rfl .., meetsI_registers rfl .., _, _, rfl⟩

/-- 0099 and 9901, the largest digits among them. -/
theorem witness_DecimalAddIsDecimal : ∃ a s1, (Instr.dadd .word (.reg 4) (.reg 5)).wf = true ∧ Memory.wf State.reset.mem ∧
    resolveSrc .word none (.reg 4) (regs [(4, 0x0099), (5, 0x9901)] State.reset) = .ok (a, s1) ∧
    isDecimal 4 a.value.toNat ∧ isDecimal 4 (trunc .word (s1.reg 5)).toNat :=
  ⟨_, _, rfl, by decide, rfl, by refine ⟨?_, ?_, ?_, ?_, trivial⟩ <;> decide,
    by refine ⟨?_, ?_, ?_, ?_, trivial⟩ <;> decide⟩

/-- The hypotheses of `RunsII`. -/
def MeetsII (i : Instr) (ws : Size) (x : Option Ext) (opd : Src) (s : State) : Prop :=
  i.wf = true ∧ s.mem.wf ∧ ∃ a s1, resolveSrc ws (x.bind extDstHi) opd (operandState x s) = .ok (a, s1) ∧
    a.place.writable ws s ∧ (0 < count x s → opd ≠ .reg 0)

theorem meetsII_register {i : Instr} (h : i.wf = true) (ws : Size) (x : Option Ext) :
    MeetsII i ws x (.reg 5) State.reset :=
  ⟨h, by decide, _, _, rfl, trivial, fun _ => by decide⟩

theorem witness_RotateThroughCarry :
    MeetsII (.rrc .byte (.reg 5)) .byte none (.reg 5) State.reset ∧
    MeetsII (.rrcxA most (.reg 5)) .ext (some most) (.reg 5) State.reset ∧
    MeetsII (.rrcxW plain (.reg 5)) .word (some plain) (.reg 5) State.reset ∧
    MeetsII (.rrcxB once (.reg 5)) .byte (some once) (.reg 5) State.reset :=
  ⟨meetsII_register rfl .., meetsII_register rfl .., meetsII_register rfl .., meetsII_register rfl ..⟩

theorem witness_ShiftRightArithmetic :
    MeetsII (.rra .byte (.reg 5)) .byte none (.reg 5) State.reset ∧
    MeetsII (.rraxA most (.reg 5)) .ext (some most) (.reg 5) State.reset ∧
    MeetsII (.rraxW plain (.reg 5)) .word (some plain) (.reg 5) State.reset ∧
    MeetsII (.rraxB once (.reg 5)) .byte (some once) (.reg 5) State.reset :=
  ⟨meetsII_register rfl .., meetsII_register rfl .., meetsII_register rfl .., meetsII_register rfl ..⟩

theorem witness_SwapAndSignExtend : MeetsII (.swpb (.reg 5)) .word none (.reg 5) State.reset ∧
    MeetsII (.swpbxW most (.reg 5)) .word (some most) (.reg 5) State.reset ∧
    MeetsII (.sxt (.reg 5)) .word none (.reg 5) State.reset ∧
    MeetsII (.sxtxW most (.reg 5)) .word (some most) (.reg 5) State.reset :=
  ⟨meetsII_register rfl .., meetsII_register rfl .., meetsII_register rfl .., meetsII_register rfl ..⟩

/-! ### The address group, CALLA, PUSHM and POPM -/

/-- Every way the address group reads an operand, and both addresses it stores to. -/
theorem witness_AddressOperands :
    (Instr.movaInc 15 0).wf = true ∧ (∃ v u, readReg 0 State.reset = .ok (v, u)) ∧
    (∃ v u, readInd 15 State.reset = .ok (v, u)) ∧ (∃ v u, fetchHigh 15 State.reset = .ok (v, u)) ∧
    (∃ v u, readAt (fetchHigh 15) State.reset = .ok (v, u)) ∧ (∃ v u, readAt (fetchIndexed 4) State.reset = .ok (v, u)) ∧
    (∃ v u, readAt (fetchSymbolic 15) State.reset = .ok (v, u)) ∧
    (∃ u, fetchHigh 15 State.reset = .ok (0xF0000, u)) ∧ accepts State.reset 0xF0000 4 ∧
    (∃ u, fetchIndexed 4 (regs [(4, 0xFFFFC)] State.reset) = .ok (0xFFFFC, u)) ∧
    accepts (regs [(4, 0xFFFFC)] State.reset) 0xFFFFC 4 :=
  ⟨rfl, ⟨_, _, rfl⟩, ⟨_, _, rfl⟩, ⟨_, _, rfl⟩, ⟨_, _, rfl⟩, ⟨_, _, rfl⟩, ⟨_, _, rfl⟩, ⟨_, rfl⟩,
    of_decide_eq_true (p := (0xF0000 : Slot).toNat + 4 ≤ Config.memSize) rfl, ⟨_, rfl⟩,
    of_decide_eq_true (p := (0xFFFFC : Slot).toNat + 4 ≤ Config.memSize) rfl⟩

/-- A stack pointer of 4, the lowest from which both halves go to memory without a wrap. -/
theorem witness_CallaPushesReturn :
    let s := regs [(1, 4), (5, 0x2000)] State.reset;
    (Instr.callaInc 5).wf = true ∧ s.mem.wf ∧ (∃ v u, readInd 5 s = .ok (v, u)) ∧
      ∀ e ∈ callSlots 1 (some 5) s, accepts s e.1 2 := by
  refine ⟨rfl, by decide, ⟨_, _, rfl⟩, fun e he => ?_⟩
  simp only [callSlots, pushSlots, List.mem_cons, List.not_mem_nil, or_false] at he
  rcases he with rfl | rfl
  · exact of_decide_eq_true (p := (_ : Nat) + 2 ≤ Config.memSize) rfl
  · exact of_decide_eq_true (p := (_ : Nat) + 2 ≤ Config.memSize) rfl

/-- A CALLA through a register, and one that advances the stack pointer. -/
theorem witness_RetaReturns :
    (let s := regs [(1, 0x2400), (5, 0x12000)] State.reset;
    ∃ t, 0 < callaWords (.callaReg 5) ∧ s.running ∧ s.rep.left = 0 ∧ s.mem.wf ∧ exec (.callaReg 5) s = .next t ∧
      t.running ∧ t.sp.toNat + 4 ≤ Config.memSize ∧ resolve s.params t.sp = .memory ∧
      resolve s.params (t.sp + 2) = .memory) ∧
    ∃ t, 0 < callaWords (.callaInc 1) ∧ callaAuto (.callaInc 1) = some 1 ∧
      exec (.callaInc 1) (regs [(1, 0x2400)] State.reset) = .next t ∧ t.running ∧ t.sp = 0x2400 :=
  ⟨⟨_, by decide, rfl, rfl, by decide, rfl, rfl, by decide, by decide, by decide⟩, _, by decide, rfl, rfl, rfl, by decide⟩

/-- One register, and all sixteen. -/
theorem witness_PushmStoresRegisters :
    let s := regs [(1, 0x40)] State.reset;
    (Instr.pushmA 15 15).wf = true ∧ (Instr.pushmW 0 0).wf = true ∧ s.mem.wf ∧
      (∀ e ∈ pushSlots 4 s.sp (pushValues .ext 15 15 s), accepts s e.1 4) ∧
      ∀ e ∈ pushSlots 2 s.sp (pushValues .word 0 0 s), accepts s e.1 2 := by
  have h (s : State) : ∀ e ∈ pushSlots 4 (0x40 : Slot) (pushValues .ext 15 15 s), e.1.toNat + 4 ≤ Config.memSize := by
    simp [pushValues, List.range_succ, pushSlots, low20, Config.memSize, Config.addrBits]
  have h' (s : State) : ∀ e ∈ pushSlots 2 (0x40 : Slot) (pushValues .word 0 0 s), e.1.toNat + 2 ≤ Config.memSize := by
    simp [pushValues, List.range_succ, pushSlots, low20, Config.memSize, Config.addrBits]
  exact ⟨rfl, rfl, by decide, h _, h' _⟩

/-- A pop into R0, one into R2, and the longest. -/
theorem witness_PopmLoadsRegisters : (Instr.popmA 0 0).wf = true ∧ (Instr.popmW 0 2).wf = true ∧
    (Instr.popmA 13 2).wf = true ∧ (∃ vs u, readSlots .ext 1 State.reset.sp State.reset = .ok (vs, u)) ∧
    ∃ vs u, readSlots .ext 14 State.reset.sp State.reset = .ok (vs, u) :=
  ⟨rfl, rfl, rfl, ⟨_, _, rfl⟩, _, _, rfl⟩

theorem witness_PushThenPopRestores :
    let s := regs [(1, 0x2400)] State.reset;
    (Instr.pushmA 13 15).wf = true ∧ (Instr.popmA 13 (Fin.ofNat 16 (15 - 13))).wf = true ∧ s.mem.wf ∧ s.slotsNarrow ∧
      s.rep.left = 0 ∧ ∀ e ∈ pushSlots 4 s.sp (pushValues .ext 13 15 s),
        resolve s.params e.1 = .memory ∧ e.1.toNat + 4 ≤ Config.memSize := by
  have narrow : ∀ r : RegNum, ((regs [(1, 0x2400)] State.reset).reg r).toNat < 2 ^ Config.addrBits := by decide
  have h (s : State) : ∀ e ∈ pushSlots 4 (0x2400 : Slot) (pushValues .ext 13 15 s), e.1.toNat + 4 ≤ Config.memSize := by
    simp [pushValues, List.range_succ, pushSlots, low20, Config.memSize, Config.addrBits]
  exact ⟨rfl, rfl, by decide, narrow, rfl, fun e he => ⟨rfl, h _ e he⟩⟩

theorem witness_JumpToItself :
    let s := (bytes 0xFFFFE 2 0x3FFF State.reset).setPc 0xFFFFE;
    s.running ∧ s.rep.left = 0 ∧ s.holdsWords s.pc [0x3FFF] := ⟨rfl, rfl, by decide, by decide, by decide, trivial⟩

/-- Sixteen executions, the second word wrapping to address 0. -/
theorem witness_RepeatedShiftRuns :
    let s := (bytes 0 2 0x1145 (bytes 0xFFFFE 2 0x180F State.reset)).setPc 0xFFFFE;
    s.running ∧ s.rep = ⟨0, none⟩ ∧ s.mem.wf ∧ s.pc.toNat < 2 ^ 20 ∧ s.holdsWords s.pc [0x180F, 0x1145] :=
  ⟨rfl, rfl, by decide, by decide, by decide, by decide, by decide, by decide, by decide, by decide, trivial⟩

end Sys2Proof.Tests
end

section
/-! PROOF. What every step keeps: one lemma for each common execution, from them one for `exec` and one for `step`. -/

namespace Sys2Proof.Proofs

open Sys2Proof Sys2Proof.Machine

/-- Whatever next state the outcome of a cycle from `s` holds, it is one that a cycle with a repetition field of at most
15 can leave (R313). -/
def Keeps (s : State) (o : Host.Outcome State Fault Refusal) : Prop :=
  ∀ t, o = .next t → ∃ n ≤ 15, CycleKeeps s n t

/-! ## The common executions -/

theorem keeps_cycle {s : State} {n : Nat} {body : Except FaultCause Done} (hn : n ≤ 15)
    (hb : ∀ d, body = .ok d → Evolves s d.st) : Keeps s (cycle s n body) :=
  fun _ h => ⟨n, hn, cycle_keeps hb h⟩

theorem keeps_fault {s : State} {c : FaultCause} : Keeps s (cycle s 0 (.error c)) :=
  keeps_cycle (Nat.zero_le _) fun _ h => by simp at h

theorem keeps_reserved {words : List Word} {s : State} : Keeps s (reserved words s) := keeps_fault

theorem keeps_extended {words : List Word} {x : Ext} {dstPc : Bool} {body : State → Except FaultCause Done} {s : State}
    (hb : ∀ d, body (operandState (some x) s) = .ok d → Evolves (operandState (some x) s) d.st) :
    Keeps s (extended words x dstPc body s) := by
  refine keeps_cycle (repetition_le x _) fun d h => ?_
  split at h
  · simp at h
  · exact (Evolves.operandState (some x) s).trans (hb d h)

theorem keeps_plainI {alu : Size → Bool → Slot → Slot → AluOut} {reads stores : Bool} {bw : BW} {src : Src} {dst : Dst}
    {s : State} : Keeps s (plainI alu reads stores bw src dst s) :=
  keeps_cycle (Nat.zero_le _) fun _ h => Evolves.formatI h

theorem keeps_extendedI {alu : Size → Bool → Slot → Slot → AluOut} {reads stores : Bool} {ws : Size} {words : List Word}
    {x : Ext} {src : Src} {dst : Dst} {s : State} : Keeps s (extendedI alu reads stores ws words x src dst s) :=
  keeps_extended fun _ h => Evolves.formatI h

theorem keeps_plainII {alu : Size → Bool → Slot → AluOut} {ws : Size} {opd : Src} {s : State} :
    Keeps s (plainII alu ws opd s) :=
  keeps_cycle (Nat.zero_le _) fun _ h => Evolves.formatII h

theorem keeps_extendedII {alu : Size → Bool → Slot → AluOut} {ws : Size} {words : List Word} {x : Ext} {opd : Src}
    {s : State} : Keeps s (extendedII alu ws words x opd s) :=
  keeps_extended fun _ h => Evolves.formatII h

/-- A format II word with no operation always faults (R298). -/
theorem unimplementedII_ne_ok {words : List Word} {ws : Size} {hi : Option (BitVec 4)} {opd : Src} {s : State}
    {d : Done} : unimplementedII words ws hi opd s ≠ .ok d := by
  unfold unimplementedII
  split <;> simp

theorem keeps_plainUnimplemented {words : List Word} {ws : Size} {opd : Src} {s : State} :
    Keeps s (plainUnimplemented words ws opd s) :=
  keeps_cycle (Nat.zero_le _) fun _ h => (unimplementedII_ne_ok h).elim

theorem keeps_extendedUnimplemented {words : List Word} {ws : Size} {x : Ext} {opd : Src} {s : State} :
    Keeps s (extendedUnimplemented words ws x opd s) :=
  keeps_extended fun _ h => (unimplementedII_ne_ok h).elim

/-! ## The address group -/

theorem keeps_movaLoad {d : RegNum} {opd : Except FaultCause (Operand × State)} {s : State}
    (ho : ∀ a u, opd = .ok (a, u) → Evolves s u) : Keeps s (movaLoad d opd s) := by
  refine keeps_cycle (Nat.zero_le _) fun e h => ?_
  split at h
  · simp at h
  · rename_i a s1
    cases h
    exact (ho a s1 rfl).trans (Evolves.writeReg ..)

theorem keeps_movaStore {r : RegNum} {ea : Except FaultCause (Slot × State)} {s : State}
    (he : ∀ a u, ea = .ok (a, u) → Evolves s u) : Keeps s (movaStore r ea s) := by
  refine keeps_cycle (Nat.zero_le _) fun e h => ?_
  split at h
  · simp at h
  · rename_i a s1
    split at h
    · simp at h
    · rename_i s2 hw
      cases h
      exact (he a s1 rfl).trans (Evolves.store hw)

theorem evolves_register {ws : Size} {r : RegNum} {s u : State} {a : Operand}
    (h : (.ok (opRegister ws r s, s) : Except FaultCause (Operand × State)) = .ok (a, u)) : Evolves s u := by
  cases h
  exact .refl s

theorem evolves_eaIndexed {hi : Option (BitVec 4)} {r : RegNum} {s t : State} {a : Slot}
    (h : eaIndexed hi r s = .ok (a, t)) : Evolves s t := (Evolves.skipWords 1 s).withReads (eaIndexed_ok h).1

theorem evolves_eaAbsolute {hi : Option (BitVec 4)} {s t : State} {a : Slot}
    (h : eaAbsolute hi s = .ok (a, t)) : Evolves s t := (Evolves.skipWords 1 s).withReads (eaAbsolute_ok h).1

theorem keeps_addressAlu {alu : Slot → Slot → AluOut} {stores : Bool} {d : RegNum}
    {opd : Except FaultCause (Operand × State)} {s : State} (ho : ∀ a u, opd = .ok (a, u) → Evolves s u) :
    Keeps s (addressAlu alu stores d opd s) := by
  refine keeps_cycle (Nat.zero_le _) fun e h => ?_
  split at h
  · simp at h
  · rename_i a s1
    have hf := fun f => (ho a s1 rfl).trans (Evolves.applyFlags s1 f)
    dsimp only at h
    split at h
    · cases h
      exact (hf _).trans (Evolves.writeReg ..)
    · cases h
      exact hf _

theorem keeps_rotate {ws : Size} {alu : Slot → Bool → AluOut} {d : RegNum} {s : State} :
    Keeps s (rotate ws alu d s) := by
  refine keeps_cycle (Nat.zero_le _) fun e h => ?_
  cases h
  exact (Evolves.applyFlags s _).trans (Evolves.writeReg ..)

/-! ## CALLA, the jumps, PUSHM and POPM -/

theorem keeps_callTo (hi : Option (BitVec 4)) (src : Src) (s : State) :
    Keeps s (callTo (operandValue (resolveSrc .ext hi src s)) s) := by
  cases hs : resolveSrc .ext hi src s with
  | error c => exact keeps_cycle (Nat.zero_le _) fun e h => by simp [operandValue] at h
  | ok p =>
    obtain ⟨a, s1⟩ := p
    refine keeps_cycle (Nat.zero_le _) fun e h => ?_
    simp only [operandValue] at h
    split at h
    · simp at h
    · rename_i sp s2 hp
      cases h
      obtain ⟨hpush, hsp⟩ := Evolves.pushAll hp
      have hsp : sp.toNat < 2 ^ 20 := hsp.resolve_right (by simp)
      have hvalue : a.value.toNat < 2 ^ 20 := (resolveSrc_ok hs).2.1
      exact (((Evolves.resolveSrc hs).trans hpush).trans
        (Evolves.setReg (by decide) (by decide) fun _ => hsp)).trans (Evolves.setPc fun _ => hvalue)

theorem keeps_jump {taken : Bool} {off : BitVec 10} {s : State} : Keeps s (jump taken off s) := by
  refine keeps_cycle (Nat.zero_le _) fun e h => ?_
  cases taken
  · cases h
    exact .refl s
  · cases h
    exact Evolves.setPc fun _ => low20_lt _

theorem keeps_pushMany {words : List Word} {ws : Size} {n : BitVec 4} {d : RegNum} {s : State} :
    Keeps s (pushMany words ws n d s) := by
  unfold pushMany
  split
  · refine keeps_cycle (Nat.zero_le _) fun e h => ?_
    split at h
    · simp at h
    · rename_i sp s1 hp
      cases h
      obtain ⟨hpush, hsp⟩ := Evolves.pushAll hp
      have hsp : sp.toNat < 2 ^ 20 := hsp.resolve_right (by simp [pushRegs])
      exact hpush.trans (Evolves.setReg (by decide) (by decide) fun _ => hsp)
  · exact keeps_reserved

theorem keeps_popMany {words : List Word} {ws : Size} {n : BitVec 4} {d : RegNum} {s : State} :
    Keeps s (popMany words ws n d s) := by
  unfold popMany
  split
  · refine keeps_cycle (Nat.zero_le _) fun e h => ?_
    split at h
    · simp at h
    · rename_i sp s1 hp
      cases h
      obtain ⟨hpop, hsp⟩ := Evolves.popAll hp
      have hsp : sp.toNat < 2 ^ 20 := hsp.resolve_right (by simp [popRegs])
      exact hpop.trans (Evolves.setReg (by decide) (by decide) fun _ => hsp)
  · exact keeps_reserved

/-! ## Every instruction -/

/-- Each instruction's meaning is one of the common executions. The fixed-mode operands of the address group and of
CALLA resolve as source operands of formats I and II do. -/
theorem keeps_exec (i : Instr) (s : State) : Keeps s (exec i s) := by
  cases i with
  | mov | add | addc | subc | sub | cmp | dadd | bit | bic | bis | xor | and => exact keeps_plainI
  | movxA | movxW | movxB | addxA | addxW | addxB | addcxA | addcxW | addcxB | subcxA | subcxW | subcxB | subxA | subxW
  | subxB | cmpxA | cmpxW | cmpxB | daddxA | daddxW | daddxB | bitxA | bitxW | bitxB | bicxA | bicxW | bicxB | bisxA
  | bisxW | bisxB | xorxA | xorxW | xorxB | andxA | andxW | andxB => exact keeps_extendedI
  | rrc | swpb | rra | sxt => exact keeps_plainII
  | rrcxA | rrcxW | rrcxB | swpbxW | rraxA | rraxW | rraxB | sxtxW => exact keeps_extendedII
  | swpbB | sxtB | push | call => exact keeps_plainUnimplemented
  | swpbxA | swpbxB | sxtxA | sxtxB | pushxA | pushxW | pushxB | callxA | callxW | callxB =>
    exact keeps_extendedUnimplemented
  | reservedMovx | reservedAddx | reservedAddcx | reservedSubcx | reservedSubx | reservedCmpx | reservedDaddx
  | reservedBitx | reservedBicx | reservedBisx | reservedXorx | reservedAndx | reservedRrcx | reservedSwpbx
  | reservedRrax | reservedSxtx | reservedPushx | reservedCallx | reservedPrefixAddr | reservedPrefixCalla
  | reservedPrefixPushm | reservedPrefixPrefix | reservedPrefixJump | reservedMovaPcInc | reservedCallaPcInc
  | reservedMinor131 | reservedMinor132 | reservedMinor133 | reservedMinor13A | reservedMinor13C =>
    exact keeps_reserved
  | jnz | jz | jnc | jc | jn | jge | jl | jmp => exact keeps_jump
  | movaInd rs d => exact keeps_movaLoad fun _ _ => Evolves.resolveSrc (hi := none) (src := .indirect rs)
  | movaInc rs d =>
    simp only [exec, execMovaInc]
    split
    · exact keeps_reserved
    · exact keeps_movaLoad fun _ _ => Evolves.resolveSrc (hi := none) (src := .autoinc rs)
  | movaAbs hi d => exact keeps_movaLoad fun _ _ => Evolves.resolveSrc (hi := some hi) (src := .absolute)
  | movaIdx rs d => exact keeps_movaLoad fun _ _ => Evolves.resolveSrc (hi := none) (src := .indexed rs)
  | movaImm hi d => exact keeps_movaLoad fun _ _ => Evolves.resolveSrc (hi := some hi) (src := .immediate)
  | movaReg rs d => exact keeps_movaLoad fun _ _ => evolves_register
  | movaToAbs => exact keeps_movaStore fun _ _ => evolves_eaAbsolute
  | movaToIdx => exact keeps_movaStore fun _ _ => evolves_eaIndexed
  | cmpaImm hi | addaImm hi | subaImm hi =>
    exact keeps_addressAlu fun _ _ => Evolves.resolveSrc (hi := some hi) (src := .immediate)
  | cmpaReg | addaReg | subaReg =>
    simp only [exec, execCmpaReg, execAddaReg, execSubaReg]
    exact keeps_addressAlu fun _ _ => evolves_register
  | rrcmA | rrcmW | rramA | rramW | rlamA | rlamW | rrumA | rrumW =>
    simp only [exec, execRrcmA, execRrcmW, execRramA, execRramW, execRlamA, execRlamW, execRrumA, execRrumW]
    exact keeps_rotate
  | reti => exact keeps_fault
  | callaReg d => exact keeps_callTo none (.reg d) s
  | callaIdx d => exact keeps_callTo none (.indexed d) s
  | callaInd d => exact keeps_callTo none (.indirect d) s
  | callaInc d =>
    simp only [exec, execCallaInc]
    split
    · exact keeps_reserved
    · exact keeps_callTo none (.autoinc d) s
  | callaAbs hi => exact keeps_callTo (some hi) .absolute s
  | callaSym hi => exact keeps_callTo (some hi) .symbolic s
  | callaImm hi => exact keeps_callTo (some hi) .immediate s
  | pushmA | pushmW => exact keeps_pushMany
  | popmA | popmW => exact keeps_popMany

/-! ## Every step -/

/-- Fetching and decoding changes nothing but the model's count of device reads (R84, R111). -/
theorem fetchDecode_ok {s u : State} {i : Instr} (h : fetchDecode s = .ok (i, u)) :
    u = { s with deviceReads := u.deviceReads } := by
  unfold fetchDecode at h
  split at h
  · simp at h
  · rename_i w s1 hw
    split at h
    · split at h
      · simp at h
      · split at h
        · simp at h
        · cases h
          rfl
    · split at h
      · simp at h
      · cases h
        exact (fetchHere_ok hw).1

/-- A step that answers a next state is a cycle that takes a fault of its fetch, or one that runs an instruction after
nothing but the count of device reads has changed (R313). -/
theorem step_keeps {s t : State} (h : step s = .next t) :
    ∃ n ≤ 15, ∃ k, CycleKeeps { s with deviceReads := k } n t := by
  unfold step at h
  split at h
  · simp at h
  · split at h
    · rename_i i u hi
      obtain ⟨n, hn, hk⟩ := keeps_exec i u t h
      exact ⟨n, hn, u.deviceReads, by rwa [← fetchDecode_ok hi]⟩
    · rename_i c _
      cases h
      exact ⟨0, Nat.zero_le _, s.deviceReads, cycle_keeps (body := .error c) (fun _ h => by simp at h) rfl⟩

/-- The repetition state after a cycle is legal where the one before it was (R44, R313). -/
theorem repKept_of_repAfter {s t : State} {n : Nat} (hs : s.repKept) (hn : n ≤ 15) (hr : t.rep = repAfter s n)
    (hp : 0 < t.rep.left → t.pc = s.pc) : t.repKept := by
  obtain ⟨hleft, hat, hnone⟩ := hs
  rw [State.repKept, hr]
  rw [hr] at hp
  unfold repAfter at hp ⊢
  split_ifs at hp ⊢ with h0 hn0 h1
  · exact ⟨hn, fun h => congrArg some (hp h).symm, fun h => absurd h hn0.ne'⟩
  · exact ⟨hleft, fun h => absurd h0 h.ne', hnone⟩
  · exact ⟨Nat.zero_le _, fun h => absurd h (lt_irrefl _), fun _ => rfl⟩
  · have hat : s.rep.at_ = some s.pc := hat (by omega)
    refine ⟨by dsimp only; omega, fun h => hat.trans (congrArg some (hp h).symm), fun h => ?_⟩
    dsimp only at h
    omega

/-- Settles O18. Slots and memory are kept by every part of a cycle; the repetition state goes by R313. -/
theorem invKept : Obligations.InvKept := by
  intro s t ⟨hslots, hmem, hrep⟩ h
  obtain ⟨n, hn, k, hk⟩ := step_keeps h
  refine ⟨hk.narrow hslots, hk.mem hmem, ?_⟩
  rcases hk.ends with ⟨c, rfl⟩ | ⟨-, hr, hp⟩
  · exact hrep
  · exact repKept_of_repAfter (s := { s with deviceReads := k }) hrep hn hr hp

/-- Settles O24. The bits an explicit write does not reach under PRESERVE are all but C, Z, N and V (R39). -/
theorem preserveKeepsControlBits : Obligations.PreserveKeepsControlBits := by
  intro s t hpreserve h k h0 h1 h2 h8
  obtain ⟨n, -, m, hk⟩ := step_keeps h
  exact hk.srBits k (by simp [srBitWritten, hpreserve, h0, h1, h2, h8])

/-- Settles O23: no part of a cycle writes slot 3. -/
theorem slotThreeKept : Obligations.SlotThreeKept := by
  refine ⟨fun s t h => ?_, fun s => by simp [State.base]⟩
  obtain ⟨n, -, k, hk⟩ := step_keeps h
  exact hk.three

end Sys2Proof.Proofs
end

section
/-! PROOF. The state's operations one by one: halting, fetching, register writes, reset. -/

namespace Sys2Proof.Proofs

open Sys2Proof Sys2Proof.Machine

/-! ## Steps of a state that has halted, and of one whose fetch fails -/

theorem step_halted {s : State} {h : Halt} (hs : s.halted = some h) : step s = .fault (.halted h) := by
  simp [step, hs]

/-- A fault of the fetch or of the decode is taken (R402, R405). -/
theorem step_of_fetchDecode_error {s : State} {c : FaultCause} (hs : s.running) (h : fetchDecode s = .error c) :
    step s = .next (s.takeFault c) := by
  rw [State.running] at hs
  simp [step, hs, h]

/-- Settles O7: `step` looks at the fault record before it fetches (R45). -/
theorem haltedRunsNoCycle : Obligations.HaltedRunsNoCycle := fun _ _ => step_halted

/-! ## Fetching (R36) -/

/-- The fault of fetching a word at `a` whose two bytes are not both in memory. -/
def fetchFault (a : Slot) : FaultCause := .addressOutOfRange a 2 .fetch

theorem fetchHere_range {s : State} (hr : resolve s.params s.pc = .memory) (h : Config.memSize < s.pc.toNat + 2) :
    fetchHere s = .error (fetchFault s.pc) := by
  simp [fetchHere, busRead_range (k := .fetch) (n := 2) rfl hr h, fetchFault]

theorem fetchNext_range {s : State} (hr : resolve s.params (low20 (s.pc + 2)) = .memory)
    (h : Config.memSize < (low20 (s.pc + 2)).toNat + 2) : fetchNext s = .error (fetchFault (low20 (s.pc + 2))) := by
  have := fetchHere_range (s := s.setPc (low20 (s.pc + 2))) (by simpa using hr) (by simpa using h)
  simpa [fetchNext] using this

/-- The first word is fetched out of memory's range. -/
theorem fetchDecode_range {s : State} (hr : resolve s.params s.pc = .memory) (h : Config.memSize < s.pc.toNat + 2) :
    fetchDecode s = .error (fetchFault s.pc) := by
  simp [fetchDecode, fetchHere_range hr h]

/-- A word that lies at the program counter is fetched from there. -/
theorem fetchHere_holdsWords {s : State} {w : Word} {ws : List Word} (h : s.holdsWords s.pc (w :: ws)) :
    fetchHere s = .ok (w, s) := by
  obtain ⟨hr, hsize, hw, -⟩ := h
  rw [fetchHere_memory hr hsize, hw, BitVec.ofNat_toNat, BitVec.setWidth_eq]

theorem isExtWord_eq (w : Word) : isExtWord w = decide (0x1800 ≤ w.toNat ∧ w.toNat < 0x2000) := by
  simpa using isExtWord_ofNat w.isLt

/-- The core word after an extension word is fetched out of memory's range (R310). -/
theorem fetchDecode_core_range {s : State} {w : Word} (hw : fetchHere s = .ok (w, s)) (hx : isExtWord w = true)
    (hr : resolve s.params (low20 (s.pc + 2)) = .memory) (h : Config.memSize < (low20 (s.pc + 2)).toNat + 2) :
    fetchDecode s = .error (fetchFault (low20 (s.pc + 2))) := by
  simp [fetchDecode, hw, hx, fetchNext_range hr h]

/-- A source operand that takes an extension word takes the fault of that word's fetch (R145, R405). -/
theorem resolveSrc_fetch_error {ws : Size} {hi : Option (BitVec 4)} {src : Src} {s : State} {c : FaultCause}
    (hs : src = .immediate ∨ src = .absolute ∨ src = .symbolic ∨ ∃ r, src = .indexed r)
    (h : fetchNext s = .error c) : resolveSrc ws hi src s = .error c := by
  rcases hs with rfl | rfl | rfl | ⟨r, rfl⟩
  · simp [resolveSrc, opImmediate, h]
  · simp [resolveSrc, opAt, eaAbsolute, h]
  · simp [resolveSrc, opAt, eaSymbolic, h]
  · simp [resolveSrc, opAt, eaIndexed, h]

/-- So does a destination operand. -/
theorem resolveDst_fetch_error {ws : Size} {hi : Option (BitVec 4)} {reads : Bool} {dst : Dst} {s : State}
    {c : FaultCause} (hd : dst = .absolute ∨ dst = .symbolic ∨ ∃ r, dst = .indexed r)
    (h : fetchNext s = .error c) : resolveDst ws hi reads dst s = .error c := by
  rcases hd with rfl | rfl | ⟨r, rfl⟩
  · simp [resolveDst, dstAt, eaAbsolute, h]
  · simp [resolveDst, dstAt, eaSymbolic, h]
  · simp [resolveDst, dstAt, eaIndexed, h]

/-- Two bytes, least significant first (R78). -/
theorem readLE_two (m : Memory) (a : Nat) :
    m.readLE a 2 = (m.get a).toNat + 256 * (m.get (a + 1)).toNat := by simp [Memory.readLE]

/-- Settles O11: a fetch out of range, for each word of an instruction and each operand that takes one; a fetch in
range; the advance of the program counter; a write of R0. -/
theorem fetchOutOfRange : Obligations.FetchOutOfRange := by
  refine ⟨fun s hs hr h => step_of_fetchDecode_error hs (fetchDecode_range hr h), fun s => ?_, fun s hr h => ?_,
    fun s t w h => ?_, fun s v ws => ?_⟩
  · intro next hr h
    have hnext : fetchNext s = .error (fetchFault next) := fetchNext_range hr h
    refine ⟨fun w hs hw hlo hhi => ?_, hnext, fun ws hi =>
      ⟨fun src hsrc => resolveSrc_fetch_error hsrc hnext, fun reads dst hdst => resolveDst_fetch_error hdst hnext⟩⟩
    have hx : isExtWord w = true := by rw [isExtWord_eq]; exact decide_eq_true ⟨hlo, hhi⟩
    exact step_of_fetchDecode_error hs (fetchDecode_core_range (fetchHere_holdsWords hw) hx hr h)
  · rw [fetchHere_memory hr h, readLE_two]
  · rw [fetchNext_ok h]
    simp
  · rw [State.pc, writeReg_reg _ _ _ _ _ (by decide) (by decide), if_pos rfl, trunc_toNat]

/-! ## Register writes (R31, R32, R39) -/

theorem trunc_getLsbD (ws : Size) (v : Slot) (k : Nat) :
    (trunc ws v).getLsbD k = (v.getLsbD k && decide (k < bits ws)) := by
  rw [← BitVec.testBit_toNat, trunc_toNat, Nat.testBit_mod_two_pow, BitVec.testBit_toNat, Bool.and_comm]

/-- `WriteReg` changes the register file alone. -/
theorem writeReg_eq_regs (s : State) (r : RegNum) (v : Slot) (ws : Size) :
    s.writeReg r v ws = { s with regs := (s.writeReg r v ws).regs } := by
  unfold State.writeReg
  split_ifs <;> rfl

/-- Settles O34. Slot 2 goes by the bits an explicit write of SR reaches, any other slot but 3 takes the masked value. -/
theorem writeRegMasks : Obligations.WriteRegMasks := by
  intro s r v ws
  refine ⟨fun h2 h3 => ?_, writeReg_three s v ws, fun k hk => ?_, fun q hq => writeReg_other s r q v ws hq.symm,
    writeReg_eq_regs s r v ws⟩
  · rw [writeReg_reg _ _ _ _ _ h2 h3, if_pos rfl, trunc_toNat]
  · rw [writeReg_two, writeSR_written s _ k hk, trunc_getLsbD]

/-! ## Reset (R50) -/

theorem reset_reg (r : RegNum) : State.reset.reg r = 0 := by simp [State.reset, State.reg]

/-- Settles O19: every slot is 0, memory is empty, and nothing repeats. -/
theorem invAtReset : Obligations.InvAtReset := by
  refine ⟨fun r => ?_, State.reset_mem_wf, Nat.zero_le _, fun h => absurd h (lt_irrefl 0), fun _ => rfl⟩
  rw [reset_reg]
  exact Nat.two_pow_pos _

/-- Settles O20: the reset vector is read from the empty memory. -/
theorem resetValues : Obligations.ResetValues := by
  refine ⟨rfl, rfl, ?_, reset_reg⟩
  rw [busRead_memory rfl (by decide) (by decide), State.pc, reset_reg]
  rfl

end Sys2Proof.Proofs
end

section
/-! PROOF. The fields of the decoder's record (R46): the opcode fields, the extension word's fields, the raw words. -/

namespace Sys2Proof.Proofs

open Sys2Proof Sys2Proof.Machine

/-! ## Fields of a word as numbers -/

/-- The bits of a word from `lo` up. -/
theorem field_top (w : Word) (lo : Nat) (h : lo ≤ 16) : field w 15 lo = w.toNat / 2 ^ lo := by
  refine Nat.mod_eq_of_lt (Nat.div_lt_of_lt_mul ?_)
  rw [← Nat.pow_add, show lo + (15 + 1 - lo) = 16 by omega]
  exact w.isLt

theorem bitAt_eq_getLsbD (w : Word) (i : Nat) : bitAt w i = w.getLsbD i := by
  rw [← BitVec.testBit_toNat, Nat.testBit_eq_decide_div_mod_eq, bitAt, field, show i + 1 - i = 1 by omega,
    Nat.pow_one, Bool.beq_eq_decide_eq]

theorem bitAt_eq_decide (w : Word) (i : Nat) : bitAt w i = decide (w.toNat / 2 ^ i % 2 = 1) := by
  rw [bitAt_eq_getLsbD, ← BitVec.testBit_toNat, Nat.testBit_eq_decide_div_mod_eq]

/-! ## The opcode fields (R112, R113, R114) -/

theorem majorOpcode_eq (core : Word) : majorOpcode core =
    if core.toNat < 0x1000 then 0 else if core.toNat < 0x4000 then core.toNat / 1024 * 4 else core.toNat / 256 := by
  simp only [majorOpcode, field_top core 8 (by decide)]
  split_ifs <;> omega

theorem minorOpcode_eq (core : Word) : minorOpcode core =
    if core.toNat < 0x1000 then core.toNat / 16 % 16 else if core.toNat < 0x1300 then core.toNat / 128 % 8
    else if core.toNat < 0x1400 then core.toNat / 16 else if core.toNat < 0x2000 then core.toNat / 256
    else if core.toNat < 0x4000 then core.toNat / 1024 % 8 else 0 := by
  simp only [minorOpcode, field_top core 8 (by decide), field_top core 4 (by decide)]
  simp only [field]
  split_ifs <;> omega

/-- A record with the opcode fields the model computes has those R112 to R114 give. -/
theorem opcodeFields_of_eq {core : Word} {r : InstrRecord} (hmajor : r.majorOpcode = majorOpcode core)
    (hminor : r.minorOpcode = minorOpcode core) (hformat : r.format = formatOf core) : OpcodeFields core r := by
  have hf : r.format = if 0x40 ≤ core.toNat / 256 then some 1 else if 0x20 ≤ core.toNat / 256 then some 3
      else if 0x10 ≤ core.toNat / 256 ∧ core.toNat / 256 ≤ 0x12 then some 2 else none := by
    simp only [hformat, formatOf, field_top core 8 (by decide)]
    rfl
  refine ⟨hmajor.trans (majorOpcode_eq core), hminor.trans (minorOpcode_eq core), fun h => ?_, fun h h' => ?_,
    fun h h' => ?_⟩
  · rw [hf, if_pos (by omega)]
  · rw [hf, if_neg (by omega), if_neg (by omega), if_pos (by omega)]
  · rw [hf, if_neg (by omega), if_pos (by omega)]

/-! ## What a record is -/

/-- The record of a core word alone. -/
theorem instrRecord_one_ok {core : Word} {s : State} {r : InstrRecord} (h : instrRecord [core] s = .ok r) :
    ∃ ops, operandsOf none none core s = .ok ops ∧
      r = ⟨majorOpcode core, minorOpcode core, formatOf core, false, 0, false, [core], ops.1, ops.2⟩ := by
  simp only [instrRecord] at h
  split at h
  · simp at h
  · split at h
    · simp at h
    · rename_i ops ho
      exact ⟨ops, ho, (Except.ok.inj h).symm⟩

/-- The extension word of a core word, read in the form its operands ask for (R124). -/
def extBefore (p core : Word) : Ext := extOf p (registerForm core)

/-- The record of a core word after an extension word. -/
theorem instrRecord_two_ok {p core : Word} {s : State} {r : InstrRecord} (h : instrRecord [p, core] s = .ok r) :
    reservedWords (some p) core (count (some (extBefore p core)) s) = false ∧
      ∃ ops, operandsOf (some p) (some (extBefore p core)) core (operandState (some (extBefore p core)) s) = .ok ops ∧
        r = ⟨majorOpcode core, minorOpcode core, formatOf core, true, count (some (extBefore p core)) s,
          extZc (extBefore p core), [p, core], ops.1, ops.2⟩ := by
  simp only [instrRecord] at h
  split at h
  · simp at h
  · rename_i hres
    split at h
    · simp at h
    · rename_i ops ho
      exact ⟨Bool.eq_false_of_not_eq_true hres, ops, ho, (Except.ok.inj h).symm⟩

/-- Only a core word of format I or II may follow an extension word (R160, R310). -/
theorem format_of_not_reserved {p core : Word} {n : Nat} (h : reservedWords (some p) core n = false) :
    (0x1000 ≤ core.toNat ∧ core.toNat < 0x1300) ∨ 0x4000 ≤ core.toNat := by
  simp only [reservedWords, field_top core 8 (by decide), Bool.or_eq_false_iff, Bool.not_eq_false', Bool.or_eq_true,
    Bool.and_eq_true, decide_eq_true_eq] at h
  omega

/-! ## The extension word's fields (R124, R312) -/

/-- The operands of a format I or II word are all in register mode by their raw fields. -/
theorem registerForm_iff {core : Word} (h : (0x1000 ≤ core.toNat ∧ core.toNat < 0x1300) ∨ 0x4000 ≤ core.toNat) :
    registerForm core = true ↔
      core.toNat / 16 % 4 = 0 ∧ (core.toNat < 0x4000 ∨ core.toNat / 128 % 2 = 0) := by
  have hform : registerForm core = true ↔ field core 5 4 = 0 ∧ (field core 15 8 ≤ 0x12 ∨ bitAt core 7 = false) := by
    simp [registerForm]
  rw [hform, field_top core 8 (by decide), bitAt_eq_decide, decide_eq_false_iff_not, field]
  omega

/-- The register field in bits 3:0. -/
theorem regField_zero (w : Word) : regField w 0 = Fin.ofNat 16 (w.toNat % 16) := by simp [regField, field]

/-- In the register form, the zero-carry flag is bit 8 and the repetition is bits 3:0, or those of the register they
name. -/
theorem extOf_register (p : Word) (s : State) :
    extZc (extOf p true) = p.getLsbD 8 ∧ repetition (extOf p true) s =
      if p.getLsbD 7 then (s.base (Fin.ofNat 16 (p.toNat % 16))).toNat % 16
      else (Fin.ofNat 16 (p.toNat % 16) : RegNum).val := by
  simp [extOf, extZc, repetition, bitAt_eq_getLsbD, regField_zero]

/-- In the other form there is neither. -/
theorem extOf_memory (p : Word) (s : State) :
    extZc (extOf p false) = false ∧ repetition (extOf p false) s = 0 := ⟨rfl, rfl⟩

/-- Settles O38: the record is taken apart, and the form of the extension word is the one its core word asks for. -/
theorem recordHoldsFields : Obligations.RecordHoldsFields := by
  refine ⟨fun core s r h => ?_, fun p core s r h => ?_⟩
  · obtain ⟨ops, -, rfl⟩ := instrRecord_one_ok h
    exact ⟨opcodeFields_of_eq rfl rfl rfl, rfl, rfl, rfl, rfl⟩
  · obtain ⟨hres, ops, -, rfl⟩ := instrRecord_two_ok h
    have hform := registerForm_iff (format_of_not_reserved hres)
    refine ⟨opcodeFields_of_eq rfl rfl rfl, rfl, rfl, fun hin => ?_, fun hin => ?_⟩
    · simp only [extBefore, hform.2 hin, count]
      exact extOf_register p _
    · have hin : registerForm core = false := by simpa using mt hform.1 hin
      simp only [extBefore, hin, count]
      exact extOf_memory p _

end Sys2Proof.Proofs
end

section
/-! PROOF. What the decoder's record reads back from the encoder's words: operands, extension words, address-group,
CALLA and PUSHM fields (R115 to R124). -/

namespace Sys2Proof.Proofs

open Sys2Proof Sys2Proof.Machine

/-- The width bit of a core word without an extension word (R125). -/
def isByte (bw : BW) : Bool := bw == .byte

theorem bwNat_beq_one (bw : BW) : (bwNat bw == 1) = isByte bw := by cases bw <;> rfl

theorem sizeOfBits_none (bw : BW) : sizeOfBits none (isByte bw) = Machine.sizeOf bw := by cases bw <;> rfl

/-- A register field that holds a register's number names it. -/
theorem regField_of_field {w : Word} {lo : Nat} {r : RegNum} (h : field w (lo + 3) lo = r.val) : regField w lo = r := by
  rw [regField, h, finOf_val]

/-- A nibble that holds four bits is these bits. -/
theorem nibble_of_field {w : Word} {lo : Nat} {b : BitVec 4} (h : field w (lo + 3) lo = b.toNat) : nibble w lo = b := by
  rw [nibble, h, BitVec.ofNat_toNat, BitVec.setWidth_eq]

/-! ## Formats I and II -/

/-- The operand fields of a format I word, as the decoder reads them (R115). -/
theorem wordI_operands {op : Nat} (h : op < 16) (bw : BW) (src : Src) (dst : Dst) :
    regField (wordI op bw src dst) 8 = srcReg src ∧ field (wordI op bw src dst) 5 4 = srcAs src ∧
      regField (wordI op bw src dst) 0 = dstReg dst ∧ bitAt (wordI op bw src dst) 7 = dstAd dst ∧
      bitAt (wordI op bw src dst) 6 = isByte bw := by
  obtain ⟨-, -, -, hsrc, had, hbw, has, hdst⟩ := wordI_fields h bw src dst
  exact ⟨regField_of_field hsrc, has, regField_of_field hdst, by rw [bitAt, had, bitNat_beq],
    by rw [bitAt, hbw, bwNat_beq_one]⟩

/-- The operand fields of a format II word (R117). -/
theorem wordII_operands {op : Nat} (h : op < 6) (bw : BW) (opd : Src) :
    regField (wordII op bw opd) 0 = srcReg opd ∧ field (wordII op bw opd) 5 4 = srcAs opd ∧
      bitAt (wordII op bw opd) 6 = isByte bw := by
  obtain ⟨-, -, -, hbw, has, hreg⟩ := wordII_fields h bw opd
  exact ⟨regField_of_field hreg, has, by rw [bitAt, hbw, bwNat_beq_one]⟩

/-- The form of the extension word before a format I word is that its operands ask for (R124). -/
theorem registerForm_wordI {op : Nat} (h : 4 ≤ op ∧ op < 16) (bw : BW) (src : Src) (dst : Dst) :
    registerForm (wordI op bw src dst) = (src.rawReg && dst.rawReg) := by
  obtain ⟨-, has, -, had, -⟩ := wordI_operands h.2 bw src dst
  obtain ⟨-, hh, -⟩ := wordI_fields h.2 bw src dst
  rw [registerForm, has, had, hh, srcAs_eq_zero, dstAd_not, decide_eq_false (by omega), Bool.false_or]

/-- The form of the extension word before a format II word (R124). -/
theorem registerForm_wordII {op : Nat} (h : op < 6) (bw : BW) (opd : Src) :
    registerForm (wordII op bw opd) = opd.rawReg := by
  obtain ⟨-, has, -⟩ := wordII_operands h bw opd
  obtain ⟨hh, -⟩ := wordII_fields h bw opd
  rw [registerForm, has, hh, srcAs_eq_zero, decide_eq_true (by omega), Bool.true_or, Bool.and_true]

/-! ## The extension word -/

/-- The fields of an extension word in the register form (R123). -/
theorem extWord_regForm_fields (al : Bool) (i : BitVec 2) (z b : Bool) (j : BitVec 2) (n : RegNum) :
    field (extWord al (.regForm i z b j n)) 10 9 = i.toNat ∧ field (extWord al (.regForm i z b j n)) 8 8 = bitNat z ∧
      field (extWord al (.regForm i z b j n)) 7 7 = bitNat b ∧ field (extWord al (.regForm i z b j n)) 6 6 = bitNat al ∧
      field (extWord al (.regForm i z b j n)) 5 4 = j.toNat ∧ field (extWord al (.regForm i z b j n)) 3 0 = n.val := by
  have := bitNat_lt al
  have := bitNat_lt z
  have := bitNat_lt b
  have := i.isLt
  have := j.isLt
  have := n.isLt
  simp only [extWord, field_ofNat]
  norm_num only
  omega

/-- The fields of an extension word in the other form (R123). -/
theorem extWord_memForm_fields (al : Bool) (h : BitVec 4) (j : BitVec 2) (l : BitVec 4) :
    field (extWord al (.memForm h j l)) 10 7 = h.toNat ∧ field (extWord al (.memForm h j l)) 6 6 = bitNat al ∧
      field (extWord al (.memForm h j l)) 5 4 = j.toNat ∧ field (extWord al (.memForm h j l)) 3 0 = l.toNat := by
  have := bitNat_lt al
  have := h.isLt
  have := j.isLt
  have := l.isLt
  simp only [extWord, field_ofNat]
  norm_num only
  omega

/-- An extension word's `al` is read back (R123). -/
theorem bitAt_extWord (al : Bool) (x : Ext) : bitAt (extWord al x) 6 = al := by
  cases x with
  | regForm i z b j n =>
    obtain ⟨-, -, -, hal, -⟩ := extWord_regForm_fields al i z b j n
    rw [bitAt, hal, bitNat_beq]
  | memForm h j l =>
    obtain ⟨-, hal, -⟩ := extWord_memForm_fields al h j l
    rw [bitAt, hal, bitNat_beq]

/-- An extension word read in its own form is read back (R123, R124). -/
theorem extOf_extWord (al : Bool) (x : Ext) : extOf (extWord al x) x.isRegForm = x := by
  cases x with
  | regForm i z b j n =>
    obtain ⟨hign, hzc, hby, -, hign', hcount⟩ := extWord_regForm_fields al i z b j n
    simp only [extOf, Ext.isRegForm, if_true, bitAt, hign, hzc, hby, hign', bitNat_beq, regField_of_field hcount,
      BitVec.ofNat_toNat, BitVec.setWidth_eq]
  | memForm h j l =>
    obtain ⟨hsrc, -, hign, hdst⟩ := extWord_memForm_fields al h j l
    simp only [extOf, Ext.isRegForm, Bool.false_eq_true, if_false, hign, nibble_of_field hsrc, nibble_of_field hdst,
      BitVec.ofNat_toNat, BitVec.setWidth_eq]

/-- What the well-formedness of an extended format I instruction says (R124). -/
theorem wfTwo_iff {x : Ext} {src : Src} {dst : Dst} : x.wfTwo src dst = true ↔
    (src.wf = true ∧ dst.wf = true) ∧ x.isRegForm = (src.rawReg && dst.rawReg) := by
  simp only [Ext.wfTwo, Bool.and_eq_true, beq_iff_eq]

/-- What the well-formedness of an extended format II instruction says (R124). -/
theorem wfOne_iff {x : Ext} {opd : Src} : x.wfOne opd = true ↔ opd.wf = true ∧ x.isRegForm = opd.rawReg := by
  simp only [Ext.wfOne, Bool.and_eq_true, beq_iff_eq]

/-- The extension word of a well-formed format I instruction is read back before its core word. -/
theorem extBefore_wordI {op : Nat} (h : 4 ≤ op ∧ op < 16) {x : Ext} {src : Src} {dst : Dst}
    (hwf : x.wfTwo src dst = true) (al : Bool) (bw : BW) : extBefore (extWord al x) (wordI op bw src dst) = x := by
  rw [extBefore, registerForm_wordI h, ← (wfTwo_iff.1 hwf).2, extOf_extWord]

/-- The extension word of a well-formed format II instruction is read back before its core word. -/
theorem extBefore_wordII {op : Nat} (h : op < 6) {x : Ext} {opd : Src} (hwf : x.wfOne opd = true) (al : Bool)
    (bw : BW) : extBefore (extWord al x) (wordII op bw opd) = x := by
  rw [extBefore, registerForm_wordII h, ← (wfOne_iff.1 hwf).2, extOf_extWord]

/-! ## The other groups -/

/-- The fields of an address-group word (R119). -/
theorem wordA_fields {m s d : Nat} (hm : m < 16) (hs : s < 16) (hd : d < 16) :
    field (wordA m s d) 15 8 = s ∧ field (wordA m s d) 11 8 = s ∧ field (wordA m s d) 7 4 = m ∧
      field (wordA m s d) 3 0 = d := by
  simp only [wordA, field_ofNat]
  norm_num only
  omega

/-- The fields of a rotate word (R120). -/
theorem wordRot_fields (n : BitVec 2) {i w : Nat} (hi : i < 4) (hw : w < 2) (d : RegNum) :
    field (wordRot n i w d) 15 8 ≤ 0x0F ∧ field (wordRot n i w d) 11 10 = n.toNat ∧
      field (wordRot n i w d) 7 4 = 4 + w ∧ field (wordRot n i w d) 3 0 = d.val := by
  have := n.isLt
  have := d.isLt
  simp only [wordRot, field_ofNat]
  norm_num only
  omega

/-- The fields of a RETI/CALLA word (R121). -/
theorem wordC_fields {m d : Nat} (hm : m < 16) (hd : d < 16) :
    field (wordC (0x130 + m) d) 15 8 = 0x13 ∧ field (wordC (0x130 + m) d) 7 4 = m ∧
      field (wordC (0x130 + m) d) 3 0 = d := by
  simp only [wordC, field_ofNat]
  norm_num only
  omega

/-- The fields of a PUSHM/POPM word (R122). -/
theorem wordP_fields {m : Nat} (hm : m < 4) (n : BitVec 4) (d : RegNum) :
    field (wordP (0x14 + m) n d) 15 8 = 0x14 + m ∧ field (wordP (0x14 + m) n d) 8 8 = m % 2 ∧
      field (wordP (0x14 + m) n d) 7 4 = n.toNat ∧ field (wordP (0x14 + m) n d) 3 0 = d.val := by
  have := n.isLt
  have := d.isLt
  simp only [wordP, field_ofNat]
  norm_num only
  omega

end Sys2Proof.Proofs
end

section
/-! PROOF. The operands of the decoder's record are those the execution resolves (R46): formats I and II through the
resolution of their operands, the fixed-mode groups one equation per form. -/

namespace Sys2Proof.Proofs

open Sys2Proof Sys2Proof.Machine

/-! ## From a core word's operands to its record -/

theorem instrRecord_one {core : Word} {s : State} {source destination : Option OperandRecord}
    (hres : reservedWords none core 0 = false) (ho : operandsOf none none core s = .ok (source, destination)) :
    ∃ r, instrRecord [core] s = .ok r ∧ r.source = source ∧ r.destination = destination := by
  simp only [instrRecord, hres, ho, Bool.false_eq_true, if_false]
  exact ⟨_, rfl, rfl, rfl⟩

theorem instrRecord_two {p core : Word} {x : Ext} {s : State} {source destination : Option OperandRecord}
    (hx : extBefore p core = x) (hres : reservedWords (some p) core (count (some x) s) = false)
    (ho : operandsOf (some p) (some x) core (operandState (some x) s) = .ok (source, destination)) :
    ∃ r, instrRecord [p, core] s = .ok r ∧ r.source = source ∧ r.destination = destination := by
  subst hx
  have hrec : instrRecord [p, core] s = .ok ⟨majorOpcode core, minorOpcode core, formatOf core, true,
      count (some (extBefore p core)) s, extZc (extBefore p core), [p, core], source, destination⟩ := by
    simp only [instrRecord, extBefore, count, operandState] at hres ho ⊢
    simp only [hres, ho, Bool.false_eq_true, if_false]
  exact ⟨_, hrec, rfl, rfl⟩

/-! ## Formats I and II -/

theorem address_eq_some_iff (p : Place) (ea : Slot) : p.address = some ea ↔ p = .mem ea := by
  cases p <;> simp [Place.address]

/-- The record of a resolved source operand is the one R46 asks for. -/
theorem srcRecord_recorded (ws : Size) (src : Src) (a : Operand) : SrcRecorded ws src a (srcRecord ws src a) := by
  cases src <;> exact ⟨rfl, address_eq_some_iff a.place, rfl, rfl, rfl, rfl, rfl⟩

/-- The record of a resolved destination operand is the one R46 asks for. -/
theorem dstRecord_recorded (ws : Size) (reads : Bool) (dst : Dst) (b : Operand) :
    DstRecorded ws reads dst b (dstRecord ws reads dst b) := by
  have hvalue : ∀ v, (dstRecord ws reads dst b).value = some v ↔
      (reads = true ∨ dstConstant dst = true) ∧ v = b.value := by
    cases dst <;> cases reads <;> simp [dstRecord, operandRecord, dstConstant, eq_comm]
  cases dst <;> exact ⟨hvalue, address_eq_some_iff b.place, rfl, rfl, rfl, rfl, rfl⟩

theorem twoOperands_ok {ws : Size} {hiS hiD : Option (BitVec 4)} {reads : Bool} {src : Src} {dst : Dst}
    {s s1 s2 : State} {a b : Operand} (hs : resolveSrc ws hiS src s = .ok (a, s1))
    (hd : resolveDst ws hiD reads dst s1 = .ok (b, s2)) :
    twoOperands ws hiS hiD reads src dst s = .ok (some (srcRecord ws src a), some (dstRecord ws reads dst b)) := by
  simp only [twoOperands, hs, hd]

theorem singleOperand_ok {ws : Size} {hi : Option (BitVec 4)} {opd : Src} {s s1 : State} {a : Operand}
    (hs : resolveSrc ws hi opd s = .ok (a, s1)) :
    singleOperand ws hi opd s = .ok (some (srcRecord ws opd a), none) := by
  simp only [singleOperand, hs]

/-- The operands of a format I word are resolved as the execution resolves them (R115, R145). -/
theorem operandsOf_wordI {op : Nat} (h : 4 ≤ op ∧ op < 16) (bw : BW) {src : Src} {dst : Dst} (hsrc : src.wf = true)
    (hdst : dst.wf = true) (p : Option Word) (x : Option Ext) (s : State) :
    operandsOf p x (wordI op bw src dst) s =
      twoOperands (sizeOfBits (p.map (bitAt · 6)) (isByte bw)) (x.bind extSrcHi) (x.bind extDstHi) (op != 4)
        src dst s := by
  obtain ⟨hs, has, hd, had, hbw⟩ := wordI_operands h.2 bw src dst
  obtain ⟨hop, hh, -⟩ := wordI_fields h.2 bw src dst
  simp only [operandsOf, hs, has, hd, had, hbw, hop, hh, srcOf_fields hsrc, dstOf_fields hdst]
  rw [if_neg (by omega), if_neg (by omega), if_neg (by omega), if_neg (by omega), if_neg (by omega)]

/-- The operand of a format II word is resolved as the execution resolves it (R117). -/
theorem operandsOf_wordII {op : Nat} (h : op < 6) (bw : BW) {opd : Src} (hopd : opd.wf = true) (p : Option Word)
    (x : Option Ext) (s : State) : operandsOf p x (wordII op bw opd) s =
      singleOperand (sizeOfBits (p.map (bitAt · 6)) (isByte bw)) (x.bind extDstHi) opd s := by
  obtain ⟨hr, has, hbw⟩ := wordII_operands h bw opd
  obtain ⟨hh, -⟩ := wordII_fields h bw opd
  simp only [operandsOf, hr, has, hbw, hh, srcOf_fields hopd]
  rw [if_neg (by omega), if_pos (by omega)]

theorem reservedWords_wordI {op : Nat} (h : 4 ≤ op ∧ op < 16) (bw : BW) (src : Src) (dst : Dst) :
    reservedWords none (wordI op bw src dst) 0 = false := by
  obtain ⟨-, hh, -⟩ := wordI_fields h.2 bw src dst
  simp only [reservedWords, hh]
  rw [if_neg (by omega), if_neg (by omega), if_neg (by omega), if_neg (by omega), if_neg (by omega)]
  exact decide_eq_false (by omega)

theorem reservedWords_wordII {op : Nat} (h : op < 6) (bw : BW) (opd : Src) :
    reservedWords none (wordII op bw opd) 0 = false := by
  obtain ⟨hh, -⟩ := wordII_fields h bw opd
  simp only [reservedWords, hh]
  rw [if_neg (by omega), if_pos (by omega)]

/-- A format I or II word after an extension word is reserved only with al = bw = 0, or repeated with R0 in its low
register field (R126, R160). -/
theorem reservedWords_extended {al : Bool} {bw : BW} {x : Ext} {core : Word} {n : Nat}
    (hh : (0x10 ≤ field core 15 8 ∧ field core 15 8 ≤ 0x12) ∨ 0x40 ≤ field core 15 8)
    (hbw : bitAt core 6 = isByte bw) (hal : al = true ∨ bw = .byte) (hn : 0 < n → field core 3 0 ≠ 0) :
    reservedWords (some (extWord al x)) core n = false := by
  have hwidth : (!al && !isByte bw) = false := by
    rcases hal with rfl | rfl
    · rfl
    · exact Bool.and_false _
  simp only [reservedWords, bitAt_extWord, hbw, hwidth, Bool.or_false, Bool.or_eq_false_iff, Bool.not_eq_false',
    Bool.or_eq_true, Bool.and_eq_true, decide_eq_true_eq, Bool.and_eq_false_iff, decide_eq_false_iff_not,
    beq_eq_false_iff_ne]
  exact ⟨hh, or_iff_not_imp_left.2 fun h => hn (not_not.1 h)⟩

/-- Only the register form of an extension word repeats (R124). -/
theorem isRegForm_of_count_pos {x : Ext} {s : State} (h : 0 < count (some x) s) : x.isRegForm = true := by
  cases x with
  | regForm => rfl
  | memForm => exact absurd h (lt_irrefl 0)

/-- A destination in register mode by its raw field whose register field is 0 is R0. -/
theorem dst_eq_pc {dst : Dst} (hraw : dst.rawReg = true) (h : (dstReg dst).val = 0) : dst = .reg 0 := by
  cases dst with
  | reg r => exact congrArg Dst.reg (Fin.ext h)
  | constZero => exact absurd h (by decide)
  | indexed | symbolic | absolute | constOne => simp [Dst.rawReg] at hraw

/-- An operand in register mode by its raw field whose register field is 0 is R0. -/
theorem src_eq_pc {src : Src} (hraw : src.rawReg = true) (h : (srcReg src).val = 0) : src = .reg 0 := by
  cases src with
  | reg r => exact congrArg Src.reg (Fin.ext h)
  | const k => cases k <;> simp [Src.rawReg, srcReg] at hraw h
  | indexed | symbolic | absolute | indirect | autoinc | immediate => simp [Src.rawReg] at hraw

/-- A format I instruction without an extension word. -/
theorem recordsI_plain {i : Instr} {op : Nat} {bw : BW} {src : Src} {dst : Dst} (h : 4 ≤ op ∧ op < 16)
    (he : encode i = [wordI op bw src dst]) (hwf : i.wf = (src.wf && dst.wf)) :
    RecordsI i (Machine.sizeOf bw) none src dst (op != 4) := by
  intro hi s a s1 b s2 _ hs hd
  obtain ⟨hsrc, hdst⟩ := Bool.and_eq_true_iff.1 (hwf.symm.trans hi)
  have ho := operandsOf_wordI h bw hsrc hdst none none s
  rw [Option.map_none, sizeOfBits_none] at ho
  obtain ⟨r, hr, hsource, hdest⟩ := instrRecord_one (reservedWords_wordI h bw src dst) (ho.trans (twoOperands_ok hs hd))
  exact ⟨r, _, _, he ▸ hr, hsource, srcRecord_recorded .., hdest, dstRecord_recorded ..⟩

/-- A format I instruction after an extension word. -/
theorem recordsI_extended {i : Instr} {op : Nat} {al : Bool} {bw : BW} {ws : Size} {x : Ext} {src : Src} {dst : Dst}
    (h : 4 ≤ op ∧ op < 16) (he : encode i = [extWord al x, wordI op bw src dst]) (hwf : i.wf = x.wfTwo src dst)
    (hws : sizeOfBits (some al) (isByte bw) = ws) (hal : al = true ∨ bw = .byte) :
    RecordsI i ws (some x) src dst (op != 4) := by
  intro hi s a s1 b s2 hpc hs hd
  have hx : x.wfTwo src dst = true := hwf.symm.trans hi
  obtain ⟨⟨hsrc, hdst⟩, hform⟩ := wfTwo_iff.1 hx
  obtain ⟨-, -, -, -, hbw⟩ := wordI_operands h.2 bw src dst
  obtain ⟨-, hh, -, -, -, -, -, hlow⟩ := wordI_fields h.2 bw src dst
  have hn : 0 < count (some x) s → field (wordI op bw src dst) 3 0 ≠ 0 := fun hn h0 => by
    have hraw := hform.symm.trans (isRegForm_of_count_pos hn)
    exact hpc hn (dst_eq_pc (Bool.and_eq_true_iff.1 hraw).2 (hlow.symm.trans h0))
  have hres : reservedWords (some (extWord al x)) (wordI op bw src dst) (count (some x) s) = false :=
    reservedWords_extended (.inr (by omega)) hbw hal hn
  have ho := operandsOf_wordI h bw hsrc hdst (some (extWord al x)) (some x) (operandState (some x) s)
  rw [Option.map_some, bitAt_extWord, hws] at ho
  obtain ⟨r, hr, hsource, hdest⟩ := instrRecord_two (extBefore_wordI h hx al bw) hres (ho.trans (twoOperands_ok hs hd))
  exact ⟨r, _, _, he ▸ hr, hsource, srcRecord_recorded .., hdest, dstRecord_recorded ..⟩

/-- A two-operand operation is encoded with the opcode `op` in its four forms, and well formed when its operands are. -/
structure EncodedI (op : Nat) (plain : BW → Src → Dst → Instr) (xA xW xB : Ext → Src → Dst → Instr) : Prop where
  plain bw src dst : encode (plain bw src dst) = [wordI op bw src dst] ∧ (plain bw src dst).wf = (src.wf && dst.wf)
  extA x src dst : encode (xA x src dst) = [extWord false x, wordI op .byte src dst] ∧
    (xA x src dst).wf = x.wfTwo src dst
  extW x src dst : encode (xW x src dst) = [extWord true x, wordI op .word src dst] ∧
    (xW x src dst).wf = x.wfTwo src dst
  extB x src dst : encode (xB x src dst) = [extWord true x, wordI op .byte src dst] ∧
    (xB x src dst).wf = x.wfTwo src dst

/-- The four forms of a two-operand operation. For each operation of the model the encodings hold by computation. -/
theorem recordsAllI {plain : BW → Src → Dst → Instr} {xA xW xB : Ext → Src → Dst → Instr} (op : Nat)
    (h : 4 ≤ op ∧ op < 16 := by decide)
    (he : EncodedI op plain xA xW xB := by constructor <;> exact fun _ _ _ => ⟨rfl, rfl⟩) :
    RecordsAllI plain xA xW xB (op != 4) := fun src dst =>
  ⟨fun bw => recordsI_plain h (he.plain bw src dst).1 (he.plain bw src dst).2,
    fun x => recordsI_extended h (he.extA x src dst).1 (he.extA x src dst).2 rfl (.inr rfl),
    fun x => recordsI_extended h (he.extW x src dst).1 (he.extW x src dst).2 rfl (.inl rfl),
    fun x => recordsI_extended h (he.extB x src dst).1 (he.extB x src dst).2 rfl (.inl rfl)⟩

/-- A format II instruction without an extension word. -/
theorem recordsII_plain {i : Instr} {op : Nat} {bw : BW} {opd : Src} (h : op < 6) (he : encode i = [wordII op bw opd])
    (hwf : i.wf = opd.wf) : RecordsII i (Machine.sizeOf bw) none opd := by
  intro hi s a s1 _ hs
  have ho := operandsOf_wordII h bw (hwf.symm.trans hi) none none s
  rw [Option.map_none, sizeOfBits_none] at ho
  obtain ⟨r, hr, hsource, hdest⟩ := instrRecord_one (reservedWords_wordII h bw opd) (ho.trans (singleOperand_ok hs))
  exact ⟨r, _, he ▸ hr, hsource, srcRecord_recorded .., hdest⟩

/-- A format II instruction after an extension word. -/
theorem recordsII_extended {i : Instr} {op : Nat} {al : Bool} {bw : BW} {ws : Size} {x : Ext} {opd : Src} (h : op < 6)
    (he : encode i = [extWord al x, wordII op bw opd]) (hwf : i.wf = x.wfOne opd)
    (hws : sizeOfBits (some al) (isByte bw) = ws) (hal : al = true ∨ bw = .byte) : RecordsII i ws (some x) opd := by
  intro hi s a s1 hpc hs
  have hx : x.wfOne opd = true := hwf.symm.trans hi
  obtain ⟨hopd, hform⟩ := wfOne_iff.1 hx
  obtain ⟨-, -, hbw⟩ := wordII_operands h bw opd
  obtain ⟨hh, -, -, -, -, hlow⟩ := wordII_fields h bw opd
  have hn : 0 < count (some x) s → field (wordII op bw opd) 3 0 ≠ 0 := fun hn h0 =>
    hpc hn (src_eq_pc (hform.symm.trans (isRegForm_of_count_pos hn)) (hlow.symm.trans h0))
  have hres : reservedWords (some (extWord al x)) (wordII op bw opd) (count (some x) s) = false :=
    reservedWords_extended (.inl (by omega)) hbw hal hn
  have ho := operandsOf_wordII h bw hopd (some (extWord al x)) (some x) (operandState (some x) s)
  rw [Option.map_some, bitAt_extWord, hws] at ho
  obtain ⟨r, hr, hsource, hdest⟩ := instrRecord_two (extBefore_wordII h hx al bw) hres (ho.trans (singleOperand_ok hs))
  exact ⟨r, _, he ▸ hr, hsource, srcRecord_recorded .., hdest⟩

end Sys2Proof.Proofs
end

section
/-! PROOF. The operands of the address group, CALLA, PUSHM and POPM in the decoder's record, one equation per form (R119
to R122), and from all forms the statement about every instruction. -/

namespace Sys2Proof.Proofs

open Sys2Proof Sys2Proof.Machine

/-! ## The addresses of the fixed modes as plain arithmetic -/

/-- An address computation modulo 2^20 whose offset is a signed number. -/
theorem low20_add_toInt (a o : Slot) : low20 (a + o) = slotOf (((a.toNat : Int) + o.toInt) % 2 ^ 20).toNat := by
  apply BitVec.eq_of_toNat_eq
  rw [low20_toNat, BitVec.toNat_add, slotOf, BitVec.toNat_ofNat, BitVec.toInt_eq_toNat_cond]
  have := a.isLt
  have := o.isLt
  split <;> omega

theorem eaAbsolute_eq (hi : BitVec 4) (s : State) : eaAbsolute (some hi) s = fetchHigh hi s := by
  unfold eaAbsolute fetchHigh
  cases fetchNext s <;> rfl

theorem eaIndexed_eq (r : RegNum) (s : State) : eaIndexed none r s = fetchIndexed r s := by
  unfold eaIndexed fetchIndexed
  cases fetchNext s with
  | error c => rfl
  | ok p =>
    dsimp only
    rw [low20_add_toInt, extOffset, BitVec.toInt_signExtend_of_le (by decide)]

/-- Bits 19:16 above a word, as a signed 20-bit number (R148). -/
theorem toInt_extOffset (hi : BitVec 4) (w : Word) :
    (extOffset (some hi) w).toInt = signed .ext (hi.toNat * 65536 + w.toNat) := by
  have := hi.isLt
  have := w.isLt
  rw [extOffset, BitVec.toInt_signExtend_of_le (by decide), BitVec.toInt_eq_toNat_cond, BitVec.toNat_ofNat,
    Nat.mod_eq_of_lt (by omega)]
  simp only [signed, half, full, bits]
  split_ifs <;> omega

theorem eaSymbolic_eq (hi : BitVec 4) (s : State) : eaSymbolic (some hi) s = fetchSymbolic hi s := by
  unfold eaSymbolic fetchSymbolic
  cases fetchNext s with
  | error c => rfl
  | ok p =>
    dsimp only
    rw [low20_add_toInt, toInt_extOffset]

/-! ## The fixed-mode sources -/

/-- A memory operand whose bytes can be read: its address is where they were read, its value is masked. -/
theorem opMemory_of_busRead {a v : Slot} {s u : State} (h : busRead s a 4 .read = .ok (v, u)) :
    opMemory .ext a s = .ok (⟨trunc .ext v, .mem a⟩, u) := by
  rw [opMemory, nb, h]

theorem opIndirect_of_readInd {r : RegNum} {v : Slot} {s u : State} (h : readInd r s = .ok (v, u)) :
    opIndirect .ext r s = .ok (⟨trunc .ext v, .mem (s.base r)⟩, u) := opMemory_of_busRead h

theorem opAutoinc_of_readInd {r : RegNum} {v : Slot} {s u : State} (h : readInd r s = .ok (v, u)) :
    opAutoinc .ext r s = .ok (⟨trunc .ext v, .mem (s.base r)⟩, u.autoInc r 4) := by
  rw [opAutoinc, opMemory_of_busRead h, nb]

theorem opImmediate_of_fetchHigh {hi : BitVec 4} {v : Slot} {s u : State} (h : fetchHigh hi s = .ok (v, u)) :
    opImmediate .ext (some hi) s = .ok (⟨trunc .ext v, .none⟩, u) := by
  unfold fetchHigh at h
  split at h
  · rename_i w s1 hf
    cases h
    rw [opImmediate, hf]
    rfl
  · simp at h

/-- An operand at a computed address that can be read. -/
theorem opAt_of_readAt {ea : State → Except FaultCause (Slot × State)} {v : Slot} {s u : State}
    (h : readAt ea s = .ok (v, u)) :
    ∃ a, addressOf ea s = some a ∧ opAt .ext (ea s) = .ok (⟨trunc .ext v, .mem a⟩, u) := by
  unfold readAt at h
  split at h
  · rename_i a s1 he
    exact ⟨a, by rw [addressOf, he], by rw [he, opAt, opMemory_of_busRead h]⟩
  · simp at h

/-- A source that resolves and a destination register, as records. -/
theorem sourceThenRegister_ok {source : Operand → OperandRecord} {resolved : Except FaultCause (Operand × State)}
    {ws : Size} {d : RegNum} {a : Operand} {u : State} (h : resolved = .ok (a, u)) :
    sourceThenRegister source resolved ws d = .ok (some (source a), some (registerRecord ws d u)) := by
  rw [h]
  rfl

/-! ## From the operands of a core word to `RecordsFixed` and `RecordsStore` -/

theorem recordsFixed_of {i : Instr} {core : Word} {read : State → Except FaultCause (Slot × State)}
    {source : State → Slot → OperandRecord} {destination : State → Option OperandRecord} (he : encode i = [core])
    (hres : i.wf = true → reservedWords none core 0 = false)
    (ho : ∀ s v u, read s = .ok (v, u) → operandsOf none none core s = .ok (some (source s v), destination u)) :
    RecordsFixed i read source destination := by
  intro hi s v u h
  rw [he]
  exact instrRecord_one (hres hi) (ho s v u h)

/-! ## The address group (R119)

One equation per minor opcode for the operands the word is read to have. -/

section addrOperands

variable {core : Word} (s : State)

theorem addrOperands_indirect (h : field core 7 4 = 0x0) : addrOperands core s =
    sourceThenRegister (operandRecord .indirectRegister (some (regField core 8)) .ext true false)
      (opIndirect .ext (regField core 8) s) .ext (regField core 0) := by simp only [addrOperands, h]

theorem addrOperands_autoinc (h : field core 7 4 = 0x1) : addrOperands core s =
    sourceThenRegister (operandRecord .indirectAutoincrement (some (regField core 8)) .ext true false)
      (opAutoinc .ext (regField core 8) s) .ext (regField core 0) := by simp only [addrOperands, h]

theorem addrOperands_absolute (h : field core 7 4 = 0x2) : addrOperands core s =
    sourceThenRegister (operandRecord .absolute none .ext true false)
      (opAt .ext (eaAbsolute (some (nibble core 8)) s)) .ext (regField core 0) := by simp only [addrOperands, h]

theorem addrOperands_indexed (h : field core 7 4 = 0x3) : addrOperands core s =
    sourceThenRegister (operandRecord .indexed (some (regField core 8)) .ext true false)
      (opAt .ext (eaIndexed none (regField core 8) s)) .ext (regField core 0) := by simp only [addrOperands, h]

theorem addrOperands_count (ws : Size) (h : field core 7 4 = if ws = .word then 0x5 else 0x4) (hws : ws ≠ .byte) :
    addrOperands core s = sourceThenRegister (immediateRecord ws) (.ok (countOperand ws (field core 11 10), s)) ws
      (regField core 0) := by
  cases ws with
  | byte => exact absurd rfl hws
  | word | ext => simp only [addrOperands, h, if_true, reduceCtorEq, if_false]

theorem addrOperands_toAbsolute (h : field core 7 4 = 0x6) : addrOperands core s =
    registerThenAddress (regField core 8) .absolute none (eaAbsolute (some (nibble core 0)) s) := by
  simp only [addrOperands, h]

theorem addrOperands_toIndexed (h : field core 7 4 = 0x7) : addrOperands core s =
    registerThenAddress (regField core 8) .indexed (some (regField core 0)) (eaIndexed none (regField core 0) s) := by
  simp only [addrOperands, h]

theorem addrOperands_immediate {m : Nat} (h : field core 7 4 = m) (hm : 8 ≤ m ∧ m < 12) : addrOperands core s =
    sourceThenRegister (immediateRecord .ext) (opImmediate .ext (some (nibble core 8)) s) .ext (regField core 0) := by
  obtain ⟨hlo, hhi⟩ := hm
  interval_cases m <;> simp only [addrOperands, h]

theorem addrOperands_register {m : Nat} (h : field core 7 4 = m) (hm : 12 ≤ m ∧ m < 16) : addrOperands core s =
    sourceThenRegister (operandRecord .register (some (regField core 8)) .ext true false)
      (.ok (opRegister .ext (regField core 8) s, s)) .ext (regField core 0) := by
  obtain ⟨hlo, hhi⟩ := hm
  interval_cases m <;> simp only [addrOperands, h]

end addrOperands

theorem operandsOf_addr {core : Word} (h : field core 15 8 ≤ 0x0F) (s : State) :
    operandsOf none none core s = addrOperands core s := by
  simp only [operandsOf, if_pos h]

/-- `@PC+` alone is reserved among the address-group words (R160). -/
theorem reservedWords_addr {core : Word} (hh : field core 15 8 ≤ 0x0F) (h : field core 7 4 = 1 → field core 11 8 ≠ 0) :
    reservedWords none core 0 = false := by
  simp only [reservedWords, if_pos hh]
  simpa using h

/-- A fixed-mode address-group instruction that reads a source and names a destination register. -/
theorem recordsFixed_addr {i : Instr} {m a b : Nat} {read : State → Except FaultCause (Slot × State)}
    {source : State → Slot → OperandRecord} {destination : State → Option OperandRecord}
    (he : encode i = [wordA m a b]) (hm : m < 16) (ha : a < 16) (hb : b < 16) (hwf : i.wf = true → m = 1 → a ≠ 0)
    (ho : ∀ s v u, read s = .ok (v, u) →
      addrOperands (wordA m a b) s = .ok (some (source s v), destination u)) :
    RecordsFixed i read source destination := by
  obtain ⟨hh, hs, hminor, -⟩ := wordA_fields hm ha hb
  refine recordsFixed_of he (fun hi => reservedWords_addr (by omega) ?_) fun s v u h => ?_
  · rw [hs, hminor]
    exact hwf hi
  · rw [operandsOf_addr (by omega), ho s v u h]

/-- A MOVA to memory. -/
theorem recordsStore_addr {i : Instr} {m a b : Nat} {r : RegNum} {mode : AddressingMode} {index : Option RegNum}
    {ea : State → Except FaultCause (Slot × State)} (he : encode i = [wordA m a b]) (hm : m < 16) (ha : a < 16)
    (hb : b < 16) (h1 : m ≠ 1)
    (ho : ∀ s, addrOperands (wordA m a b) s = registerThenAddress r mode index (ea s)) :
    RecordsStore i r mode index ea := by
  obtain ⟨hh, -, hminor, -⟩ := wordA_fields hm ha hb
  intro s t u h
  have hops : operandsOf none none (wordA m a b) s =
      .ok (some (registerRecord .ext r u), some ⟨none, some t, index, mode, .ext, false, false⟩) := by
    rw [operandsOf_addr (by omega), ho, h]
    rfl
  rw [he]
  exact instrRecord_one (reservedWords_addr (by omega) fun h => absurd (hminor.symm.trans h) h1) hops

/-- The register and nibble fields of an address-group word (R119). -/
theorem wordA_operands {m : Nat} (hm : m < 16) {a b : Nat} (ha : a < 16) (hb : b < 16) :
    field (wordA m a b) 7 4 = m ∧ (∀ r : RegNum, r.val = a → regField (wordA m a b) 8 = r) ∧
      (∀ d : RegNum, d.val = b → regField (wordA m a b) 0 = d) ∧
      (∀ hi : BitVec 4, hi.toNat = a → nibble (wordA m a b) 8 = hi) ∧
      (∀ hi : BitVec 4, hi.toNat = b → nibble (wordA m a b) 0 = hi) := by
  obtain ⟨-, hs, hminor, hd⟩ := wordA_fields hm ha hb
  exact ⟨hminor, fun r h => regField_of_field (hs.trans h.symm), fun d h => regField_of_field (hd.trans h.symm),
    fun hi h => nibble_of_field (hs.trans h.symm), fun hi h => nibble_of_field (hd.trans h.symm)⟩

/-- The record of a register that an address-group instruction names as its destination. -/
def destinationRecord (d : RegNum) (u : State) : Option OperandRecord := some (registerRecord .ext d u)

theorem records_movaInd (r d : RegNum) : RecordsFixed (.movaInd r d) (readInd r)
    (fun s v => fixedRecord .indirectRegister (some r) .ext v (some (s.base r))) (destinationRecord d) := by
  obtain ⟨hminor, hr, hd, -⟩ := wordA_operands (m := 0) (by decide) r.isLt d.isLt
  refine recordsFixed_addr rfl (by decide) r.isLt d.isLt (by simp) fun s v u h => ?_
  rw [addrOperands_indirect s hminor, hr r rfl, hd d rfl, sourceThenRegister_ok (opIndirect_of_readInd h)]
  rfl

theorem records_movaInc (r d : RegNum) : RecordsFixed (.movaInc r d) (readInd r)
    (fun s v => fixedRecord .indirectAutoincrement (some r) .ext v (some (s.base r)))
    (fun u => destinationRecord d (u.autoInc r 4)) := by
  obtain ⟨hminor, hr, hd, -⟩ := wordA_operands (m := 1) (by decide) r.isLt d.isLt
  refine recordsFixed_addr rfl (by decide) r.isLt d.isLt (fun hwf _ h0 => ?_) fun s v u h => ?_
  · simp [Instr.wf, show r = 0 from Fin.ext h0] at hwf
  · rw [addrOperands_autoinc s hminor, hr r rfl, hd d rfl, sourceThenRegister_ok (opAutoinc_of_readInd h)]
    rfl

theorem records_movaIdx (r d : RegNum) : RecordsFixed (.movaIdx r d) (readAt (fetchIndexed r))
    (fun s v => fixedRecord .indexed (some r) .ext v (addressOf (fetchIndexed r) s)) (destinationRecord d) := by
  obtain ⟨hminor, hr, hd, -⟩ := wordA_operands (m := 3) (by decide) r.isLt d.isLt
  refine recordsFixed_addr rfl (by decide) r.isLt d.isLt (by simp) fun s v u h => ?_
  obtain ⟨a, ha, hop⟩ := opAt_of_readAt h
  rw [addrOperands_indexed s hminor, hr r rfl, hd d rfl, eaIndexed_eq, sourceThenRegister_ok hop, ha]
  rfl

theorem records_movaAbs (hi : BitVec 4) (d : RegNum) : RecordsFixed (.movaAbs hi d) (readAt (fetchHigh hi))
    (fun s v => fixedRecord .absolute none .ext v (addressOf (fetchHigh hi) s)) (destinationRecord d) := by
  obtain ⟨hminor, -, hd, hhi, -⟩ := wordA_operands (m := 2) (by decide) hi.isLt d.isLt
  refine recordsFixed_addr rfl (by decide) hi.isLt d.isLt (by simp) fun s v u h => ?_
  obtain ⟨a, ha, hop⟩ := opAt_of_readAt h
  rw [addrOperands_absolute s hminor, hhi hi rfl, hd d rfl, eaAbsolute_eq, sourceThenRegister_ok hop, ha]
  rfl

/-- MOVA, CMPA, ADDA and SUBA with two registers. -/
theorem records_registers {i : Instr} {m : Nat} {r d : RegNum} (he : encode i = [wordA m r.val d.val])
    (hm : 12 ≤ m ∧ m < 16) :
    RecordsFixed i (readReg r) (fun s _ => registerRecord .ext r s) (destinationRecord d) := by
  obtain ⟨hminor, hr, hd, -⟩ := wordA_operands hm.2 r.isLt d.isLt
  refine recordsFixed_addr he hm.2 r.isLt d.isLt (by omega) fun s v u h => ?_
  cases h
  rw [addrOperands_register s hminor hm, hr r rfl, hd d rfl, sourceThenRegister_ok rfl]
  rfl

/-- MOVA, CMPA, ADDA and SUBA with an immediate. -/
theorem records_immediate {i : Instr} {m : Nat} {hi : BitVec 4} {d : RegNum}
    (he : encode i = [wordA m hi.toNat d.val]) (hm : 8 ≤ m ∧ m < 12) :
    RecordsFixed i (fetchHigh hi) (fun _ v => fixedRecord .immediate none .ext v none) (destinationRecord d) := by
  obtain ⟨hminor, -, hd, hhi, -⟩ := wordA_operands (show m < 16 by omega) hi.isLt d.isLt
  refine recordsFixed_addr he (by omega) hi.isLt d.isLt (by omega) fun s v u h => ?_
  rw [addrOperands_immediate s hminor hm, hhi hi rfl, hd d rfl, sourceThenRegister_ok (opImmediate_of_fetchHigh h)]
  rfl

theorem records_movaToIdx (r d : RegNum) : RecordsStore (.movaToIdx r d) r .indexed (some d) (fetchIndexed d) := by
  obtain ⟨hminor, hr, hd, -⟩ := wordA_operands (m := 7) (by decide) r.isLt d.isLt
  refine recordsStore_addr rfl (by decide) r.isLt d.isLt (by decide) fun s => ?_
  rw [addrOperands_toIndexed s hminor, hr r rfl, hd d rfl, eaIndexed_eq]

theorem records_movaToAbs (r : RegNum) (hi : BitVec 4) :
    RecordsStore (.movaToAbs r hi) r .absolute none (fetchHigh hi) := by
  obtain ⟨hminor, hr, -, -, hhi⟩ := wordA_operands (m := 6) (by decide) r.isLt hi.isLt
  refine recordsStore_addr rfl (by decide) r.isLt hi.isLt (by decide) fun s => ?_
  rw [addrOperands_toAbsolute s hminor, hr r rfl, hhi hi rfl, eaAbsolute_eq]

/-- A rotate: its count and its register, both at its width (R120). -/
theorem records_rotate {i : Instr} {n : BitVec 2} {id w : Nat} {d : RegNum} {ws : Size}
    (he : encode i = [wordRot n id w d]) (hid : id < 4) (hw : w < 2) (hws : ws = if w = 1 then .word else .ext) :
    RecordsFixed i (readCount n.toNat) (fun _ v => fixedRecord .immediate none ws v none)
      (fun u => some (registerRecord ws d u)) := by
  obtain ⟨hh, hn, hminor, hd⟩ := wordRot_fields n hid hw d
  refine recordsFixed_of he (fun _ => reservedWords_addr hh (by omega)) fun s v u h => ?_
  cases h
  have hfield : field (wordRot n id w d) 7 4 = if ws = .word then 0x5 else 0x4 := by
    rw [hminor, hws]
    interval_cases w <;> rfl
  have hbyte : ws ≠ .byte := by
    rw [hws]
    split <;> simp
  rw [operandsOf_addr hh, addrOperands_count s ws hfield hbyte, regField_of_field hd, hn, sourceThenRegister_ok rfl]
  rfl

/-! ## PUSHM and POPM (R122) -/

/-- PUSHM and POPM: their count and their register, both at their width. -/
theorem records_stack {i : Instr} {m : Nat} {n : BitVec 4} {d : RegNum} {ws : Size}
    (he : encode i = [wordP (0x14 + m) n d]) (hm : m < 4) (hwf : i.wf = if m < 2 then pushRangeOk n d else popRangeOk n d)
    (hws : ws = if m % 2 = 1 then .word else .ext) :
    RecordsFixed i (readCount n.toNat) (fun _ v => fixedRecord .immediate none ws v none)
      (fun u => some (registerRecord ws d u)) := by
  obtain ⟨hh, hbit, hn, hd⟩ := wordP_fields hm n d
  refine recordsFixed_of he (fun hi => ?_) fun s v u h => ?_
  · rw [hwf] at hi
    simp only [reservedWords, hh, nibble_of_field hn, regField_of_field hd]
    rw [if_neg (by omega), if_neg (by omega), if_neg (by omega)]
    by_cases h2 : m < 2
    · rw [if_pos (by omega), ← Bool.not_true, ← hi, if_pos h2]
    · rw [if_neg (by omega), if_pos (by omega), ← Bool.not_true, ← hi, if_neg h2]
  · cases h
    have hsize : (if bitAt (wordP (0x14 + m) n d) 8 then Size.word else Size.ext) = ws := by
      rw [bitAt, hbit, hws]
      simp only [beq_iff_eq]
    simp only [operandsOf, hh, hn, regField_of_field hd, hsize]
    rw [if_neg (by omega), if_neg (by omega), if_neg (by omega), if_pos (by omega), sourceThenRegister_ok rfl]
    rfl

/-! ## CALLA (R121)

One equation per minor opcode for the operand the word is read to have, where it resolves. -/

section callaOperand

variable {core : Word} {s u : State} {a : Operand}

/-- The record of a CALLA's operand, and no destination. -/
def callaRecord (mode : AddressingMode) (r : Option RegNum) (a : Operand) : OperandRecords :=
  .ok (some (operandRecord mode r .ext true false a), none)

theorem callaOperand_register (h : field core 7 4 = 0x4) : callaOperand core s =
    callaRecord .register (some (regField core 0)) (opRegister .ext (regField core 0) s) := by
  simp only [callaOperand, h, callaRecord]

theorem callaOperand_indexed (h : field core 7 4 = 0x5)
    (ho : opAt .ext (eaIndexed none (regField core 0) s) = .ok (a, u)) :
    callaOperand core s = callaRecord .indexed (some (regField core 0)) a := by
  simp only [callaOperand, h, ho, callaRecord]

theorem callaOperand_indirect (h : field core 7 4 = 0x6) (ho : opIndirect .ext (regField core 0) s = .ok (a, u)) :
    callaOperand core s = callaRecord .indirectRegister (some (regField core 0)) a := by
  simp only [callaOperand, h, ho, callaRecord]

theorem callaOperand_autoinc (h : field core 7 4 = 0x7) (ho : opAutoinc .ext (regField core 0) s = .ok (a, u)) :
    callaOperand core s = callaRecord .indirectAutoincrement (some (regField core 0)) a := by
  simp only [callaOperand, h, ho, callaRecord]

theorem callaOperand_absolute (h : field core 7 4 = 0x8)
    (ho : opAt .ext (eaAbsolute (some (nibble core 0)) s) = .ok (a, u)) :
    callaOperand core s = callaRecord .absolute none a := by
  simp only [callaOperand, h, ho, callaRecord]

theorem callaOperand_symbolic (h : field core 7 4 = 0x9)
    (ho : opAt .ext (eaSymbolic (some (nibble core 0)) s) = .ok (a, u)) :
    callaOperand core s = callaRecord .symbolic none a := by
  simp only [callaOperand, h, ho, callaRecord]

theorem callaOperand_immediate (h : field core 7 4 = 0xB)
    (ho : opImmediate .ext (some (nibble core 0)) s = .ok (a, u)) :
    callaOperand core s = callaRecord .immediate none a := by
  simp only [callaOperand, h, ho, callaRecord]

end callaOperand

/-- A CALLA, whose minor opcode is none of the reserved ones and not RETI's (R279). -/
theorem recordsFixed_calla {i : Instr} {m b : Nat} {read : State → Except FaultCause (Slot × State)}
    {source : State → Slot → OperandRecord} (he : encode i = [wordC (0x130 + m) b]) (hm : m ∈ [4, 5, 6, 7, 8, 9, 11])
    (hb : b < 16) (hwf : i.wf = true → m = 7 → b ≠ 0)
    (ho : ∀ s v u, read s = .ok (v, u) → callaOperand (wordC (0x130 + m) b) s = .ok (some (source s v), none)) :
    RecordsFixed i read source (fun _ => none) := by
  have hm16 : m < 16 := by
    simp only [List.mem_cons, List.not_mem_nil, or_false] at hm
    omega
  obtain ⟨hh, hminor, hlow⟩ := wordC_fields hm16 hb
  refine recordsFixed_of he (fun hi => ?_) fun s v u h => ?_
  · have hlisted : [1, 2, 3, 10, 12, 13, 14, 15].contains m = false := by
      simp only [List.mem_cons, List.not_mem_nil, or_false] at hm
      rcases hm with rfl | rfl | rfl | rfl | rfl | rfl | rfl <;> rfl
    simp only [reservedWords, hh, hminor, hlow, hlisted, Bool.false_or]
    simpa using hwf hi
  · simp only [operandsOf, hh]
    exact ho s v u h

theorem wordC_operands {m : Nat} (hm : m < 16) {b : Nat} (hb : b < 16) :
    field (wordC (0x130 + m) b) 7 4 = m ∧ (∀ d : RegNum, d.val = b → regField (wordC (0x130 + m) b) 0 = d) ∧
      (∀ hi : BitVec 4, hi.toNat = b → nibble (wordC (0x130 + m) b) 0 = hi) := by
  obtain ⟨-, hminor, hlow⟩ := wordC_fields hm hb
  exact ⟨hminor, fun d h => regField_of_field (hlow.trans h.symm), fun hi h => nibble_of_field (hlow.trans h.symm)⟩

theorem records_callaReg (d : RegNum) :
    RecordsFixed (.callaReg d) (readReg d) (fun s _ => registerRecord .ext d s) (fun _ => none) := by
  obtain ⟨hminor, hd, -⟩ := wordC_operands (m := 4) (by decide) d.isLt
  refine recordsFixed_calla (m := 4) rfl (by decide) d.isLt (by simp) fun s v u h => ?_
  rw [callaOperand_register hminor, hd d rfl]
  rfl

theorem records_callaInd (d : RegNum) : RecordsFixed (.callaInd d) (readInd d)
    (fun s v => fixedRecord .indirectRegister (some d) .ext v (some (s.base d))) (fun _ => none) := by
  obtain ⟨hminor, hd, -⟩ := wordC_operands (m := 6) (by decide) d.isLt
  refine recordsFixed_calla (m := 6) rfl (by decide) d.isLt (by simp) fun s v u h => ?_
  rw [callaOperand_indirect hminor ((hd d rfl).symm ▸ opIndirect_of_readInd h), hd d rfl]
  rfl

theorem records_callaInc (d : RegNum) : RecordsFixed (.callaInc d) (readInd d)
    (fun s v => fixedRecord .indirectAutoincrement (some d) .ext v (some (s.base d))) (fun _ => none) := by
  obtain ⟨hminor, hd, -⟩ := wordC_operands (m := 7) (by decide) d.isLt
  refine recordsFixed_calla (m := 7) rfl (by decide) d.isLt (fun hwf _ h0 => ?_) fun s v u h => ?_
  · simp [Instr.wf, show d = 0 from Fin.ext h0] at hwf
  · rw [callaOperand_autoinc hminor ((hd d rfl).symm ▸ opAutoinc_of_readInd h), hd d rfl]
    rfl

theorem records_callaIdx (d : RegNum) : RecordsFixed (.callaIdx d) (readAt (fetchIndexed d))
    (fun s v => fixedRecord .indexed (some d) .ext v (addressOf (fetchIndexed d) s)) (fun _ => none) := by
  obtain ⟨hminor, hd, -⟩ := wordC_operands (m := 5) (by decide) d.isLt
  refine recordsFixed_calla (m := 5) rfl (by decide) d.isLt (by simp) fun s v u h => ?_
  obtain ⟨a, ha, hop⟩ := opAt_of_readAt h
  rw [← eaIndexed_eq] at hop
  rw [callaOperand_indexed hminor ((hd d rfl).symm ▸ hop), hd d rfl, ha]
  rfl

theorem records_callaAbs (hi : BitVec 4) : RecordsFixed (.callaAbs hi) (readAt (fetchHigh hi))
    (fun s v => fixedRecord .absolute none .ext v (addressOf (fetchHigh hi) s)) (fun _ => none) := by
  obtain ⟨hminor, -, hhi⟩ := wordC_operands (m := 8) (by decide) hi.isLt
  refine recordsFixed_calla (m := 8) rfl (by decide) hi.isLt (by simp) fun s v u h => ?_
  obtain ⟨a, ha, hop⟩ := opAt_of_readAt h
  rw [← eaAbsolute_eq] at hop
  rw [callaOperand_absolute hminor ((hhi hi rfl).symm ▸ hop), ha]
  rfl

theorem records_callaSym (hi : BitVec 4) : RecordsFixed (.callaSym hi) (readAt (fetchSymbolic hi))
    (fun s v => fixedRecord .symbolic none .ext v (addressOf (fetchSymbolic hi) s)) (fun _ => none) := by
  obtain ⟨hminor, -, hhi⟩ := wordC_operands (m := 9) (by decide) hi.isLt
  refine recordsFixed_calla (m := 9) rfl (by decide) hi.isLt (by simp) fun s v u h => ?_
  obtain ⟨a, ha, hop⟩ := opAt_of_readAt h
  rw [← eaSymbolic_eq] at hop
  rw [callaOperand_symbolic hminor ((hhi hi rfl).symm ▸ hop), ha]
  rfl

theorem records_callaImm (hi : BitVec 4) : RecordsFixed (.callaImm hi) (fetchHigh hi)
    (fun _ v => fixedRecord .immediate none .ext v none) (fun _ => none) := by
  obtain ⟨hminor, -, hhi⟩ := wordC_operands (m := 11) (by decide) hi.isLt
  refine recordsFixed_calla (m := 11) rfl (by decide) hi.isLt (by simp) fun s v u h => ?_
  rw [callaOperand_immediate hminor ((hhi hi rfl).symm ▸ opImmediate_of_fetchHigh h)]
  rfl

/-! ## Every instruction -/

/-- The four instructions of an immediate and a register (R247, R256 to R258). -/
theorem records_immediates (hi : BitVec 4) (d : RegNum) :
    ∀ i ∈ [Instr.movaImm hi d, .cmpaImm hi d, .addaImm hi d, .subaImm hi d],
      RecordsFixed i (fetchHigh hi) (fun _ v => fixedRecord .immediate none .ext v none) (destinationRecord d) := by
  simp only [List.forall_mem_cons]
  exact ⟨records_immediate rfl (by decide), records_immediate rfl (by decide), records_immediate rfl (by decide),
    records_immediate rfl (by decide), by simp⟩

/-- The four instructions of two registers (R248, R256 to R258). -/
theorem records_registerPairs (r d : RegNum) :
    ∀ i ∈ [Instr.movaReg r d, .cmpaReg r d, .addaReg r d, .subaReg r d],
      RecordsFixed i (readReg r) (fun s _ => registerRecord .ext r s) (destinationRecord d) := by
  simp only [List.forall_mem_cons]
  exact ⟨records_registers rfl (by decide), records_registers rfl (by decide), records_registers rfl (by decide),
    records_registers rfl (by decide), by simp⟩

/-- The rotates (R251 to R254). -/
theorem records_rotates (n : BitVec 2) (d : RegNum) :
    ∀ p ∈ [(Instr.rrcmA n d, Size.ext), (.rramA n d, .ext), (.rlamA n d, .ext), (.rrumA n d, .ext),
        (.rrcmW n d, .word), (.rramW n d, .word), (.rlamW n d, .word), (.rrumW n d, .word)],
      RecordsFixed p.1 (readCount n.toNat) (fun _ v => fixedRecord .immediate none p.2 v none)
        (fun u => some (registerRecord p.2 d u)) := by
  intro p hp
  simp only [List.mem_cons, List.not_mem_nil, or_false] at hp
  rcases hp with rfl | rfl | rfl | rfl | rfl | rfl | rfl | rfl <;>
    exact records_rotate rfl (by decide) (by decide) rfl

/-- PUSHM and POPM (R283 to R286). -/
theorem records_stacks (n : BitVec 4) (d : RegNum) :
    ∀ p ∈ [(Instr.pushmA n d, Size.ext), (.pushmW n d, .word), (.popmA n d, .ext), (.popmW n d, .word)],
      RecordsFixed p.1 (readCount n.toNat) (fun _ v => fixedRecord .immediate none p.2 v none)
        (fun u => some (registerRecord p.2 d u)) := by
  simp only [List.forall_mem_cons]
  exact ⟨records_stack (m := 0) rfl (by decide) rfl rfl, records_stack (m := 1) rfl (by decide) rfl rfl,
    records_stack (m := 2) rfl (by decide) rfl rfl, records_stack (m := 3) rfl (by decide) rfl rfl, by simp⟩

/-- Format II after an extension word, every width that is not reserved (R295). -/
theorem records_extendedII (x : Ext) (opd : Src) :
    ∀ p ∈ [(Instr.rrcxA x opd, Size.ext), (.rrcxW x opd, .word), (.rrcxB x opd, .byte), (.swpbxA x opd, .ext),
        (.swpbxW x opd, .word), (.swpbxB x opd, .byte), (.rraxA x opd, .ext), (.rraxW x opd, .word),
        (.rraxB x opd, .byte), (.sxtxA x opd, .ext), (.sxtxW x opd, .word), (.sxtxB x opd, .byte),
        (.pushxA x opd, .ext), (.pushxW x opd, .word), (.pushxB x opd, .byte), (.callxA x opd, .ext),
        (.callxW x opd, .word), (.callxB x opd, .byte)],
      RecordsII p.1 p.2 (some x) opd := by
  intro p hp
  simp only [List.mem_cons, List.not_mem_nil, or_false] at hp
  rcases hp with rfl | rfl | rfl | rfl | rfl | rfl | rfl | rfl | rfl | rfl | rfl | rfl | rfl | rfl | rfl | rfl | rfl |
    rfl <;> exact recordsII_extended (by decide) rfl rfl rfl (by decide)

/-- Settles O39: formats I and II from their encodings, the other groups form by form. -/
theorem recordHoldsOperands : Obligations.RecordHoldsOperands := by
  refine ⟨recordsAllI 4, recordsAllI 5, recordsAllI 6, recordsAllI 7, recordsAllI 8, recordsAllI 9, recordsAllI 10,
    recordsAllI 11, recordsAllI 12, recordsAllI 13, recordsAllI 14, recordsAllI 15, fun opd bw => ?_, fun opd => ?_,
    records_extendedII, fun r d => ?_, fun hi d => ?_, records_rotates, records_stacks, fun d => ?_, fun hi => ?_⟩
  · exact ⟨recordsII_plain (op := 0) (by decide) rfl rfl, recordsII_plain (op := 2) (by decide) rfl rfl,
      recordsII_plain (op := 4) (by decide) rfl rfl, recordsII_plain (op := 5) (by decide) rfl rfl⟩
  · exact ⟨recordsII_plain (op := 1) (bw := .word) (by decide) rfl rfl,
      recordsII_plain (op := 1) (bw := .byte) (by decide) rfl rfl,
      recordsII_plain (op := 3) (bw := .word) (by decide) rfl rfl,
      recordsII_plain (op := 3) (bw := .byte) (by decide) rfl rfl⟩
  · exact ⟨records_movaInd r d, records_movaInc r d, records_movaIdx r d, records_registerPairs r d,
      records_movaToIdx r d⟩
  · exact ⟨records_movaAbs hi d, records_immediates hi d, records_movaToAbs d hi⟩
  · exact ⟨records_callaReg d, records_callaInd d, records_callaInc d, records_callaIdx d⟩
  · exact ⟨records_callaAbs hi, records_callaSym hi, records_callaImm hi⟩

end Sys2Proof.Proofs
end

section
/-! PROOF. The bus and the memory device (spec/20_memory.md): what every step keeps of the routing table and of the
devices' writes, which device an address is routed to, and what an access does, by width, bounds and device. -/

namespace Sys2Proof.Proofs

open Sys2Proof Sys2Proof.Machine

/-! ## What every step keeps (R75, R84) -/

/-- Settles O22: no part of a cycle changes the parameters. -/
theorem parametersFixed : Obligations.ParametersFixed := by
  intro s t h
  obtain ⟨n, -, k, hk⟩ := step_keeps h
  exact hk.params

/-- Settles O25: each part of a cycle adds to the devices' writes or leaves them. -/
theorem deviceWritesStay : Obligations.DeviceWritesStay := by
  intro s t h
  obtain ⟨n, -, k, hk⟩ := step_keeps h
  exact hk.sent

/-! ## Widths (R77) -/

theorem busWidth_iff (n : Nat) : busWidth n = true ↔ n = 1 ∨ n = 2 ∨ n = 4 := by simp [busWidth, or_assoc]

/-- Settles O32: the width is looked at first. -/
theorem otherWidthsFault : Obligations.OtherWidthsFault := by
  intro s a v n kind h1 h2 h4
  have hw : ¬ busWidth n = true := by simp [busWidth_iff, h1, h2, h4]
  exact ⟨if_neg hw, if_neg hw⟩

/-- A number cut to the bytes of a bus width fits a slot. -/
theorem ofNat_mod_toNat {n : Nat} (hw : busWidth n = true) (x : Nat) :
    (BitVec.ofNat 32 (x % 2 ^ (8 * n))).toNat = x % 2 ^ (8 * n) := by
  rcases (busWidth_iff n).1 hw with rfl | rfl | rfl <;> simp only [BitVec.toNat_ofNat] <;> omega

/-! ## Memory's bounds (R80) -/

/-- A write to memory out of range faults (R80). -/
theorem busWrite_range {s : State} {a v : Slot} {n : Nat} (hw : busWidth n = true)
    (hr : resolve s.params a = .memory) (h : Config.memSize < a.toNat + n) :
    busWrite s a n v = .error (.addressOutOfRange a n .write) := by
  have hrefused : ¬ accepts s a n := by simpa [accepts, hr] using h
  rw [busWrite_refused hw hrefused, writeFault, if_pos hr]

/-- Settles O31: the two sides of the bound, each with what the access answers there. -/
theorem memoryBounds : Obligations.MemoryBounds := by
  intro s a v n kind hn hr
  have hw := (busWidth_iff n).2 hn
  refine ⟨⟨fun h => ⟨_, busRead_memory hw hr h⟩, ?_⟩, ⟨fun h => ⟨_, busWrite_memory hw hr h⟩, ?_⟩,
    fun h => ⟨busRead_range hw hr h, busWrite_range hw hr h⟩⟩
  · rintro ⟨⟨x, t⟩, h⟩
    obtain ⟨-, -, -, hmem⟩ := busRead_ok h
    exact (hmem hr).2.1
  · rintro ⟨t, h⟩
    obtain ⟨-, ⟨-, hrange, -⟩ | ⟨hdevice, -, -⟩⟩ := busWrite_ok h
    · exact hrange
    · exact absurd hr hdevice

/-! ## Routing (R72, R74) -/

/-- A device claims the addresses between the ends of a range of its own, both included (R71). -/
theorem claims_iff (d : DeviceParams) (a : Slot) :
    d.claims a = true ↔ ∃ r ∈ d.ranges, r.first.toNat ≤ a.toNat ∧ a.toNat ≤ r.last.toNat := by
  simp [DeviceParams.claims, AddrRange.holds, BitVec.le_def]

/-- The ports are registered in the order of their numbers (R72). -/
theorem portOrder_eq : portOrder = List.finRange 8 := by decide

/-- The first port that claims an address is found. -/
theorem find_port {p : Params} {a : Slot} {k : Fin 8} (hbefore : ∀ j < k, ¬ (p.ports[j]).claims a = true)
    (hk : (p.ports[k]).claims a = true) : portOrder.find? (fun j => (p.ports[j]).claims a) = some k := by
  rw [portOrder_eq, List.find?_eq_some_iff_getElem]
  refine ⟨hk, k, by simp, by simp, fun j hj => ?_⟩
  simpa using hbefore ⟨j, by omega⟩ hj

/-- An address goes to the first port that claims it, where the watchdog does not (R74). -/
theorem resolve_port {p : Params} {a : Slot} {k : Fin 8} (hwdt : ¬ p.wdt.claims a = true)
    (hbefore : ∀ j < k, ¬ (p.ports[j]).claims a = true) (hk : (p.ports[k]).claims a = true) :
    resolve p a = .port k := by
  rw [resolve, if_neg hwdt, find_port hbefore hk]

/-- An address no device claims goes to memory (R74). -/
theorem resolve_memory {p : Params} {a : Slot} (hwdt : ¬ p.wdt.claims a = true)
    (hports : ∀ j : Fin 8, ¬ (p.ports[j]).claims a = true) : resolve p a = .memory := by
  have hnone : portOrder.find? (fun j => (p.ports[j]).claims a) = none :=
    List.find?_eq_none.2 fun j _ => hports j
  rw [resolve, if_neg hwdt, hnone]

/-- Settles O27: the watchdog, the first port, memory, and memory's bounds above its end. -/
theorem routingFirstWins : Obligations.RoutingFirstWins := by
  intro p a
  simp only [← claims_iff]
  refine ⟨resolve_watchdog, fun k => resolve_port, resolve_memory, ?_⟩
  rintro s n rfl hwdt hports ha hn
  have hw := (busWidth_iff n).2 hn
  have hr := resolve_memory hwdt hports
  have hrange : Config.memSize < a.toNat + n := by omega
  exact ⟨fun kind => busRead_range hw hr hrange, fun v => busWrite_range hw hr hrange⟩

/-! ## Devices (R76, R83, R84) -/

section Device

variable {s : State} {a v : Slot} {n : Nat}

/-- A read from a device that implements its width answers the free value cut to the width (R84). -/
theorem busRead_device {kind : AccessKind} (hw : busWidth n = true) (hr : resolve s.params a ≠ .memory)
    (h : (s.params.device (resolve s.params a)).implements n = true) :
    busRead s a n kind = .ok
      (BitVec.ofNat 32 ((Config.deviceAnswer s.deviceReads (resolve s.params a) a n).toNat % 2 ^ (8 * n)),
        { s with deviceReads := s.deviceReads + 1 }) := by
  unfold busRead
  rw [if_pos hw]
  split
  · exact absurd ‹_› hr
  · rw [if_pos h]

/-- A read from a device that lacks the width faults (R83). -/
theorem busRead_notImplemented {kind : AccessKind} (hw : busWidth n = true) (hr : resolve s.params a ≠ .memory)
    (h : (s.params.device (resolve s.params a)).implements n = false) :
    busRead s a n kind = .error (.notImplemented a n kind) := by
  unfold busRead
  rw [if_pos hw]
  split
  · exact absurd ‹_› hr
  · rw [if_neg (by simp [h])]

/-- An address that is not memory's accepts a width where its device implements it. -/
theorem accepts_device_iff (hr : resolve s.params a ≠ .memory) :
    accepts s a n ↔ (s.params.device (resolve s.params a)).implements n = true := by
  unfold accepts
  split
  · exact absurd ‹_› hr
  · rfl

/-- A write to a device that lacks the width faults (R83). -/
theorem busWrite_notImplemented (hw : busWidth n = true) (hr : resolve s.params a ≠ .memory)
    (h : (s.params.device (resolve s.params a)).implements n = false) :
    busWrite s a n v = .error (.notImplemented a n .write) := by
  have hrefused : ¬ accepts s a n := by simp [accepts_device_iff hr, h]
  rw [busWrite_refused hw hrefused, writeFault, if_neg hr]

end Device

/-- Settles O33: the width lacked, and the width implemented. -/
theorem deviceAccess : Obligations.DeviceAccess := by
  intro s a v n kind hn hr has
  have hw := (busWidth_iff n).2 hn
  refine ⟨fun h => ⟨busRead_notImplemented hw hr h, busWrite_notImplemented hw hr h⟩,
    fun h => ⟨⟨_, ?_, busRead_device hw hr h⟩, _, busWrite_device hw hr h, rfl, rfl, rfl, ofNat_mod_toNat hw _⟩⟩
  rw [ofNat_mod_toNat hw]
  exact Nat.mod_lt _ (Nat.two_pow_pos _)

/-- Settles O30: the access that starts in memory, and the one that starts in a device. -/
theorem startAddressDecides : Obligations.StartAddressDecides := by
  intro s a v n hn
  have hw := (busWidth_iff n).2 hn
  refine ⟨fun hr h => ⟨fun kind => busRead_memory hw hr h, busWrite_memory hw hr h⟩,
    fun hr => ⟨fun kind x t h => ?_, fun t h => ?_⟩⟩
  · obtain ⟨-, -, ht, -⟩ := busRead_ok h
    rw [ht]
    exact ⟨rfl, rfl⟩
  · obtain ⟨-, ⟨hmem, -, -⟩ | ⟨-, -, rfl⟩⟩ := busWrite_ok h
    · exact absurd hmem hr
    · exact ⟨rfl, _, rfl, ofNat_mod_toNat hw _⟩

/-! ## The bytes of memory (R78, R79) -/

/-- A byte is eight bits: `k` bytes as a power of two. -/
theorem pow_bytes (k : Nat) : 256 ^ k = 2 ^ (8 * k) := by
  rw [pow_mul, show (2 : Nat) ^ 8 = 256 by norm_num]

/-- A little-endian number is the sum of its bytes, each at its place (R78). -/
theorem readLE_eq_sum (m : Memory) (a n : Nat) :
    m.readLE a n = ((List.range n).map fun k => (m.get (a + k)).toNat * 2 ^ (8 * k)).sum := by
  induction n with
  | zero => rfl
  | succ n ih =>
    rw [Memory.readLE_add, ih, List.range_succ, List.map_append, List.sum_append, pow_bytes]
    simp [Memory.readLE, Nat.mul_comm]

/-- Settles O29: the bytes written, the others, and the bytes read. -/
theorem writeTouchesItsBytes : Obligations.WriteTouchesItsBytes := by
  intro s a v n hm hn hr hrange
  have hw := (busWidth_iff n).2 hn
  refine ⟨⟨_, busWrite_memory hw hr hrange, rfl, fun k hk => ?_,
    fun b hb => Memory.get_writeLE_out _ hm _ _ _ _ hrange hb⟩, fun kind => ?_⟩
  · rw [Memory.get_writeLE_in _ hm _ _ _ _ hrange hk, BitVec.toNat_ofNat, pow_bytes]
  · rw [busRead_memory hw hr hrange, readLE_eq_sum, slotOf]

/-- A number read within the bytes written is those bytes of the value (R79). -/
theorem readLE_writeLE_within {m : Memory} (hm : m.wf) {a v n i k : Nat} (hn : a + n ≤ Config.memSize)
    (hik : i + k ≤ n) : (m.writeLE a v n).readLE (a + i) k = v / 256 ^ i % 256 ^ k := by
  induction k generalizing i with
  | zero => simp [Memory.readLE, Nat.mod_one]
  | succ k ih =>
    rw [Memory.readLE, Memory.get_writeLE_in m hm a v n i hn (by omega), Nat.add_assoc, ih (by omega), pow_succ' 256 k,
      Nat.mod_mul, Nat.div_div_eq_div_mul, ← pow_succ]
    simp

/-- Bytes `i` to `i + k - 1` of a slot, as a number and by shift and mask. -/
theorem ofNat_bytes (v : Slot) (i : Nat) {k : Nat} (hk : k ≤ 4) :
    BitVec.ofNat 32 (v.toNat / 256 ^ i % 256 ^ k) = (v >>> (8 * i)) &&& BitVec.ofNat 32 (256 ^ k - 1) := by
  have hmask : 256 ^ k - 1 < 2 ^ 32 := by
    have : 256 ^ k ≤ 256 ^ 4 := Nat.pow_le_pow_right (by decide) hk
    omega
  have hfits : v.toNat / 2 ^ (8 * i) % 2 ^ (8 * k) < 2 ^ 32 :=
    ((Nat.mod_le _ _).trans (Nat.div_le_self _ _)).trans_lt v.isLt
  apply BitVec.eq_of_toNat_eq
  rw [BitVec.toNat_and, BitVec.toNat_ushiftRight, BitVec.toNat_ofNat, BitVec.toNat_ofNat, Nat.mod_eq_of_lt hmask,
    pow_bytes, pow_bytes, Nat.and_two_pow_sub_one_eq_mod, Nat.shiftRight_eq_div_pow, Nat.mod_eq_of_lt hfits]

/-- A read that starts `i` bytes into a write to memory and stays within it answers those bytes of the value (R79). -/
theorem busRead_within_busWrite {s t : State} {a v : Slot} {n : Nat} (hm : s.mem.wf)
    (hrange : a.toNat + n ≤ Config.memSize) (hr : resolve s.params a = .memory) (h : busWrite s a n v = .ok t)
    (b : Slot) (i k : Nat) (hb : b.toNat = a.toNat + i) (hrb : resolve s.params b = .memory)
    (hk : busWidth k = true) (hik : i + k ≤ n) :
    busRead t b k .read = .ok ((v >>> (8 * i)) &&& BitVec.ofNat 32 (256 ^ k - 1), t) := by
  obtain ⟨-, ⟨-, -, ht⟩ | ⟨hdevice, -, -⟩⟩ := busWrite_ok h
  · have hrt : resolve t.params b = .memory := by rw [ht]; exact hrb
    have hmem : t.mem = s.mem.writeLE a.toNat v.toNat n := by rw [ht]
    have hk4 : k ≤ 4 := by rcases (busWidth_iff k).1 hk with rfl | rfl | rfl <;> decide
    rw [busRead_memory hk hrt (by omega), hmem, hb, readLE_writeLE_within hm hrange hik, ofNat_bytes v i hk4]
  · exact absurd hr hdevice

/-- Settles O28: each read takes its bytes of the value written, and a value of 16 bits is its own low half. -/
theorem readAfterWrite : Obligations.ReadAfterWrite := by
  intro s t a v hm
  refine ⟨fun hrange hr hr1 h => ?_, fun hrange hr _ hr2 _ h => ?_⟩
  · have read := busRead_within_busWrite hm hrange hr h
    have h1 : (a + 1).toNat = a.toNat + 1 := by rw [Config.memSize] at hrange; bv_omega
    refine ⟨fun hv => ?_, ?_, ?_⟩
    · have hlow : v &&& 0xFFFF#32 = v := by
        apply BitVec.eq_of_toNat_eq
        rw [BitVec.toNat_and]
        exact (Nat.and_two_pow_sub_one_eq_mod _ 16).trans (Nat.mod_eq_of_lt hv)
      simpa [hlow] using read a 0 2 rfl hr rfl le_rfl
    · simpa using read a 0 1 rfl hr rfl (by decide)
    · simpa using read (a + 1) 1 1 h1 hr1 rfl le_rfl
  · have read := busRead_within_busWrite hm hrange hr h
    have h2 : (a + 2).toNat = a.toNat + 2 := by rw [Config.memSize] at hrange; bv_omega
    exact ⟨by simpa using read a 0 2 rfl hr rfl (by decide), by simpa using read (a + 2) 2 2 h2 hr2 rfl le_rfl⟩

end Sys2Proof.Proofs
end

section
/-! PROOF. Every instruction completes its cycle (R162, R402), and the rows of the opcode table that only fault: the
reserved ones (R160, R279) and the unimplemented ones (R161, R270, R298). -/

namespace Sys2Proof.Proofs

open Sys2Proof Sys2Proof.Machine

/-! ## Every instruction completes its cycle -/

/-- The outcome is a next state: neither a fault nor a refusal. -/
def Completes (o : Host.Outcome State Fault Refusal) : Prop := ∃ t, o = .next t

/-- A cycle finishes its execution or takes its fault (R313, R402). -/
theorem completes_cycle (s : State) (n : Nat) (body : Except FaultCause Done) : Completes (cycle s n body) := by
  rcases cycle_next s n body with ⟨d, -, hd⟩ | ⟨c, -, hc⟩
  · exact ⟨_, hd⟩
  · exact ⟨_, hc⟩

theorem completes_reserved (words : List Word) (s : State) : Completes (reserved words s) := completes_cycle s 0 _

theorem completes_pushMany (words : List Word) (ws : Size) (n : BitVec 4) (d : RegNum) (s : State) :
    Completes (pushMany words ws n d s) := by
  unfold pushMany
  split
  · exact completes_cycle s 0 _
  · exact completes_reserved words s

theorem completes_popMany (words : List Word) (ws : Size) (n : BitVec 4) (d : RegNum) (s : State) :
    Completes (popMany words ws n d s) := by
  unfold popMany
  split
  · exact completes_cycle s 0 _
  · exact completes_reserved words s

/-- Every meaning is one cycle; `@PC+` and the register ranges choose between two. -/
theorem completes_exec (i : Instr) (s : State) : Completes (exec i s) := by
  cases i with
  | reservedMovx | reservedAddx | reservedAddcx | reservedSubcx | reservedSubx | reservedCmpx | reservedDaddx
  | reservedBitx | reservedBicx | reservedBisx | reservedXorx | reservedAndx | reservedRrcx | reservedSwpbx
  | reservedRrax | reservedSxtx | reservedPushx | reservedCallx | reservedPrefixAddr | reservedPrefixCalla
  | reservedPrefixPushm | reservedPrefixPrefix | reservedPrefixJump | reservedMovaPcInc | reservedCallaPcInc
  | reservedMinor131 | reservedMinor132 | reservedMinor133 | reservedMinor13A | reservedMinor13C =>
    exact completes_reserved _ s
  | reti | jnz | jz | jnc | jc | jn | jge | jl | jmp => exact ⟨_, rfl⟩
  | movaReg | cmpaReg | addaReg | subaReg => exact ⟨_, rfl⟩
  | rrcmA | rrcmW | rramA | rramW | rlamA | rlamW | rrumA | rrumW => exact ⟨_, rfl⟩
  | movaInc r d =>
    simp only [exec, execMovaInc]
    split
    · exact completes_reserved _ s
    · exact completes_cycle s 0 _
  | callaInc d =>
    simp only [exec, execCallaInc]
    split
    · exact completes_reserved _ s
    · exact completes_cycle s 0 _
  | pushmA | pushmW => exact completes_pushMany _ _ _ _ s
  | popmA | popmW => exact completes_popMany _ _ _ _ s
  | _ => exact completes_cycle s _ _

/-- Settles O9: an instruction is one cycle, and a cycle answers a next state. -/
theorem execCompletes : Obligations.ExecCompletes := completes_exec

/-! ## The reserved rows (R160, R279) -/

/-- A reserved encoding takes its fault and does nothing else. -/
theorem reserved_next (words : List Word) (s : State) :
    reserved words s = .next (s.takeFault (.reservedOpcode words)) := rfl

/-- Settles O13: the meaning of each reserved row is `reserved` of its own words. -/
theorem reservedRowsHalt : Obligations.ReservedRowsHalt := by
  intro s
  simp only [List.forall_mem_cons, List.not_mem_nil, IsEmpty.forall_iff, implies_true, and_true]
  refine ⟨fun x src dst => ?_, fun x opd => ?_, fun p lo12 lo8 lo10 lo11 lo13 => ?_, fun d lo lo6 => ?_⟩
  · and_intros <;> exact reserved_next _ s
  · and_intros <;> exact reserved_next _ s
  · and_intros <;> exact reserved_next _ s
  · and_intros <;> exact reserved_next _ s

/-! ## The unimplemented rows (R161, R270, R298, R405) -/

/-- The operand of a word with no operation is resolved first, and its fault is taken first; then dispatch faults. -/
theorem cycle_unimplementedII {words : List Word} {ws : Size} {hi : Option (BitVec 4)} {opd : Src} {s u : State}
    {n : Nat} :
    (∀ o t, resolveSrc ws hi opd u = .ok (o, t) →
      cycle s n (unimplementedII words ws hi opd u) = .next (s.takeFault (.unimplementedInstruction words))) ∧
    (∀ c, resolveSrc ws hi opd u = .error c →
      cycle s n (unimplementedII words ws hi opd u) = .next (s.takeFault c)) := by
  refine ⟨fun o t h => ?_, fun c h => ?_⟩
  · rw [unimplementedII, h, cycle]
  · rw [unimplementedII, h, cycle]

/-- After an extension word, a repeated one whose operand is R0 is reserved first (R160, R315). -/
theorem extendedUnimplemented_halts (words : List Word) (ws : Size) (x : Ext) (opd : Src) (s : State) :
    (0 < count (some x) s → opd = .reg 0 →
      extendedUnimplemented words ws x opd s = .next (s.takeFault (.reservedOpcode words))) ∧
    ((0 < count (some x) s → opd ≠ .reg 0) →
      (∀ o u, resolveSrc ws (extDstHi x) opd (operandState (some x) s) = .ok (o, u) →
        extendedUnimplemented words ws x opd s = .next (s.takeFault (.unimplementedInstruction words))) ∧
      (∀ c, resolveSrc ws (extDstHi x) opd (operandState (some x) s) = .error c →
        extendedUnimplemented words ws x opd s = .next (s.takeFault c))) := by
  refine ⟨fun hn hpc => ?_, fun hpc => ?_⟩
  · rw [extendedUnimplemented, hpc]
    exact extended_reserved hn
  · rw [extendedUnimplemented, extended_run fun hn => beq_eq_false_iff_ne.2 (hpc hn)]
    exact cycle_unimplementedII

/-- Settles O14: each row is a word with no operation, with its own words at its own width. -/
theorem unimplementedRowsHalt : Obligations.UnimplementedRowsHalt := by
  refine ⟨fun ign s => rfl, fun opd s p hp => ?_, fun x opd s p hp => ?_⟩
  · simp only [List.mem_cons, List.not_mem_nil, or_false] at hp
    rcases hp with rfl | rfl | rfl | rfl | rfl | rfl <;> exact cycle_unimplementedII
  · simp only [List.mem_cons, List.not_mem_nil, or_false] at hp
    rcases hp with rfl | rfl | rfl | rfl | rfl | rfl | rfl | rfl | rfl | rfl <;>
      exact extendedUnimplemented_halts _ _ x opd s

end Sys2Proof.Proofs
end

section
/-! PROOF. The addressing modes of formats I and II (R140 to R155): the value and the place each source mode resolves to,
and the destination modes by the source modes. -/

namespace Sys2Proof.Proofs

open Sys2Proof Sys2Proof.Machine

/-! ## The constant generator (R140, R141) -/

theorem resolveSrc_const (ws : Size) (hi : Option (BitVec 4)) (k : CgConst) (s : State) :
    resolveSrc ws hi (.const k) s = .ok (⟨trunc ws (cgValue k), .none⟩, s) := rfl

/-- Every constant but -1 fits every width. -/
theorem trunc_cgValue {k : CgConst} (h : k ≠ .minusOne) (ws : Size) : trunc ws (cgValue k) = cgValue k := by
  refine trunc_of_lt (lt_of_lt_of_le ?_ (Nat.pow_le_pow_right (by decide) (show 8 ≤ bits ws by cases ws <;> decide)))
  cases k with
  | minusOne => exact absurd rfl h
  | _ => decide

/-- -1 is all ones at the width (R141). -/
theorem trunc_minusOne (ws : Size) : trunc ws (cgValue .minusOne) = slotOf (full ws - 1) := by cases ws <;> rfl

/-- Settles O35: As with register 2 or 3 names a constant, and a constant is masked and has no place. -/
theorem constantGenerator : Obligations.ConstantGenerator := by
  have hconst : ∀ (k : CgConst), k ≠ .minusOne → ∀ ws hi s,
      resolveSrc ws hi (.const k) s = .ok (⟨cgValue k, .none⟩, s) := fun k hk ws hi s => by
    rw [resolveSrc_const, trunc_cgValue hk]
  refine ⟨fun ws hi s => ⟨hconst .zero (by decide) ws hi s, hconst .one (by decide) ws hi s,
    hconst .two (by decide) ws hi s, ?_, hconst .four (by decide) ws hi s, hconst .eight (by decide) ws hi s⟩,
    by decide, fun ws hi reads s => ⟨rfl, rfl⟩, fun ws v s => rfl⟩
  rw [← trunc_minusOne]
  exact resolveSrc_const ws hi .minusOne s

/-! ## What a memory operand and an extension word give -/

theorem opMemory_ok_of_busRead {ws : Size} {a v : Slot} {s u : State} (h : busRead s a (nb ws) .read = .ok (v, u)) :
    opMemory ws a s = .ok (⟨trunc ws v, .mem a⟩, u) := by
  rw [opMemory, h]

/-- Bits 19:16 an extension word puts above a fetched word, as a number (R154). -/
def highPart : Option (BitVec 4) → Nat
  | none => 0
  | some b => b.toNat * 65536

/-- The number of an offset: the word as signed, or the 20 bits of the word with bits 19:16 above it (R148). -/
def offsetNumber (hi : Option (BitVec 4)) (w : Word) : Int :=
  if hi.isNone then w.toInt else signed .ext (highPart hi + w.toNat)

/-- A 20-bit number as signed (R148). -/
theorem signed_ext_eq (n : Nat) : signed .ext n = if n < 2 ^ 19 then (n : Int) else n - 2 ^ 20 := by
  simp only [signed, half, full, bits]
  split_ifs <;> omega

theorem extValue_eq (hi : Option (BitVec 4)) (w : Word) : extValue hi w = slotOf (highPart hi + w.toNat) := by
  cases hi with
  | none => rw [extValue, highPart, Nat.zero_add, slotOf]
  | some b => rfl

theorem toInt_extOffset_eq (hi : Option (BitVec 4)) (w : Word) : (extOffset hi w).toInt = offsetNumber hi w := by
  cases hi with
  | none => exact BitVec.toInt_signExtend_of_le (by decide)
  | some b => exact toInt_extOffset b w

section fetched

variable {ws : Size} {hi : Option (BitVec 4)} {s s1 u : State} {w : Word} {v : Slot}

/-- IMMEDIATE (R153). -/
theorem resolveSrc_immediate (hf : fetchNext s = .ok (w, s1)) :
    resolveSrc ws hi .immediate s = .ok (⟨trunc ws (slotOf (highPart hi + w.toNat)), .none⟩, s1) := by
  rw [resolveSrc, opImmediate, hf, ← extValue_eq]

theorem eaAbsolute_fetched (hf : fetchNext s = .ok (w, s1)) :
    eaAbsolute hi s = .ok (slotOf (highPart hi + w.toNat), s1) := by
  rw [eaAbsolute, hf, ← extValue_eq]

theorem eaSymbolic_fetched (hf : fetchNext s = .ok (w, s1)) :
    eaSymbolic hi s = .ok (slotOf (((s1.pc.toNat : Int) + offsetNumber hi w) % 2 ^ 20).toNat, s1) := by
  rw [eaSymbolic, hf, ← toInt_extOffset_eq, ← low20_add_toInt]

theorem eaIndexed_fetched (hf : fetchNext s = .ok (w, s1)) (r : RegNum) :
    eaIndexed hi r s = .ok (slotOf ((((s1.base r).toNat : Int) + offsetNumber hi w) % 2 ^ 20).toNat, s1) := by
  rw [eaIndexed, hf, ← toInt_extOffset_eq, ← low20_add_toInt]

end fetched

/-- An operand at a computed address that can be read (R147). -/
theorem opAt_ok {ws : Size} {ea : Except FaultCause (Slot × State)} {a v : Slot} {s1 u : State} (he : ea = .ok (a, s1))
    (h : busRead s1 a (nb ws) .read = .ok (v, u)) : opAt ws ea = .ok (⟨trunc ws v, .mem a⟩, u) := by
  rw [he, opAt, opMemory_ok_of_busRead h]

/-! ## Registers as operands -/

/-- `PC_READ_BIAS` as a number (R34). -/
theorem base_pc_toNat (s : State) : (s.base 0).toNat = (s.pc.toNat + (biasOf s.params.pcReadBias).toNat) % 2 ^ 20 := by
  rw [State.base, if_pos rfl, low20_toNat, BitVec.toNat_add]
  omega

theorem base_other (s : State) {r : RegNum} (h0 : r ≠ 0) (h3 : r ≠ 3) : s.base r = s.reg r := by
  rw [State.base, if_neg h0, if_neg h3]

/-- A register other than R0, R2 and R3 advanced by an operand's bytes (R152). -/
theorem autoInc_toNat (s : State) {r : RegNum} (k : Nat) (h0 : r ≠ 0) (h2 : r ≠ 2) (h3 : r ≠ 3) :
    ((s.autoInc r k).reg r).toNat = ((s.reg r).toNat + k) % 2 ^ 20 := by
  rw [autoInc_reg s r k h0 h2 h3, low20_toNat, BitVec.toNat_add, BitVec.toNat_ofNat]
  omega

/-- INDIRECT_AUTOINCREMENT: the operand at the register's value, and then the register advanced (R152). -/
theorem resolveSrc_autoinc {ws : Size} {hi : Option (BitVec 4)} {r : RegNum} {v : Slot} {s u : State}
    (h : busRead s (s.base r) (nb ws) .read = .ok (v, u)) :
    resolveSrc ws hi (.autoinc r) s = .ok (⟨trunc ws v, .mem (s.base r)⟩, u.autoInc r (nb ws)) := by
  rw [resolveSrc, opAutoinc, opMemory_ok_of_busRead h]

/-- A read changes no register. -/
theorem busRead_reg {s u : State} {a v : Slot} {n : Nat} {k : AccessKind} (h : busRead s a n k = .ok (v, u))
    (r : RegNum) : u.reg r = s.reg r := by
  obtain ⟨-, -, hu, -⟩ := busRead_ok h
  rw [hu]
  rfl

/-- Settles O36: the registers' bases, then each mode by the rule for its value and its address. -/
theorem sourceModes : Obligations.SourceModes := by
  intro ws hi s h sx masked
  have hh : h = highPart hi := by cases hi <;> rfl
  have hsx : sx = offsetNumber hi := by
    funext w
    cases hi with
    | none => rfl
    | some b => exact (signed_ext_eq (highPart (some b) + w.toNat)).symm
  refine ⟨⟨?_, rfl, fun r h0 h3 => base_other s h0 h3⟩, fun r => rfl, fun r v u hr => ⟨?_, fun h0 h2 h3 => ?_⟩,
    fun w s1 hf => ?_⟩
  · rw [base_pc_toNat]
    cases s.params.pcReadBias <;> rfl
  · exact opMemory_ok_of_busRead hr
  · refine ⟨_, resolveSrc_autoinc hr, ?_, fun q hq => ?_⟩
    · rw [autoInc_toNat u _ h0 h2 h3, busRead_reg hr]
    · rw [autoInc_other u r q _ (.inl hq.symm), busRead_reg hr]
  · rw [hh, hsx]
    refine ⟨?_, resolveSrc_immediate hf, fun v u hr => opAt_ok (eaAbsolute_fetched hf) hr,
      fun v u hr => opAt_ok (eaSymbolic_fetched hf) hr, fun r v u hr => opAt_ok (eaIndexed_fetched hf r) hr⟩
    rw [fetchNext_ok hf]
    simp

/-! ## Destinations (R131, R146) -/

theorem dstAt_reads (ws : Size) (ea : Except FaultCause (Slot × State)) : dstAt ws true ea = opAt ws ea := by
  cases ea <;> rfl

/-- A memory destination that is not read: its address computed, past its extension word (R146). -/
theorem dstAt_unread {ws : Size} {ea : Except FaultCause (Slot × State)} {a : Slot} {s1 : State}
    (he : ea = .ok (a, s1)) : dstAt ws false ea = .ok (⟨0, .mem a⟩, s1) := by
  rw [he, dstAt]
  rfl

/-- The place of a memory operand is its address. -/
theorem opAt_place {ws : Size} {ea : Except FaultCause (Slot × State)} {a : Slot} {s1 u : State} {o : Operand}
    (he : ea = .ok (a, s1)) (h : opAt ws ea = .ok (o, u)) : o.place = .mem a := by
  rw [he] at h
  obtain ⟨-, -, hp, -⟩ := opMemory_ok h
  exact hp

/-- A memory destination at a computed address: unread, and with the same place where it is read. -/
theorem dstAt_place {ws : Size} {ea : Except FaultCause (Slot × State)} {a : Slot} {s1 : State}
    (he : ea = .ok (a, s1)) :
    ∃ o b, dstAt ws false ea = .ok (o, s1) ∧ o.place = .mem b ∧
      ∀ o' u, dstAt ws true ea = .ok (o', u) → o'.place = .mem b :=
  ⟨_, _, dstAt_unread he, rfl, fun _ _ h => opAt_place he ((dstAt_reads ws ea).symm.trans h)⟩

/-- Settles O37: a destination in memory is at the address a source of its mode has. -/
theorem destinationModes : Obligations.DestinationModes := by
  intro ws hi s
  refine ⟨fun r reads => rfl, fun r => dstAt_reads ws _, dstAt_reads ws _, dstAt_reads ws _, fun dst hd w s1 hf => ?_⟩
  rcases hd with rfl | rfl | ⟨r, rfl⟩
  · exact dstAt_place (eaSymbolic_fetched hf)
  · exact dstAt_place (eaAbsolute_fetched hf)
  · exact dstAt_place (eaIndexed_fetched hf r)

end Sys2Proof.Proofs
end

section
/-! PROOF. The decoder read off a word's fields as numbers: the group of a core word by its range (R111), which register
ranges are illegal (R280), and that no other word is refused (R160, R162). -/

namespace Sys2Proof.Proofs

open Sys2Proof Sys2Proof.Machine

/-! ## The groups of core words (R111) -/

section groups

variable {w : Word}

theorem decodeCore_addr (h : w.toNat < 0x1000) : decodeCore w = .ok (decodeAddr w) := by
  simp only [decodeCore, field_top w 8 (by decide)]
  rw [if_pos (by omega)]

theorem decodeCore_formatII (h : 0x1000 ≤ w.toNat ∧ w.toNat < 0x1300) : decodeCore w = .ok (decodeII w) := by
  simp only [decodeCore, field_top w 8 (by decide)]
  rw [if_neg (by omega), if_pos (by omega)]

theorem decodeCore_calla (h : 0x1300 ≤ w.toNat ∧ w.toNat < 0x1400) : decodeCore w = .ok (decodeCalla w) := by
  simp only [decodeCore, field_top w 8 (by decide)]
  rw [if_neg (by omega), if_neg (by omega), if_pos (by omega)]

theorem decodeCore_pushm (h : 0x1400 ≤ w.toNat ∧ w.toNat < 0x1800) : decodeCore w = decodePushm w := by
  simp only [decodeCore, field_top w 8 (by decide)]
  rw [if_neg (by omega), if_neg (by omega), if_neg (by omega), if_pos (by omega)]

theorem decodeCore_jump (h : 0x2000 ≤ w.toNat ∧ w.toNat < 0x4000) : decodeCore w = .ok (decodeJump w) := by
  simp only [decodeCore, field_top w 8 (by decide)]
  rw [if_neg (by omega), if_neg (by omega), if_neg (by omega), if_neg (by omega), if_neg (by omega),
    if_pos (by omega)]

theorem decodeCore_formatI (h : 0x4000 ≤ w.toNat) : decodeCore w = .ok (decodeI w) := by
  simp only [decodeCore, field_top w 8 (by decide)]
  rw [if_neg (by omega), if_neg (by omega), if_neg (by omega), if_neg (by omega), if_neg (by omega),
    if_neg (by omega)]

end groups

/-- An extension word and the word after it always select an instruction (R310). -/
theorem decode_extWord {p : Word} (h : 0x1800 ≤ p.toNat ∧ p.toNat < 0x2000) (w : Word) (rest : List Word) :
    decode (p :: w :: rest) = .ok (decodeExt p w, rest) := by
  rw [decode, isExtWord_eq, decide_eq_true h, if_pos rfl]

theorem decode_core {w : Word} (h : w.toNat < 0x1800 ∨ 0x2000 ≤ w.toNat) {i : Instr} (hi : decodeCore w = .ok i)
    (rest : List Word) : decode (w :: rest) = .ok (i, rest) := by
  simp only [decode, isExtWord_eq, decide_eq_false (show ¬(0x1800 ≤ w.toNat ∧ w.toNat < 0x2000) by omega), hi,
    Bool.false_eq_true, if_false]

theorem decode_core_error {w : Word} (h : w.toNat < 0x1800 ∨ 0x2000 ≤ w.toNat) {e : DecodeError}
    (he : decodeCore w = .error e) (rest : List Word) : decode (w :: rest) = .error e := by
  simp only [decode, isExtWord_eq, decide_eq_false (show ¬(0x1800 ≤ w.toNat ∧ w.toNat < 0x2000) by omega), he,
    Bool.false_eq_true, if_false]

/-! ## Register ranges (R280) -/

theorem nibble_four (w : Word) : nibble w 4 = BitVec.ofNat 4 (w.toNat / 16 % 16) := rfl

theorem pushRangeOk_iff (w : Word) :
    pushRangeOk (nibble w 4) (regField w 0) = true ↔ w.toNat / 16 % 16 ≤ w.toNat % 16 := by
  simp [pushRangeOk, nibble_four, regField_zero]

theorem popRangeOk_iff (w : Word) : popRangeOk (nibble w 4) (regField w 0) = true ↔
    w.toNat % 16 + w.toNat / 16 % 16 ≤ 15 ∧ ¬(w.toNat % 16 ≤ 1 ∧ 1 ≤ w.toNat % 16 + w.toNat / 16 % 16) := by
  simp only [popRangeOk, nibble_four, regField_zero, BitVec.toNat_ofNat, Fin.val_ofNat, Bool.and_eq_true,
    Bool.not_eq_true', Bool.and_eq_false_iff, decide_eq_true_eq, decide_eq_false_iff_not]
  omega

/-- The PUSHM and POPM instructions by bits 9:8 of their word (R122). -/
def stackInstr : Nat → BitVec 4 → RegNum → Instr
  | 0 => .pushmA
  | 1 => .pushmW
  | 2 => .popmA
  | _ => .popmW

/-- The register range is legal for the PUSHM or POPM that bits 9:8 select (R280). -/
def stackRangeOk (m : Nat) (n : BitVec 4) (d : RegNum) : Bool := if m < 2 then pushRangeOk n d else popRangeOk n d

/-- A PUSHM or POPM word is its instruction where its range is legal, and refused where not (R122, R280). -/
theorem decodePushm_eq (w : Word) : decodePushm w =
    if stackRangeOk (field w 9 8) (nibble w 4) (regField w 0) then
      .ok (stackInstr (field w 9 8) (nibble w 4) (regField w 0))
    else .error .reservedOpcode := by
  have hm : field w 9 8 < 4 := Nat.mod_lt _ (by decide)
  simp only [decodePushm]
  generalize field w 9 8 = m at hm ⊢
  interval_cases m <;> rfl

/-- The word is a PUSHM or POPM whose register range goes below R0, or above R15, or includes R1 (R280). -/
def IllegalRange (w : Word) : Prop :=
  (0x1400 ≤ w.toNat ∧ w.toNat < 0x1600 ∧ w.toNat % 16 < w.toNat / 16 % 16) ∨
    (0x1600 ≤ w.toNat ∧ w.toNat < 0x1800 ∧
      (15 < w.toNat % 16 + w.toNat / 16 % 16 ∨
        (w.toNat % 16 ≤ 1 ∧ 1 ≤ w.toNat % 16 + w.toNat / 16 % 16)))

theorem illegalRange_iff {w : Word} (h : 0x1400 ≤ w.toNat ∧ w.toNat < 0x1800) :
    IllegalRange w ↔ ¬ stackRangeOk (field w 9 8) (nibble w 4) (regField w 0) = true := by
  have hm : field w 9 8 = w.toNat / 256 % 4 := rfl
  rw [stackRangeOk, hm]
  by_cases hpush : w.toNat < 0x1600
  · rw [if_pos (by omega), pushRangeOk_iff, IllegalRange]
    omega
  · rw [if_neg (by omega), popRangeOk_iff, IllegalRange]
    omega

/-- Only PUSHM and POPM words have an illegal register range. -/
theorem IllegalRange.bounds {w : Word} (h : IllegalRange w) : 0x1400 ≤ w.toNat ∧ w.toNat < 0x1800 := by
  rcases h with ⟨hlo, hhi, -⟩ | ⟨hlo, hhi, -⟩ <;> omega

/-! ## Totality (R162) -/

/-- A core word is its instruction, or refused for its register range. -/
theorem decodeCore_total {w : Word} (h : w.toNat < 0x1800 ∨ 0x2000 ≤ w.toNat) :
    (¬ IllegalRange w ∧ ∃ i, decodeCore w = .ok i) ∨ (IllegalRange w ∧ decodeCore w = .error .reservedOpcode) := by
  by_cases hs : 0x1400 ≤ w.toNat ∧ w.toNat < 0x1800
  · rw [decodeCore_pushm hs, decodePushm_eq, illegalRange_iff hs, not_not]
    split
    · exact .inl ⟨‹_›, _, rfl⟩
    · exact .inr ⟨‹_›, rfl⟩
  · refine .inl ⟨fun hr => hs hr.bounds, ?_⟩
    by_cases haddr : w.toNat < 0x1000
    · exact ⟨_, decodeCore_addr haddr⟩
    by_cases hII : w.toNat < 0x1300
    · exact ⟨_, decodeCore_formatII (by omega)⟩
    by_cases hcalla : w.toNat < 0x1400
    · exact ⟨_, decodeCore_calla (by omega)⟩
    by_cases hjump : w.toNat < 0x4000
    · exact ⟨_, decodeCore_jump (by omega)⟩
    · exact ⟨_, decodeCore_formatI (by omega)⟩

/-- Two words begin with an instruction, or with a word refused for its register range. -/
theorem decode_pair_total (w c : Word) :
    (¬ IllegalRange w ∧ ∃ i rest, decode [w, c] = .ok (i, rest)) ∨
      (IllegalRange w ∧ decode [w, c] = .error .reservedOpcode) := by
  by_cases hx : 0x1800 ≤ w.toNat ∧ w.toNat < 0x2000
  · exact .inl ⟨fun hr => absurd hr.bounds (by omega), _, _, decode_extWord hx c []⟩
  · have hcore : w.toNat < 0x1800 ∨ 0x2000 ≤ w.toNat := by omega
    rcases decodeCore_total hcore with ⟨hr, i, hi⟩ | ⟨hr, he⟩
    · exact .inl ⟨hr, i, _, decode_core hcore hi [c]⟩
    · exact .inr ⟨hr, decode_core_error hcore he [c]⟩

/-- Settles O3: a word has exactly one of the two fates of `decode_pair_total`, and only the second is a refusal. -/
theorem decoderTotal : Obligations.DecoderTotal := by
  intro w c
  rcases decode_pair_total w c with ⟨hr, i, rest, h⟩ | ⟨hr, h⟩
  · exact ⟨.inl ⟨i, rest, h⟩, fun he => by simp [h] at he, fun hillegal => absurd hillegal hr⟩
  · exact ⟨.inr h, fun _ => hr, fun _ => h⟩

end Sys2Proof.Proofs
end

section
/-! PROOF. The fields of a word as numbers select its instruction (R111, R115 to R126, R130, R131, R140): one lemma for
each group of core words, and one for each form of the extension word. -/

namespace Sys2Proof.Proofs

open Sys2Proof Sys2Proof.Machine

/-! ## Operand fields as numbers -/

theorem regField_eight (w : Word) : regField w 8 = Fin.ofNat 16 (w.toNat / 256 % 16) := rfl

theorem nibble_eight (w : Word) : nibble w 8 = BitVec.ofNat 4 (w.toNat / 256 % 16) := rfl

theorem nibble_zero (w : Word) : nibble w 0 = BitVec.ofNat 4 (w.toNat % 16) := by simp [nibble, field]

theorem field_as (w : Word) : field w 5 4 = w.toNat / 16 % 4 := rfl

theorem field_minor (w : Word) : field w 7 4 = w.toNat / 16 % 16 := rfl

theorem bitAt_seven (w : Word) : bitAt w 7 = decide (w.toNat / 128 % 2 = 1) := bitAt_eq_decide w 7

theorem bitAt_six (w : Word) : bitAt w 6 = decide (w.toNat / 64 % 2 = 1) := bitAt_eq_decide w 6

/-- The width bit of a core word (R125). -/
theorem bwOf_bitAt (w : Word) : bwOf (bitAt w 6) = if w.toNat / 64 % 2 = 0 then .word else .byte := by
  rcases Nat.mod_two_eq_zero_or_one (w.toNat / 64) with h | h <;> simp [bwOf, bitAt_six, h]

/-- The choice by the width bit of a core word (R125). -/
theorem ite_width {α : Type} (w : Word) (word byte : α) :
    (if bitAt w 6 = true then byte else word) =
      if (if w.toNat / 64 % 2 = 0 then BW.word else BW.byte) = .word then word else byte := by
  rw [← bwOf_bitAt]
  cases bitAt w 6 <;> rfl

/-- The choice by al and bw of an extended instruction: `.A`, `.W`, `.B` or the reserved row (R126). -/
theorem ite_extWidth {α : Type} (p w : Word) (a word byte res : α) :
    (if bitAt p 6 = true then (if bitAt w 6 = true then byte else word)
      else if bitAt w 6 = true then a else res) =
      if p.toNat / 64 % 2 = 0 then (if w.toNat / 64 % 2 = 1 then a else res)
      else if w.toNat / 64 % 2 = 0 then word else byte := by
  rcases Nat.mod_two_eq_zero_or_one (p.toNat / 64) with hp | hp <;>
    rcases Nat.mod_two_eq_zero_or_one (w.toNat / 64) with hw | hw <;> simp [bitAt_six, hp, hw]

/-- The offset of a jump (R118). -/
theorem field_offset (w : Word) : field w 9 0 = w.toNat % 1024 := by simp [field]

/-- The low bits of the reserved minors 0x13C to 0x13F (R279). -/
theorem field_lowSix (w : Word) : field w 5 0 = w.toNat % 64 := by simp [field]

/-! ## Core words (R115 to R122) -/

section core

variable {core : Word} {n : Nat} {i : Instr}

theorem decode_of_opcode (hn : 4 ≤ n) (h : core.toNat / 4096 = n) (hi : field core 15 12 = n → decodeI core = i) :
    decode [core] = .ok (i, []) := by
  rw [← hi ((field_top core 12 (by decide)).trans h)]
  exact decode_core (by omega) (decodeCore_formatI (by omega)) []

theorem decode_of_op2 (hn : n < 6) (h : core.toNat / 128 = 32 + n)
    (hi : field core 9 7 = n → decodeII core = i) : decode [core] = .ok (i, []) := by
  have hop : field core 9 7 = core.toNat / 128 % 8 := rfl
  rw [← hi (by omega)]
  exact decode_core (by omega) (decodeCore_formatII (by omega)) []

theorem decode_of_cond (hn : n < 8) (h : core.toNat / 1024 = 8 + n)
    (hi : field core 12 10 = n → decodeJump core = i) : decode [core] = .ok (i, []) := by
  have hcond : field core 12 10 = core.toNat / 1024 % 8 := rfl
  rw [← hi (by omega)]
  exact decode_core (by omega) (decodeCore_jump (by omega)) []

theorem decode_of_minor (hc : core.toNat < 0x1000) (h : core.toNat / 16 % 16 = n)
    (hi : field core 7 4 = n → decodeAddr core = i) : decode [core] = .ok (i, []) := by
  rw [← hi h]
  exact decode_core (by omega) (decodeCore_addr (by omega)) []

theorem decode_of_calla (hn : 0x130 ≤ n ∧ n < 0x140) (h : core.toNat / 16 = n)
    (hi : field core 7 4 = n - 0x130 → decodeCalla core = i) : decode [core] = .ok (i, []) := by
  have hminor := field_minor core
  rw [← hi (by omega)]
  exact decode_core (by omega) (decodeCore_calla (by omega)) []

/-- The reserved minors 0x13C to 0x13F are one instruction (R279). -/
theorem decode_reservedMinor13C (h : 0x13C0 ≤ core.toNat ∧ core.toNat < 0x1400) :
    decode [core] = .ok (.reservedMinor13C (BitVec.ofNat 6 (core.toNat % 64)), []) := by
  have hminor := field_minor core
  refine decode_core (by omega) ((decodeCore_calla (by omega)).trans (congrArg Except.ok ?_)) []
  obtain hm | hm | hm | hm : field core 7 4 = 12 ∨ field core 7 4 = 13 ∨ field core 7 4 = 14 ∨ field core 7 4 = 15 := by
    omega
  all_goals simp only [decodeCalla, hm, field_lowSix]

/-- A PUSHM whose range does not go below R0 (R280). -/
theorem not_illegalRange_push (h : core.toNat / 256 = 0x14 ∨ core.toNat / 256 = 0x15)
    (hr : core.toNat / 16 % 16 ≤ core.toNat % 16) : ¬ IllegalRange core := by
  rintro (⟨-, -, hlow⟩ | ⟨hpop, -⟩) <;> omega

/-- A POPM whose range does not go above R15 and does not include R1 (R280). -/
theorem not_illegalRange_pop (h : core.toNat / 256 = 0x16 ∨ core.toNat / 256 = 0x17)
    (hsum : core.toNat % 16 + core.toNat / 16 % 16 ≤ 15) (hlow : 2 ≤ core.toNat % 16 ∨ core.toNat % 256 = 0) :
    ¬ IllegalRange core := by
  rintro (⟨-, hpush, -⟩ | ⟨-, -, hrange⟩) <;> omega

/-- A PUSHM or POPM whose range is legal. -/
theorem decode_of_stack {m : Nat} (hm : m < 4) (h : core.toNat / 256 = 0x14 + m) (hr : ¬ IllegalRange core) :
    decode [core] = .ok (stackInstr m (BitVec.ofNat 4 (core.toNat / 16 % 16)) (Fin.ofNat 16 (core.toNat % 16)), []) := by
  have hs : 0x1400 ≤ core.toNat ∧ core.toNat < 0x1800 := by omega
  have hfield : field core 9 8 = core.toNat / 256 % 4 := rfl
  rw [illegalRange_iff hs, not_not] at hr
  refine decode_core (by omega) ?_ []
  rw [decodeCore_pushm hs, decodePushm_eq, if_pos hr, show field core 9 8 = m by omega, nibble_four, regField_zero]

end core

/-- A rotate, by its width and its id (R120). -/
theorem decodeAddr_rotate {core : Word} {m : Nat} (hm : field core 7 4 = m) (hw : m = 4 ∨ m = 5) :
    decodeAddr core = decodeRotate core := by
  rcases hw with rfl | rfl <;> simp only [decodeAddr, hm]

theorem bitAt_four (w : Word) : bitAt w 4 = decide (field w 7 4 % 2 = 1) := by
  rw [bitAt_eq_decide, field_minor]
  congr 2
  omega

theorem field_id (w : Word) : field w 9 8 = w.toNat / 256 % 4 := rfl

/-- Bits 11:10 of an address-group word are its top two (R120). -/
theorem rotateCount {core : Word} (h : core.toNat < 0x1000) : field core 11 10 = core.toNat / 1024 := by
  have hfield : field core 11 10 = core.toNat / 1024 % 4 := rfl
  omega

/-! ## After an extension word (R123, R124, R126) -/

/-- The bits of an extension word in the register form, as numbers. -/
theorem extOf_true (p : Word) : extOf p true =
    .regForm (BitVec.ofNat 2 (p.toNat / 512 % 4)) (decide (p.toNat / 256 % 2 = 1)) (decide (p.toNat / 128 % 2 = 1))
      (BitVec.ofNat 2 (p.toNat / 16 % 4)) (Fin.ofNat 16 (p.toNat % 16)) := by
  rw [extOf, if_pos rfl, bitAt_eq_decide, bitAt_seven, regField_zero, field_as]
  rfl

/-- The bits of an extension word in the other form, as numbers. -/
theorem extOf_false (p : Word) : extOf p false =
    .memForm (BitVec.ofNat 4 (p.toNat / 128 % 16)) (BitVec.ofNat 2 (p.toNat / 16 % 4))
      (BitVec.ofNat 4 (p.toNat % 16)) := by
  rw [extOf, if_neg Bool.false_ne_true, nibble_zero, field_as]
  rfl

theorem extOf_decide (p : Word) (c : Prop) [Decidable c] :
    extOf p (decide c) = if c then extOf p true else extOf p false := by
  by_cases h : c <;> simp [h]

/-- The register form is asked for by As = 0 and Ad = 0 (R124). -/
theorem registerFields (w : Word) : (field w 5 4 == 0 && !bitAt w 7) =
    decide (w.toNat / 16 % 4 = 0 ∧ w.toNat / 128 % 2 = 0) := by
  rw [field_as, bitAt_seven, Bool.decide_and, ← decide_not]
  congr 2
  simp

theorem registerAs (w : Word) : (field w 5 4 == 0) = decide (w.toNat / 16 % 4 = 0) := rfl

section extended

variable {pre core : Word} {n : Nat} {i : Instr}

theorem decode_of_extOpcode (hp : pre.toNat / 2048 = 3) (hn : 4 ≤ n) (h : core.toNat / 4096 = n)
    (hi : field core 15 12 = n → decodeExtI pre core = i) : decode [pre, core] = .ok (i, []) := by
  rw [← hi ((field_top core 12 (by decide)).trans h), decode_extWord (by omega)]
  simp only [decodeExt, field_top core 8 (by decide)]
  rw [if_neg (by omega), if_neg (by omega), if_neg (by omega), if_neg (by omega), if_neg (by omega),
    if_neg (by omega)]

theorem decode_of_extOp2 (hp : pre.toNat / 2048 = 3) (hn : n < 6) (h : core.toNat / 128 = 32 + n)
    (hi : field core 9 7 = n → decodeExtII pre core = i) : decode [pre, core] = .ok (i, []) := by
  have hop : field core 9 7 = core.toNat / 128 % 8 := rfl
  rw [← hi (by omega), decode_extWord (by omega)]
  simp only [decodeExt, field_top core 8 (by decide)]
  rw [if_neg (by omega), if_pos (by omega)]

end extended

/-- Settles O5. In each group of core words the field that selects is the number the table lists, so that the decoder's
case for that number is the one taken; its operand fields are then read as numbers. -/
theorem fieldsSelectInstruction : Obligations.FieldsSelectInstruction := by
  refine ⟨fun core => ?_, fun pre core hpre => ?_, by decide, by decide, by decide, by decide⟩
  · dsimp only
    refine ⟨?_, ?_, ?_, ?_, ?_, ?_, ?_, ?_, ?_⟩
    -- Format I (R115)
    · intro p hp hop
      simp only [List.mem_cons, List.not_mem_nil, or_false] at hp
      rcases hp with rfl | rfl | rfl | rfl | rfl | rfl | rfl | rfl | rfl | rfl | rfl | rfl <;>
        dsimp only at hop ⊢ <;>
        exact decode_of_opcode (by decide) hop fun h => by
          simp only [decodeI, h, bwOf_bitAt, regField_eight, regField_zero, field_as, bitAt_seven]
    -- Format II (R117)
    · intro p hp hop
      simp only [List.mem_cons, List.not_mem_nil, or_false] at hp
      rcases hp with rfl | rfl | rfl | rfl | rfl | rfl <;>
        dsimp only at hop ⊢ <;>
        exact decode_of_op2 (by decide) hop fun h => by
          simp only [decodeII, h, bwOf_bitAt, ite_width, regField_zero, field_as]
    -- Jumps (R118)
    · intro p hp hop
      simp only [List.mem_cons, List.not_mem_nil, or_false] at hp
      rcases hp with rfl | rfl | rfl | rfl | rfl | rfl | rfl | rfl <;>
        dsimp only at hop ⊢ <;>
        exact decode_of_cond (by decide) hop fun h => by
          simp only [decodeJump, h, field_offset]
    -- Address group (R119)
    · intro p hp hc hm
      simp only [List.mem_cons, List.not_mem_nil, or_false] at hp
      rcases hp with rfl | rfl | rfl | rfl | rfl | rfl | rfl | rfl | rfl | rfl | rfl | rfl | rfl | rfl <;>
        dsimp only at hm ⊢ <;>
        exact decode_of_minor hc hm fun h => by
          simp only [decodeAddr, h, regField_eight, regField_zero, nibble_eight, nibble_zero]
    -- Rotates (R120)
    · intro p hp hc hm hid
      simp only [List.mem_cons, List.not_mem_nil, or_false] at hp
      rcases hp with rfl | rfl | rfl | rfl | rfl | rfl | rfl | rfl <;>
        dsimp only at hm hid ⊢ <;>
        exact decode_of_minor hc hm fun h => by
          rw [decodeAddr_rotate h (by decide)]
          simp only [decodeRotate, field_id, hid, bitAt_four, h, rotateCount hc, regField_zero]
          rfl
    -- RETI, CALLA and the reserved minors (R121)
    · intro p hp hop
      simp only [List.mem_cons, List.not_mem_nil, or_false] at hp
      rcases hp with rfl | rfl | rfl | rfl | rfl | rfl | rfl | rfl | rfl | rfl | rfl | rfl <;>
        dsimp only at hop ⊢ <;>
        exact decode_of_calla (by decide) hop fun h => by
          simp only [decodeCalla, h, regField_zero, nibble_zero]
    · exact fun hlo hhi => decode_reservedMinor13C ⟨hlo, hhi⟩
    -- PUSHM (R122)
    · intro p hp hm hr
      simp only [List.mem_cons, List.not_mem_nil, or_false] at hp
      rcases hp with rfl | rfl
      · exact decode_of_stack (m := 0) (by decide) hm (not_illegalRange_push (.inl hm) hr)
      · exact decode_of_stack (m := 1) (by decide) hm (not_illegalRange_push (.inr hm) hr)
    -- POPM (R122)
    · intro p hp hm hsum hlow
      simp only [List.mem_cons, List.not_mem_nil, or_false] at hp
      rcases hp with rfl | rfl
      · exact decode_of_stack (m := 2) (by decide) hm (not_illegalRange_pop (.inl hm) hsum hlow)
      · exact decode_of_stack (m := 3) (by decide) hm (not_illegalRange_pop (.inr hm) hsum hlow)
  · dsimp only
    refine ⟨?_, ?_⟩
    -- Extended format I (R123, R126)
    · intro p hp hop
      simp only [List.mem_cons, List.not_mem_nil, or_false] at hp
      rcases hp with rfl | rfl | rfl | rfl | rfl | rfl | rfl | rfl | rfl | rfl | rfl | rfl <;>
        dsimp only at hop ⊢ <;>
        exact decode_of_extOpcode hpre (by decide) hop fun h => by
          simp only [decodeExtI, h, ite_extWidth, registerFields, extOf_decide, extOf_true, extOf_false]
          simp only [ite_apply, regField_eight, regField_zero, field_as, bitAt_seven]
    -- Extended format II (R123, R126)
    · intro p hp hop
      simp only [List.mem_cons, List.not_mem_nil, or_false] at hp
      rcases hp with rfl | rfl | rfl | rfl | rfl | rfl <;>
        dsimp only at hop ⊢ <;>
        exact decode_of_extOp2 hpre (by decide) hop fun h => by
          simp only [decodeExtII, h, ite_extWidth, registerAs, extOf_decide, extOf_true, extOf_false]
          simp only [ite_apply, regField_zero, field_as]

end Sys2Proof.Proofs
end

section
/-! PROOF. From an operation that follows its rule to the effect of the whole instruction, once for each common
execution: formats I and II plain and extended, and the address group. -/

namespace Sys2Proof.Proofs

open Sys2Proof Sys2Proof.Machine

/-- An operation gives the result and the flags a rule says, a number of the width. -/
def Gives (ws : Size) (out : AluOut) (rule : Slot × FlagRule) : Prop :=
  out.result = rule.1 ∧ rule.1.toNat < 2 ^ bits ws ∧ out.flags.follows rule.2

/-! ## Formats I and II (R200, R201, R290, R295) -/

/-- A two-operand operation follows its rule on operands of every width. -/
def GivesI (alu : Size → Bool → Slot → Slot → AluOut) (rule : Size → Bool → Slot → Slot → Slot × FlagRule) : Prop :=
  ∀ ws c (u v : Slot), u.toNat < 2 ^ bits ws → v.toNat < 2 ^ bits ws → Gives ws (alu ws c u v) (rule ws c u v)

/-- A one-operand operation follows its rule at a width. -/
def GivesII (ws : Size) (alu : Size → Bool → Slot → AluOut) (rule : Bool → Slot → Slot × FlagRule) : Prop :=
  ∀ c (u : Slot), u.toNat < 2 ^ bits ws → Gives ws (alu ws c u) (rule c u)

/-- The four forms of a two-operand operation run format I with the operation `alu`, and are well formed when their
operands are. -/
structure ExecutesI (alu : Size → Bool → Slot → Slot → AluOut) (reads stores : Bool) (plain : BW → Src → Dst → Instr)
    (xA xW xB : Ext → Src → Dst → Instr) : Prop where
  plain bw src dst : (plain bw src dst).wf = (src.wf && dst.wf) ∧
    ∀ s, exec (plain bw src dst) s = plainI alu reads stores bw src dst s
  extA x src dst : (xA x src dst).wf = x.wfTwo src dst ∧
    ∀ s, exec (xA x src dst) s = extendedI alu reads stores .ext (encode (xA x src dst)) x src dst s
  extW x src dst : (xW x src dst).wf = x.wfTwo src dst ∧
    ∀ s, exec (xW x src dst) s = extendedI alu reads stores .word (encode (xW x src dst)) x src dst s
  extB x src dst : (xB x src dst).wf = x.wfTwo src dst ∧
    ∀ s, exec (xB x src dst) s = extendedI alu reads stores .byte (encode (xB x src dst)) x src dst s

section formatI

variable {alu : Size → Bool → Slot → Slot → AluOut} {rule : Size → Bool → Slot → Slot → Slot × FlagRule}
  {reads stores : Bool} {i : Instr} {src : Src} {dst : Dst}

theorem runsI_plain {bw : BW} (ha : GivesI alu rule) (hwf : i.wf = (src.wf && dst.wf))
    (he : ∀ s, exec i s = plainI alu reads stores bw src dst s) :
    RunsI i (sizeOf bw) none src dst reads stores (rule (sizeOf bw)) := by
  intro hi s a s1 b s2 hm hs hd hw _
  have hsrc : src.wf = true := (Bool.and_eq_true_iff.1 (hwf.symm.trans hi)).1
  obtain ⟨e, hrun, heff⟩ := formatI_effect (x := none) (zc := false) 0 hsrc hm hs hd hw fun c u v hu hv =>
    ⟨fun _ => ⟨(ha _ c u v hu hv).1, (ha _ c u v hu hv).2.1⟩, (ha _ c u v hu hv).2.2⟩
  refine ⟨_, ?_, heff⟩
  rw [he, plainI]
  exact congrArg (cycle s 0) hrun

theorem runsI_extended {ws : Size} {x : Ext} {words : List Word} (ha : GivesI alu rule) (hwf : i.wf = x.wfTwo src dst)
    (he : ∀ s, exec i s = extendedI alu reads stores ws words x src dst s) :
    RunsI i ws (some x) src dst reads stores (rule ws) := by
  intro hi s a s1 b s2 hm hs hd hw hpc
  have hsrc : src.wf = true := (wfTwo_iff.1 (hwf.symm.trans hi)).1.1
  obtain ⟨e, hrun, heff⟩ := formatI_effect (zc := extZc x) (count (some x) s) hsrc hm hs hd hw fun c u v hu hv =>
    ⟨fun _ => ⟨(ha _ c u v hu hv).1, (ha _ c u v hu hv).2.1⟩, (ha _ c u v hu hv).2.2⟩
  refine ⟨_, ?_, heff⟩
  rw [he, extendedI, extended_run fun hn => by simpa using hpc hn]
  exact congrArg (cycle s _) hrun

/-- The four forms of a two-operand operation. For each operation of the model the forms hold by computation. -/
theorem runsAllI {plain : BW → Src → Dst → Instr} {xA xW xB : Ext → Src → Dst → Instr} (ha : GivesI alu rule)
    (he : ExecutesI alu reads stores plain xA xW xB := by constructor <;> exact fun _ _ _ => ⟨rfl, fun _ => rfl⟩) :
    RunsAllI plain xA xW xB reads stores rule := fun src dst =>
  ⟨fun bw => runsI_plain ha (he.plain bw src dst).1 (he.plain bw src dst).2,
    fun x => runsI_extended ha (he.extA x src dst).1 (he.extA x src dst).2,
    fun x => runsI_extended ha (he.extW x src dst).1 (he.extW x src dst).2,
    fun x => runsI_extended ha (he.extB x src dst).1 (he.extB x src dst).2⟩

end formatI

section formatII

variable {alu : Size → Bool → Slot → AluOut} {ws : Size} {rule : Bool → Slot → Slot × FlagRule} {i : Instr} {opd : Src}

theorem runsII_plain (ha : GivesII ws alu rule) (hwf : i.wf = opd.wf) (he : ∀ s, exec i s = plainII alu ws opd s) :
    RunsII i ws none opd rule := by
  intro hi s a s1 hm hs hw _
  obtain ⟨e, hrun, heff⟩ := formatII_effect (x := none) (zc := false) 0 (hwf.symm.trans hi) hm hs hw ha
  refine ⟨_, ?_, heff⟩
  rw [he, plainII]
  exact congrArg (cycle s 0) hrun

theorem runsII_extended {x : Ext} {words : List Word} (ha : GivesII ws alu rule) (hwf : i.wf = x.wfOne opd)
    (he : ∀ s, exec i s = extendedII alu ws words x opd s) : RunsII i ws (some x) opd rule := by
  intro hi s a s1 hm hs hw hpc
  obtain ⟨e, hrun, heff⟩ := formatII_effect (zc := extZc x) (count (some x) s) (wfOne_iff.1 (hwf.symm.trans hi)).1 hm hs
    hw ha
  refine ⟨_, ?_, heff⟩
  rw [he, extendedII, extended_run fun hn => by simpa using hpc hn]
  exact congrArg (cycle s _) hrun

end formatII

/-! ## Results that go to no memory

`effect_of_store` asks for a memory in its canonical form; an effect on registers alone says nothing of it, so the law
for one memory is the law for every other. -/

/-- The state with another memory. -/
def withMem (m : Memory) (s : State) : State := { s with mem := m }

theorem applyFlags_withMem (m : Memory) (s : State) (f : FlagUpdate) :
    (withMem m s).applyFlags f = withMem m (s.applyFlags f) := by cases f <;> rfl

theorem writeReg_withMem (m : Memory) (s : State) (r : RegNum) (v : Slot) (ws : Size) :
    (withMem m s).writeReg r v ws = withMem m (s.writeReg r v ws) := by
  unfold State.writeReg
  split
  · rfl
  · split <;> rfl

theorem finish_withMem (m : Memory) (s u : State) (n : Nat) (a : Slot) (b : Bool) :
    finish (withMem m s) n ⟨withMem m u, a, b⟩ = withMem m (finish s n ⟨u, a, b⟩) := by
  unfold finish withMem
  dsimp only
  split_ifs <;> rfl

theorem advance_withMem (m : Memory) (auto : Option RegNum) (k : Nat) (s : State) :
    advance auto k (withMem m s) = withMem m (advance auto k s) := by
  cases auto with
  | none => rfl
  | some q =>
    unfold advance State.autoInc
    dsimp only
    split
    · rfl
    · split <;> rfl

theorem resolved_withMem (m : Memory) {words k : Nat} {auto : Option RegNum} {s u : State}
    (h : Resolved words auto k s u) : Resolved words auto k (withMem m s) (withMem m u) := by
  refine ⟨rfl, h.rep, h.halted, h.params, h.sent, fun r hr => ?_, h.next⟩
  rw [advance_withMem]
  exact h.regs r hr

theorem effect_of_withMem {m : Memory} {words n : Nat} {ws : Size} {p : Place} {v : Slot} {f : FlagRule}
    {auto : Option RegNum} {s t : State} (hp : ∀ ea, p ≠ .mem ea) (hmem : t.mem = s.mem)
    (h : Effect words n ws p v f auto (withMem m s) (withMem m t)) : Effect words n ws p v f auto s t := by
  refine ⟨h.halted, h.params, h.rep, h.pc, ?_, h.result, h.srResult, h.srAuto, h.flags, h.advanced, h.others⟩
  have hstore := h.store
  cases p with
  | mem ea => exact absurd rfl (hp ea)
  | reg r => exact ⟨hmem, hstore.2⟩
  | none => exact ⟨hmem, hstore.2⟩

/-- Where no result is written, any value stands for it. -/
theorem effect_of_none {words n : Nat} {ws : Size} {v w : Slot} {f : FlagRule} {auto : Option RegNum} {s t : State}
    (h : Effect words n ws .none v f auto s t) : Effect words n ws .none w f auto s t :=
  ⟨h.halted, h.params, h.rep, by simpa using h.pc, h.store, by simp, by simp, h.srAuto, h.flags, h.advanced, h.others⟩

theorem isPc_reg (r : RegNum) : Place.isPc (.reg r) = (r == 0) := by
  by_cases h : r = 0 <;> simp [Place.isPc, h]

section registers

variable {words n : Nat} {ws : Size} {u : FlagUpdate} {f : FlagRule} {auto : Option RegNum} {s s2 : State}

/-- A result written to a register after the operands are resolved: the effect of the whole cycle. -/
theorem effect_of_writeReg {v : Slot} (d : RegNum) (h : Resolved words auto (nb ws) s s2) (hv : v.toNat < 2 ^ bits ws)
    (hf : u.follows f) (ha : auto = some 2 → f = .kept) :
    Effect words n ws (.reg d) v f auto s (finish s n ⟨(s2.applyFlags u).writeReg d v ws, s2.pc, d == 0⟩) := by
  refine effect_of_withMem (m := []) (by simp) (by simp [h.mem]) ?_
  rw [← finish_withMem, ← writeReg_withMem, ← applyFlags_withMem, ← isPc_reg]
  exact effect_of_store (s2 := withMem [] s2) (resolved_withMem [] h) Memory.wf_nil hv hf ha rfl

/-- Flags written after the operands are resolved, and no result: the effect of the whole cycle. -/
theorem effect_of_applyFlags (v : Slot) (h : Resolved words auto (nb ws) s s2) (hf : u.follows f)
    (ha : auto = some 2 → f = .kept) :
    Effect words n ws .none v f auto s (finish s n ⟨s2.applyFlags u, s2.pc, false⟩) := by
  refine effect_of_withMem (m := []) (by simp) (by simp [h.mem]) (effect_of_none (v := 0) ?_)
  rw [← finish_withMem, ← applyFlags_withMem]
  exact effect_of_store (s2 := withMem [] s2) (p := .none) (resolved_withMem [] h) Memory.wf_nil (by simp) hf ha rfl

end registers

/-! ## The address group (R240 to R258) -/

/-- `read` gives a fixed-mode operand of the address group as the source operand `src` of formats I and II, `hi` above
its extension word, resolves: the 20 bits of the value, and the register the operand names advanced. -/
def ReadsSrc (hi : Option (BitVec 4)) (src : Src) (read : State → Except FaultCause (Slot × State)) : Prop :=
  ∀ s v u, read s = .ok (v, u) → ∃ p, resolveSrc .ext hi src s = .ok (⟨trunc .ext v, p⟩, advance (srcAuto src) 4 u)

theorem readsSrc_reg (r : RegNum) : ReadsSrc none (.reg r) (readReg r) := by
  intro s v u h
  cases h
  exact ⟨_, rfl⟩

theorem readsSrc_indirect (r : RegNum) : ReadsSrc none (.indirect r) (readInd r) := fun _ _ _ h =>
  ⟨_, opIndirect_of_readInd h⟩

theorem readsSrc_autoinc (r : RegNum) : ReadsSrc none (.autoinc r) (readInd r) := fun _ _ _ h =>
  ⟨_, opAutoinc_of_readInd h⟩

theorem readsSrc_immediate (hi : BitVec 4) : ReadsSrc (some hi) .immediate (fetchHigh hi) := fun _ _ _ h =>
  ⟨_, opImmediate_of_fetchHigh h⟩

theorem readsSrc_absolute (hi : BitVec 4) : ReadsSrc (some hi) .absolute (readAt (fetchHigh hi)) := by
  intro s v u h
  obtain ⟨a, -, hop⟩ := opAt_of_readAt h
  exact ⟨_, by rw [resolveSrc, eaAbsolute_eq]; exact hop⟩

theorem readsSrc_indexed (r : RegNum) : ReadsSrc none (.indexed r) (readAt (fetchIndexed r)) := by
  intro s v u h
  obtain ⟨a, -, hop⟩ := opAt_of_readAt h
  exact ⟨_, by rw [resolveSrc, eaIndexed_eq]; exact hop⟩

section address

variable {i : Instr} {d : RegNum} {hi : Option (BitVec 4)} {src : Src}
  {read : State → Except FaultCause (Slot × State)}

/-- A load or copy of the address group (R241 to R244, R247, R248). -/
theorem runsLoad (hread : ReadsSrc hi src read)
    (he : i.wf = true → ∀ s, exec i s = movaLoad d (resolveSrc .ext hi src s) s) :
    RunsLoad i (1 + srcWords src) d (srcAuto src) read := by
  intro hwf s v u hr
  obtain ⟨p, hs⟩ := hread s v u hr
  refine ⟨_, by rw [he hwf, hs]; rfl, ?_⟩
  exact effect_of_writeReg (u := .keep) d ((Resolved.here 4 s).src hs) (trunc_lt _ _) trivial fun _ => rfl

/-- A store of the address group whose address is that of the destination operand `dst` of format I. -/
theorem runsStore {r : RegNum} {dst : Dst} {ea : State → Except FaultCause (Slot × State)}
    (hdst : ∀ s, resolveDst .ext hi false dst s = dstAt .ext false (ea s)) (he : ∀ s, exec i s = movaStore r (ea s) s) :
    RunsStore i (1 + dstWords dst) r ea := by
  intro _ s a u hm hea hacc
  have hd : resolveDst .ext hi false dst s = .ok (⟨0, .mem a⟩, u) := by rw [hdst, dstAt_unread hea]
  have hR := (Resolved.here 4 s).dst hd
  have hw : Place.writable .ext (.mem a) u := by
    simpa [Place.writable, accepts, hR.params, nb] using hacc
  obtain ⟨t, ht⟩ := store_writable (v := trunc .ext (u.base r)) hw
  refine ⟨_, by simp only [he, movaStore, hea, ht]; rfl, ?_⟩
  exact effect_of_store (u := .keep) hR hm (trunc_lt _ _) trivial (fun h => by simp at h) ht

/-- CMPA, ADDA or SUBA, whose source advances no register (R256 to R258). -/
theorem runsAddress {alu : Slot → Slot → AluOut} {stores : Bool} {rule : Slot → Slot → Slot × FlagRule}
    (ha : ∀ u v : Slot, u.toNat < 2 ^ bits .ext → v.toNat < 2 ^ bits .ext → Gives .ext (alu u v) (rule u v))
    (hauto : srcAuto src = none) (hread : ReadsSrc hi src read)
    (he : ∀ s, exec i s = addressAlu alu stores d (resolveSrc .ext hi src s) s) :
    RunsAddress i (1 + srcWords src) d stores read rule := by
  intro _ s v u hr
  obtain ⟨p, hs⟩ := hread s v u hr
  rw [hauto, advance] at hs
  obtain ⟨hres, hlt, hfl⟩ := ha _ _ (trunc_lt .ext v) (trunc_lt .ext (u.base d))
  have hR := (Resolved.here 4 s).src hs
  rw [hauto] at hR
  cases stores with
  | true =>
    refine ⟨_, by simp only [he, addressAlu, hs, if_true, hres]; rfl, ?_⟩
    exact effect_of_writeReg d hR hlt hfl fun h => by simp at h
  | false =>
    refine ⟨_, by simp only [he, addressAlu, hs, Bool.false_eq_true, if_false]; rfl, ?_⟩
    exact effect_of_applyFlags _ hR hfl fun h => by simp at h

/-- A rotate of the address group (R250). -/
theorem runsRotate {ws : Size} {alu : Slot → Bool → AluOut} {rule : Bool → Slot → Slot × FlagRule}
    (ha : ∀ c (u : Slot), u.toNat < 2 ^ bits ws → Gives ws (alu u c) (rule c u))
    (he : ∀ s, exec i s = rotate ws alu d s) : RunsRotate i ws d rule := by
  intro s
  obtain ⟨hres, hlt, hfl⟩ := ha s.flagC _ (trunc_lt ws (s.base d))
  refine ⟨_, by simp only [he, rotate, hres]; rfl, ?_⟩
  exact effect_of_writeReg d (Resolved.here _ s) hlt hfl fun h => by simp at h

end address

end Sys2Proof.Proofs
end

section
/-! PROOF. The two-operand operations and the address group's moves and arithmetic (spec/40_alu_flags.md R172 to
R179). -/

namespace Sys2Proof.Proofs

open Sys2Proof Sys2Proof.Machine

/-! ## Each operation follows its rule -/

theorem movOp_gives : GivesI (fun _ _ a _ => movOp a) movRule := fun _ _ _ _ hu _ => ⟨rfl, hu, trivial⟩

theorem addOp_gives : GivesI (fun ws _ => addOp ws false) (fun ws _ => addRule ws false) :=
  fun ws _ u v hu hv => addOp_rule ws false u v hu hv

theorem addcOp_gives : GivesI addOp addRule := addOp_rule

theorem subOp_gives : GivesI (fun ws _ => subOp ws) subRule := subOp_rule

theorem subcOp_gives : GivesI subcOp subcRule := subcOp_rule

theorem andOp_gives : GivesI (fun ws _ => andOp ws) andRule := andOp_rule

theorem xorOp_gives : GivesI (fun ws _ => xorOp ws) xorRule := xorOp_rule

theorem bicOp_gives : GivesI (fun ws _ => bicOp ws) bicRule := fun ws c u v _ hv =>
  ⟨(bicOp_rule ws c u v hv).1, (bicOp_rule ws c u v hv).2, trivial⟩

theorem bisOp_gives : GivesI (fun ws _ => bisOp ws) bisRule := fun ws c u v hu hv =>
  ⟨(bisOp_rule ws c u v hu hv).1, (bisOp_rule ws c u v hu hv).2, trivial⟩

theorem daddOp_gives : GivesI daddOp daddRule := fun ws c u v _ _ => daddOp_rule ws c u v

/-! ## The obligations -/

/-- ADDA, SUBA and CMPA with an immediate and with a register (R256 to R258). -/
theorem runsAddress_forms {alu : Slot → Slot → AluOut} {rule : Slot → Slot → Slot × FlagRule} (stores : Bool)
    {imm : BitVec 4 → RegNum → Instr} {reg : RegNum → RegNum → Instr}
    (ha : ∀ u v : Slot, u.toNat < 2 ^ bits .ext → v.toNat < 2 ^ bits .ext → Gives .ext (alu u v) (rule u v))
    (himm : ∀ hi d s, exec (imm hi d) s = addressAlu alu stores d (opImmediate .ext (some hi) s) s)
    (hreg : ∀ r d s, exec (reg r d) s = addressAlu alu stores d (.ok (opRegister .ext r s, s)) s) :
    (∀ hi d, RunsAddress (imm hi d) 2 d stores (fetchHigh hi) rule) ∧
      ∀ r d, RunsAddress (reg r d) 1 d stores (readReg r) rule :=
  ⟨fun hi d => runsAddress ha rfl (readsSrc_immediate hi) (himm hi d),
    fun r d => runsAddress ha rfl (readsSrc_reg r) (hreg r d)⟩

/-- Settles O40: the operands of MOVA are source and destination operands of formats I and II with fixed modes. -/
theorem moveCopies : Obligations.MoveCopies := by
  refine ⟨runsAllI movOp_gives, fun r d => runsLoad (readsSrc_reg r) fun _ _ => rfl,
    fun r d => runsLoad (readsSrc_indirect r) fun _ _ => rfl, fun r d => runsLoad (readsSrc_autoinc r) fun hwf s => ?_,
    fun hi d => runsLoad (readsSrc_absolute hi) fun _ _ => rfl, fun r d => runsLoad (readsSrc_indexed r) fun _ _ => rfl,
    fun hi d => runsLoad (readsSrc_immediate hi) fun _ _ => rfl, fun r hi => ?_, fun r d => ?_⟩
  · have hr : r ≠ 0 := by simpa [Instr.wf] using hwf
    simp only [exec, execMovaInc, if_neg hr, resolveSrc]
  · exact runsStore (dst := .absolute) (fun s => congrArg (dstAt .ext false) (eaAbsolute_eq hi s))
      fun s => congrArg (fun e => movaStore r e s) (eaAbsolute_eq hi s)
  · exact runsStore (dst := .indexed d) (fun s => congrArg (dstAt .ext false) (eaIndexed_eq d s))
      fun s => congrArg (fun e => movaStore r e s) (eaIndexed_eq d s)

/-- Settles O41: `addOp` follows `addRule`. -/
theorem addResultAndFlags : Obligations.AddResultAndFlags :=
  ⟨runsAllI addOp_gives, runsAllI addcOp_gives,
    runsAddress_forms true (addOp_gives .ext false) (fun _ _ _ => rfl) fun _ _ _ => rfl⟩

/-- Settles O42: `subOp` follows `subRule` and `subcOp` follows `subcRule`. -/
theorem subtractResultAndFlags : Obligations.SubtractResultAndFlags := by
  obtain ⟨hsubImm, hsubReg⟩ := runsAddress_forms (imm := .subaImm) (reg := .subaReg) true (subOp_gives .ext false)
    (fun _ _ _ => rfl) fun _ _ _ => rfl
  obtain ⟨hcmpImm, hcmpReg⟩ := runsAddress_forms (imm := .cmpaImm) (reg := .cmpaReg) false (subOp_gives .ext false)
    (fun _ _ _ => rfl) fun _ _ _ => rfl
  exact ⟨runsAllI subOp_gives, runsAllI subcOp_gives, runsAllI subOp_gives, hsubImm, hsubReg, hcmpImm, hcmpReg⟩

/-- Settles O43: `andOp` follows `andRule` and `xorOp` follows `xorRule`. -/
theorem logicalResultAndFlags : Obligations.LogicalResultAndFlags :=
  ⟨runsAllI andOp_gives, runsAllI andOp_gives, runsAllI xorOp_gives⟩

/-- Settles O44: `bicOp` follows `bicRule` and `bisOp` follows `bisRule`. -/
theorem clearAndSetBits : Obligations.ClearAndSetBits := ⟨runsAllI bicOp_gives, runsAllI bisOp_gives⟩

/-- Settles O45: `daddOp` follows `daddRule`, which leaves V free. -/
theorem decimalAddFrame : Obligations.DecimalAddFrame := runsAllI daddOp_gives

end Sys2Proof.Proofs
end

section
/-! PROOF. The shifts and rotates by number, the byte swap and the sign extension (spec/40_alu_flags.md R180 to R183):
each one-step function as arithmetic, and from it, by induction on the count, the n-step one. -/

namespace Sys2Proof.Proofs

open Sys2Proof Sys2Proof.Machine

/-! ## Numbers of a width -/

theorem full_eq_two_half (ws : Size) : full ws = 2 * half ws := by cases ws <;> rfl

theorem getLsbD_zero (v : Slot) : v.getLsbD 0 = decide (v.toNat % 2 = 1) := by
  rw [← BitVec.testBit_toNat, Nat.testBit_eq_decide_div_mod_eq, pow_zero, Nat.div_one]

theorem bitNat_eq (c : Bool) : bitNat c = if c then 1 else 0 := rfl

/-- The result and the last bit out of a shift, as numbers. -/
theorem shiftOut_gives {ws : Size} {p : Slot × Bool} {r : Nat} {c : Bool} (hr : r < full ws) (hp : p = (slotOf r, c)) :
    Gives ws (shiftOut ws p) (slotOf r, shiftFlagRule ws c r) := by
  have hs : (slotOf r).toNat = r := slotOf_toNat ws r hr
  have hlt : (slotOf r).toNat < 2 ^ bits ws := by rw [hs]; exact hr
  subst hp
  refine ⟨rfl, hlt, rfl, ?_, ?_, fun b hb => by simpa using hb⟩
  · rw [isZero_eq ws _ hlt, hs]
  · rw [neg_eq ws _ hlt, hs]

theorem shiftN_succ (f : Slot → Bool → Slot × Bool) (n : Nat) (v : Slot) (c : Bool) :
    shiftN f (n + 1) v c = f (shiftN f n v c).1 (shiftN f n v c).2 := by
  induction n generalizing v c with
  | zero => rfl
  | succ n ih => exact ih _ _

/-! ## Logical shift right -/

theorem rru1_eq (ws : Size) (v : Slot) (c : Bool) : rru1 ws v c = (slotOf (v.toNat / 2), decide (v.toNat % 2 = 1)) := by
  rw [rru1, getLsbD_zero, slotOf]

theorem shiftN_rru1 (ws : Size) (n : Nat) (v : Slot) (c : Bool) :
    shiftN (rru1 ws) (n + 1) v c = (slotOf (v.toNat / 2 ^ (n + 1)), decide (v.toNat / 2 ^ n % 2 = 1)) := by
  induction n with
  | zero => simpa [shiftN] using rru1_eq ws v c
  | succ n ih =>
    have hs : (slotOf (v.toNat / 2 ^ (n + 1))).toNat = v.toNat / 2 ^ (n + 1) := by
      rw [slotOf, BitVec.toNat_ofNat]
      exact Nat.mod_eq_of_lt (lt_of_le_of_lt (Nat.div_le_self _ _) v.isLt)
    rw [shiftN_succ, ih, rru1_eq, hs, Nat.div_div_eq_div_mul, ← pow_succ]

/-! ## Shift left -/

theorem rla1_eq {ws : Size} {v : Slot} (hv : v.toNat < full ws) (c : Bool) :
    rla1 ws v c = (slotOf (v.toNat * 2 % full ws), isNeg ws v.toNat) := by
  rw [rla1, neg_eq ws v hv, slotOf, full]

/-- The sign bit after `n` shifts left is bit `w - 1 - n`. -/
theorem isNeg_mul_mod {ws : Size} {x n : Nat} (hn : n < bits ws) :
    isNeg ws (x * 2 ^ n % full ws) = decide (x / 2 ^ (bits ws - (n + 1)) % 2 = 1) := by
  obtain ⟨k, hk⟩ : ∃ k, bits ws = n + 1 + k := ⟨bits ws - (n + 1), by omega⟩
  have hhalf : half ws = 2 ^ n * 2 ^ k := by rw [half, hk, ← pow_add]; congr 1; omega
  have hfull : full ws = 2 ^ n * (2 * 2 ^ k) := by rw [full_eq_two_half, hhalf]; ring
  rw [isNeg, hfull, hhalf, hk, Nat.add_sub_cancel_left, mul_comm x, Nat.mul_mod_mul_left]
  have hpos : 0 < 2 ^ k := by positivity
  have hmod : x % (2 * 2 ^ k) = x % 2 ^ k + 2 ^ k * (x / 2 ^ k % 2) := by rw [mul_comm 2, Nat.mod_mul]
  have hlt : x % 2 ^ k < 2 ^ k := Nat.mod_lt _ hpos
  have hbit : x / 2 ^ k % 2 = 0 ∨ x / 2 ^ k % 2 = 1 := by omega
  rw [decide_eq_decide, Nat.mul_le_mul_left_iff (by positivity), hmod]
  rcases hbit with h | h <;> simp [h, hlt]

theorem shiftN_rla1 {ws : Size} {v : Slot} (hv : v.toNat < full ws) (c : Bool) {n : Nat} (hn : n < bits ws) :
    shiftN (rla1 ws) (n + 1) v c =
      (slotOf (v.toNat * 2 ^ (n + 1) % full ws), decide (v.toNat / 2 ^ (bits ws - (n + 1)) % 2 = 1)) := by
  have hlt (x : Nat) : x % full ws < full ws := Nat.mod_lt _ (full_pos ws)
  have hstep (u : Slot) (hu : u.toNat = v.toNat * 2 ^ n % full ws) (c : Bool) : rla1 ws u c =
      (slotOf (v.toNat * 2 ^ (n + 1) % full ws), decide (v.toNat / 2 ^ (bits ws - (n + 1)) % 2 = 1)) := by
    rw [rla1_eq (hu ▸ hlt _), hu, isNeg_mul_mod hn, Nat.mod_mul_mod, mul_assoc, ← pow_succ]
  cases n with
  | zero => exact hstep v (by simp [Nat.mod_eq_of_lt hv]) c
  | succ n =>
    rw [shiftN_succ, shiftN_rla1 hv c (Nat.lt_of_succ_lt hn)]
    exact hstep _ (slotOf_toNat ws _ (hlt _)) _

/-! ## Rotate right through carry -/

/-- A value with the carry above it, as one number of w + 1 bits. -/
def withCarry (ws : Size) (p : Slot × Bool) : Nat := p.1.toNat + (if p.2 then full ws else 0)

/-- A number of w + 1 bits rotated right by `n` places. -/
def rotated (ws : Size) (n x : Nat) : Nat := x / 2 ^ n + x % 2 ^ n * (2 * full ws / 2 ^ n)

theorem rotated_one (ws : Size) (x : Nat) : rotated ws 1 x = x / 2 + x % 2 * full ws := by
  rw [rotated, pow_one, Nat.mul_div_cancel_left _ (by decide)]

/-- One step of RRC rotates the w + 1 bits by one place. -/
theorem withCarry_rrc1 {ws : Size} {v : Slot} (hv : v.toNat < full ws) (c : Bool) :
    (rrc1 ws v c).1.toNat < full ws ∧ withCarry ws (rrc1 ws v c) = rotated ws 1 (withCarry ws (v, c)) := by
  have hhalf := full_eq_two_half ws
  have hle : full ws ≤ 2 ^ 20 := two_pow_bits_le ws
  have hres : (rrc1 ws v c).1.toNat = v.toNat / 2 + if c then half ws else 0 := by
    rw [rrc1, BitVec.toNat_ofNat, bitNat_eq, ← half, Nat.mod_eq_of_lt (by split <;> omega)]
    cases c <;> simp
  have hout : (rrc1 ws v c).2 = decide (v.toNat % 2 = 1) := getLsbD_zero v
  have hdiv : withCarry ws (v, c) / 2 = v.toNat / 2 + if c then half ws else 0 := by
    cases c with
    | false => simp [withCarry]
    | true => simp only [withCarry, hhalf, if_true]; omega
  have hmod : withCarry ws (v, c) % 2 = v.toNat % 2 := by cases c <;> simp [withCarry, hhalf]
  refine ⟨by rw [hres]; split <;> omega, ?_⟩
  rw [rotated_one, hdiv, hmod, withCarry, hres, hout]
  rcases Nat.mod_two_eq_zero_or_one v.toNat with h | h <;> simp [h]

/-- Rotating by one place and then by `n` is rotating by `n + 1`. -/
theorem rotated_succ {ws : Size} {n : Nat} (hn : n < bits ws) (x : Nat) :
    rotated ws n (rotated ws 1 x) = rotated ws (n + 1) x := by
  obtain ⟨k, hk⟩ : ∃ k, bits ws = n + k := ⟨bits ws - n, by omega⟩
  have hpos : 0 < 2 ^ n := by positivity
  have hfull : full ws = 2 ^ n * 2 ^ k := by rw [full, hk, pow_add]
  have hone : rotated ws 1 x = x / 2 + 2 ^ n * (x % 2 * 2 ^ k) := by
    rw [rotated_one, hfull]; ring
  have hweight : 2 * full ws / 2 ^ n = 2 * 2 ^ k := by
    rw [hfull, show 2 * (2 ^ n * 2 ^ k) = 2 ^ n * (2 * 2 ^ k) by ring, Nat.mul_div_cancel_left _ hpos]
  have hweight' : 2 * full ws / 2 ^ (n + 1) = 2 ^ k := by
    rw [hfull, show 2 * (2 ^ n * 2 ^ k) = 2 ^ (n + 1) * 2 ^ k by ring, Nat.mul_div_cancel_left _ (by positivity)]
  have hmod : x % 2 ^ (n + 1) = x % 2 + 2 * (x / 2 % 2 ^ n) := by rw [pow_succ', Nat.mod_mul]
  rw [hone, rotated, rotated, hweight, hweight', hmod, Nat.add_mul_div_left _ _ hpos, Nat.add_mul_mod_self_left,
    Nat.div_div_eq_div_mul, ← pow_succ']
  ring

theorem withCarry_shiftN_rrc1 {ws : Size} {n : Nat} (hn : n ≤ bits ws) {v : Slot} (hv : v.toNat < full ws) (c : Bool) :
    (shiftN (rrc1 ws) n v c).1.toNat < full ws ∧
      withCarry ws (shiftN (rrc1 ws) n v c) = rotated ws n (withCarry ws (v, c)) := by
  induction n generalizing v c with
  | zero => exact ⟨hv, by simp [shiftN, rotated, Nat.mod_one]⟩
  | succ n ih =>
    obtain ⟨hlt, hstep⟩ := withCarry_rrc1 hv c
    obtain ⟨hlt', h⟩ := ih (by omega) hlt (rrc1 ws v c).2
    exact ⟨hlt', h.trans (by rw [← rotated_succ (by omega), ← hstep])⟩

/-- A value and its carry read back from their w + 1 bits. -/
theorem eq_of_withCarry {ws : Size} {p : Slot × Bool} (hp : p.1.toNat < full ws) :
    p = (slotOf (withCarry ws p % full ws), decide (full ws ≤ withCarry ws p)) := by
  obtain ⟨v, c⟩ := p
  cases c <;> simp_all [withCarry, slotOf, Nat.mod_eq_of_lt]

theorem shiftN_rrc1 {ws : Size} {n : Nat} (hn : n ≤ bits ws) {v : Slot} (hv : v.toNat < full ws) (c : Bool) :
    shiftN (rrc1 ws) n v c = (slotOf (rotated ws n (withCarry ws (v, c)) % full ws),
      decide (full ws ≤ rotated ws n (withCarry ws (v, c)))) := by
  obtain ⟨hlt, h⟩ := withCarry_shiftN_rrc1 hn hv c
  rw [eq_of_withCarry hlt, h]

/-! ## Arithmetic shift right -/

/-- A number of the width read back from its signed value. -/
theorem signed_mod_full {ws : Size} {x : Nat} (hx : x < full ws) : (signed ws x % full ws).toNat = x := by
  unfold signed
  split
  · rw [Int.sub_emod_right, Int.emod_eq_of_lt (by omega) (by omega), Int.toNat_natCast]
  · rw [Int.emod_eq_of_lt (by omega) (by omega), Int.toNat_natCast]

/-- One step of RRA halves the signed value, rounding down. -/
theorem signed_rra1 {ws : Size} {v : Slot} (hv : v.toNat < full ws) (c : Bool) :
    (rra1 ws v c).1.toNat < full ws ∧ signed ws (rra1 ws v c).1.toNat = signed ws v.toNat / 2 := by
  have hhalf := full_eq_two_half ws
  have hle : full ws ≤ 2 ^ 20 := two_pow_bits_le ws
  have hres : (rra1 ws v c).1.toNat = v.toNat / 2 + if half ws ≤ v.toNat then half ws else 0 := by
    rw [rra1, neg_eq ws v hv, isNeg, BitVec.toNat_ofNat, bitNat_eq, ← half, Nat.mod_eq_of_lt (by split <;> omega)]
    by_cases h : half ws ≤ v.toNat <;> simp [h]
  rw [hres]
  unfold signed
  by_cases h : half ws ≤ v.toNat
  · rw [if_pos h, if_pos h, if_pos (by omega)]
    omega
  · rw [if_neg h, if_neg h, if_neg (by omega)]
    omega

/-- The low bit of the signed value divided by `2 ^ n` is bit `n` of the number. -/
theorem signed_div_mod_two {ws : Size} {n : Nat} (hn : n < bits ws) (x : Nat) :
    signed ws x / 2 ^ n % 2 = ((x / 2 ^ n % 2 : Nat) : Int) := by
  obtain ⟨k, hk⟩ : ∃ k, bits ws = n + 1 + k := ⟨bits ws - (n + 1), by omega⟩
  have hfull : (full ws : Int) = 2 ^ n * (2 * 2 ^ k) := by
    rw [full, hk]; push_cast; ring
  unfold signed
  split
  · rw [hfull, Int.sub_mul_ediv_left _ _ (by positivity), Int.sub_mul_emod_self_left]
    push_cast; rfl
  · push_cast; rfl

theorem signed_shiftN_rra1 {ws : Size} (n : Nat) {v : Slot} (hv : v.toNat < full ws) (c : Bool) :
    (shiftN (rra1 ws) n v c).1.toNat < full ws ∧
      signed ws (shiftN (rra1 ws) n v c).1.toNat = signed ws v.toNat / 2 ^ n := by
  induction n with
  | zero => exact ⟨hv, by simp [shiftN]⟩
  | succ n ih =>
    obtain ⟨hlt, h⟩ := signed_rra1 ih.1 (shiftN (rra1 ws) n v c).2
    rw [shiftN_succ]
    exact ⟨hlt, by rw [h, ih.2, Int.ediv_ediv_of_nonneg (by positivity), ← pow_succ]⟩

theorem shiftN_rra1 {ws : Size} {n : Nat} (hn : n < bits ws) {v : Slot} (hv : v.toNat < full ws) (c : Bool) :
    shiftN (rra1 ws) (n + 1) v c =
      (slotOf (signed ws v.toNat / 2 ^ (n + 1) % full ws).toNat, decide (v.toNat / 2 ^ n % 2 = 1)) := by
  obtain ⟨hlt, h⟩ := signed_shiftN_rra1 (n + 1) hv c
  obtain ⟨hlt', h'⟩ := signed_shiftN_rra1 n hv c
  refine Prod.ext ?_ ?_
  · rw [← h, signed_mod_full hlt, slotOf, BitVec.ofNat_toNat, BitVec.setWidth_eq]
  · have hbit : (shiftN (rra1 ws) n v c).1.toNat % 2 = v.toNat / 2 ^ n % 2 := by
      have h0 := signed_div_mod_two (bits_pos ws) (shiftN (rra1 ws) n v c).1.toNat
      rw [h', pow_zero, pow_zero, Int.ediv_one, Nat.div_one, signed_div_mod_two hn] at h0
      exact_mod_cast h0.symm
    rw [shiftN_succ, rra1, getLsbD_zero, hbit]

/-! ## Each shift follows its rule -/

section rules

variable {ws : Size} {n : Nat} {v : Slot} (c : Bool)

theorem rrc_gives (hn : n ≤ bits ws) (hv : v.toNat < 2 ^ bits ws) :
    Gives ws (shiftOut ws (shiftN (rrc1 ws) n v c)) (rrcRule ws n c v) :=
  shiftOut_gives (Nat.mod_lt _ (full_pos ws)) (shiftN_rrc1 hn hv c)

theorem rra_gives (hn : n < bits ws) (hv : v.toNat < 2 ^ bits ws) :
    Gives ws (shiftOut ws (shiftN (rra1 ws) (n + 1) v c)) (rraRule ws (n + 1) c v) := by
  have hpos : (0 : Int) < full ws := by exact_mod_cast full_pos ws
  refine shiftOut_gives ?_ (shiftN_rra1 hn hv c)
  have := Int.emod_lt_of_pos (signed ws v.toNat / 2 ^ (n + 1)) hpos
  omega

theorem rru_gives (hv : v.toNat < 2 ^ bits ws) :
    Gives ws (shiftOut ws (shiftN (rru1 ws) (n + 1) v c)) (rruRule ws (n + 1) c v) :=
  shiftOut_gives (lt_of_le_of_lt (Nat.div_le_self _ _) hv) (shiftN_rru1 ws n v c)

theorem rla_gives (hn : n < bits ws) (hv : v.toNat < 2 ^ bits ws) :
    Gives ws (shiftOutDraw ws v (n + 1) (shiftN (rla1 ws) (n + 1) v c)) (rlaRule ws (n + 1) c v) := by
  have hlt : v.toNat * 2 ^ (n + 1) % full ws < full ws := Nat.mod_lt _ (full_pos ws)
  obtain ⟨hres, hbound, hcarry, hzero, hneg, -⟩ := shiftOut_gives hlt (shiftN_rla1 hv c hn)
  exact ⟨hres, hbound, hcarry, hzero, hneg, rfl⟩

end rules

/-! ## Byte swap and sign extension -/

theorem swpbOp_gives : GivesII .word swpbAlu swpbRule := by
  intro c u hu
  refine ⟨rfl, ?_, trivial⟩
  have hr : u.toNat % 256 * 256 + u.toNat / 256 % 256 < 2 ^ bits .word := by simp only [bits]; omega
  rw [swpbRule, slotOf_toNat .word _ hr]
  exact hr

/-- The low byte as a signed number in 16 bits (R183). -/
theorem signExtend_byte (u : Slot) : trunc .word ((BitVec.ofNat 8 u.toNat).signExtend 32) =
    slotOf (if u.toNat % 256 < 128 then u.toNat % 256 else u.toNat % 256 + 0xFF00) := by
  apply BitVec.eq_of_toNat_eq
  rw [trunc_toNat, BitVec.toNat_signExtend, BitVec.msb_eq_decide, slotOf, BitVec.toNat_ofNat, BitVec.toNat_setWidth,
    BitVec.toNat_ofNat]
  norm_num [bits]
  split_ifs <;> omega

theorem sxtOp_gives : GivesII .word sxtAlu sxtRule := by
  intro c u hu
  have hr : (if u.toNat % 256 < 128 then u.toNat % 256 else u.toNat % 256 + 0xFF00) < 2 ^ bits .word := by
    simp only [bits]; split <;> omega
  simp only [sxtAlu, sxtOp, sxtRule, signExtend_byte]
  generalize (if u.toNat % 256 < 128 then u.toNat % 256 else u.toNat % 256 + 0xFF00) = r at hr ⊢
  have hs : (slotOf r).toNat = r := slotOf_toNat .word r hr
  have hlt : (slotOf r).toNat < 2 ^ bits .word := by rw [hs]; exact hr
  have hzero := isZero_eq .word _ hlt
  rw [hs] at hzero
  refine ⟨rfl, hlt, ?_, hzero, ?_, fun b hb => by simpa using hb⟩
  · rw [hzero, decide_not]
  · rw [neg_eq .word _ hlt, hs]

/-! ## The obligations -/

/-- A rotate of the address group counts 1 to 4 (R250). -/
theorem rotations_lt_bits {ws : Size} (n : BitVec 2) : n.toNat + 1 < bits ws := by
  have := n.isLt
  cases ws <;> simp only [bits] <;> omega

theorem rrcAlu_gives (ws : Size) : GivesII ws rrcAlu (rrcRule ws 1) := fun c _ hu => rrc_gives c (bits_pos ws) hu

theorem rraAlu_gives (ws : Size) : GivesII ws rraAlu (rraRule ws 1) := fun c _ hu => rra_gives c (bits_pos ws) hu

/-- Settles O49: each step of RRC rotates the w + 1 bits of value and carry by one place (`shiftN_rrc1`). -/
theorem rotateThroughCarry : Obligations.RotateThroughCarry :=
  ⟨fun _ _ => runsII_plain (rrcAlu_gives _) rfl fun _ => rfl,
    fun _ _ => ⟨runsII_extended (rrcAlu_gives _) rfl fun _ => rfl, runsII_extended (rrcAlu_gives _) rfl fun _ => rfl,
      runsII_extended (rrcAlu_gives _) rfl fun _ => rfl⟩,
    fun n _ => ⟨runsRotate (fun c _ => rrc_gives c (rotations_lt_bits n).le) fun _ => rfl,
      runsRotate (fun c _ => rrc_gives c (rotations_lt_bits n).le) fun _ => rfl⟩⟩

/-- Settles O50: each step of RRA halves the signed value (`shiftN_rra1`). -/
theorem shiftRightArithmetic : Obligations.ShiftRightArithmetic :=
  ⟨fun _ _ => runsII_plain (rraAlu_gives _) rfl fun _ => rfl,
    fun _ _ => ⟨runsII_extended (rraAlu_gives _) rfl fun _ => rfl, runsII_extended (rraAlu_gives _) rfl fun _ => rfl,
      runsII_extended (rraAlu_gives _) rfl fun _ => rfl⟩,
    fun n _ => ⟨runsRotate (fun c _ => rra_gives c (Nat.lt_of_succ_lt (rotations_lt_bits n))) fun _ => rfl,
      runsRotate (fun c _ => rra_gives c (Nat.lt_of_succ_lt (rotations_lt_bits n))) fun _ => rfl⟩⟩

/-- Settles O51, by `shiftN_rla1` and `shiftN_rru1`. -/
theorem shiftLeftAndLogical : Obligations.ShiftLeftAndLogical := fun n _ =>
  ⟨runsRotate (fun c _ => rla_gives c (Nat.lt_of_succ_lt (rotations_lt_bits n))) fun _ => rfl,
    runsRotate (fun c _ => rla_gives c (Nat.lt_of_succ_lt (rotations_lt_bits n))) fun _ => rfl,
    runsRotate (fun c _ => rru_gives c) fun _ => rfl, runsRotate (fun c _ => rru_gives c) fun _ => rfl⟩

/-- Settles O52, by `swpbOp_gives` and `sxtOp_gives`. -/
theorem swapAndSignExtend : Obligations.SwapAndSignExtend :=
  ⟨fun _ => ⟨runsII_plain swpbOp_gives rfl fun _ => rfl, fun _ => runsII_extended swpbOp_gives rfl fun _ => rfl⟩,
    fun _ => ⟨runsII_plain sxtOp_gives rfl fun _ => rfl, fun _ => runsII_extended sxtOp_gives rfl fun _ => rfl⟩⟩

end Sys2Proof.Proofs
end

section
/-! PROOF. What the decimal add and the compare mean: the digit loop by its sequence of carries and as decimal addition
(spec/40_alu_flags.md R179), and the flags of a subtraction as the order of its operands (R174). -/

namespace Sys2Proof.Proofs

open Sys2Proof Sys2Proof.Machine

/-! ## The digit loop (R179) -/

/-- A digit sum above 9 is raised by 6. -/
def adjusted (t : Nat) : Nat := if 9 < t then t + 6 else t

/-- The loop's sequence of carries: into digit 0, into digit 1, and so on. -/
def digitCarry (a b c : Nat) : Nat → Nat
  | 0 => c
  | i + 1 => adjusted (a / 16 ^ i % 16 + b / 16 ^ i % 16 + digitCarry a b c i) / 16

theorem daddDigits_succ (k a b c : Nat) : daddDigits (k + 1) a b c =
    (adjusted (a % 16 + b % 16 + c) % 16 +
        16 * (daddDigits k (a / 16) (b / 16) (adjusted (a % 16 + b % 16 + c) / 16)).1,
      (daddDigits k (a / 16) (b / 16) (adjusted (a % 16 + b % 16 + c) / 16)).2) := rfl

theorem div_sixteen_pow (a i : Nat) : a / 16 / 16 ^ i = a / 16 ^ (i + 1) := by
  rw [Nat.div_div_eq_div_mul, ← pow_succ']

/-- The carries of the digits above the lowest are those of the numbers without it. -/
theorem digitCarry_succ (a b c i : Nat) :
    digitCarry a b c (i + 1) = digitCarry (a / 16) (b / 16) (adjusted (a % 16 + b % 16 + c) / 16) i := by
  induction i with
  | zero => simp [digitCarry]
  | succ i ih => rw [digitCarry, ih, digitCarry, div_sixteen_pow, div_sixteen_pow]

/-- Digit `i` of the loop's result is the low nibble of the adjusted sum of the two digits and the carry, and the carry
out is the last of the sequence. -/
theorem daddDigits_digit (k a b c : Nat) :
    (∀ i < k, (daddDigits k a b c).1 / 16 ^ i % 16 =
        adjusted (a / 16 ^ i % 16 + b / 16 ^ i % 16 + digitCarry a b c i) % 16) ∧
      (daddDigits k a b c).2 = digitCarry a b c k := by
  induction k generalizing a b c with
  | zero => exact ⟨fun i hi => absurd hi (Nat.not_lt_zero i), rfl⟩
  | succ k ih =>
    obtain ⟨hdigit, hcarry⟩ := ih (a / 16) (b / 16) (adjusted (a % 16 + b % 16 + c) / 16)
    rw [daddDigits_succ]
    refine ⟨fun i hi => ?_, by rw [hcarry, digitCarry_succ]⟩
    cases i with
    | zero => simp [digitCarry]
    | succ i =>
      have := hdigit i (Nat.lt_of_succ_lt_succ hi)
      rw [digitCarry_succ, ← div_sixteen_pow, ← div_sixteen_pow, ← div_sixteen_pow, ← this]
      dsimp only
      congr 2
      omega

theorem sixteen_pow_digits (ws : Size) : 16 ^ digits ws = 2 ^ bits ws := by cases ws <;> rfl

/-- DADD's result is that of the digit loop, and its flags are those of the loop's result and last carry. -/
theorem daddOp_digits (ws : Size) (cin : Bool) (a b : Slot) :
    (daddOp ws cin a b).result.toNat = (daddDigits (digits ws) a.toNat b.toNat (bitNat cin)).1 ∧
      (daddOp ws cin a b).result.toNat < 16 ^ digits ws ∧
      (daddOp ws cin a b).flags = .writeDrawV
        (decide (full ws ≤ (daddOp ws cin a b).result.toNat +
          digitCarry a.toNat b.toNat (bitNat cin) (digits ws) * 16 ^ digits ws))
        (decide ((daddOp ws cin a b).result.toNat = 0)) (isNeg ws (daddOp ws cin a b).result.toNat) a b := by
  have hlt := daddDigits_lt (digits ws) a.toNat b.toNat (bitNat cin)
  have hnat : (daddOp ws cin a b).result.toNat = (daddDigits (digits ws) a.toNat b.toNat (bitNat cin)).1 :=
    slotOf_toNat ws _ (sixteen_pow_digits ws ▸ hlt)
  have hbits : (daddOp ws cin a b).result.toNat < 2 ^ bits ws := by rw [hnat, ← sixteen_pow_digits]; exact hlt
  refine ⟨hnat, hnat ▸ hlt, ?_⟩
  rw [← isZero_eq ws _ hbits, ← neg_eq ws _ hbits, hnat, ← (daddDigits_digit ..).2]
  rfl

/-- Settles O46: the sequence of carries is `digitCarry`. -/
theorem decimalDigitLoop : Obligations.DecimalDigitLoop := by
  intro ws cin a b
  obtain ⟨hnat, hlt, hflags⟩ := daddOp_digits ws cin a b
  have hdigit := (daddDigits_digit (digits ws) a.toNat b.toNat (bitNat cin)).1
  rw [← hnat] at hdigit
  refine ⟨digitCarry a.toNat b.toNat (bitNat cin), rfl, fun i hi => ⟨hdigit i ?_, rfl⟩, ?_, ?_⟩ <;> cases ws <;>
    assumption

/-- On decimal digits the loop adds decimal numbers: its digits are decimal, and with the carry out above them they
stand for the sum. -/
theorem daddDigits_decimal (k : Nat) {a b c : Nat} (ha : isDecimal k a) (hb : isDecimal k b) (hc : c ≤ 1) :
    isDecimal k (daddDigits k a b c).1 ∧ (daddDigits k a b c).2 ≤ 1 ∧
      decimal k (daddDigits k a b c).1 + 10 ^ k * (daddDigits k a b c).2 = decimal k a + decimal k b + c := by
  induction k generalizing a b c with
  | zero => exact ⟨trivial, hc, by simp [daddDigits, decimal]⟩
  | succ k ih =>
    obtain ⟨ha0, ha⟩ := ha
    obtain ⟨hb0, hb⟩ := hb
    have hadj : adjusted (a % 16 + b % 16 + c) % 16 ≤ 9 ∧ adjusted (a % 16 + b % 16 + c) / 16 ≤ 1 ∧
        adjusted (a % 16 + b % 16 + c) % 16 + 10 * (adjusted (a % 16 + b % 16 + c) / 16) = a % 16 + b % 16 + c := by
      unfold adjusted
      split <;> omega
    obtain ⟨hlow, hout, hsum⟩ := hadj
    obtain ⟨hdec, hcarry, htotal⟩ := ih ha hb hout
    rw [daddDigits_succ]
    generalize daddDigits k (a / 16) (b / 16) (adjusted (a % 16 + b % 16 + c) / 16) = p at hdec hcarry htotal ⊢
    have hmod (x y : Nat) (hx : x ≤ 9) : (x + 16 * y) % 16 = x ∧ (x + 16 * y) / 16 = y := by omega
    simp only [isDecimal, decimal, (hmod _ p.1 hlow).1, (hmod _ p.1 hlow).2]
    exact ⟨⟨hlow, hdec⟩, hcarry, by rw [pow_succ']; linarith⟩

/-- A decimal number of `k` digits is below `10 ^ k`. -/
theorem decimal_lt (k : Nat) {v : Nat} (h : isDecimal k v) : decimal k v < 10 ^ k := by
  induction k generalizing v with
  | zero => simp [decimal]
  | succ k ih =>
    obtain ⟨h0, h⟩ := h
    have := ih h
    rw [decimal, pow_succ']
    omega

/-- The loop's digits stand for the decimal sum modulo `10 ^ k`, and its carry out says whether the sum reached that. -/
theorem daddDigits_decimal_sum (k : Nat) {a b c : Nat} (ha : isDecimal k a) (hb : isDecimal k b) (hc : c ≤ 1) :
    decimal k (daddDigits k a b c).1 = (decimal k a + decimal k b + c) % 10 ^ k ∧
      (0 < (daddDigits k a b c).2 ↔ 10 ^ k ≤ decimal k a + decimal k b + c) := by
  obtain ⟨hdec, hcarry, htotal⟩ := daddDigits_decimal k ha hb hc
  have hlt := decimal_lt k hdec
  rw [← htotal, Nat.add_mul_mod_self_left, Nat.mod_eq_of_lt hlt]
  refine ⟨rfl, ?_⟩
  obtain h | h : (daddDigits k a b c).2 = 0 ∨ (daddDigits k a b c).2 = 1 := by omega
  · simp [h, hlt]
  · simp [h]

/-- Settles O47: the effect is that of O45, and the digit loop adds decimal numbers. -/
theorem decimalAddIsDecimal : Obligations.DecimalAddIsDecimal := by
  intro bw src d s a s1 hwf h0 h2 _ hm hs nd old ha hold sum
  obtain ⟨hsrc, h3⟩ : src.wf = true ∧ d ≠ 3 := by simpa [Instr.wf, Dst.wf] using hwf
  obtain ⟨t, ht, heff⟩ := ((decimalAddFrame src (.reg d)).1 bw) hwf s a s1 _ s1 hm hs rfl (fun _ => trivial)
    (by simp [count])
  have hreg := heff.result d rfl h0 h2 h3
  have hflags := heff.flags (by simpa [opRegister] using h2) (srcAuto_ne_two hsrc)
  have hb : (opRegister (sizeOf bw) d s1).value.toNat = old := by rw [opRegister, base_other s1 h0 h3]
  simp only [daddRule, hb] at hreg hflags
  have hc : (if s.flagC then 1 else 0) ≤ 1 := by split <;> omega
  obtain ⟨hsum, hcarry⟩ := daddDigits_decimal_sum nd ha hold hc
  have hnat : (t.reg d).toNat = (daddDigits nd a.value.toNat old (if s.flagC then 1 else 0)).1 := by
    rw [hreg]
    exact slotOf_toNat (sizeOf bw) _ (sixteen_pow_digits (sizeOf bw) ▸ daddDigits_lt ..)
  refine ⟨t, ht, ?_, ?_, hflags.1.trans (decide_eq_decide.2 hcarry)⟩
  · rw [hnat]
    exact (daddDigits_decimal nd ha hold hc).1
  · rw [hnat]
    exact hsum

/-! ## The order of a compare's operands (R174) -/

/-- The difference `v - u` of two numbers of the width. -/
theorem sub_mod_full {ws : Size} {u v : Nat} (hu : u < full ws) (hv : v < full ws) :
    (v + full ws - u) % full ws = if u ≤ v then v - u else v + full ws - u := by
  split
  · rw [show v + full ws - u = v - u + full ws by omega, Nat.add_mod_right, Nat.mod_eq_of_lt (by omega)]
  · exact Nat.mod_eq_of_lt (by omega)

/-- Where the operands' signs differ, N and V differ exactly when the destination is the negative one. -/
theorem bne_overflow : ∀ {nu nv n : Bool}, nu ≠ nv → (n != (nu != nv && nv != n)) = nv := by decide

/-- N differs from V after `v - u` exactly when `v` is below `u` as signed numbers: with equal signs V is 0 and N says
so, with different ones the sign of `v` does. -/
theorem isNeg_sub_ne_overflow {ws : Size} {u v : Nat} (hu : u < full ws) (hv : v < full ws) :
    (isNeg ws ((v + full ws - u) % full ws) !=
        (isNeg ws u != isNeg ws v && isNeg ws v != isNeg ws ((v + full ws - u) % full ws))) =
      decide (signed ws v < signed ws u) := by
  have hhalf := full_eq_two_half ws
  rw [sub_mod_full hu hv]
  by_cases hsign : isNeg ws u = isNeg ws v
  · simp only [hsign, bne_self_eq_false, Bool.false_and, Bool.bne_false]
    rw [isNeg, isNeg, decide_eq_decide] at hsign
    rw [isNeg, decide_eq_decide]
    unfold signed
    split_ifs <;> omega
  · have hsignV : isNeg ws v = decide (signed ws v < signed ws u) := by
      rw [isNeg, isNeg, decide_eq_decide] at hsign
      rw [isNeg, decide_eq_decide]
      unfold signed
      split_ifs <;> omega
    rw [← hsignV]
    exact bne_overflow hsign

/-- The flags of a subtraction say how its operands compare. -/
theorem flagsOrder_of_holds {ws : Size} {a b before : Slot} {t : State} (ha : a.toNat < 2 ^ bits ws)
    (hb : b.toNat < 2 ^ bits ws) (h : (subRule ws false a b).2.holds before t.sr) : FlagsOrder ws a b t := by
  obtain ⟨hc, hz, hn, hv, -⟩ := h
  refine ⟨hz.trans ?_, hc, ?_⟩
  · rw [decide_eq_decide, ← BitVec.toNat_inj]
    rw [sub_mod_full ha hb]
    change _ < full ws at ha hb
    split <;> omega
  · rw [State.flagN, State.flagV, hn, hv _ rfl]
    exact isNeg_sub_ne_overflow ha hb

/-- The end of a cycle leaves SR. -/
theorem finish_sr (s : State) (n : Nat) (d : Done) : (finish s n d).sr = d.st.sr := finish_reg s n d 2 (by decide)

/-- Format I of a compare, once its operands are resolved: nothing is stored, and the flags say how they compare,
however the cycle ends. -/
theorem formatI_compare {ws : Size} {hiS hiD : Option (BitVec 4)} {zc : Bool} {src : Src} {dst : Dst} {s s1 s2 : State}
    {a b : Operand} (hs : resolveSrc ws hiS src s = .ok (a, s1)) (hd : resolveDst ws hiD true dst s1 = .ok (b, s2)) :
    ∃ e, formatI (fun ws _ => subOp ws) true false ws hiS hiD zc src dst s = .ok e ∧
      ∀ start n, FlagsOrder ws a.value b.value (finish start n e) := by
  obtain ⟨-, ha, -⟩ := resolveSrc_ok hs
  obtain ⟨-, hb, -⟩ := resolveDst_ok hd
  obtain ⟨-, -, hfl⟩ := subOp_gives ws false a.value b.value ha hb
  refine ⟨_, by simp only [formatI, hs, hd, Bool.false_eq_true, if_false]; rfl, fun start n => ?_⟩
  refine flagsOrder_of_holds (before := s2.sr) ha hb ?_
  rw [finish_sr]
  exact applyFlags_holds hfl s2

/-- CMPA: the flags of its effect say how its operands compare. -/
theorem flagsOrder_of_runsAddress {i : Instr} {words : Nat} {d : RegNum}
    {read : State → Except FaultCause (Slot × State)} (hwf : i.wf = true)
    (h : RunsAddress i words d false read (subRule .ext false)) {s u : State} {v : Slot} (hr : read s = .ok (v, u)) :
    ∃ t, exec i s = .next t ∧ FlagsOrder .ext (trunc .ext v) (trunc .ext (u.base d)) t := by
  obtain ⟨t, ht, heff⟩ := h hwf s v u hr
  exact ⟨t, ht, flagsOrder_of_holds (trunc_lt _ _) (trunc_lt _ _) (heff.flags (by simp) (by simp))⟩

/-- A fetched 20-bit number is one of the width. -/
theorem trunc_of_fetchHigh {hi : BitVec 4} {s u : State} {v : Slot} (h : fetchHigh hi s = .ok (v, u)) :
    trunc .ext v = v := by
  unfold fetchHigh at h
  split at h
  · cases h
    exact trunc_of_lt (extValue_lt (some hi) _)
  · simp at h

/-- Settles O48: format I and CMPA write the flags of a subtraction, and these say the order. -/
theorem compareDecidesOrder : Obligations.CompareDecidesOrder := by
  obtain ⟨-, -, -, -, -, hcmpImm, hcmpReg⟩ := subtractResultAndFlags
  refine ⟨fun bw src dst s a s1 b s2 _ hs hd => ?_, fun p hp x src dst s a s1 b s2 _ hs hd hpc => ?_,
    fun r d s => flagsOrder_of_runsAddress rfl (hcmpReg r d) rfl, fun hi d s v u h => ?_⟩
  · obtain ⟨e, hrun, horder⟩ := formatI_compare (zc := false) hs hd
    exact ⟨_, congrArg (cycle s 0) hrun, horder s 0⟩
  · obtain ⟨e, hrun, horder⟩ := formatI_compare (zc := extZc x) hs hd
    have hexec : exec (p.1 x src dst) s = extendedI (fun ws _ => subOp ws) true false p.2 (encode (p.1 x src dst)) x src
        dst s := by
      simp only [List.mem_cons, List.not_mem_nil, or_false] at hp
      rcases hp with rfl | rfl | rfl <;> rfl
    refine ⟨_, ?_, horder s (count (some x) s)⟩
    rw [hexec, extendedI, extended_run fun hn => by simpa using hpc hn]
    exact congrArg (cycle s _) hrun
  · have horder := flagsOrder_of_runsAddress rfl (hcmpImm hi d) h
    rwa [trunc_of_fetchHigh h] at horder

end Sys2Proof.Proofs
end

section
/-! PROOF. The conditional jumps (spec/42_jumps.md R230, R231): the target as plain arithmetic, the whole state after a
jump, and from these the eight jumps by their conditions. -/

namespace Sys2Proof.Proofs

open Sys2Proof Sys2Proof.Machine

/-- A jump's displacement, a slot, as a signed number. -/
theorem displacement_toInt (off : BitVec 10) : (2 + 2 * off.signExtend 32 : Slot).toInt = 2 + 2 * off.toInt := by
  have hlo : -512 ≤ off.toInt := off.le_toInt
  have hhi : off.toInt < 512 := off.toInt_lt
  have hoff : (off.signExtend 32).toInt = off.toInt := BitVec.toInt_signExtend_of_le (by decide)
  have htwo : (2 : Slot).toInt = 2 := rfl
  have hdouble : (2 * off.signExtend 32 : Slot).toInt = 2 * off.toInt := by
    rw [BitVec.toInt_mul, htwo, hoff]
    exact Int.bmod_eq_of_le (by omega) (by omega)
  rw [BitVec.toInt_add, htwo, hdouble]
  exact Int.bmod_eq_of_le (by omega) (by omega)

/-- The target of a taken jump is P + 2 plus twice the offset, modulo 2^20 (R230). -/
theorem jumpTarget_eq (p : Slot) (off : BitVec 10) :
    jumpTarget p off = slotOf (((p.toNat : Int) + 2 + 2 * off.toInt) % 2 ^ 20).toNat := by
  rw [jumpTarget, BitVec.add_assoc, low20_add_toInt, displacement_toInt, Int.add_assoc]

/-- The end of a cycle sets the program counter and the repetition state, and nothing else (R35, R313, R315). -/
theorem finish_eq {s : State} {n words : Nat} {d : Done} {w : Option Slot} (hr : d.st.rep = s.rep)
    (hl : low20 (d.lfa + 2) = low20 (s.pc + BitVec.ofNat 32 (2 * words)))
    (hw : d.wrotePc = true → w = some d.st.pc) (hn : d.wrotePc = false → w = none) :
    finish s n d = { d.st.setPc (pcAfter s n words w) with rep := repAfter s n } := by
  obtain ⟨hpc, hrep⟩ := finish_pc hr hl hw hn
  obtain ⟨hmem, hhalted, hparams, hdraws, hreads, hsent⟩ := finish_fields s n d
  refine State.ext_reg (fun r => ?_) hmem hrep hhalted hparams hdraws hreads hsent
  by_cases h0 : r = 0
  · subst h0
    simpa [State.pc] using hpc
  · simp [finish_reg _ _ _ _ h0, h0]

/-- The program counter set twice is the second one. -/
theorem setPc_setPc (s : State) (v w : Slot) : (s.setPc v).setPc w = s.setPc w := State.setReg_setReg s 0 v w

/-- A jump changes the program counter and the repetition state alone (R230, R313). -/
theorem jump_eq (taken : Bool) (off : BitVec 10) (s : State) :
    jump taken off s = .next { s.setPc (pcAfter s 0 1 (if taken then some (jumpTarget s.pc off) else none)) with
      rep := repAfter s 0 } := by
  cases taken with
  | false => exact congrArg Host.Outcome.next (finish_eq (w := none) rfl rfl nofun fun _ => rfl)
  | true =>
    have hfinish := finish_eq (s := s) (n := 0) (words := 1) (d := ⟨s.setPc (jumpTarget s.pc off), s.pc, true⟩) rfl rfl
      (fun _ => congrArg some (State.pc_setPc ..).symm) nofun
    rw [setPc_setPc] at hfinish
    exact congrArg Host.Outcome.next hfinish

/-- Settles O53: each row runs `jump` under its condition; the model writes that of JGE, N xor V = 0, as N = V. -/
theorem jumpsFollowFlags : Obligations.JumpsFollowFlags := by
  intro off s p hp
  have hge : (s.flagN == s.flagV) = !(s.flagN ^^ s.flagV) := (Bool.not_not _).symm
  have hjump : exec p.1 s = jump p.2 off s := by
    simp only [List.mem_cons, List.not_mem_nil, or_false] at hp
    rcases hp with rfl | rfl | rfl | rfl | rfl | rfl | rfl | rfl
    case inr.inr.inr.inr.inr.inl => exact congrArg (jump · off s) hge
    all_goals rfl
  rw [hjump, jump_eq, jumpTarget_eq]

end Sys2Proof.Proofs
end

section
/-! PROOF. CALLA and the return from it (spec/44_calla_reti.md R271 to R278): the pushes of a call and its effect, once for
every form; then RETA, a load of the program counter from the two halves a call has stored. -/

namespace Sys2Proof.Proofs

open Sys2Proof Sys2Proof.Machine

/-! ## Stored values -/

/-- What was stored from one state to another rests on their memory, their devices' writes and the parameters alone. -/
theorem storedAll_congr {n : Nat} {l : List (Slot × Slot)} {s s' t t' : State} (h : StoredAll n l s t)
    (hp : s'.params = s.params) (hm : s'.mem = s.mem) (hs : s'.sent = s.sent) (htm : t'.mem = t.mem)
    (hts : t'.sent = t.sent) : StoredAll n l s' t' := by
  induction l generalizing s s' with
  | nil => exact ⟨by rw [htm, h.1, hm], by rw [hts, h.2, hs]⟩
  | cons e l ih =>
    obtain ⟨m, hmp, hat, hrest⟩ := h
    refine ⟨m, hmp.trans hp.symm, ?_, ih hrest rfl rfl rfl⟩
    simpa only [StoredAt, hp, hm, hs] using hat

/-- A push sequence that succeeds has had each of its slots accepted (R80, R83). -/
theorem accepts_of_pushAll {n : Nat} (hn : busWidth n = true) {vs : List Slot} {sp : Slot} {s : State}
    {r : Slot × State} (h : pushAll n vs sp s = .ok r) : ∀ e ∈ pushSlots n sp vs, accepts s e.1 n := by
  induction vs generalizing sp s with
  | nil => simp [pushSlots]
  | cons v vs ih =>
    simp only [pushAll] at h
    split at h
    · rename_i s1 hw
      refine List.forall_mem_cons.2 ⟨?_, fun e he => ?_⟩
      · by_contra hrefused
        rw [busWrite_refused hn hrefused] at hw
        cases hw
      · exact (accepts_congr (Evolves.busWrite hw).params e.1 n).1.1 (ih h e he)
    · cases h

/-- A number stored in memory reads back (R79). -/
theorem readLE_of_storedAt {a v : Slot} {n : Nat} {s t : State} (hr : resolve s.params a = .memory)
    (h : StoredAt a n v s t) : t.mem.readLE a.toNat n = v.toNat := by
  rw [StoredAt, hr] at h
  exact h.2.1

/-- A number outside the bytes stored in memory is what it was. -/
theorem readLE_of_storedAt_out {a v : Slot} {n b k : Nat} {s t : State} (hr : resolve s.params a = .memory)
    (h : StoredAt a n v s t) (hb : b + k ≤ a.toNat ∨ a.toNat + n ≤ b) : t.mem.readLE b k = s.mem.readLE b k := by
  rw [StoredAt, hr] at h
  exact Memory.readLE_congr fun j hj => h.2.2 (b + j) (by omega)

/-- Two words stored in memory one below the other read back as one number of four bytes, the first as its high half
(R78, R79). -/
theorem readLE_of_storedAll {a high low : Slot} {s t : State} (hr : resolve s.params a = .memory)
    (hr2 : resolve s.params (a + 2) = .memory) (hnext : (a + 2).toNat = a.toNat + 2)
    (h : StoredAll 2 [(a + 2, high), (a, low)] s t) : t.mem.readLE a.toNat 4 = low.toNat + 65536 * high.toNat := by
  obtain ⟨m, hparams, hfirst, n, -, hsecond, hmem, -⟩ := h
  have hrm : resolve m.params a = .memory := by rw [hparams]; exact hr
  have hkept : n.mem.readLE (a + 2).toNat 2 = m.mem.readLE (a + 2).toNat 2 :=
    readLE_of_storedAt_out hrm hsecond (.inr hnext.ge)
  rw [hmem, Memory.readLE_add _ _ 2 2, ← hnext, hkept, readLE_of_storedAt hrm hsecond, readLE_of_storedAt hr2 hfirst,
    show 256 ^ 2 = 65536 from rfl]

/-! ## The effect of a call (R271) -/

/-- The return address of a CALLA of `words` words (R271). -/
def returnAddress (words : Nat) (s : State) : Slot := low20 (s.pc + BitVec.ofNat 32 (2 * words))

/-- The two halves of the return address, in the order they are pushed (R271). -/
def returnHalves (words : Nat) (s : State) : List Slot :=
  [slotOf ((returnAddress words s).toNat / 65536), slotOf ((returnAddress words s).toNat % 65536)]

theorem callSlots_eq (words : Nat) (auto : Option RegNum) (s : State) :
    callSlots words auto s = pushSlots 2 (callSp auto s) (returnHalves words s) := rfl

/-- Each half is the one 16-bit word it is meant to be. -/
theorem returnHalves_toNat (words : Nat) (s : State) :
    (slotOf ((returnAddress words s).toNat / 65536)).toNat = (returnAddress words s).toNat / 65536 ∧
      (slotOf ((returnAddress words s).toNat % 65536)).toNat = (returnAddress words s).toNat % 65536 := by
  have := low20_lt (s.pc + BitVec.ofNat 32 (2 * words))
  simp only [slotOf, BitVec.toNat_ofNat, returnAddress]
  omega

theorem returnHalves_lt (words : Nat) (s : State) : ∀ v ∈ returnHalves words s, v.toNat < 256 ^ 2 := by
  obtain ⟨hhigh, hlow⟩ := returnHalves_toNat words s
  have := low20_lt (s.pc + BitVec.ofNat 32 (2 * words))
  simp only [returnHalves, List.forall_mem_cons, hhigh, hlow]
  simp only [returnAddress, List.not_mem_nil, IsEmpty.forall_iff, implies_true, and_true]
  omega

/-- A fault taken ends the run (R402). -/
theorem not_running_takeFault (s : State) (c : FaultCause) : ¬ (s.takeFault c).running := by
  simp [State.running]

section call

variable {words : Nat} {auto : Option RegNum} {v : Slot} {s u t : State}

/-- The stack pointer once the operand is resolved is the one a CALLA pushes from (R271, R275). -/
theorem sp_of_resolved (h : Resolved words auto 4 s u) : u.sp = callSp auto s := by
  rw [State.sp, h.regs 1 (by decide), callSp]
  split
  · rename_i h1
    rw [h1, advance, autoInc_reg s 1 4 (by decide) (by decide) (by decide)]
    rfl
  · rename_i h1
    exact advance_other _ _ _ _ (.inl h1)

/-- It pushes the two halves of its return address from there. -/
theorem pushAll_of_resolved (h : Resolved words auto 4 s u) :
    pushAll 2 [BitVec.ofNat 32 ((low20 (u.pc + 2)).toNat / 65536), BitVec.ofNat 32 ((low20 (u.pc + 2)).toNat % 65536)]
      u.sp u = pushAll 2 (returnHalves words s) (callSp auto s) u := by
  rw [h.next, sp_of_resolved h]
  rfl

/-- The cycle's execution once the return address is pushed, `m` the state and `sp` the stack pointer after that. -/
def calledFrom (m u : State) (sp v : Slot) : Done := ⟨(m.setReg 1 sp).setPc v, u.pc, true⟩

theorem callTo_of_pushAll_ok {m : State} {sp : Slot} (h : Resolved words auto 4 s u)
    (hpush : pushAll 2 (returnHalves words s) (callSp auto s) u = .ok (sp, m)) :
    callTo (.ok (v, u)) s = .next (finish s 0 (calledFrom m u sp v)) := by
  simp only [callTo, pushAll_of_resolved h, hpush, cycle, calledFrom]

theorem callTo_of_pushAll_error {c : FaultCause} (h : Resolved words auto 4 s u)
    (hpush : pushAll 2 (returnHalves words s) (callSp auto s) u = .error c) :
    callTo (.ok (v, u)) s = .next (s.takeFault c) := by
  simp only [callTo, pushAll_of_resolved h, hpush, cycle]

/-- From the operand resolved and the return address pushed to the effect of the whole cycle. -/
theorem callEffect_of_pushed {m : State} (h : Resolved words auto 4 s u)
    (hstored : StoredAll 2 (callSlots words auto s) u m) (hframe : m = { u with mem := m.mem, sent := m.sent }) :
    CallEffect words v auto s (finish s 0 (calledFrom m u (low20 (callSp auto s - 4)) v)) := by
  have hreg : ∀ r, m.reg r = u.reg r := fun r => by rw [hframe]; rfl
  have hkept : ∀ r, r ≠ 0 → r ≠ 1 →
      (finish s 0 (calledFrom m u (low20 (callSp auto s - 4)) v)).reg r = (advance auto 4 s).reg r := fun r h0 h1 => by
    rw [finish_reg _ _ _ _ h0, calledFrom, State.reg_setPc, if_neg h0, State.reg_setReg, if_neg (Ne.symm h1), hreg,
      h.regs r h0]
  obtain ⟨hpc, hrep⟩ := finish_pc (s := s) (n := 0) (words := words) (w := some v)
    (d := calledFrom m u (low20 (callSp auto s - 4)) v)
    (by rw [calledFrom, State.setPc_rep, State.setReg_rep, hframe]; exact h.rep) h.next (by simp [calledFrom])
    (by simp [calledFrom])
  refine ⟨?_, ?_, hrep, hpc, ?_, ?_, ?_, ?_, fun r h0 h1 hr => ?_⟩
  · rw [finish_halted, calledFrom, State.setPc_halted, State.setReg_halted, hframe]
    exact h.halted
  · rw [finish_params, calledFrom, State.setPc_params, State.setReg_params, hframe]
    exact h.params
  · exact storedAll_congr hstored h.params.symm h.mem.symm h.sent.symm (by simp [calledFrom]) (by simp [calledFrom])
  · rw [State.sp, finish_reg _ _ _ _ (by decide)]
    simp [calledFrom]
  · rintro rfl
    have hsr : (finish s 0 (calledFrom m u (low20 (callSp (some 2) s - 4)) v)).sr = u.sr :=
      (hkept 2 (by decide) (by decide)).trans (h.regs 2 (by decide)).symm
    rw [hsr]
    exact h.srAuto
  · rintro r rfl h0 h1 h2 h3
    rw [hkept r h0 h1, advance, autoInc_reg _ _ _ h0 h2 h3]
    rfl
  · rw [hkept r h0 h1]
    exact advance_other _ _ _ _ (hr.symm.imp_right .inr)

/-- A CALLA whose operand is resolved and whose slots are accepted completes (R271). -/
theorem callTo_effect (h : Resolved words auto 4 s u) (hm : s.mem.wf)
    (ha : ∀ e ∈ callSlots words auto s, accepts s e.1 2) :
    ∃ t, callTo (.ok (v, u)) s = .next t ∧ CallEffect words v auto s t := by
  obtain ⟨m, hpush, hstored, hframe⟩ := pushAll_ok (s := u) (sp := callSp auto s) (n := 2) rfl (by rwa [h.mem])
    (returnHalves_lt words s) fun e he => (accepts_congr h.params e.1 2).1.2 (ha e he)
  have hsp : spDown 2 (returnHalves words s).length (callSp auto s) = low20 (callSp auto s - 4) := spDown_eq 2 1 _
  rw [hsp] at hpush
  exact ⟨_, callTo_of_pushAll_ok h hpush, callEffect_of_pushed h hstored hframe⟩

/-- A CALLA that did not fault has had both its slots accepted. -/
theorem accepts_of_callTo (h : Resolved words auto 4 s u) (ht : callTo (.ok (v, u)) s = .next t) (hrun : t.running) :
    ∀ e ∈ callSlots words auto s, accepts s e.1 2 := by
  cases hpush : pushAll 2 (returnHalves words s) (callSp auto s) u with
  | error c =>
    rw [callTo_of_pushAll_error h hpush] at ht
    cases ht
    exact absurd hrun (not_running_takeFault s c)
  | ok r => exact fun e he => (accepts_congr h.params e.1 2).1.1 (accepts_of_pushAll rfl hpush e he)

end call

/-! ## The seven forms (R272 to R278) -/

theorem readsSrc_symbolic (hi : BitVec 4) : ReadsSrc (some hi) .symbolic (readAt (fetchSymbolic hi)) := by
  intro s v u h
  obtain ⟨a, -, hop⟩ := opAt_of_readAt h
  exact ⟨_, by rw [resolveSrc, eaSymbolic_eq]; exact hop⟩

/-- CALLA @Rd+ with a register other than R0 calls through that register (R160, R275). -/
theorem exec_callaInc {d : RegNum} (hd : d ≠ 0) (s : State) :
    exec (.callaInc d) s = callTo (operandValue (resolveSrc .ext none (.autoinc d) s)) s := by
  simp only [exec, execCallaInc, if_neg hd, resolveSrc]

/-- A CALLA whose operand is the source operand `src` of formats I and II runs (R271). -/
theorem runsCall {i : Instr} {words : Nat} {auto : Option RegNum} {hi : Option (BitVec 4)} {src : Src}
    {read : State → Except FaultCause (Slot × State)} (hread : ReadsSrc hi src read) (hwords : words = 1 + srcWords src)
    (hauto : auto = srcAuto src)
    (he : i.wf = true → ∀ s, exec i s = callTo (operandValue (resolveSrc .ext hi src s)) s) :
    RunsCall i words auto read := by
  intro hwf s v u hm hr ha
  subst hwords hauto
  obtain ⟨p, hs⟩ := hread s v u hr
  rw [he hwf, hs]
  exact callTo_effect ((Resolved.here 4 s).src hs) hm ha

/-- Settles O55: the operand of each form is a source operand of formats I and II with a fixed mode. -/
theorem callaPushesReturn : Obligations.CallaPushesReturn := by
  refine ⟨fun d => runsCall (readsSrc_reg d) rfl rfl fun _ _ => rfl,
    fun d => runsCall (readsSrc_indirect d) rfl rfl fun _ _ => rfl,
    fun d => runsCall (readsSrc_autoinc d) rfl rfl fun hwf => exec_callaInc ?_,
    fun d => runsCall (readsSrc_indexed d) rfl rfl fun _ _ => rfl,
    fun hi => runsCall (readsSrc_absolute hi) rfl rfl fun _ _ => rfl,
    fun hi => runsCall (readsSrc_symbolic hi) rfl rfl fun _ _ => rfl,
    fun hi => runsCall (readsSrc_immediate hi) rfl rfl fun _ _ => rfl⟩
  simpa [Instr.wf] using hwf

/-! ## RETA after a call (R242, R271) -/

/-- Every CALLA resolves a source operand of its words and its autoincrement and calls there, but for CALLA @PC+, which
is reserved (R160). -/
theorem exec_calla {i : Instr} (hi : 0 < callaWords i) :
    (∀ s, exec i s = reserved (encode i) s) ∨
      ∃ high src, callaWords i = 1 + srcWords src ∧ callaAuto i = srcAuto src ∧
        ∀ s, exec i s = callTo (operandValue (resolveSrc .ext high src s)) s := by
  cases i with
  | callaReg d => exact .inr ⟨none, .reg d, rfl, rfl, fun _ => rfl⟩
  | callaInd d => exact .inr ⟨none, .indirect d, rfl, rfl, fun _ => rfl⟩
  | callaInc d =>
    by_cases hd : d = 0
    · exact .inl fun s => if_pos hd
    · exact .inr ⟨none, .autoinc d, rfl, rfl, exec_callaInc hd⟩
  | callaIdx d => exact .inr ⟨none, .indexed d, rfl, rfl, fun _ => rfl⟩
  | callaAbs high => exact .inr ⟨some high, .absolute, rfl, rfl, fun _ => rfl⟩
  | callaSym high => exact .inr ⟨some high, .symbolic, rfl, rfl, fun _ => rfl⟩
  | callaImm high => exact .inr ⟨some high, .immediate, rfl, rfl, fun _ => rfl⟩
  | _ => exact absurd hi (lt_irrefl 0)

/-- A CALLA of any form that did not fault has the effect of a call to some target (R271). -/
theorem callEffect_of_running {i : Instr} {s t : State} (hi : 0 < callaWords i) (hm : s.mem.wf)
    (ht : exec i s = .next t) (hrun : t.running) : ∃ v, CallEffect (callaWords i) v (callaAuto i) s t := by
  rcases exec_calla hi with hres | ⟨high, src, hwords, hauto, hcall⟩
  · rw [hres] at ht
    cases ht
    exact absurd hrun (not_running_takeFault s _)
  · rw [hcall] at ht
    rw [hwords, hauto]
    cases hs : resolveSrc .ext high src s with
    | error c =>
      rw [hs] at ht
      cases ht
      exact absurd hrun (not_running_takeFault s _)
    | ok r =>
      obtain ⟨a, u⟩ := r
      rw [hs] at ht
      have hR := (Resolved.here 4 s).src hs
      obtain ⟨t', ht', heffect⟩ := callTo_effect (v := a.value) hR hm (accepts_of_callTo hR ht hrun)
      cases ht.symm.trans ht'
      exact ⟨_, heffect⟩

/-- Two bytes above an address that leaves room for four. -/
theorem toNat_add_two {a : Slot} (h : a.toNat + 4 ≤ Config.memSize) : (a + 2).toNat = a.toNat + 2 := by
  rw [Config.memSize] at h
  bv_omega

/-- Where the slots of a call do not wrap, they are the two words from the new stack pointer up. -/
theorem callSlots_of_sp {words : Nat} {auto : Option RegNum} {s : State} {a : Slot} (ha : a = low20 (callSp auto s - 4))
    (hrange : a.toNat + 4 ≤ Config.memSize) :
    callSlots words auto s = [(a + 2, slotOf ((returnAddress words s).toNat / 65536)),
      (a, slotOf ((returnAddress words s).toNat % 65536))] := by
  have hsecond : low20 (low20 (callSp auto s - BitVec.ofNat 32 2) - BitVec.ofNat 32 2) = a :=
    ha ▸ spDown_eq 2 1 (callSp auto s)
  have hfirst : low20 (callSp auto s - BitVec.ofNat 32 2) = a + 2 := by
    apply BitVec.eq_of_toNat_eq
    have hnat := congrArg BitVec.toNat ha
    rw [toNat_add_two hrange]
    rw [Config.memSize] at hrange
    simp only [low20_toNat, BitVec.toNat_sub, BitVec.ofNat_eq_ofNat, BitVec.toNat_ofNat] at hnat ⊢
    omega
  rw [callSlots_eq, returnHalves, pushSlots, pushSlots, pushSlots, hsecond, hfirst]

/-- Where a call's four bytes are memory below 2^20, they hold its return address (R78, R271). -/
theorem readLE_return {words : Nat} {v : Slot} {auto : Option RegNum} {s t : State} (h : CallEffect words v auto s t)
    (hrange : t.sp.toNat + 4 ≤ Config.memSize) (hlow : resolve s.params t.sp = .memory)
    (hhigh : resolve s.params (t.sp + 2) = .memory) :
    t.mem.readLE t.sp.toNat 4 = (returnAddress words s).toNat := by
  obtain ⟨hhighNat, hlowNat⟩ := returnHalves_toNat words s
  rw [readLE_of_storedAll hlow hhigh (toNat_add_two hrange) (callSlots_of_sp h.sp hrange ▸ h.store), hhighNat, hlowNat]
  exact Nat.mod_add_div _ _

/-- RETA: MOVA @SP+,PC takes the program counter from four bytes of memory at the stack pointer (R242, R166). -/
theorem exec_reta {t : State} {ret : Slot} (hrep : t.rep.left = 0) (hr : resolve t.params t.sp = .memory)
    (hrange : t.sp.toNat + 4 ≤ Config.memSize) (hret : ret.toNat < 2 ^ 20)
    (hread : t.mem.readLE t.sp.toNat 4 = ret.toNat) :
    ∃ u, exec (.movaInc 1 0) t = .next u ∧ u.halted = t.halted ∧ u.pc = ret ∧ u.sp = low20 (t.sp + 4) ∧
      u.mem = t.mem ∧ u.sent = t.sent ∧ ∀ r, r ≠ 0 → r ≠ 1 → u.reg r = t.reg r := by
  obtain ⟨-, -, -, hload, -⟩ := moveCopies
  have hbus : readInd 1 t = .ok (ret, t) := by
    have := busRead_memory (k := .read) (n := 4) rfl hr hrange
    rwa [hread, BitVec.ofNat_toNat, BitVec.setWidth_eq] at this
  obtain ⟨u, hu, heffect⟩ := hload 1 0 rfl t ret t hbus
  rw [trunc_of_lt (ws := .ext) hret] at heffect
  refine ⟨u, hu, heffect.halted, ?_, heffect.advanced 1 rfl (by decide) (by decide) (by decide) (by simp),
    heffect.store.1, heffect.store.2, fun r h0 h1 => ?_⟩
  · rw [heffect.pc, pcAfter, if_pos hrep]
    rfl
  · by_cases h2 : r = 2
    · subst h2
      exact heffect.flags (by simp) (by simp)
    · exact heffect.others r h0 h2 (.inr ⟨by simpa using h0.symm, by simpa using h1.symm⟩)

/-- A 4 taken off the stack pointer and put back leaves it as it was, modulo 2^20 (R31). -/
theorem low20_sub_add_four (a : Slot) : low20 (low20 (a - 4) + 4) = low20 a := by
  rw [low20_add, BitVec.sub_add_cancel]

/-- The stack pointer a CALLA pushes from, as a number modulo 2^20 (R271, R275). -/
theorem low20_callSp_toNat (auto : Option RegNum) (s : State) :
    (low20 (callSp auto s)).toNat = (s.sp.toNat + if auto = some 1 then 4 else 0) % 2 ^ 20 := by
  rw [callSp]
  split
  · rw [low20_low20, low20_toNat]
    bv_omega
  · rw [low20_toNat, Nat.add_zero]

/-- Settles O56: the four bytes RETA reads are the two halves the call stored, and it advances the stack pointer by the
4 the call took off it. -/
theorem retaReturns : Obligations.RetaReturns := by
  intro i s t hi hs hleft hm ht hrun hrange hlow hhigh
  obtain ⟨v, hcall⟩ := callEffect_of_running hi hm ht hrun
  have hrep : t.rep.left = 0 := by rw [hcall.rep, repAfter, if_pos hleft]; exact hleft
  obtain ⟨u, hu, hhalted, hpc, hsp, hmem, hsent, hregs⟩ := exec_reta hrep (by rw [hcall.params]; exact hlow) hrange
    (low20_lt _) (readLE_return hcall hrange hlow hhigh)
  refine ⟨u, hu, hhalted.trans hrun, hpc, hsp, ?_, hmem, hsent, hregs⟩
  rw [hsp, hcall.sp, low20_sub_add_four, low20_callSp_toNat]

end Sys2Proof.Proofs
end

section
/-! PROOF. PUSHM and POPM (spec/45_pushm_popm.md R281 to R286): a push sequence and the end of its cycle; a pop sequence
as writes of distinct registers; then the round trip, where the slots a PUSHM stored are those the POPM reads, from
the last one back. -/

namespace Sys2Proof.Proofs

open Sys2Proof Sys2Proof.Machine

/-! ## PUSHM (R281, R283, R284) -/

/-- The values of the registers in the order they are pushed. -/
theorem pushValues_eq (ws : Size) (n : BitVec 4) (d : RegNum) (s : State) :
    pushValues ws n d s = (pushRegs n d).map (fun r => trunc ws (s.base r)) := by
  rw [pushValues, pushRegs, List.map_map]
  rfl

theorem length_pushValues (ws : Size) (n : BitVec 4) (d : RegNum) (s : State) :
    (pushValues ws n d s).length = n.toNat + 1 := by
  rw [pushValues, List.length_map, List.length_range]

/-- A pushed value has the width of its slot. -/
theorem pushValues_lt {ws : Size} {n : BitVec 4} {d : RegNum} {s : State} {v : Slot} (h : v ∈ pushValues ws n d s) :
    v.toNat < 2 ^ bits ws := by
  obtain ⟨k, -, rfl⟩ := List.mem_map.1 h
  exact trunc_lt ws _

/-- A PUSHM whose pushes all succeed sets the stack pointer and ends its cycle (R281). -/
theorem pushMany_of_pushAll {words : List Word} {ws : Size} {n : BitVec 4} {d : RegNum} {s m : State} {sp : Slot}
    (hrange : pushRangeOk n d = true) (hpush : pushAll (nb ws) (pushValues ws n d s) s.sp s = .ok (sp, m)) :
    pushMany words ws n d s = .next (finish s 0 ⟨m.setReg 1 sp, s.pc, false⟩) := by
  rw [pushMany, if_pos hrange, ← pushValues_eq, hpush]
  rfl

/-- An instruction that runs as `pushMany` has the effect of a PUSHM. -/
theorem runsPush {i : Instr} {words : List Word} {ws : Size} {n : BitVec 4} {d : RegNum} (hwf : i.wf = pushRangeOk n d)
    (he : ∀ s, exec i s = pushMany words ws n d s) : RunsPush i ws n d := by
  intro hi s hm ha
  obtain ⟨m, hpush, hstored, hframe⟩ := pushAll_ok (busWidth_nb ws) hm
    (fun v hv => (pushValues_lt hv).trans_le (two_pow_bits_le_bytes ws)) ha
  rw [length_pushValues, spDown_eq] at hpush
  have hnext := (he s).trans (pushMany_of_pushAll (hwf ▸ hi) hpush)
  have hrep : m.rep = s.rep := by rw [hframe]
  obtain ⟨hpc, hrepAfter⟩ := finish_pc (s := s) (n := 0) (words := 1) (w := none)
    (d := ⟨m.setReg 1 (low20 (s.sp - BitVec.ofNat 32 (nb ws * (n.toNat + 1)))), s.pc, false⟩)
    hrep rfl nofun fun _ => rfl
  refine ⟨_, hnext, ?_, ?_, hrepAfter, hpc, ?_, ?_, fun r h0 h1 => ?_⟩
  · rw [finish_halted, State.setReg_halted, hframe]
  · rw [finish_params, State.setReg_params, hframe]
  · exact storedAll_congr hstored rfl rfl rfl (finish_mem ..) (finish_sent ..)
  · rw [State.sp, finish_reg _ _ _ _ (by decide), State.reg_setReg, if_pos rfl]
  · rw [finish_reg _ _ _ _ h0, State.reg_setReg, if_neg h1.symm, hframe]
    rfl

/-- Settles O57: both widths run `pushMany`. -/
theorem pushmStoresRegisters : Obligations.PushmStoresRegisters := fun _ _ =>
  ⟨runsPush rfl fun _ => rfl, runsPush rfl fun _ => rfl⟩

/-! ## A sequence of register writes -/

/-- What `WriteReg` leaves in a register rests on that register and the parameters alone (R31, R39). -/
theorem writeReg_reg_congr {s t : State} (r : RegNum) (v : Slot) (ws : Size) (hp : t.params = s.params)
    (hr : t.reg r = s.reg r) : (t.writeReg r v ws).reg r = (s.writeReg r v ws).reg r := by
  by_cases h3 : r = 3
  · subst h3
    simpa only [writeReg_three] using hr
  · by_cases h2 : r = 2
    · subst h2
      simp only [writeReg_two, State.writeSR, State.sr, State.reg_setReg, hr, hp]
    · rw [writeReg_reg _ _ _ _ _ h2 h3, writeReg_reg _ _ _ _ _ h2 h3, if_pos rfl, if_pos rfl]

/-- Each register written, the first of the list first. -/
def writeRegs (ws : Size) (l : List (RegNum × Slot)) (s : State) : State := l.foldl (fun x p => x.writeReg p.1 p.2 ws) s

theorem writeRegs_cons (ws : Size) (r : RegNum) (v : Slot) (l : List (RegNum × Slot)) (s : State) :
    writeRegs ws ((r, v) :: l) s = writeRegs ws l (s.writeReg r v ws) := rfl

/-- Register writes change the register file alone. -/
theorem writeRegs_eq_regs (ws : Size) (l : List (RegNum × Slot)) (s : State) :
    writeRegs ws l s = { s with regs := (writeRegs ws l s).regs } := by
  induction l generalizing s with
  | nil => rfl
  | cons p l ih =>
    rw [writeRegs_cons, ih, writeReg_eq_regs]

/-- A register not in the list stays. -/
theorem writeRegs_other {ws : Size} {l : List (RegNum × Slot)} {r : RegNum} (h : r ∉ l.map Prod.fst) (s : State) :
    (writeRegs ws l s).reg r = s.reg r := by
  induction l generalizing s with
  | nil => rfl
  | cons p l ih =>
    rw [List.map_cons, List.mem_cons, not_or] at h
    obtain ⟨hp, hl⟩ := h
    rw [writeRegs_cons, ih hl, writeReg_other _ _ _ _ _ (Ne.symm hp)]

/-- R3 stays, in the list or not (R32). -/
theorem writeRegs_three (ws : Size) (l : List (RegNum × Slot)) (s : State) : (writeRegs ws l s).reg 3 = s.reg 3 := by
  induction l generalizing s with
  | nil => rfl
  | cons p l ih =>
    rw [writeRegs_cons, ih]
    by_cases h3 : p.1 = 3
    · rw [h3, writeReg_three]
    · exact writeReg_other _ _ _ _ _ h3

/-- A register written once has its value as if by that write alone. -/
theorem writeRegs_mem {ws : Size} {l : List (RegNum × Slot)} {r : RegNum} {v : Slot} (hl : (l.map Prod.fst).Nodup)
    (h : (r, v) ∈ l) (s : State) : (writeRegs ws l s).reg r = (s.writeReg r v ws).reg r := by
  induction l generalizing s with
  | nil => exact absurd h List.not_mem_nil
  | cons p l ih =>
    obtain ⟨q, w⟩ := p
    obtain ⟨hq, hl⟩ := List.nodup_cons.1 hl
    rw [writeRegs_cons]
    rcases List.mem_cons.1 h with heq | hmem
    · cases heq
      exact writeRegs_other hq _
    · have hqr : q ≠ r := fun e => hq (List.mem_map.2 ⟨_, hmem, e.symm⟩)
      rw [ih hl hmem, writeReg_reg_congr r v ws (writeReg_params ..) (writeReg_other _ _ _ _ _ hqr)]

/-! ## POPM (R282, R285, R286) -/

/-- A legal POPM: no register above R15, R1 not among them, and R0 alone if at all (R280). -/
theorem popRangeOk_bounds {n : BitVec 4} {d : RegNum} :
    popRangeOk n d = true ↔ d.val + n.toNat ≤ 15 ∧ (2 ≤ d.val ∨ d.val = 0 ∧ n.toNat = 0) := by
  simp only [popRangeOk, Bool.and_eq_true, Bool.not_eq_true', decide_eq_true_eq, Bool.and_eq_false_iff,
    decide_eq_false_iff_not]
  omega

theorem length_popRegs (n : BitVec 4) (d : RegNum) : (popRegs n d).length = n.toNat + 1 := by
  rw [popRegs, List.length_map, List.length_range]

theorem getElem?_popRegs {n : BitVec 4} {d r : RegNum} {k : Nat} (hk : k ≤ n.toNat) (hr : r.val = d.val + k) :
    (popRegs n d)[k]? = some r := by
  rw [popRegs, List.getElem?_map, List.getElem?_range (by omega), Option.map_some, ← hr, Fin.ofNat_val_eq_self]

/-- The registers of a POPM are those from R[d] to R[d+n]. -/
theorem mem_popRegs {n : BitVec 4} {d r : RegNum} (h : d.val + n.toNat ≤ 15) :
    r ∈ popRegs n d ↔ d.val ≤ r.val ∧ r.val ≤ d.val + n.toNat := by
  simp only [popRegs, List.mem_map, List.mem_range, Fin.ext_iff, Fin.val_ofNat]
  constructor
  · rintro ⟨k, hk, hr⟩
    omega
  · rintro ⟨hlo, hhi⟩
    exact ⟨r.val - d.val, by omega, by omega⟩

/-- No register is popped twice. -/
theorem nodup_popRegs (n : BitVec 4) (d : RegNum) : (popRegs n d).Nodup := by
  refine List.Nodup.map_on (fun i hi j hj hij => ?_) List.nodup_range
  rw [List.mem_range] at hi hj
  simp only [Fin.ext_iff, Fin.val_ofNat] at hij
  omega

/-- `k` slots read give `k` values of the slots' width. -/
theorem readSlots_values {ws : Size} {k : Nat} {a : Slot} {s u : State} {vs : List Slot}
    (h : readSlots ws k a s = .ok (vs, u)) : vs.length = k ∧ ∀ v ∈ vs, v.toNat < 2 ^ bits ws := by
  induction k generalizing a s vs with
  | zero =>
    cases h
    exact ⟨rfl, nofun⟩
  | succ k ih =>
    rw [readSlots] at h
    split at h
    · cases h
    · split at h
      · cases h
      · rename_i hrest
        cases h
        obtain ⟨hlength, hlt⟩ := ih hrest
        exact ⟨by rw [List.length_cons, hlength], List.forall_mem_cons.2 ⟨trunc_lt ws _, hlt⟩⟩

/-- A POPM whose pops all succeed sets the stack pointer and ends its cycle (R282). -/
theorem popMany_of_popAll {words : List Word} {ws : Size} {n : BitVec 4} {d : RegNum} {s m : State} {sp : Slot}
    (hrange : popRangeOk n d = true) (hpop : popAll ws (popRegs n d) s.sp s = .ok (sp, m)) :
    popMany words ws n d s = .next (finish s 0 ⟨m.setReg 1 sp, s.pc, d == 0⟩) := by
  rw [popMany, if_pos hrange, hpop]
  rfl

/-- The registers once `vs` is popped into them (R282). -/
def popped (ws : Size) (n : BitVec 4) (d : RegNum) (vs : List Slot) (s : State) : State :=
  writeRegs ws ((popRegs n d).zip vs) s

section popped

variable {ws : Size} {n : BitVec 4} {d r : RegNum} {vs : List Slot} {s : State} {k : Nat} {v : Slot}

/-- The registers popped are those of the POPM, each once. -/
theorem map_fst_zip_popRegs (hlength : vs.length = n.toNat + 1) : ((popRegs n d).zip vs).map Prod.fst = popRegs n d :=
  List.map_fst_zip (by rw [length_popRegs, hlength])

/-- A register outside the POPM's stays. -/
theorem popped_other (hlength : vs.length = n.toNat + 1) (hr : r ∉ popRegs n d) :
    (popped ws n d vs s).reg r = s.reg r :=
  writeRegs_other (by rwa [map_fst_zip_popRegs hlength]) s

/-- R[d+k] takes the `k`-th value as `WriteReg` has it (R31, R282). -/
theorem popped_reg (hlength : vs.length = n.toNat + 1) (hv : vs[k]? = some v) (hr : r.val = d.val + k) :
    (popped ws n d vs s).reg r = (s.writeReg r v ws).reg r := by
  obtain ⟨hk, -⟩ := List.getElem?_eq_some_iff.1 hv
  have hzip : ((popRegs n d).zip vs)[k]? = some (r, v) :=
    List.getElem?_zip_eq_some.2 ⟨getElem?_popRegs (by omega) hr, hv⟩
  exact writeRegs_mem (by rw [map_fst_zip_popRegs hlength]; exact nodup_popRegs n d) (List.mem_of_getElem? hzip) s

/-- A register but R2 and R3 takes a value of the slots' width as it is (R31). -/
theorem popped_value (hlength : vs.length = n.toNat + 1) (hlt : ∀ v ∈ vs, v.toNat < 2 ^ bits ws) (hv : vs[k]? = some v)
    (hr : r.val = d.val + k) (h2 : r ≠ 2) (h3 : r ≠ 3) : (popped ws n d vs s).reg r = v := by
  rw [popped_reg hlength hv hr, writeReg_reg _ _ _ _ _ h2 h3, if_pos rfl, trunc_of_lt (hlt v (List.mem_of_getElem? hv))]

/-- A pop into R2 is an explicit write of SR (R39). -/
theorem popped_sr (hlength : vs.length = n.toNat + 1) (hlt : ∀ v ∈ vs, v.toNat < 2 ^ bits ws) (hv : vs[k]? = some v)
    (hr : 2 = d.val + k) : SrWritten s.params s.sr v (popped ws n d vs s).sr := by
  rw [State.sr, State.sr, popped_reg hlength hv hr, writeReg_two, trunc_of_lt (hlt v (List.mem_of_getElem? hv))]
  exact writeSR_written s v

/-- A pop into R0 puts the lowest slot's value there. -/
theorem popped_pc (hlength : vs.length = n.toNat + 1) (hlt : ∀ v ∈ vs, v.toNat < 2 ^ bits ws) (hd : d = 0) :
    vs[0]? = some (popped ws n d vs s).pc := by
  have hv : vs[0]? = some vs[0] := List.getElem?_eq_getElem (by omega)
  rw [State.pc, popped_value hlength hlt hv (by rw [hd]; rfl) (by decide) (by decide), hv]

end popped

/-- A legal POPM whose slots can be read ends its cycle with the registers popped, and changes nothing else but the
count of device reads (R282). -/
theorem popMany_next {words : List Word} {ws : Size} {n : BitVec 4} {d : RegNum} {s u : State} {vs : List Slot}
    (hlegal : popRangeOk n d = true) (hread : readSlots ws (n.toNat + 1) s.sp s = .ok (vs, u)) :
    ∃ m : State, popMany words ws n d s = .next (finish s 0
        ⟨m.setReg 1 (low20 (s.sp + BitVec.ofNat 32 (nb ws * (n.toNat + 1)))), s.pc, d == 0⟩) ∧
      (∀ r, m.reg r = (popped ws n d vs s).reg r) ∧ m = { s with regs := m.regs, deviceReads := m.deviceReads } := by
  obtain ⟨m, hpop, hm⟩ := popAll_ok (rs := popRegs n d) (by rwa [length_popRegs]) rfl rfl rfl
  rw [length_popRegs, spUp_eq] at hpop
  refine ⟨m, popMany_of_popAll hlegal hpop, fun r => by rw [hm]; rfl, ?_⟩
  rw [hm]
  exact congrArg (fun x : State => { x with deviceReads := u.deviceReads }) (writeRegs_eq_regs ..)

/-- An instruction that runs as `popMany` has the effect of a POPM. -/
theorem runsPop {i : Instr} {words : List Word} {ws : Size} {n : BitVec 4} {d : RegNum} (hwf : i.wf = popRangeOk n d)
    (he : ∀ s, exec i s = popMany words ws n d s) : RunsPop i ws n d := by
  intro hi s vs u hread
  have hlegal : popRangeOk n d = true := hwf ▸ hi
  obtain ⟨hrange, hsp⟩ := popRangeOk_bounds.1 hlegal
  obtain ⟨hlength, hlt⟩ := readSlots_values hread
  obtain ⟨m, hnext, hregs, hframe⟩ := popMany_next (words := words) hlegal hread
  rw [← he] at hnext
  generalize low20 (s.sp + BitVec.ofNat 32 (nb ws * (n.toNat + 1))) = sp at hnext ⊢
  have hkept : ∀ r, r ≠ 0 → r ≠ 1 →
      (finish s 0 ⟨m.setReg 1 sp, s.pc, d == 0⟩).reg r = (popped ws n d vs s).reg r := fun r h0 h1 => by
    rw [finish_reg _ _ _ _ h0, State.reg_setReg, if_neg h1.symm, hregs]
  obtain ⟨hpc, hrep⟩ := finish_pc (s := s) (n := 0) (words := 1) (w := if d = 0 then vs[0]? else none)
    (d := ⟨m.setReg 1 sp, s.pc, d == 0⟩) (by rw [State.setReg_rep, hframe]) rfl
    (fun h => by
      rw [if_pos (beq_iff_eq.1 h), popped_pc hlength hlt (beq_iff_eq.1 h), State.pc_setReg, if_neg (by decide),
        State.pc, State.pc, hregs])
    (fun h => if_neg (beq_eq_false_iff_ne.1 h))
  refine ⟨_, hnext, ?_, ?_, hrep, hpc, ?_, ?_, ?_, fun k v r hv hr h0 h2 h3 => ?_, fun k v hv hr => ?_,
    fun r h0 h1 hr => ?_⟩
  · rw [finish_halted, State.setReg_halted, hframe]
  · rw [finish_params, State.setReg_params, hframe]
  · rw [finish_mem, State.setReg_mem, hframe]
  · rw [finish_sent, State.setReg_sent, hframe]
  · rw [State.sp, finish_reg _ _ _ _ (by decide), State.reg_setReg, if_pos rfl]
  · have h1 : r ≠ 1 := fun e => by
      obtain ⟨hk, -⟩ := List.getElem?_eq_some_iff.1 hv
      rw [e, Fin.val_one] at hr
      omega
    rw [hkept r h0 h1, popped_value hlength hlt hv hr h2 h3]
  · change SrWritten s.params s.sr v (State.reg _ 2)
    rw [hkept 2 (by decide) (by decide)]
    exact popped_sr hlength hlt hv hr
  · rw [hkept r h0 h1]
    rcases hr with rfl | hr
    · exact writeRegs_three ..
    · exact popped_other hlength (by rw [mem_popRegs hrange]; omega)

/-- Settles O58: both widths run `popMany`. -/
theorem popmLoadsRegisters : Obligations.PopmLoadsRegisters := fun _ _ =>
  ⟨runsPop rfl fun _ => rfl, runsPop rfl fun _ => rfl⟩

/-! ## The slots of a PUSHM

In memory they do not overlap, so each still holds its value once all are stored; read upwards from the new stack
pointer, they are the same slots from the last one back. -/

/-- Two runs of `n` bytes that do not overlap. -/
def Apart (n : Nat) (a b : Slot) : Prop := a.toNat + n ≤ b.toNat ∨ b.toNat + n ≤ a.toNat

/-- The slot lies in memory and holds its value (R78). -/
def HeldIn (n : Nat) (t : State) (e : Slot × Slot) : Prop :=
  resolve t.params e.1 = .memory ∧ e.1.toNat + n ≤ Config.memSize ∧ t.mem.readLE e.1.toNat n = e.2.toNat

/-- Each slot is some number of pushes below the start. -/
theorem address_of_mem_pushSlots {n : Nat} {vs : List Slot} {sp : Slot} {e : Slot × Slot} (h : e ∈ pushSlots n sp vs) :
    ∃ k < vs.length, e.1 = spDown n (k + 1) sp := by
  induction vs generalizing sp with
  | nil => exact absurd h List.not_mem_nil
  | cons v vs ih =>
    rcases List.mem_cons.1 h with rfl | htail
    · exact ⟨0, Nat.succ_pos _, rfl⟩
    · obtain ⟨k, hk, he⟩ := ih htail
      exact ⟨k + 1, Nat.succ_lt_succ hk, he⟩

/-- A slot is apart from those pushed after it, as long as they do not go all the way round (R31). -/
theorem apart_spDown {n k : Nat} (a : Slot) (h : n * (k + 2) ≤ 2 ^ 20) :
    Apart n a (spDown n (k + 1) a) := by
  have hsum : n * (k + 1) + n ≤ 2 ^ 20 := by rwa [show n * (k + 2) = n * (k + 1) + n by ring] at h
  have hle : n ≤ n * (k + 1) := Nat.le_mul_of_pos_right n (Nat.succ_pos k)
  rw [Apart, spDown_eq, low20_toNat, BitVec.toNat_sub, BitVec.toNat_ofNat]
  generalize n * (k + 1) = below at hsum hle ⊢
  omega

theorem pairwise_apart_pushSlots {n : Nat} {vs : List Slot} (sp : Slot) (h : n * vs.length ≤ 2 ^ 20) :
    (pushSlots n sp vs).Pairwise (fun e f => Apart n f.1 e.1) := by
  induction vs generalizing sp with
  | nil => exact List.Pairwise.nil
  | cons v vs ih =>
    rw [List.length_cons] at h
    refine List.pairwise_cons.2 ⟨fun f hf => ?_, ih _ ((Nat.mul_le_mul_left n (Nat.le_succ _)).trans h)⟩
    obtain ⟨k, hk, hfk⟩ := address_of_mem_pushSlots hf
    rw [hfk]
    exact (apart_spDown _ ((Nat.mul_le_mul_left n (by omega)).trans h)).symm

/-- Bytes apart from every slot stored in memory are what they were. -/
theorem readLE_of_storedAll_apart {n : Nat} {l : List (Slot × Slot)} {s t : State} {a : Slot} (h : StoredAll n l s t)
    (hmem : ∀ e ∈ l, resolve s.params e.1 = .memory) (ha : ∀ e ∈ l, Apart n e.1 a) :
    t.mem.readLE a.toNat n = s.mem.readLE a.toNat n := by
  induction l generalizing s with
  | nil => rw [h.1]
  | cons e l ih =>
    obtain ⟨m, hparams, hat, hrest⟩ := h
    obtain ⟨hmemE, hmemL⟩ := List.forall_mem_cons.1 hmem
    obtain ⟨haE, haL⟩ := List.forall_mem_cons.1 ha
    rw [ih hrest (by rwa [hparams]) haL, readLE_of_storedAt_out hmemE hat haE.symm]

/-- Slots in memory that do not overlap each hold their value once all are stored (R79). -/
theorem readLE_of_storedAll_mem {n : Nat} {l : List (Slot × Slot)} {s t : State} (h : StoredAll n l s t)
    (hmem : ∀ e ∈ l, resolve s.params e.1 = .memory) (hapart : l.Pairwise (fun e f => Apart n f.1 e.1)) :
    ∀ e ∈ l, t.mem.readLE e.1.toNat n = e.2.toNat := by
  induction l generalizing s with
  | nil => exact nofun
  | cons e l ih =>
    obtain ⟨m, hparams, hat, hrest⟩ := h
    obtain ⟨hmemE, hmemL⟩ := List.forall_mem_cons.1 hmem
    obtain ⟨hapartE, hapartL⟩ := List.pairwise_cons.1 hapart
    have hmemM : ∀ f ∈ l, resolve m.params f.1 = .memory := by rwa [hparams]
    refine List.forall_mem_cons.2 ⟨?_, ih hrest hmemM hapartL⟩
    rw [readLE_of_storedAll_apart hrest hmemM hapartE, readLE_of_storedAt hmemE hat]

/-- Values in slots of `n` bytes one after another upwards from `a`, each address modulo 2^20 (R282). -/
def popSlots (n : Nat) : Slot → List Slot → List (Slot × Slot)
  | _, [] => []
  | a, v :: vs => (a, v) :: popSlots n (low20 (a + BitVec.ofNat 32 n)) vs

theorem popSlots_append (n : Nat) (a : Slot) (vs : List Slot) (v : Slot) :
    popSlots n a (vs ++ [v]) = popSlots n a vs ++ [(spUp n vs.length a, v)] := by
  induction vs generalizing a with
  | nil => rfl
  | cons w vs ih => exact congrArg ((a, w) :: ·) (ih _)

theorem low20_of_lt {v : Slot} (h : v.toNat < 2 ^ Config.addrBits) : low20 v = v := trunc_of_lt (ws := .ext) h

/-- As many pops as pushes bring the stack pointer back (R31). -/
theorem spUp_spDown (n k : Nat) {sp : Slot} (h : low20 sp = sp) : spUp n k (spDown n k sp) = sp := by
  cases k with
  | zero => rfl
  | succ k => rw [spUp_eq, spDown_eq, low20_add, BitVec.sub_add_cancel, h]

/-- The slots pushed, read upwards from where the pushes ended, are the same slots from the last one back. -/
theorem popSlots_reverse (n : Nat) (sp : Slot) (vs : List Slot) :
    popSlots n (spDown n vs.length sp) vs.reverse = (pushSlots n sp vs).reverse := by
  induction vs generalizing sp with
  | nil => rfl
  | cons v vs ih =>
    rw [List.reverse_cons, List.length_cons, spDown, popSlots_append, ih, List.length_reverse,
      spUp_spDown n _ (low20_low20 _), pushSlots, List.reverse_cons]

/-- Slots held in memory are read as their values (R282). -/
theorem readSlots_of_heldIn {ws : Size} {vs : List Slot} {a : Slot} {t : State}
    (h : ∀ e ∈ popSlots (nb ws) a vs, HeldIn (nb ws) t e) :
    readSlots ws vs.length a t = .ok (vs.map (trunc ws), t) := by
  induction vs generalizing a with
  | nil => rfl
  | cons v vs ih =>
    obtain ⟨⟨hmem, hrange, hheld⟩, hrest⟩ := List.forall_mem_cons.1 h
    rw [List.length_cons, readSlots, busRead_memory (busWidth_nb ws) hmem hrange, hheld]
    simp only [ih hrest, BitVec.ofNat_toNat, BitVec.setWidth_eq, List.map_cons]

/-! ## POPM after PUSHM (R281, R282) -/

/-- The slots a PUSHM stored in memory are read back in the order of a POPM. -/
theorem readSlots_of_pushed {ws : Size} {n : BitVec 4} {d : RegNum} {s t : State} {sp : Slot}
    (hstored : StoredAll (nb ws) (pushSlots (nb ws) sp (pushValues ws n d s)) s t) (hparams : t.params = s.params)
    (hslots : ∀ e ∈ pushSlots (nb ws) sp (pushValues ws n d s),
      resolve s.params e.1 = .memory ∧ e.1.toNat + nb ws ≤ Config.memSize) :
    readSlots ws (n.toNat + 1) (spDown (nb ws) (n.toNat + 1) sp) t = .ok ((pushValues ws n d s).reverse, t) := by
  have hbytes : nb ws * (pushValues ws n d s).length ≤ 2 ^ 20 := by
    have hnb : nb ws ≤ 4 := by cases ws <;> decide
    rw [length_pushValues]
    exact (Nat.mul_le_mul hnb (show n.toNat + 1 ≤ 16 by omega)).trans (by decide)
  have hheld : ∀ e ∈ pushSlots (nb ws) sp (pushValues ws n d s), HeldIn (nb ws) t e := fun e he =>
    ⟨hparams ▸ (hslots e he).1, (hslots e he).2,
      readLE_of_storedAll_mem hstored (fun f hf => (hslots f hf).1) (pairwise_apart_pushSlots sp hbytes) e he⟩
  have hread := readSlots_of_heldIn (ws := ws) (t := t) (vs := (pushValues ws n d s).reverse)
    (a := spDown (nb ws) (n.toNat + 1) sp) (by
      rw [← length_pushValues ws n d s, popSlots_reverse]
      exact fun e he => hheld e (List.mem_reverse.1 he))
  rw [List.length_reverse, length_pushValues] at hread
  rw [hread, List.map_congr_left fun v hv => trunc_of_lt (pushValues_lt (List.mem_reverse.1 hv)), List.map_id']

/-- The last value a PUSHM of R[d] down to R[d-n] pushes is that of R[d-n], the one before it that of the register
above (R281). -/
theorem getElem?_reverse_pushValues {ws : Size} {n : BitVec 4} {d r : RegNum} {s : State} {k : Nat}
    (hn : n.toNat ≤ d.val) (hk : k ≤ n.toNat) (hr : r.val = d.val - n.toNat + k) :
    (pushValues ws n d s).reverse[k]? = some (trunc ws (s.base r)) := by
  rw [List.getElem?_reverse (by rw [length_pushValues]; omega), length_pushValues, pushValues, List.getElem?_map,
    List.getElem?_range (by omega), Option.map_some, show d.val - (n.toNat + 1 - 1 - k) = r.val by omega,
    Fin.ofNat_val_eq_self]

/-- A narrow general register is pushed as it is (R31, R147). -/
theorem trunc_base {s : State} {r : RegNum} (hs : s.slotsNarrow) (h0 : r ≠ 0) (h3 : r ≠ 3) :
    trunc .ext (s.base r) = s.reg r := by
  rw [State.base, if_neg h0, if_neg h3]
  exact trunc_of_lt (hs r)

/-- An explicit write of SR with its own value leaves it as it is (R39). -/
theorem eq_of_srWritten_self {p : Params} {before after : Slot} (h : SrWritten p before before after) :
    after = before :=
  BitVec.eq_of_getLsbD_eq fun k hk => by rw [h k hk, ite_self]

/-- Settles O59: the POPM reads back what the PUSHM stored, so each register popped gets its own value. -/
theorem pushThenPopRestores : Obligations.PushThenPopRestores := by
  intro n d s hpushWf hpopWf hm hs _ hslots
  have hn : n.toNat ≤ d.val := of_decide_eq_true hpushWf
  have hlow : (Fin.ofNat 16 (d.val - n.toNat)).val = d.val - n.toNat := Nat.mod_eq_of_lt (by omega)
  obtain ⟨t, ht, htHalted, htParams, -, -, hstored, htSp, htRegs⟩ := (pushmStoresRegisters n d).1 hpushWf s hm
    fun e he => by rw [accepts, (hslots e he).1]; exact (hslots e he).2
  rw [← spDown_eq] at htSp
  obtain ⟨u, hu, huHalted, -, -, -, huMem, -, huSp, huRegs, huSr, huOthers⟩ :=
    (popmLoadsRegisters n _).1 hpopWf t _ t (htSp ▸ readSlots_of_pushed hstored htParams hslots)
  rw [← spUp_eq, htSp, spUp_spDown _ _ (sp := s.sp) (low20_of_lt (hs 1))] at huSp
  refine ⟨t, u, ht, hu, fun h => huHalted.trans (htHalted.trans h), huMem, fun r h0 => ?_⟩
  by_cases h1 : r = 1
  · subst h1
    exact huSp
  by_cases hout : r = 3 ∨ r.val < d.val - n.toNat ∨ d.val - n.toNat + n.toNat < r.val
  · exact (huOthers r h0 h1 (by rwa [hlow])).trans (htRegs r h0 h1)
  rw [not_or, not_or, Nat.not_lt, Nat.not_lt] at hout
  obtain ⟨h3, hge, hle⟩ := hout
  obtain ⟨k, hk⟩ := Nat.exists_eq_add_of_le hge
  have hpopped := getElem?_reverse_pushValues (ws := .ext) (s := s) hn (by omega) hk
  rw [trunc_base hs h0 h3] at hpopped
  rw [← hlow] at hk
  by_cases h2 : r = 2
  · subst h2
    rw [← htRegs 2 h0 h1] at hpopped ⊢
    exact eq_of_srWritten_self (huSr k _ hpopped hk)
  · exact huRegs k _ r hpopped hk h0 h2 h3

end Sys2Proof.Proofs
end

section
/-! PROOF. Instruction words in memory: what fetching and decoding them gives (R111, R310), that every step of a running
state completes, and the reserved words and the repeated write of R0 that halt it (R160, R280, R315). -/

namespace Sys2Proof.Proofs

open Sys2Proof Sys2Proof.Machine

/-! ## A step of a running state (R313) -/

theorem step_of_fetchDecode_ok {s u : State} {i : Instr} (hs : s.running) (h : fetchDecode s = .ok (i, u)) :
    step s = exec i u := by
  rw [State.running] at hs
  simp [step, hs, h]

/-- Settles O8: a step takes the fault of its fetch or its decode, or runs an instruction, and each completes. -/
theorem runningStepCompletes : Obligations.RunningStepCompletes := by
  intro s hs
  cases h : fetchDecode s with
  | error c => exact ⟨_, step_of_fetchDecode_error hs h⟩
  | ok r =>
    rw [step_of_fetchDecode_ok hs h]
    exact completes_exec r.1 r.2

/-! ## Words that lie at the program counter -/

/-- Which words lie at an address rests on memory and on the parameters alone. -/
theorem holdsWords_congr {s t : State} (hm : t.mem = s.mem) (hp : t.params = s.params) {a : Slot} {ws : List Word}
    (h : s.holdsWords a ws) : t.holdsWords a ws := by
  induction ws generalizing a with
  | nil => trivial
  | cons w ws ih =>
    obtain ⟨hr, hsize, hw, hrest⟩ := h
    exact ⟨by rwa [hp], hsize, by rwa [hm], ih hrest⟩

theorem fetchNext_holdsWords {s : State} {w : Word} {ws : List Word} (h : s.holdsWords (low20 (s.pc + 2)) (w :: ws)) :
    fetchNext s = .ok (w, s.setPc (low20 (s.pc + 2))) := by
  refine fetchHere_holdsWords (ws := ws) ?_
  rw [State.pc_setPc]
  exact holdsWords_congr (State.setPc_mem ..) (State.setPc_params ..) h

/-- A word that begins no extended instruction is decoded alone. -/
theorem fetchDecode_word {s : State} {w : Word} (h : s.holdsWords s.pc [w]) (hw : isExtWord w = false) :
    fetchDecode s = (decodeWords [w]).map fun i => (i, s) := by
  simp only [fetchDecode, fetchHere_holdsWords h, hw, Bool.false_eq_true, if_false]
  cases decodeWords [w] <;> rfl

/-- An extension word is decoded with the word after it (R310). -/
theorem fetchDecode_extended {s : State} {p w : Word} (h : s.holdsWords s.pc [p, w]) (hp : isExtWord p = true) :
    fetchDecode s = (decodeWords [p, w]).map fun i => (i, s) := by
  simp only [fetchDecode, fetchHere_holdsWords h, hp, if_true, fetchNext_holdsWords h.2.2.2]
  cases decodeWords [p, w] <;> rfl

/-- The words of one instruction are a core word, or an extension word and a core word (R110, R111). -/
theorem words_of_decode {ws : List Word} {i : Instr} (h : decode ws = .ok (i, [])) :
    (∃ w, ws = [w] ∧ isExtWord w = false) ∨ ∃ p w, ws = [p, w] ∧ isExtWord p = true := by
  cases ws with
  | nil => simp [decode] at h
  | cons w rest =>
    cases hw : isExtWord w with
    | false =>
      simp only [decode, hw, Bool.false_eq_true, if_false] at h
      split at h
      · cases h
        exact .inl ⟨w, rfl, hw⟩
      · simp at h
    | true =>
      cases rest with
      | nil => simp [decode, hw] at h
      | cons c rest =>
        simp only [decode, hw, if_true, Except.ok.injEq, Prod.mk.injEq] at h
        obtain ⟨-, rfl⟩ := h
        exact .inr ⟨w, c, rfl, hw⟩

/-- A step runs the instruction that the words at the program counter decode to (R111, R313). -/
theorem step_of_decode {s : State} {ws : List Word} {i : Instr} (hs : s.running) (hws : s.holdsWords s.pc ws)
    (h : decode ws = .ok (i, [])) : step s = exec i s := by
  have hi : decodeWords ws = .ok i := by rw [decodeWords, h]
  refine step_of_fetchDecode_ok hs ?_
  rcases words_of_decode h with ⟨w, rfl, hw⟩ | ⟨p, w, rfl, hp⟩
  · rw [fetchDecode_word hws hw, hi]
    rfl
  · rw [fetchDecode_extended hws hp, hi]
    rfl

/-! ## Reserved words (R160, R280, R310) -/

/-- A word with its top bits fixed is written from its low bits. -/
theorem rawWord_field {w : Word} {base hi : Nat} (h : base + w.toNat % 2 ^ (hi + 1) = w.toNat) :
    rawWord base (BitVec.ofNat (hi + 1) (field w hi 0)).toNat = w := by
  have hlow : (BitVec.ofNat (hi + 1) (field w hi 0)).toNat = w.toNat % 2 ^ (hi + 1) := by simp [field]
  rw [rawWord, hlow, h, BitVec.ofNat_toNat, BitVec.setWidth_eq]

theorem rawExt_field {p : Word} (h : 0x1800 ≤ p.toNat ∧ p.toNat < 0x2000) :
    rawExt (BitVec.ofNat 11 (field p 10 0)) = p := rawWord_field (base := 0x1800) (hi := 10) (by omega)

/-! What the decoder makes of each group of words but formats I and II after an extension word. -/

section groups

variable {p w : Word}

theorem decodeExt_addr (h : w.toNat < 0x1000) : decodeExt p w =
    .reservedPrefixAddr (BitVec.ofNat 11 (field p 10 0)) (BitVec.ofNat 12 (field w 11 0)) := by
  simp only [decodeExt, field_top w 8 (by decide)]
  rw [if_pos (by omega)]

theorem decodeExt_calla (h : 0x1300 ≤ w.toNat ∧ w.toNat < 0x1400) : decodeExt p w =
    .reservedPrefixCalla (BitVec.ofNat 11 (field p 10 0)) (BitVec.ofNat 8 (field w 7 0)) := by
  simp only [decodeExt, field_top w 8 (by decide)]
  rw [if_neg (by omega), if_neg (by omega), if_pos (by omega)]

theorem decodeExt_stack (h : 0x1400 ≤ w.toNat ∧ w.toNat < 0x1800) : decodeExt p w =
    .reservedPrefixPushm (BitVec.ofNat 11 (field p 10 0)) (BitVec.ofNat 10 (field w 9 0)) := by
  simp only [decodeExt, field_top w 8 (by decide)]
  rw [if_neg (by omega), if_neg (by omega), if_neg (by omega), if_pos (by omega)]

theorem decodeExt_prefix (h : 0x1800 ≤ w.toNat ∧ w.toNat < 0x2000) : decodeExt p w =
    .reservedPrefixPrefix (BitVec.ofNat 11 (field p 10 0)) (BitVec.ofNat 11 (field w 10 0)) := by
  simp only [decodeExt, field_top w 8 (by decide)]
  rw [if_neg (by omega), if_neg (by omega), if_neg (by omega), if_neg (by omega), if_pos (by omega)]

theorem decodeExt_jump (h : 0x2000 ≤ w.toNat ∧ w.toNat < 0x4000) : decodeExt p w =
    .reservedPrefixJump (BitVec.ofNat 11 (field p 10 0)) (BitVec.ofNat 13 (field w 12 0)) := by
  simp only [decodeExt, field_top w 8 (by decide)]
  rw [if_neg (by omega), if_neg (by omega), if_neg (by omega), if_neg (by omega), if_neg (by omega),
    if_pos (by omega)]

end groups

/-- A word of another group than formats I and II after an extension word is a reserved instruction of these two
words. -/
theorem exec_reservedPrefix {p w : Word} (hp : 0x1800 ≤ p.toNat ∧ p.toNat < 0x2000)
    (hw : w.toNat < 0x1000 ∨ (0x1300 ≤ w.toNat ∧ w.toNat < 0x4000)) (s : State) :
    exec (decodeExt p w) s = reserved [p, w] s := by
  have hencode {base hi : Nat} (h : base + w.toNat % 2 ^ (hi + 1) = w.toNat) :
      reserved [rawExt (BitVec.ofNat 11 (field p 10 0)), rawWord base (BitVec.ofNat (hi + 1) (field w hi 0)).toNat] s =
        reserved [p, w] s := by rw [rawExt_field hp, rawWord_field h]
  by_cases haddr : w.toNat < 0x1000
  · rw [decodeExt_addr haddr]
    exact hencode (base := 0) (hi := 11) (by omega)
  by_cases hcalla : w.toNat < 0x1400
  · rw [decodeExt_calla (by omega)]
    exact hencode (base := 0x1300) (hi := 7) (by omega)
  by_cases hstack : w.toNat < 0x1800
  · rw [decodeExt_stack (by omega)]
    exact hencode (base := 0x1400) (hi := 9) (by omega)
  by_cases hprefix : w.toNat < 0x2000
  · rw [decodeExt_prefix (by omega)]
    exact hencode (base := 0x1800) (hi := 10) (by omega)
  · rw [decodeExt_jump (by omega)]
    exact hencode (base := 0x2000) (hi := 12) (by omega)

/-- A PUSHM or POPM word whose register range is illegal is refused. -/
theorem fetchDecode_illegalRange {s : State} {w : Word} (hw : s.holdsWords s.pc [w]) (hr : IllegalRange w) :
    fetchDecode s = .error (.reservedOpcode [w]) := by
  have hbounds := hr.bounds
  have hcore : w.toNat < 0x1800 ∨ 0x2000 ≤ w.toNat := .inl hbounds.2
  have hext : isExtWord w = false := by rw [isExtWord_eq, decide_eq_false (by omega)]
  have herror : decodeCore w = .error .reservedOpcode :=
    ((decodeCore_total hcore).resolve_left fun h => h.1 hr).2
  rw [fetchDecode_word hw hext, decodeWords, decode_core_error hcore herror]
  rfl

/-- Settles O12: an extension word before another group decodes to a reserved row, an illegal range to no
instruction. -/
theorem reservedWordsHalt : Obligations.ReservedWordsHalt := by
  refine ⟨fun s w c hs hwords hlo hhi hc => ?_, fun s w hs hw hr => ?_⟩
  · rw [step_of_decode hs hwords (decode_extWord ⟨hlo, hhi⟩ c []), exec_reservedPrefix ⟨hlo, hhi⟩ hc, reserved_next]
  · exact step_of_fetchDecode_error hs (fetchDecode_illegalRange hw hr)

/-! ## A repeated instruction with destination R0 (R160, R315) -/

/-- Settles O15: each of these instructions is `extended` with its destination R0. -/
theorem repeatedPcReserved : Obligations.RepeatedPcReserved := by
  intro x s hn
  simp only [List.forall_mem_cons, List.not_mem_nil, IsEmpty.forall_iff, implies_true, and_true]
  refine ⟨fun src => ?_, ?_⟩
  · and_intros <;> exact extended_reserved hn
  · and_intros <;> exact extended_reserved hn

end Sys2Proof.Proofs
end

section
/-! PROOF. What the decoder makes of the encoder's words, from their fields: one lemma for each kind of word (R110 to
R126). -/

namespace Sys2Proof.Proofs

open Sys2Proof Sys2Proof.Machine

/-! ## Formats I and II (R115, R117)

Each lemma asks only what the decoder makes of a word with these fields. -/

@[simp] theorem bwOf_isByte (bw : BW) : bwOf (isByte bw) = bw := by cases bw <;> rfl

theorem wordI_top {op : Nat} (h : op < 16) (bw : BW) (src : Src) (dst : Dst) :
    (wordI op bw src dst).toNat / 4096 = op := by
  obtain ⟨hop, -⟩ := wordI_fields h bw src dst
  rwa [field_top _ 12 (by decide)] at hop

theorem wordII_top {op : Nat} (h : op < 6) (bw : BW) (opd : Src) : (wordII op bw opd).toNat / 128 = 32 + op := by
  obtain ⟨hhigh, -, hop, -⟩ := wordII_fields h bw opd
  rw [field_top _ 8 (by decide)] at hhigh
  simp only [field] at hop
  omega

theorem decode_wordI {op : Nat} {bw : BW} {src : Src} {dst : Dst} {i : Instr} (h : 4 ≤ op ∧ op < 16)
    (hwf : (src.wf && dst.wf) = true)
    (hi : ∀ w, field w 15 12 = op → bitAt w 6 = isByte bw → srcOf (regField w 8) (field w 5 4) = src →
      dstOf (regField w 0) (bitAt w 7) = dst → decodeI w = i) :
    decode [wordI op bw src dst] = .ok (i, []) := by
  obtain ⟨hsrc, hdst⟩ := Bool.and_eq_true_iff.1 hwf
  obtain ⟨hs, has, hd, had, hbw⟩ := wordI_operands h.2 bw src dst
  exact decode_of_opcode h.1 (wordI_top h.2 bw src dst) fun hop =>
    hi _ hop hbw (by rw [hs, has, srcOf_fields hsrc]) (by rw [hd, had, dstOf_fields hdst])

theorem decode_wordII {op : Nat} {bw : BW} {opd : Src} {i : Instr} (h : op < 6) (hwf : opd.wf = true)
    (hi : ∀ w, field w 9 7 = op → bitAt w 6 = isByte bw → srcOf (regField w 0) (field w 5 4) = opd → decodeII w = i) :
    decode [wordII op bw opd] = .ok (i, []) := by
  obtain ⟨hr, has, hbw⟩ := wordII_operands h bw opd
  exact decode_of_op2 h (wordII_top h bw opd) fun hop => hi _ hop hbw (by rw [hr, has, srcOf_fields hwf])

theorem bounds_of_isExtWord {p : Word} (h : isExtWord p = true) : 0x1800 ≤ p.toNat ∧ p.toNat < 0x2000 :=
  of_decide_eq_true ((isExtWord_eq p).symm.trans h)

theorem extWord_top (al : Bool) (x : Ext) : (extWord al x).toNat / 2048 = 3 := by
  have := bounds_of_isExtWord (isExtWord_extWord al x)
  omega

theorem decode_extWord_wordI {op : Nat} {al : Bool} {bw : BW} {x : Ext} {src : Src} {dst : Dst} {i : Instr}
    (h : 4 ≤ op ∧ op < 16) (hwf : x.wfTwo src dst = true)
    (hi : ∀ p w, field w 15 12 = op → bitAt p 6 = al → bitAt w 6 = isByte bw →
      srcOf (regField w 8) (field w 5 4) = src → dstOf (regField w 0) (bitAt w 7) = dst →
      extOf p (field w 5 4 == 0 && !bitAt w 7) = x → decodeExtI p w = i) :
    decode [extWord al x, wordI op bw src dst] = .ok (i, []) := by
  obtain ⟨⟨hsrc, hdst⟩, hform⟩ := wfTwo_iff.1 hwf
  obtain ⟨hs, has, hd, had, hbw⟩ := wordI_operands h.2 bw src dst
  exact decode_of_extOpcode (extWord_top al x) h.1 (wordI_top h.2 bw src dst) fun hop =>
    hi _ _ hop (bitAt_extWord al x) hbw (by rw [hs, has, srcOf_fields hsrc]) (by rw [hd, had, dstOf_fields hdst])
      (by rw [has, had, srcAs_eq_zero, dstAd_not, ← hform, extOf_extWord])

theorem decode_extWord_wordII {op : Nat} {al : Bool} {bw : BW} {x : Ext} {opd : Src} {i : Instr} (h : op < 6)
    (hwf : x.wfOne opd = true)
    (hi : ∀ p w, field w 9 7 = op → bitAt p 6 = al → bitAt w 6 = isByte bw →
      srcOf (regField w 0) (field w 5 4) = opd → extOf p (field w 5 4 == 0) = x → decodeExtII p w = i) :
    decode [extWord al x, wordII op bw opd] = .ok (i, []) := by
  obtain ⟨hopd, hform⟩ := wfOne_iff.1 hwf
  obtain ⟨hr, has, hbw⟩ := wordII_operands h bw opd
  exact decode_of_extOp2 (extWord_top al x) h (wordII_top h bw opd) fun hop =>
    hi _ _ hop (bitAt_extWord al x) hbw (by rw [hr, has, srcOf_fields hopd])
      (by rw [has, srcAs_eq_zero, ← hform, extOf_extWord])

/-! ## Reserved words after an extension word, and jumps (R118, R160) -/

theorem rawWord_toNat {base lo : Nat} (h : base + lo < 65536) : (rawWord base lo).toNat = base + lo :=
  Nat.mod_eq_of_lt h

/-- The low bits of a word whose top bits are fixed are read back. -/
theorem ofNat_field_rawWord {base hi : Nat} (lo : BitVec (hi + 1)) (hbase : base % 2 ^ (hi + 1) = 0)
    (hlt : base + 2 ^ (hi + 1) ≤ 65536) : BitVec.ofNat (hi + 1) (field (rawWord base lo.toNat) hi 0) = lo := by
  have hlo := lo.isLt
  apply BitVec.eq_of_toNat_eq
  rw [BitVec.toNat_ofNat, field, rawWord_toNat (by omega), pow_zero, Nat.div_one, Nat.sub_zero, Nat.mod_mod,
    Nat.add_mod, hbase, Nat.zero_add, Nat.mod_mod, Nat.mod_eq_of_lt hlo]

/-- A word of another group after an extension word decodes to its reserved row, which holds the bits of both. -/
theorem decode_rawExt_rawWord {base hi : Nat} {p : BitVec 11} {lo : BitVec (hi + 1)}
    {mk : BitVec 11 → BitVec (hi + 1) → Instr} (hbase : base % 2 ^ (hi + 1) = 0) (hlt : base + 2 ^ (hi + 1) ≤ 65536)
    (hmk : ∀ p w, base ≤ w.toNat ∧ w.toNat < base + 2 ^ (hi + 1) →
      decodeExt p w = mk (BitVec.ofNat 11 (field p 10 0)) (BitVec.ofNat (hi + 1) (field w hi 0))) :
    decode [rawExt p, rawWord base lo.toNat] = .ok (mk p lo, []) := by
  have hlo := lo.isLt
  have hp : BitVec.ofNat 11 (field (rawExt p) 10 0) = p :=
    ofNat_field_rawWord (base := 0x1800) (hi := 10) p (by decide) (by decide)
  rw [decode_extWord (bounds_of_isExtWord (isExtWord_rawExt p)),
    hmk _ _ (by rw [rawWord_toNat (by omega)]; omega), hp, ofNat_field_rawWord lo hbase hlt]

theorem decode_wordJ {c : Nat} {off : BitVec 10} {i : Instr} (h : c < 8)
    (hi : ∀ w, field w 12 10 = c → BitVec.ofNat 10 (field w 9 0) = off → decodeJump w = i) :
    decode [wordJ c off] = .ok (i, []) := by
  have hlt := off.isLt
  have htop : (wordJ c off).toNat / 1024 = 8 + c := by
    rw [wordJ, BitVec.toNat_ofNat]
    omega
  have hoff : BitVec.ofNat 10 (field (wordJ c off) 9 0) = off :=
    ofNat_field_rawWord (base := 0x2000 + c * 1024) (hi := 9) off (by omega) (by omega)
  exact decode_of_cond h htop fun hc => hi _ hc hoff

/-! ## The address group, CALLA, PUSHM and POPM (R119 to R122) -/

theorem wordA_lt {m s d : Nat} (hm : m < 16) (hs : s < 16) (hd : d < 16) : (wordA m s d).toNat < 0x1000 := by
  rw [wordA, BitVec.toNat_ofNat]
  omega

theorem decode_wordA {m s d : Nat} {i : Instr} (hm : m < 16) (hs : s < 16) (hd : d < 16)
    (hi : ∀ w, field w 7 4 = m → (∀ r : RegNum, r.val = s → regField w 8 = r) →
      (∀ r : RegNum, r.val = d → regField w 0 = r) → (∀ b : BitVec 4, b.toNat = s → nibble w 8 = b) →
      (∀ b : BitVec 4, b.toNat = d → nibble w 0 = b) → decodeAddr w = i) : decode [wordA m s d] = .ok (i, []) := by
  obtain ⟨hminor, hreg, hreg', hnibble, hnibble'⟩ := wordA_operands hm hs hd
  exact decode_of_minor (wordA_lt hm hs hd) hminor fun hm => hi _ hm hreg hreg' hnibble hnibble'

theorem decode_wordRot {n : BitVec 2} {id w : Nat} {d : RegNum} {i : Instr} (hid : id < 4) (hw : w < 2)
    (hi : ∀ v, field v 9 8 = id → bitAt v 4 = decide (w = 1) → BitVec.ofNat 2 (field v 11 10) = n → regField v 0 = d →
      decodeRotate v = i) : decode [wordRot n id w d] = .ok (i, []) := by
  obtain ⟨hhigh, hn, hminor, hd⟩ := wordRot_fields n hid hw d
  rw [field_top _ 8 (by decide)] at hhigh
  have hidField : field (wordRot n id w d) 9 8 = id := by
    have := n.isLt
    have := d.isLt
    simp only [wordRot, field_ofNat]
    norm_num only
    omega
  have hbit : bitAt (wordRot n id w d) 4 = decide (w = 1) := by
    rw [bitAt_four, hminor]
    exact decide_eq_decide.2 (by omega)
  refine decode_of_minor (by omega) hminor fun hm => ?_
  rw [decodeAddr_rotate hm (by omega)]
  exact hi _ hidField hbit (by rw [hn, BitVec.ofNat_toNat, BitVec.setWidth_eq]) (regField_of_field hd)

theorem decode_wordC {m b : Nat} {i : Instr} (hm : 0x130 ≤ m ∧ m < 0x140) (hb : b < 16)
    (hi : ∀ w, field w 7 4 = m - 0x130 → (∀ r : RegNum, r.val = b → regField w 0 = r) →
      (∀ h : BitVec 4, h.toNat = b → nibble w 0 = h) → decodeCalla w = i) : decode [wordC m b] = .ok (i, []) := by
  obtain ⟨k, rfl⟩ := Nat.exists_eq_add_of_le hm.1
  obtain ⟨hhigh, -⟩ := wordC_fields (m := k) (by omega) hb
  obtain ⟨hminor, hreg, hnibble⟩ := wordC_operands (m := k) (by omega) hb
  rw [field_top _ 8 (by decide)] at hhigh
  have hcalla := hi _ (hminor.trans (by omega)) hreg hnibble
  exact decode_core (by omega) ((decodeCore_calla (by omega)).trans (congrArg Except.ok hcalla)) []

theorem decode_wordP {m : Nat} {n : BitVec 4} {d : RegNum} (hm : m < 4) (hok : stackRangeOk m n d = true) :
    decode [wordP (0x14 + m) n d] = .ok (stackInstr m n d, []) := by
  obtain ⟨hhigh, -, hn, hd⟩ := wordP_fields hm n d
  rw [field_top _ 8 (by decide)] at hhigh
  have hkind : field (wordP (0x14 + m) n d) 9 8 = m := by
    rw [field_id]
    omega
  refine decode_core (by omega) ?_ []
  rw [decodeCore_pushm (by omega), decodePushm_eq, hkind, nibble_of_field hn, regField_of_field hd, if_pos hok]

end Sys2Proof.Proofs
end

section
/-! PROOF. Every well-formed instruction is decoded from its own words, and so is what a step runs where they lie at the
program counter (R111, R313). -/

namespace Sys2Proof.Proofs

open Sys2Proof Sys2Proof.Machine

/-- The decoder reads each well-formed instruction from its own words. -/
theorem decode_encode {i : Instr} (hwf : i.wf = true) : decode (encode i) = .ok (i, []) := by
  cases i with
  | mov | add | addc | subc | sub | cmp | dadd | bit | bic | bis | xor | and =>
    exact decode_wordI (by decide) hwf fun w hop hbw hs hd => by
      simp only [decodeI, hop, hbw, hs, hd, bwOf_isByte]
  | rrc | rra | push | call =>
    exact decode_wordII (by decide) hwf fun w hop hbw hopd => by
      simp only [decodeII, hop, hbw, hopd, bwOf_isByte]
  | swpb | swpbB | sxt | sxtB =>
    exact decode_wordII (by decide) hwf fun w hop hbw hopd => by
      simp only [decodeII, hop, hbw, hopd]
      rfl
  | movxA | movxW | movxB | reservedMovx | addxA | addxW | addxB | reservedAddx | addcxA | addcxW | addcxB
  | reservedAddcx | subcxA | subcxW | subcxB | reservedSubcx | subxA | subxW | subxB | reservedSubx | cmpxA | cmpxW
  | cmpxB | reservedCmpx | daddxA | daddxW | daddxB | reservedDaddx | bitxA | bitxW | bitxB | reservedBitx | bicxA
  | bicxW | bicxB | reservedBicx | bisxA | bisxW | bisxB | reservedBisx | xorxA | xorxW | xorxB | reservedXorx | andxA
  | andxW | andxB | reservedAndx =>
    exact decode_extWord_wordI (by decide) hwf fun p w hop hal hbw hs hd hx => by
      simp only [decodeExtI, hop, hal, hbw, hs, hd, hx]
      rfl
  | rrcxA | rrcxW | rrcxB | reservedRrcx | swpbxA | swpbxW | swpbxB | reservedSwpbx | rraxA | rraxW | rraxB
  | reservedRrax | sxtxA | sxtxW | sxtxB | reservedSxtx | pushxA | pushxW | pushxB | reservedPushx | callxA | callxW
  | callxB | reservedCallx =>
    exact decode_extWord_wordII (by decide) hwf fun p w hop hal hbw hopd hx => by
      simp only [decodeExtII, hop, hal, hbw, hopd, hx]
      rfl
  | reservedPrefixAddr =>
    exact decode_rawExt_rawWord (hi := 11) (by decide) (by decide) fun p w hw => decodeExt_addr (by omega)
  | reservedPrefixCalla =>
    exact decode_rawExt_rawWord (hi := 7) (by decide) (by decide) fun p w hw => decodeExt_calla (by omega)
  | reservedPrefixPushm =>
    exact decode_rawExt_rawWord (hi := 9) (by decide) (by decide) fun p w hw => decodeExt_stack (by omega)
  | reservedPrefixPrefix =>
    exact decode_rawExt_rawWord (hi := 10) (by decide) (by decide) fun p w hw => decodeExt_prefix (by omega)
  | reservedPrefixJump =>
    exact decode_rawExt_rawWord (hi := 12) (by decide) (by decide) fun p w hw => decodeExt_jump (by omega)
  | jnz | jz | jnc | jc | jn | jge | jl | jmp =>
    exact decode_wordJ (by decide) fun w hc hoff => by simp only [decodeJump, hc, hoff]
  | movaInd s d | movaIdx s d | movaToIdx s d | movaReg s d | cmpaReg s d | addaReg s d | subaReg s d =>
    exact decode_wordA (by decide) s.isLt d.isLt fun w hm hs hd _ _ => by
      simp only [decodeAddr, hm, hs s rfl, hd d rfl]
  | movaAbs hi d | movaImm hi d | cmpaImm hi d | addaImm hi d | subaImm hi d =>
    exact decode_wordA (by decide) hi.isLt d.isLt fun w hm _ hd hhi _ => by
      simp only [decodeAddr, hm, hhi hi rfl, hd d rfl]
  | movaToAbs s hi =>
    exact decode_wordA (by decide) s.isLt hi.isLt fun w hm hs _ _ hhi => by
      simp only [decodeAddr, hm, hs s rfl, hhi hi rfl]
  | movaInc s d =>
    have hs0 : s ≠ 0 := by simpa [Instr.wf] using hwf
    exact decode_wordA (by decide) s.isLt d.isLt fun w hm hs hd _ _ => by
      simp only [decodeAddr, hm, hs s rfl, hd d rfl, if_neg hs0]
  | reservedMovaPcInc d =>
    exact decode_wordA (by decide) (by decide) d.isLt fun w hm hs hd _ _ => by
      simp only [decodeAddr, hm, hs 0 rfl, hd d rfl, if_true]
  | rrcmA | rrcmW | rramA | rramW | rlamA | rlamW | rrumA | rrumW =>
    exact decode_wordRot (by decide) (by decide) fun w hid hw hn hd => by
      simp only [decodeRotate, hid, hw, hn, hd]
      rfl
  | reti hi | callaAbs hi | callaSym hi | callaImm hi =>
    exact decode_wordC (by decide) hi.isLt fun w hm _ hhi => by
      simp only [decodeCalla, hm, hhi hi rfl]
  | callaReg d | callaIdx d | callaInd d =>
    exact decode_wordC (by decide) d.isLt fun w hm hd _ => by
      simp only [decodeCalla, hm, hd d rfl]
  | callaInc d =>
    have hd0 : d ≠ 0 := by simpa [Instr.wf] using hwf
    exact decode_wordC (by decide) d.isLt fun w hm hd _ => by
      simp only [decodeCalla, hm, hd d rfl, if_neg hd0]
  | reservedCallaPcInc =>
    exact decode_wordC (by decide) (by decide) fun w hm hd _ => by
      simp only [decodeCalla, hm, hd 0 rfl, if_true]
  | reservedMinor131 lo =>
    exact decode_wordC (m := 0x131) (by decide) lo.isLt fun w hm _ hlo => by
      simp only [decodeCalla, hm, hlo lo rfl]
  | reservedMinor132 lo =>
    exact decode_wordC (m := 0x132) (by decide) lo.isLt fun w hm _ hlo => by
      simp only [decodeCalla, hm, hlo lo rfl]
  | reservedMinor133 lo =>
    exact decode_wordC (m := 0x133) (by decide) lo.isLt fun w hm _ hlo => by
      simp only [decodeCalla, hm, hlo lo rfl]
  | reservedMinor13A lo =>
    exact decode_wordC (m := 0x13A) (by decide) lo.isLt fun w hm _ hlo => by
      simp only [decodeCalla, hm, hlo lo rfl]
  | reservedMinor13C lo =>
    have hlo := lo.isLt
    have hw : (rawWord 0x13C0 lo.toNat).toNat = 0x13C0 + lo.toNat := rawWord_toNat (by omega)
    have hfield := ofNat_field_rawWord (base := 0x13C0) (hi := 5) lo (by decide) (by decide)
    rw [field_lowSix] at hfield
    exact (decode_reservedMinor13C (by omega)).trans (by rw [hfield])
  | pushmA => exact decode_wordP (m := 0) (by decide) hwf
  | pushmW => exact decode_wordP (m := 1) (by decide) hwf
  | popmA => exact decode_wordP (m := 2) (by decide) hwf
  | popmW => exact decode_wordP (m := 3) (by decide) hwf

/-- Settles O6: the words of a well-formed instruction decode to it. -/
theorem stepRunsTheDecoded : Obligations.StepRunsTheDecoded := fun _ _ hs hwf hwords =>
  step_of_decode hs hwords (decode_encode hwf)

end Sys2Proof.Proofs
end

section
/-! PROOF. The last cycle of a repetition (R313 to R315): the address of the last word each execution fetched, and the
number of an instruction's words, those of its operands among them (R110, R145). -/

namespace Sys2Proof.Proofs

open Sys2Proof Sys2Proof.Machine

/-! ## The program counter after the last execution (R313, R315) -/

/-- If one execution is left, the outcome of a cycle from `s` that does not fault is a state whose program counter is
`words` words further. -/
def EndsAt (s : State) (words : Nat) (o : Host.Outcome State Fault Refusal) : Prop :=
  s.rep.left = 1 → ∀ t, o = .next t → t.running → t.pc = low20 (s.pc + BitVec.ofNat 32 (2 * words))

theorem finish_last {s : State} (h : s.rep.left = 1) (n : Nat) (d : Done) :
    finish s n d = { d.st.setPc (low20 (d.lfa + 2)) with rep := ⟨0, none⟩ } := by
  simp [finish, h]

section executions

variable {s u : State} {words : Nat}

/-- The last word an execution fetched decides, whether it wrote R0 or not. -/
theorem endsAt_cycle {n : Nat} {body : Except FaultCause Done}
    (hb : ∀ d, body = .ok d → low20 (d.lfa + 2) = low20 (s.pc + BitVec.ofNat 32 (2 * words))) :
    EndsAt s words (cycle s n body) := by
  intro hleft t h hrun
  cases body with
  | error c =>
    cases h
    exact absurd hrun (not_running_takeFault s c)
  | ok d =>
    cases h
    rw [finish_last hleft, State.pc_mk, State.pc_setPc]
    exact hb d rfl

theorem endsAt_fault {n : Nat} {c : FaultCause} : EndsAt s words (cycle s n (.error c)) :=
  endsAt_cycle fun _ h => by simp at h

theorem endsAt_reserved {ws : List Word} : EndsAt s words (reserved ws s) := endsAt_fault

theorem endsAt_extended {ws : List Word} {x : Ext} {dstPc : Bool} {body : State → Except FaultCause Done}
    (hb : ∀ d, body (operandState (some x) s) = .ok d →
      low20 (d.lfa + 2) = low20 (s.pc + BitVec.ofNat 32 (2 * words))) :
    EndsAt s words (extended ws x dstPc body s) := by
  refine endsAt_cycle fun d h => ?_
  split at h
  · simp at h
  · exact hb d h

/-! ## Formats I and II -/

theorem formatI_lfa {alu : Size → Bool → Slot → Slot → AluOut} {reads stores zc : Bool} {ws : Size}
    {hiS hiD : Option (BitVec 4)} {src : Src} {dst : Dst} {d : Done} (hR : Resolved words none (nb ws) s u)
    (h : formatI alu reads stores ws hiS hiD zc src dst u = .ok d) :
    low20 (d.lfa + 2) = low20 (s.pc + BitVec.ofNat 32 (2 * (words + srcWords src + dstWords dst))) := by
  unfold formatI at h
  split at h
  · simp at h
  · rename_i a s1 hs
    split at h
    · simp at h
    · rename_i b s2 hd
      have hnext := ((hR.src hs).dst hd).next
      dsimp only at h
      split at h
      · split at h
        · simp at h
        · cases h
          exact hnext
      · cases h
        exact hnext

theorem formatII_lfa {alu : Size → Bool → Slot → AluOut} {ws : Size} {hi : Option (BitVec 4)} {zc : Bool} {opd : Src}
    {d : Done} (hR : Resolved words none (nb ws) s u) (h : formatII alu ws hi zc opd u = .ok d) :
    low20 (d.lfa + 2) = low20 (s.pc + BitVec.ofNat 32 (2 * (words + srcWords opd))) := by
  unfold formatII at h
  split at h
  · simp at h
  · rename_i a s1 hs
    have hnext := (hR.src hs).next
    dsimp only at h
    split at h
    · simp at h
    · cases h
      exact hnext

theorem endsAt_plainI {alu : Size → Bool → Slot → Slot → AluOut} {reads stores : Bool} {bw : BW} {src : Src}
    {dst : Dst} : EndsAt s (1 + srcWords src + dstWords dst) (plainI alu reads stores bw src dst s) :=
  endsAt_cycle fun _ => formatI_lfa (.here _ s)

theorem endsAt_extendedI {alu : Size → Bool → Slot → Slot → AluOut} {reads stores : Bool} {ws : Size} {ls : List Word}
    {x : Ext} {src : Src} {dst : Dst} :
    EndsAt s (2 + srcWords src + dstWords dst) (extendedI alu reads stores ws ls x src dst s) :=
  endsAt_extended fun _ => formatI_lfa (.operandState (some x) _ s)

theorem endsAt_plainII {alu : Size → Bool → Slot → AluOut} {ws : Size} {opd : Src} :
    EndsAt s (1 + srcWords opd) (plainII alu ws opd s) :=
  endsAt_cycle fun _ => formatII_lfa (.here _ s)

theorem endsAt_extendedII {alu : Size → Bool → Slot → AluOut} {ws : Size} {ls : List Word} {x : Ext} {opd : Src} :
    EndsAt s (2 + srcWords opd) (extendedII alu ws ls x opd s) :=
  endsAt_extended fun _ => formatII_lfa (.operandState (some x) _ s)

theorem endsAt_plainUnimplemented {ls : List Word} {ws : Size} {opd : Src} :
    EndsAt s words (plainUnimplemented ls ws opd s) :=
  endsAt_cycle fun _ h => (unimplementedII_ne_ok h).elim

theorem endsAt_extendedUnimplemented {ls : List Word} {ws : Size} {x : Ext} {opd : Src} :
    EndsAt s words (extendedUnimplemented ls ws x opd s) :=
  endsAt_extended fun _ h => (unimplementedII_ne_ok h).elim

/-! ## The address group, CALLA, the jumps, PUSHM and POPM

Their fixed modes resolve as operands of formats I and II do. -/

theorem endsAt_movaLoad {d : RegNum} (hi : Option (BitVec 4)) (src : Src) :
    EndsAt s (1 + srcWords src) (movaLoad d (resolveSrc .ext hi src s) s) := by
  refine endsAt_cycle fun e h => ?_
  split at h
  · simp at h
  · rename_i a s1 hs
    cases h
    exact ((Resolved.here 4 s).src hs).next

theorem endsAt_movaStore {r : RegNum} {ea : Except FaultCause (Slot × State)} (hi : Option (BitVec 4)) (dst : Dst)
    (hdst : resolveDst .ext hi false dst s = dstAt .ext false ea) : EndsAt s (1 + dstWords dst) (movaStore r ea s) := by
  refine endsAt_cycle fun e h => ?_
  split at h
  · simp at h
  · rename_i a s1
    split at h
    · simp at h
    · cases h
      exact ((Resolved.here 4 s).dst (hdst.trans (dstAt_unread rfl))).next

theorem endsAt_addressAlu {alu : Slot → Slot → AluOut} {stores : Bool} {d : RegNum} (hi : Option (BitVec 4))
    (src : Src) : EndsAt s (1 + srcWords src) (addressAlu alu stores d (resolveSrc .ext hi src s) s) := by
  refine endsAt_cycle fun e h => ?_
  split at h
  · simp at h
  · rename_i a s1 hs
    have hnext := ((Resolved.here 4 s).src hs).next
    dsimp only at h
    split at h
    · cases h
      exact hnext
    · cases h
      exact hnext

theorem endsAt_rotate {ws : Size} {alu : Slot → Bool → AluOut} {d : RegNum} : EndsAt s 1 (rotate ws alu d s) := by
  refine endsAt_cycle fun e h => ?_
  cases h
  rfl

theorem endsAt_callTo (hi : Option (BitVec 4)) (src : Src) :
    EndsAt s (1 + srcWords src) (callTo (operandValue (resolveSrc .ext hi src s)) s) := by
  refine endsAt_cycle fun e h => ?_
  cases hs : resolveSrc .ext hi src s with
  | error c => simp [hs, operandValue] at h
  | ok r =>
    simp only [hs, operandValue] at h
    split at h
    · simp at h
    · cases h
      exact ((Resolved.here 4 s).src hs).next

theorem endsAt_jump {taken : Bool} {off : BitVec 10} : EndsAt s 1 (jump taken off s) := by
  refine endsAt_cycle fun e h => ?_
  cases taken <;> cases h <;> rfl

theorem endsAt_pushMany {ls : List Word} {ws : Size} {n : BitVec 4} {d : RegNum} :
    EndsAt s 1 (pushMany ls ws n d s) := by
  unfold pushMany
  split
  · refine endsAt_cycle fun e h => ?_
    split at h
    · simp at h
    · cases h
      rfl
  · exact endsAt_reserved

theorem endsAt_popMany {ls : List Word} {ws : Size} {n : BitVec 4} {d : RegNum} : EndsAt s 1 (popMany ls ws n d s) := by
  unfold popMany
  split
  · refine endsAt_cycle fun e h => ?_
    split at h
    · simp at h
    · cases h
      rfl
  · exact endsAt_reserved

end executions

/-! ## The words of an instruction (R110, R145) -/

theorem instrWords_one {i : Instr} {core : Word} (he : encode i = [core]) : instrWords i = 1 + operandWords core := by
  rw [instrWords, he]
  rfl

theorem instrWords_two {i : Instr} {p core : Word} (he : encode i = [p, core]) :
    instrWords i = 2 + operandWords core := by
  rw [instrWords, he]
  rfl

/-- An As field and its register ask for an extension word where the mode they give takes one (R130, R140). -/
theorem srcWords_eq {src : Src} (h : src.wf = true) : srcWords src =
    if (srcAs src = 1 ∧ (srcReg src).val ≠ 3) ∨ (srcAs src = 3 ∧ (srcReg src).val = 0) then 1 else 0 := by
  cases src with
  | const k => cases k <;> rfl
  | indexed r =>
    have h3 : r ≠ 3 := by simpa [Src.wf] using (Bool.and_eq_true_iff.1 h).2
    exact (if_pos (.inl ⟨rfl, fun e => h3 (Fin.ext e)⟩)).symm
  | autoinc r =>
    have h0 : r ≠ 0 := by simpa [Src.wf] using (Bool.and_eq_true_iff.1 (Bool.and_eq_true_iff.1 h).1).1
    refine (if_neg ?_).symm
    rintro (⟨h1, -⟩ | ⟨-, e⟩)
    · simp [srcAs] at h1
    · exact h0 (Fin.ext e)
  | reg | symbolic | absolute | indirect | immediate => simp [srcWords, srcAs, srcReg]

/-- So do an Ad field and its register (R131, R142). -/
theorem dstWords_eq {dst : Dst} (h : dst.wf = true) : dstWords dst =
    if bitNat (dstAd dst) = 1 ∧ (dstReg dst).val ≠ 3 then 1 else 0 := by
  cases dst with
  | indexed r =>
    have h3 : r ≠ 3 := by simpa [Dst.wf] using (Bool.and_eq_true_iff.1 h).2
    exact (if_pos ⟨rfl, fun e => h3 (Fin.ext e)⟩).symm
  | reg | symbolic | absolute | constZero | constOne => simp [dstWords, dstAd, dstReg, bitNat]

theorem operandWords_wordI {op : Nat} (h : 4 ≤ op ∧ op < 16) (bw : BW) {src : Src} {dst : Dst}
    (hwf : (src.wf && dst.wf) = true) : operandWords (wordI op bw src dst) = srcWords src + dstWords dst := by
  obtain ⟨hsrc, hdst⟩ := Bool.and_eq_true_iff.1 hwf
  obtain ⟨hop, -, -, hs, had, -, has, hd⟩ := wordI_fields h.2 bw src dst
  rw [field_top _ 12 (by decide)] at hop
  simp only [field] at hs had has hd
  norm_num only [Nat.div_one] at hs had has hd hop
  rw [srcWords_eq hsrc, dstWords_eq hdst, ← hs, ← had, ← has, ← hd]
  simp only [operandWords]
  rw [if_neg (by omega), if_neg (by omega), if_neg (by omega), if_neg (by omega)]

theorem operandWords_wordII {op : Nat} (h : op < 6) (bw : BW) {opd : Src} (hwf : opd.wf = true) :
    operandWords (wordII op bw opd) = srcWords opd := by
  obtain ⟨hhigh, -, -, -, has, hr⟩ := wordII_fields h bw opd
  rw [field_top _ 8 (by decide)] at hhigh
  simp only [field] at has hr
  norm_num only [Nat.div_one] at has hr hhigh
  rw [srcWords_eq hwf, ← has, ← hr]
  simp only [operandWords]
  rw [if_neg (by omega), if_pos (by omega)]

/-- The minors of the address group whose operand takes an extension word (R119). -/
theorem operandWords_wordA {m a b : Nat} (hm : m < 16) (ha : a < 16) (hb : b < 16) : operandWords (wordA m a b) =
    if m ∈ [0x2, 0x3, 0x6, 0x7, 0x8, 0x9, 0xA, 0xB] then 1 else 0 := by
  obtain ⟨-, -, hminor, -⟩ := wordA_fields hm ha hb
  rw [field_minor] at hminor
  simp only [operandWords, if_pos (wordA_lt hm ha hb), hminor]

theorem operandWords_wordRot {n : BitVec 2} {id w : Nat} (hid : id < 4) (hw : w < 2) (d : RegNum) :
    operandWords (wordRot n id w d) = 0 := by
  obtain ⟨hhigh, -, hminor, -⟩ := wordRot_fields n hid hw d
  rw [field_top _ 8 (by decide)] at hhigh
  rw [field_minor] at hminor
  simp only [operandWords, hminor]
  rw [if_pos (by omega)]
  interval_cases w <;> rfl

/-- The minors of CALLA whose operand takes an extension word (R121). -/
theorem operandWords_wordC {m b : Nat} (hm : 0x130 ≤ m ∧ m < 0x140) (hb : b < 16) :
    operandWords (wordC m b) = if m - 0x130 ∈ [0x5, 0x8, 0x9, 0xB] then 1 else 0 := by
  have hw : (wordC m b).toNat = m * 16 + b := Nat.mod_eq_of_lt (by omega)
  have hminor : (m * 16 + b) / 16 % 16 = m - 0x130 := by omega
  simp only [operandWords, hw, hminor]
  rw [if_neg (by omega), if_neg (by omega), if_pos (by omega)]

/-- Jumps, PUSHM and POPM take no other word (R118, R122). -/
theorem operandWords_eq_zero {core : Word} (h : 0x1400 ≤ core.toNat ∧ core.toNat < 0x4000) :
    operandWords core = 0 := by
  simp only [operandWords]
  rw [if_neg (by omega), if_neg (by omega), if_neg (by omega), if_pos (by omega)]

theorem operandWords_wordJ {c : Nat} (h : c < 8) (off : BitVec 10) : operandWords (wordJ c off) = 0 := by
  have hlt := off.isLt
  exact operandWords_eq_zero (by rw [wordJ, BitVec.toNat_ofNat]; omega)

theorem operandWords_wordP {m : Nat} (hm : 0x14 ≤ m ∧ m < 0x18) (n : BitVec 4) (d : RegNum) :
    operandWords (wordP m n d) = 0 := by
  have hn := n.isLt
  have hd := d.isLt
  exact operandWords_eq_zero (by rw [wordP, BitVec.toNat_ofNat]; omega)

/-! ## Every instruction -/

theorem EndsAt.of_words {s : State} {k k' : Nat} {o : Host.Outcome State Fault Refusal} (h : EndsAt s k o)
    (hk : k' = k) : EndsAt s k' o := hk ▸ h

section kinds

variable {i : Instr} {s : State} {k : Nat} {o : Host.Outcome State Fault Refusal}

/-! An instruction's words are those its execution fetches, for each kind of core word. -/

theorem endsAt_wordI {op : Nat} {bw : BW} {src : Src} {dst : Dst} (h : EndsAt s (1 + srcWords src + dstWords dst) o)
    (hwf : (src.wf && dst.wf) = true) (hop : 4 ≤ op ∧ op < 16) (he : encode i = [wordI op bw src dst]) :
    EndsAt s (instrWords i) o :=
  h.of_words (by rw [instrWords_one he, operandWords_wordI hop bw hwf, Nat.add_assoc])

theorem endsAt_extWordI {op : Nat} {al : Bool} {bw : BW} {x : Ext} {src : Src} {dst : Dst}
    (h : EndsAt s (2 + srcWords src + dstWords dst) o) (hwf : x.wfTwo src dst = true) (hop : 4 ≤ op ∧ op < 16)
    (he : encode i = [extWord al x, wordI op bw src dst]) : EndsAt s (instrWords i) o :=
  h.of_words (by rw [instrWords_two he, operandWords_wordI hop bw (Bool.and_eq_true_iff.2 (wfTwo_iff.1 hwf).1),
    Nat.add_assoc])

theorem endsAt_wordII {op : Nat} {bw : BW} {opd : Src} (h : EndsAt s (1 + srcWords opd) o) (hwf : opd.wf = true)
    (hop : op < 6) (he : encode i = [wordII op bw opd]) : EndsAt s (instrWords i) o :=
  h.of_words (by rw [instrWords_one he, operandWords_wordII hop bw hwf])

theorem endsAt_extWordII {op : Nat} {al : Bool} {bw : BW} {x : Ext} {opd : Src} (h : EndsAt s (2 + srcWords opd) o)
    (hwf : x.wfOne opd = true) (hop : op < 6) (he : encode i = [extWord al x, wordII op bw opd]) :
    EndsAt s (instrWords i) o :=
  h.of_words (by rw [instrWords_two he, operandWords_wordII hop bw (wfOne_iff.1 hwf).1])

theorem endsAt_wordA {m a b : Nat} (h : EndsAt s (1 + k) o) (hm : m < 16) (ha : a < 16) (hb : b < 16)
    (he : encode i = [wordA m a b]) (hk : (if m ∈ [0x2, 0x3, 0x6, 0x7, 0x8, 0x9, 0xA, 0xB] then 1 else 0) = k) :
    EndsAt s (instrWords i) o :=
  h.of_words (by rw [instrWords_one he, operandWords_wordA hm ha hb, hk])

theorem endsAt_wordRot {n : BitVec 2} {id w : Nat} {d : RegNum} (h : EndsAt s 1 o) (hid : id < 4) (hw : w < 2)
    (he : encode i = [wordRot n id w d]) : EndsAt s (instrWords i) o :=
  h.of_words (by rw [instrWords_one he, operandWords_wordRot hid hw])

theorem endsAt_wordC {m b : Nat} (h : EndsAt s (1 + k) o) (hm : 0x130 ≤ m ∧ m < 0x140) (hb : b < 16)
    (he : encode i = [wordC m b]) (hk : (if m - 0x130 ∈ [0x5, 0x8, 0x9, 0xB] then 1 else 0) = k) :
    EndsAt s (instrWords i) o :=
  h.of_words (by rw [instrWords_one he, operandWords_wordC hm hb, hk])

theorem endsAt_wordJ {c : Nat} {off : BitVec 10} (h : EndsAt s 1 o) (hc : c < 8) (he : encode i = [wordJ c off]) :
    EndsAt s (instrWords i) o :=
  h.of_words (by rw [instrWords_one he, operandWords_wordJ hc])

theorem endsAt_wordP {m : Nat} {n : BitVec 4} {d : RegNum} (h : EndsAt s 1 o) (hm : 0x14 ≤ m ∧ m < 0x18)
    (he : encode i = [wordP m n d]) : EndsAt s (instrWords i) o :=
  h.of_words (by rw [instrWords_one he, operandWords_wordP hm])

end kinds

/-- In the last cycle of a repetition a well-formed instruction that does not fault goes on after its own words. -/
theorem endsAt_exec {i : Instr} (hwf : i.wf = true) (s : State) : EndsAt s (instrWords i) (exec i s) := by
  cases i with
  | mov | add | addc | subc | sub | cmp | dadd | bit | bic | bis | xor | and =>
    exact endsAt_wordI endsAt_plainI hwf (by decide) rfl
  | movxA | movxW | movxB | addxA | addxW | addxB | addcxA | addcxW | addcxB | subcxA | subcxW | subcxB | subxA | subxW
  | subxB | cmpxA | cmpxW | cmpxB | daddxA | daddxW | daddxB | bitxA | bitxW | bitxB | bicxA | bicxW | bicxB | bisxA
  | bisxW | bisxB | xorxA | xorxW | xorxB | andxA | andxW | andxB =>
    exact endsAt_extWordI endsAt_extendedI hwf (by decide) rfl
  | rrc | swpb | rra | sxt => exact endsAt_wordII endsAt_plainII hwf (by decide) rfl
  | rrcxA | rrcxW | rrcxB | swpbxW | rraxA | rraxW | rraxB | sxtxW =>
    exact endsAt_extWordII endsAt_extendedII hwf (by decide) rfl
  | swpbB | sxtB | push | call => exact endsAt_plainUnimplemented
  | swpbxA | swpbxB | sxtxA | sxtxB | pushxA | pushxW | pushxB | callxA | callxW | callxB =>
    exact endsAt_extendedUnimplemented
  | reservedMovx | reservedAddx | reservedAddcx | reservedSubcx | reservedSubx | reservedCmpx | reservedDaddx
  | reservedBitx | reservedBicx | reservedBisx | reservedXorx | reservedAndx | reservedRrcx | reservedSwpbx
  | reservedRrax | reservedSxtx | reservedPushx | reservedCallx | reservedPrefixAddr | reservedPrefixCalla
  | reservedPrefixPushm | reservedPrefixPrefix | reservedPrefixJump | reservedMovaPcInc | reservedCallaPcInc
  | reservedMinor131 | reservedMinor132 | reservedMinor133 | reservedMinor13A | reservedMinor13C =>
    exact endsAt_reserved
  | reti => exact endsAt_fault (n := 0)
  | jnz | jz | jnc | jc | jn | jge | jl | jmp => exact endsAt_wordJ endsAt_jump (by decide) rfl
  | movaInd rs d =>
    exact endsAt_wordA (endsAt_movaLoad none (.indirect rs)) (by decide) rs.isLt d.isLt rfl rfl
  | movaInc rs d =>
    simp only [exec, execMovaInc]
    split
    · exact endsAt_reserved
    · exact endsAt_wordA (endsAt_movaLoad none (.autoinc rs)) (by decide) rs.isLt d.isLt rfl rfl
  | movaAbs hi d =>
    exact endsAt_wordA (endsAt_movaLoad (some hi) .absolute) (by decide) hi.isLt d.isLt rfl rfl
  | movaIdx rs d =>
    exact endsAt_wordA (endsAt_movaLoad none (.indexed rs)) (by decide) rs.isLt d.isLt rfl rfl
  | movaImm hi d =>
    exact endsAt_wordA (endsAt_movaLoad (some hi) .immediate) (by decide) hi.isLt d.isLt rfl rfl
  | movaReg rs d => exact endsAt_wordA (endsAt_movaLoad none (.reg rs)) (by decide) rs.isLt d.isLt rfl rfl
  | movaToAbs rs hi =>
    exact endsAt_wordA (endsAt_movaStore (some hi) .absolute rfl) (by decide) rs.isLt hi.isLt rfl rfl
  | movaToIdx rs d =>
    exact endsAt_wordA (endsAt_movaStore none (.indexed d) rfl) (by decide) rs.isLt d.isLt rfl rfl
  | cmpaImm hi d | addaImm hi d | subaImm hi d =>
    exact endsAt_wordA (endsAt_addressAlu (some hi) .immediate) (by decide) hi.isLt d.isLt rfl rfl
  | cmpaReg rs d | addaReg rs d | subaReg rs d =>
    simp only [exec, execCmpaReg, execAddaReg, execSubaReg]
    exact endsAt_wordA (endsAt_addressAlu none (.reg rs)) (by decide) rs.isLt d.isLt rfl rfl
  | rrcmA | rrcmW | rramA | rramW | rlamA | rlamW | rrumA | rrumW =>
    simp only [exec, execRrcmA, execRrcmW, execRramA, execRramW, execRlamA, execRlamW, execRrumA, execRrumW]
    exact endsAt_wordRot endsAt_rotate (by decide) (by decide) rfl
  | callaReg d => exact endsAt_wordC (endsAt_callTo none (.reg d)) (by decide) d.isLt rfl rfl
  | callaIdx d => exact endsAt_wordC (endsAt_callTo none (.indexed d)) (by decide) d.isLt rfl rfl
  | callaInd d => exact endsAt_wordC (endsAt_callTo none (.indirect d)) (by decide) d.isLt rfl rfl
  | callaInc d =>
    simp only [exec, execCallaInc]
    split
    · exact endsAt_reserved
    · exact endsAt_wordC (endsAt_callTo none (.autoinc d)) (by decide) d.isLt rfl rfl
  | callaAbs hi => exact endsAt_wordC (endsAt_callTo (some hi) .absolute) (by decide) hi.isLt rfl rfl
  | callaSym hi => exact endsAt_wordC (endsAt_callTo (some hi) .symbolic) (by decide) hi.isLt rfl rfl
  | callaImm hi => exact endsAt_wordC (endsAt_callTo (some hi) .immediate) (by decide) hi.isLt rfl rfl
  | pushmA | pushmW => exact endsAt_wordP endsAt_pushMany (by decide) rfl
  | popmA | popmW => exact endsAt_wordP endsAt_popMany (by decide) rfl

/-- A cycle that does not fault leaves the repetition state R313 says, and the program counter where it was if more
executions are to run. -/
theorem repAfter_of_running {i : Instr} {s t : State} (h : exec i s = .next t) (hrun : t.running) :
    ∃ n, t.rep = repAfter s n ∧ (0 < t.rep.left → t.pc = s.pc) := by
  obtain ⟨n, -, hk⟩ := keeps_exec i s t h
  rcases hk.ends with ⟨c, rfl⟩ | ⟨-, hrep, hpc⟩
  · exact absurd hrun (not_running_takeFault s c)
  · exact ⟨n, hrep, hpc⟩

/-- Settles O26: the end of every cycle looks at the executions left before it looks at R0 (`finish`). -/
theorem repetitionGovernsPc : Obligations.RepetitionGovernsPc := by
  intro i s t _ h hrun
  obtain ⟨n, hrep, hpc⟩ := repAfter_of_running h hrun
  refine ⟨fun hleft => ?_, fun hleft => ?_⟩
  · have hrep : t.rep = ⟨s.rep.left - 1, s.rep.at_⟩ := by
      rw [hrep, repAfter, if_neg (by omega), if_neg (by omega)]
    refine ⟨hrep, hpc ?_⟩
    rw [hrep]
    exact Nat.sub_pos_of_lt hleft
  · refine ⟨?_, fun hwf => endsAt_exec hwf s hleft t h hrun⟩
    rw [hrep, repAfter, if_neg (by omega), if_pos hleft]

end Sys2Proof.Proofs
end

section
/-! PROOF. RPT #k RRAX.A Rd run to its end (R312 to R316, R318): the effect of one execution, the composition of the
executions as one shift, and the repetition state that counts them. -/

namespace Sys2Proof.Proofs

open Sys2Proof Sys2Proof.Machine

/-! ## The instruction and its words -/

/-- The extension word of RPT #(n + 1): the register form, with the count in the word (R123, R312). -/
def repeatWord (n : RegNum) : Ext := .regForm 0 false false 0 n

/-- RPT #(n + 1) RRAX.A Rd. -/
def repeatedShift (n d : RegNum) : Instr := .rraxA (repeatWord n) (.reg d)

theorem repeatedShift_wf {n d : RegNum} (h3 : d ≠ 3) : (repeatedShift n d).wf = true := by
  simp [repeatedShift, repeatWord, Instr.wf, Ext.wfOne, Src.wf, Ext.isRegForm, Src.rawReg, h3]

theorem encode_repeatedShift (n d : RegNum) :
    encode (repeatedShift n d) = [BitVec.ofNat 16 (0x1800 + n.val), BitVec.ofNat 16 (0x1140 + d.val)] := rfl

theorem count_repeatWord (n : RegNum) (s : State) : count (some (repeatWord n)) s = n.val := rfl

/-! ## Some executions of a shift, as one -/

/-- The flags after a shift whose result and last bit out are `p` (R181). -/
def shiftFlags (p : Slot × Bool) : FlagRule := shiftFlagRule .ext p.2 p.1.toNat

/-- `k` arithmetic right shifts of the 20-bit value of register `d` (R180). -/
def shifted (k : Nat) (d : RegNum) (s : State) : Slot × Bool := shiftN (rra1 .ext) k (trunc .ext (s.reg d)) false

/-- `t` is `s` after register `d` was shifted right `k` times: but for that register, SR, the program counter and the
repetition state nothing changed. -/
structure ShiftedBy (k : Nat) (d : RegNum) (s t : State) : Prop where
  halted : t.halted = s.halted
  params : t.params = s.params
  mem : t.mem = s.mem
  result : t.reg d = (shifted k d s).1
  flags : (shiftFlags (shifted k d s)).holds s.sr t.sr
  others : ∀ r, r ≠ 0 → r ≠ 2 → r ≠ d → t.reg r = s.reg r

/-- Flags written twice are those written last (R38). -/
theorem holds_shiftFlags_trans {p q : Slot × Bool} {a b c : Slot} (hab : (shiftFlags p).holds a b)
    (hbc : (shiftFlags q).holds b c) : (shiftFlags q).holds a c := by
  obtain ⟨-, -, -, -, hrest⟩ := hab
  obtain ⟨hc, hz, hn, hv, hrest'⟩ := hbc
  exact ⟨hc, hz, hn, hv, fun k h0 h1 h2 h8 => (hrest' k h0 h1 h2 h8).trans (hrest k h0 h1 h2 h8)⟩

/-- One arithmetic right shift, then `k + 1`: the carry in is not read. -/
theorem shiftN_rra1_first (ws : Size) (k : Nat) (v : Slot) (c : Bool) :
    shiftN (rra1 ws) (k + 1) (shiftN (rra1 ws) 1 v c).1 c = shiftN (rra1 ws) (k + 2) v c := rfl

/-- The shifts of a run are those of its first execution and those of the rest. -/
theorem shifted_succ {k : Nat} {d : RegNum} {s u : State} (h : u.reg d = (shifted 1 d s).1) :
    shifted (k + 1) d u = shifted (k + 2) d s := by
  have hlt : (shifted 1 d s).1.toNat < full .ext := (signed_shiftN_rra1 1 (trunc_lt .ext _) false).1
  rw [shifted, h, trunc_of_lt hlt]
  exact shiftN_rra1_first .ext k _ false

theorem ShiftedBy.trans {k : Nat} {d : RegNum} {s u t : State} (h : ShiftedBy 1 d s u)
    (h' : ShiftedBy (k + 1) d u t) : ShiftedBy (k + 2) d s t := by
  have hs : shifted (k + 1) d u = shifted (k + 2) d s := shifted_succ h.result
  have hflags := h'.flags
  rw [hs] at hflags
  exact ⟨h'.halted.trans h.halted, h'.params.trans h.params, h'.mem.trans h.mem, h'.result.trans (by rw [hs]),
    holds_shiftFlags_trans h.flags hflags,
    fun r h0 h2 hd => (h'.others r h0 h2 hd).trans (h.others r h0 h2 hd)⟩

/-- The rule of RRAM and RRA, written as that many steps of one shift (R180, R181). -/
theorem rraRule_shifted {k : Nat} (hk : k < 20) (c : Bool) (d : RegNum) (s : State) :
    rraRule .ext (k + 1) c (trunc .ext (s.reg d)) = ((shifted (k + 1) d s).1, shiftFlags (shifted (k + 1) d s)) := by
  have hpos : (0 : Int) < full .ext := Int.natCast_pos.2 (full_pos .ext)
  have hlt := Int.emod_lt_of_pos (signed .ext (trunc .ext (s.reg d)).toNat / 2 ^ (k + 1)) hpos
  rw [shifted, shiftN_rra1 hk (trunc_lt .ext _), shiftFlags, slotOf_toNat .ext _ (by rw [← full]; omega)]
  rfl

/-! ## One execution -/

/-- A running state with the words of RPT #(n + 1) RRAX.A Rd at its program counter. -/
structure AtRepeatedShift (n d : RegNum) (s : State) : Prop where
  running : s.running
  wf : s.mem.wf
  words : s.holdsWords s.pc (encode (repeatedShift n d))

/-- `t` is reached from `s` in `k` executions of the shift, the last of which ends the repetition. -/
structure RunsOut (k : Nat) (d : RegNum) (s t : State) : Prop where
  reached : reaches k s t
  shifts : ShiftedBy k d s t
  rep : t.rep = ⟨0, none⟩
  pc : t.pc = low20 (s.pc + 4)

section executions

variable {n d : RegNum} {s u t : State}

/-- One execution shifts once; the program counter and the repetition state go by R313. -/
theorem step_repeatedShift (h0 : d ≠ 0) (h2 : d ≠ 2) (h3 : d ≠ 3) (hs : AtRepeatedShift n d s) :
    ∃ u, step s = .next u ∧ ShiftedBy 1 d s u ∧ u.rep = repAfter s n.val ∧ u.pc = pcAfter s n.val 2 none := by
  have hwf : (repeatedShift n d).wf = true := repeatedShift_wf h3
  obtain ⟨u, hu, heffect⟩ := (shiftRightArithmetic.2.1 (.reg d) (repeatWord n)).1 hwf s (opRegister .ext d _) _ hs.wf
    rfl trivial fun _ h => h0 (Src.reg.inj h)
  have hvalue : (opRegister .ext d (operandState (some (repeatWord n)) s)).value = trunc .ext (s.reg d) := by
    rw [opRegister, base_other _ h0 h3, operandState, State.reg_setPc, if_neg h0]
  rw [hvalue, rraRule_shifted (k := 0) (by decide)] at heffect
  have hplace {r : RegNum} (h : r ≠ d) : Place.reg d ≠ .reg r := fun e => h (Place.reg.inj e).symm
  refine ⟨u, (stepRunsTheDecoded s _ hs.running hwf hs.words).trans hu, ?_, heffect.rep, ?_⟩
  · exact ⟨heffect.halted, heffect.params, heffect.store.1, heffect.result d rfl h0 h2 h3,
      heffect.flags (hplace h2.symm) nofun, fun r hr0 hr2 hrd => heffect.others r hr0 hr2 (.inr ⟨hplace hrd, nofun⟩)⟩
  · have hpc := heffect.pc
    rwa [opRegister, if_neg (hplace h0.symm)] at hpc

/-- Where the program counter stays, the next execution finds the same words. -/
theorem AtRepeatedShift.next (hs : AtRepeatedShift n d s) (h : ShiftedBy 1 d s u) (hpc : u.pc = s.pc) :
    AtRepeatedShift n d u := by
  refine ⟨h.halted.trans hs.running, ?_, ?_⟩
  · rw [h.mem]
    exact hs.wf
  · rw [hpc]
    exact holdsWords_congr h.mem h.params hs.words

/-- The last execution. -/
theorem RunsOut.last (hstep : step s = .next u) (h : ShiftedBy 1 d s u) (hrep : u.rep = ⟨0, none⟩)
    (hpc : u.pc = low20 (s.pc + 4)) : RunsOut 1 d s u := ⟨⟨u, hstep, rfl⟩, h, hrep, hpc⟩

/-- An execution before the last. -/
theorem RunsOut.first {k : Nat} (hstep : step s = .next u) (h : ShiftedBy 1 d s u) (hpc : u.pc = s.pc)
    (hrest : RunsOut (k + 1) d u t) : RunsOut (k + 2) d s t :=
  ⟨⟨u, hstep, hrest.reached⟩, h.trans hrest.shifts, hrest.rep, hrest.pc.trans (by rw [hpc])⟩

/-- With a repetition in progress, the executions left are run. -/
theorem runsOut_of_left (h0 : d ≠ 0) (h2 : d ≠ 2) (h3 : d ≠ 3) {k : Nat} (hs : AtRepeatedShift n d s)
    (hleft : s.rep.left = k + 1) : ∃ t, RunsOut (k + 1) d s t := by
  induction k generalizing s with
  | zero =>
    obtain ⟨u, hstep, hshift, hrep, hpc⟩ := step_repeatedShift h0 h2 h3 hs
    rw [repAfter, if_neg (by omega), if_pos hleft] at hrep
    rw [pcAfter, if_neg (by omega), if_pos hleft] at hpc
    exact ⟨u, .last hstep hshift hrep hpc⟩
  | succ k ih =>
    obtain ⟨u, hstep, hshift, hrep, hpc⟩ := step_repeatedShift h0 h2 h3 hs
    rw [repAfter, if_neg (by omega), if_neg (by omega)] at hrep
    rw [pcAfter, if_neg (by omega), if_neg (by omega)] at hpc
    have hless : u.rep.left = s.rep.left - 1 := congrArg Rep.left hrep
    obtain ⟨t, ht⟩ := ih (hs.next hshift hpc) (by omega)
    exact ⟨t, .first hstep hshift hpc ht⟩

/-- From its first execution, the instruction is run `n + 1` times (R312, R313). -/
theorem runsOut_of_rep (h0 : d ≠ 0) (h2 : d ≠ 2) (h3 : d ≠ 3) (hs : AtRepeatedShift n d s) (hnone : s.rep = ⟨0, none⟩) :
    ∃ t, RunsOut (n.val + 1) d s t := by
  obtain ⟨u, hstep, hshift, hrep, hpc⟩ := step_repeatedShift h0 h2 h3 hs
  have hleft : s.rep.left = 0 := by rw [hnone]
  rw [repAfter, if_pos hleft] at hrep
  rw [pcAfter, if_pos hleft] at hpc
  cases hn : n.val with
  | zero =>
    rw [hn, if_neg (lt_irrefl 0)] at hrep hpc
    exact ⟨u, .last hstep hshift (hrep.trans hnone) hpc⟩
  | succ k =>
    rw [if_pos (by omega)] at hrep hpc
    obtain ⟨t, ht⟩ := runsOut_of_left h0 h2 h3 (hs.next hshift hpc) (k := k) (by rw [hrep]; exact hn)
    exact ⟨t, .first hstep hshift hpc ht⟩

end executions

/-- Bit `k` of a register, below the 20 of a value, is the last out of `k + 1` shifts (R181). -/
theorem shifted_carry {k : Nat} (hk : k < 20) (d : RegNum) (s : State) :
    (shifted (k + 1) d s).2 = (s.reg d).getLsbD k := by
  have hbit : (trunc .ext (s.reg d)).getLsbD k = (s.reg d).getLsbD k := by
    rw [trunc_getLsbD, decide_eq_true (show k < bits .ext from hk), Bool.and_true]
  rw [shifted, shiftN_rra1 hk (trunc_lt .ext _), ← hbit, ← BitVec.testBit_toNat, Nat.testBit_eq_decide_div_mod_eq]

/-- Settles O60: `n + 1` executions are one shift by `n + 1` (`ShiftedBy.trans`), whose value and flags R180 gives. -/
theorem repeatedShiftRuns : Obligations.RepeatedShiftRuns := by
  intro n d s h0 h2 h3 hs hrep hm _ hwords
  obtain ⟨t, ht⟩ := runsOut_of_rep h0 h2 h3 ⟨hs, hm, hwords⟩ hrep
  have hn : n.val < 20 := by omega
  have hresult : t.reg d = _ := ht.shifts.result.trans (congrArg Prod.fst (rraRule_shifted hn false d s)).symm
  have hflags := ht.shifts.flags
  rw [shiftFlags, shifted_carry hn, ← ht.shifts.result] at hflags
  have hzero : decide ((t.reg d).toNat = 0) = decide (t.reg d = 0) :=
    decide_eq_decide.2 ⟨fun h => BitVec.eq_of_toNat_eq h, congrArg BitVec.toNat⟩
  rw [shiftFlagRule, hzero] at hflags
  refine ⟨t, ht.reached, ht.shifts.halted.trans hs, ht.rep, ht.pc, ht.shifts.mem, ?_, hflags, ht.shifts.others⟩
  rw [hresult, rraRule, trunc_toNat]
  rfl

end Sys2Proof.Proofs
end

section
/-! PROOF. The fault a cycle takes (spec/60_exceptions.md R401 to R405): it changes nothing but the halt record, and it
is the first in the cycle's order, for formats I and II, the address group, CALLA, PUSHM and POPM. -/

namespace Sys2Proof.Proofs

open Sys2Proof Sys2Proof.Machine

/-- Settles O10: of the two ends of a cycle, only the fault taken sets the halt record (`CycleKeeps.ends`). -/
theorem faultsArePrecise : Obligations.FaultsArePrecise := by
  intro s t hs h ht
  obtain ⟨_, -, k, hk⟩ := step_keeps h
  rcases hk.ends with ⟨c, rfl⟩ | ⟨hhalted, -⟩
  · exact ⟨c, k, rfl⟩
  · exact absurd (hhalted.trans hs) ht

/-- An execution that raises a fault has the cycle take it (R402). -/
theorem takes_of_cycle {i : Instr} {s : State} {n : Nat} {body : Except FaultCause Done} {c : FaultCause}
    (he : exec i s = cycle s n body) (hbody : body = .error c) : Takes i s c := by
  rw [Takes, he, hbody, cycle]

/-! ## Formats I and II (R200, R290) -/

theorem operandState_params (x : Option Ext) (s : State) : (operandState x s).params = s.params := by cases x <;> rfl

section formats

variable {i : Instr} {ws : Size} {x : Option Ext}

/-- An instruction whose cycle is the common execution of format I. -/
theorem faultsI_of_cycle {alu : Size → Bool → Slot → Slot → AluOut} {reads stores : Bool} {src : Src} {dst : Dst}
    (he : ∀ s, (0 < count x s → dst ≠ .reg 0) → exec i s = cycle s (count x s)
      (formatI alu reads stores ws (x.bind extSrcHi) (x.bind extDstHi) (zeroCarry x) src dst (operandState x s))) :
    FaultsI i ws x src dst reads stores := by
  intro s hpc
  obtain ⟨hsource, hrest⟩ := formatI_fault (operandState_params x s)
  refine ⟨fun c h => takes_of_cycle (he s hpc) (hsource c h), fun a s1 h => ?_⟩
  obtain ⟨hdestination, hstore⟩ := hrest a s1 h
  exact ⟨fun c h' => takes_of_cycle (he s hpc) (hdestination c h'),
    fun b s2 ea h' hst hb ha => takes_of_cycle (he s hpc) (hstore b s2 ea h' hst hb ha)⟩

theorem faultsI_plain {alu : Size → Bool → Slot → Slot → AluOut} {reads stores : Bool} {bw : BW} {src : Src} {dst : Dst}
    (he : ∀ s, exec i s = plainI alu reads stores bw src dst s) :
    FaultsI i (sizeOf bw) none src dst reads stores := faultsI_of_cycle fun s _ => he s

theorem faultsI_extended {alu : Size → Bool → Slot → Slot → AluOut} {reads stores : Bool} {words : List Word} {e : Ext}
    {src : Src} {dst : Dst} (he : ∀ s, exec i s = extendedI alu reads stores ws words e src dst s) :
    FaultsI i ws (some e) src dst reads stores := faultsI_of_cycle fun s hpc => by
  rw [he, extendedI, extended_run fun hn => beq_eq_false_iff_ne.2 (hpc hn)]
  rfl

/-- The four forms of a two-operand operation. For each operation of the model the forms hold by computation. -/
theorem faultsAllI (alu : Size → Bool → Slot → Slot → AluOut) {reads stores : Bool} {plain : BW → Src → Dst → Instr}
    {xA xW xB : Ext → Src → Dst → Instr}
    (he : ExecutesI alu reads stores plain xA xW xB := by constructor <;> exact fun _ _ _ => ⟨rfl, fun _ => rfl⟩) :
    FaultsAllI plain xA xW xB reads stores := fun src dst =>
  ⟨fun bw => faultsI_plain (he.plain bw src dst).2, fun x => faultsI_extended (he.extA x src dst).2,
    fun x => faultsI_extended (he.extW x src dst).2, fun x => faultsI_extended (he.extB x src dst).2⟩

/-- An instruction whose cycle is the common execution of format II. -/
theorem faultsII_of_cycle {alu : Size → Bool → Slot → AluOut} {opd : Src}
    (he : ∀ s, (0 < count x s → opd ≠ .reg 0) → exec i s = cycle s (count x s)
      (formatII alu ws (x.bind extDstHi) (zeroCarry x) opd (operandState x s))) : FaultsII i ws x opd := by
  intro s hpc
  obtain ⟨hoperand, hstore⟩ := formatII_fault (operandState_params x s)
  exact ⟨fun c h => takes_of_cycle (he s hpc) (hoperand c h),
    fun a s1 ea h hb ha => takes_of_cycle (he s hpc) (hstore a s1 ea h hb ha)⟩

theorem faultsII_plain {alu : Size → Bool → Slot → AluOut} {opd : Src} (he : ∀ s, exec i s = plainII alu ws opd s) :
    FaultsII i ws none opd := faultsII_of_cycle fun s _ => he s

theorem faultsII_extended {alu : Size → Bool → Slot → AluOut} {words : List Word} {e : Ext} {opd : Src}
    (he : ∀ s, exec i s = extendedII alu ws words e opd s) : FaultsII i ws (some e) opd :=
  faultsII_of_cycle fun s hpc => by
    rw [he, extendedII, extended_run fun hn => beq_eq_false_iff_ne.2 (hpc hn)]
    rfl

end formats

/-- Settles O16: each operation runs format I, whose first fault `formatI_fault` gives. -/
theorem firstOperandFaultIsTaken : Obligations.FirstOperandFaultIsTaken :=
  ⟨faultsAllI fun _ _ a _ => movOp a, faultsAllI fun ws _ => addOp ws false, faultsAllI addOp, faultsAllI subcOp,
    faultsAllI fun ws _ => subOp ws, faultsAllI fun ws _ => subOp ws, faultsAllI daddOp,
    faultsAllI fun ws _ => andOp ws, faultsAllI fun ws _ => bicOp ws, faultsAllI fun ws _ => bisOp ws,
    faultsAllI fun ws _ => xorOp ws, faultsAllI fun ws _ => andOp ws⟩

/-! ## Fixed-mode operands that cannot be read (R145) -/

/-- Where `read` faults, the source operand `src` of formats I and II, `hi` above its extension word, raises the same
fault. -/
def FaultsAsSrc (hi : Option (BitVec 4)) (src : Src) (read : State → Except FaultCause (Slot × State)) : Prop :=
  ∀ s c, read s = .error c → resolveSrc .ext hi src s = .error c

theorem opMemory_of_busRead_error {a : Slot} {s : State} {c : FaultCause} (h : busRead s a 4 .read = .error c) :
    opMemory .ext a s = .error c := by
  rw [opMemory, nb, h]

/-- The fault is that of the address's fetch or that of the read there. -/
theorem opAt_of_readAt_error {ea : State → Except FaultCause (Slot × State)} {s : State} {c : FaultCause}
    (h : readAt ea s = .error c) : opAt .ext (ea s) = .error c := by
  unfold readAt at h
  split at h
  · rename_i a s1 hea
    rw [hea, opAt, opMemory_of_busRead_error h]
  · rename_i e hea
    cases h
    rw [hea, opAt]

theorem faultsAsSrc_reg (r : RegNum) : FaultsAsSrc none (.reg r) (readReg r) := nofun

theorem faultsAsSrc_indirect (r : RegNum) : FaultsAsSrc none (.indirect r) (readInd r) := fun _ _ h =>
  opMemory_of_busRead_error h

theorem faultsAsSrc_autoinc (r : RegNum) : FaultsAsSrc none (.autoinc r) (readInd r) := fun _ _ h => by
  rw [resolveSrc, opAutoinc, opMemory_of_busRead_error h]

theorem faultsAsSrc_immediate (hi : BitVec 4) : FaultsAsSrc (some hi) .immediate (fetchHigh hi) := by
  intro s c h
  unfold fetchHigh at h
  split at h
  · cases h
  · rename_i e hfetch
    cases h
    rw [resolveSrc, opImmediate, hfetch]

theorem faultsAsSrc_absolute (hi : BitVec 4) : FaultsAsSrc (some hi) .absolute (readAt (fetchHigh hi)) := by
  intro s c h
  rw [resolveSrc, eaAbsolute_eq]
  exact opAt_of_readAt_error h

theorem faultsAsSrc_indexed (r : RegNum) : FaultsAsSrc none (.indexed r) (readAt (fetchIndexed r)) := by
  intro s c h
  rw [resolveSrc, eaIndexed_eq]
  exact opAt_of_readAt_error h

theorem faultsAsSrc_symbolic (hi : BitVec 4) : FaultsAsSrc (some hi) .symbolic (readAt (fetchSymbolic hi)) := by
  intro s c h
  rw [resolveSrc, eaSymbolic_eq]
  exact opAt_of_readAt_error h

/-! ## The address group (R240 to R258) -/

section address

variable {i : Instr} {d : RegNum} {hi : Option (BitVec 4)} {src : Src}
  {read : State → Except FaultCause (Slot × State)}

theorem faultsRead_movaLoad (hread : FaultsAsSrc hi src read)
    (he : i.wf = true → ∀ s, exec i s = movaLoad d (resolveSrc .ext hi src s) s) : FaultsRead i read := by
  intro hwf s c h
  exact takes_of_cycle (he hwf s) (by rw [hread s c h])

theorem faultsRead_addressAlu {alu : Slot → Slot → AluOut} {stores : Bool} (hread : FaultsAsSrc hi src read)
    (he : ∀ s, exec i s = addressAlu alu stores d (resolveSrc .ext hi src s) s) : FaultsRead i read := by
  intro _ s c h
  exact takes_of_cycle (he s) (by rw [hread s c h])

/-- A store whose address is `ea`, whose fetch leaves the parameters as they were. -/
theorem faultsStore {r : RegNum} {ea : State → Except FaultCause (Slot × State)}
    (hea : ∀ s a u, ea s = .ok (a, u) → u.params = s.params) (he : ∀ s, exec i s = movaStore r (ea s) s) :
    FaultsStore i ea := by
  refine fun s => ⟨fun c h => takes_of_cycle (he s) (by rw [h]), fun a u h hrefused => takes_of_cycle (he s) ?_⟩
  simp only [h]
  rw [store_refused (hea s a u h) hrefused]
  rfl

end address

/-! ## CALLA (R271) -/

/-- A CALLA whose operand is the source operand `src` of formats I and II. -/
theorem faultsCall {i : Instr} {words : Nat} {auto : Option RegNum} {hi : Option (BitVec 4)} {src : Src}
    {read : State → Except FaultCause (Slot × State)} (hfault : FaultsAsSrc hi src read) (hread : ReadsSrc hi src read)
    (hwords : words = 1 + srcWords src) (hauto : auto = srcAuto src)
    (he : i.wf = true → ∀ s, exec i s = callTo (operandValue (resolveSrc .ext hi src s)) s) :
    FaultsCall i words auto read := by
  subst hwords hauto
  refine ⟨fun hwf s c h => takes_of_cycle (he hwf s) (by rw [hfault s c h, operandValue]),
    fun hwf s v u h before e rest hslots hbefore hrefused => ?_⟩
  obtain ⟨p, hs⟩ := hread s v u h
  have hR := (Resolved.here 4 s).src hs
  have hpush := pushAll_fault rfl before _ _ _ hR.params hslots hbefore hrefused
  rw [Takes, he hwf, hs]
  exact callTo_of_pushAll_error hR hpush

/-! ## PUSHM and POPM (R281, R282) -/

/-- What a read answers rests on the memory, the parameters and the count of device reads, and it changes no more than
that count (R76, R84). -/
theorem busRead_congr {s t : State} (hm : t.mem = s.mem) (hp : t.params = s.params)
    (hd : t.deviceReads = s.deviceReads) (a : Slot) (n : Nat) (k : AccessKind) :
    busRead t a n k = (busRead s a n k).map fun p => (p.1, { t with deviceReads := p.2.deviceReads }) := by
  unfold busRead
  rw [hm, hp, hd]
  split
  · split
    · split
      · rw [Except.map, ← hd, ← hm, ← hp]
      · rfl
    · split <;> rfl
  · rfl

/-- A pop sequence raises the fault of its first slot that cannot be read: the registers it writes on the way are not
among what a read rests on (R282, R405). -/
theorem popAll_fault {ws : Size} {rs : List RegNum} {sp : Slot} {s t : State} {c : FaultCause} (hm : t.mem = s.mem)
    (hp : t.params = s.params) (hd : t.deviceReads = s.deviceReads)
    (h : readSlots ws rs.length sp s = .error c) : popAll ws rs sp t = .error c := by
  induction rs generalizing sp s t with
  | nil => simp [readSlots] at h
  | cons r rs ih =>
    simp only [List.length_cons, readSlots] at h
    rw [popAll, busRead_congr hm hp hd]
    split at h
    · rename_i e hread
      cases h
      rw [hread]
      rfl
    · rename_i v s1 hread
      have hs1 := (busRead_ok hread).2.2.1
      rw [hread]
      simp only [Except.map]
      split at h
      · rename_i e hrest
        cases h
        exact ih (by rw [hs1]; simpa using hm) (by rw [hs1]; simpa using hp) (by simp) hrest
      · cases h

section stack

variable {i : Instr} {words : List Word} {ws : Size} {n : BitVec 4} {d : RegNum}

theorem faultsAtSlot_pushMany (hwf : pushRangeOk n d = true) (he : ∀ s, exec i s = pushMany words ws n d s)
    (s : State) : FaultsAtSlot i (nb ws) (pushSlots (nb ws) s.sp (pushValues ws n d s)) s := by
  intro before e rest hslots hbefore hrefused
  have hpush := pushAll_fault (busWidth_nb ws) before _ _ s rfl hslots hbefore hrefused
  rw [Takes, he, pushMany, if_pos hwf, ← pushValues_eq, hpush, cycle]

theorem takes_popMany (hwf : popRangeOk n d = true) (he : ∀ s, exec i s = popMany words ws n d s) {s : State}
    {c : FaultCause} (h : readSlots ws (n.toNat + 1) s.sp s = .error c) : Takes i s c := by
  rw [← length_popRegs n d] at h
  rw [Takes, he, popMany, if_pos hwf, popAll_fault rfl rfl rfl h, cycle]

end stack

/-! ## Every group -/

theorem faultsRead_immediates (hi : BitVec 4) (d : RegNum) :
    ∀ i ∈ [Instr.movaImm hi d, .cmpaImm hi d, .addaImm hi d, .subaImm hi d], FaultsRead i (fetchHigh hi) := by
  simp only [List.forall_mem_cons, List.not_mem_nil, IsEmpty.forall_iff, implies_true, and_true]
  exact ⟨faultsRead_movaLoad (faultsAsSrc_immediate hi) fun _ _ => rfl,
    faultsRead_addressAlu (faultsAsSrc_immediate hi) fun _ => rfl,
    faultsRead_addressAlu (faultsAsSrc_immediate hi) fun _ => rfl,
    faultsRead_addressAlu (faultsAsSrc_immediate hi) fun _ => rfl⟩

theorem fetchIndexed_params {r : RegNum} {s u : State} {a : Slot} (h : fetchIndexed r s = .ok (a, u)) :
    u.params = s.params := (evolves_eaIndexed ((eaIndexed_eq r s).trans h)).params

theorem fetchHigh_params {hi : BitVec 4} {s u : State} {a : Slot} (h : fetchHigh hi s = .ok (a, u)) :
    u.params = s.params := (evolves_eaAbsolute ((eaAbsolute_eq hi s).trans h)).params

/-- Settles O17, group by group: each common execution's first fault, and the fixed-mode operands as operands of formats
I and II. -/
theorem firstFaultOfOtherGroups : Obligations.FirstFaultOfOtherGroups := by
  refine ⟨fun opd bw => ⟨faultsII_plain fun _ => rfl, faultsII_plain fun _ => rfl⟩,
    fun opd => ⟨faultsII_plain fun _ => rfl, faultsII_plain fun _ => rfl⟩, fun x opd => ?_, fun r d => ?_,
    fun hi d => ?_, fun d => ?_, fun hi => ?_, fun n d s => ?_⟩
  · simp only [List.forall_mem_cons, List.not_mem_nil, IsEmpty.forall_iff, implies_true, and_true]
    and_intros <;> exact faultsII_extended fun _ => rfl
  · refine ⟨faultsRead_movaLoad (faultsAsSrc_indirect r) fun _ _ => rfl,
      faultsRead_movaLoad (d := d) (faultsAsSrc_autoinc r) fun hwf s => ?_,
      faultsRead_movaLoad (faultsAsSrc_indexed r) fun _ _ => rfl,
      faultsStore (fun _ _ _ => fetchIndexed_params) fun s => congrArg (movaStore r · s) (eaIndexed_eq d s)⟩
    have hr : r ≠ 0 := by simpa [Instr.wf] using hwf
    simp only [exec, execMovaInc, if_neg hr, resolveSrc]
  · exact ⟨faultsRead_movaLoad (faultsAsSrc_absolute hi) fun _ _ => rfl,
      faultsStore (fun _ _ _ => fetchHigh_params) fun s => congrArg (movaStore d · s) (eaAbsolute_eq hi s),
      faultsRead_immediates hi d⟩
  · exact ⟨faultsCall (faultsAsSrc_reg d) (readsSrc_reg d) rfl rfl fun _ _ => rfl,
      faultsCall (faultsAsSrc_indirect d) (readsSrc_indirect d) rfl rfl fun _ _ => rfl,
      faultsCall (faultsAsSrc_autoinc d) (readsSrc_autoinc d) rfl rfl fun hwf =>
        exec_callaInc (by simpa [Instr.wf] using hwf),
      faultsCall (faultsAsSrc_indexed d) (readsSrc_indexed d) rfl rfl fun _ _ => rfl⟩
  · exact ⟨faultsCall (faultsAsSrc_absolute hi) (readsSrc_absolute hi) rfl rfl fun _ _ => rfl,
      faultsCall (faultsAsSrc_symbolic hi) (readsSrc_symbolic hi) rfl rfl fun _ _ => rfl,
      faultsCall (faultsAsSrc_immediate hi) (readsSrc_immediate hi) rfl rfl fun _ _ => rfl⟩
  · simp only [List.forall_mem_cons, List.not_mem_nil, IsEmpty.forall_iff, implies_true, and_true]
    exact ⟨⟨fun hwf => faultsAtSlot_pushMany hwf (fun _ => rfl) s, fun hwf _ => takes_popMany hwf fun _ => rfl⟩,
      fun hwf => faultsAtSlot_pushMany hwf (fun _ => rfl) s, fun hwf _ => takes_popMany hwf fun _ => rfl⟩

end Sys2Proof.Proofs
end

section
/-! PROOF. The start of a run and the end of a program (spec/70_reset_and_hazards.md R450, R451, R456): the loader as
a fold over the image's bytes, what the fold leaves in memory and sends to the devices, and what `start` answers; then
JMP $. -/

namespace Sys2Proof.Proofs

open Sys2Proof Sys2Proof.Machine

/-! ## One byte of an image (R450) -/

/-- The effect of one byte of an image that is accepted: memory takes it, or the device that claims its address. -/
def loadByte (s : State) (e : Slot × Byte) : State :=
  if resolve s.params e.1 = .memory then { s with mem := s.mem.set e.1.toNat e.2 }
  else { s with sent := ⟨resolve s.params e.1, e.1, 1, slotOf e.2.toNat⟩ :: s.sent }

theorem loadByte_memory {s : State} {e : Slot × Byte} (h : resolve s.params e.1 = .memory) :
    loadByte s e = { s with mem := s.mem.set e.1.toNat e.2 } := if_pos h

theorem loadByte_device {s : State} {e : Slot × Byte} (h : resolve s.params e.1 ≠ .memory) :
    loadByte s e = { s with sent := ⟨resolve s.params e.1, e.1, 1, slotOf e.2.toNat⟩ :: s.sent } := if_neg h

/-- A byte of an image changes only memory and the devices' writes. -/
theorem loadByte_frame (s : State) (e : Slot × Byte) :
    loadByte s e = { s with mem := (loadByte s e).mem, sent := (loadByte s e).sent } := by
  unfold loadByte
  split <;> rfl

@[simp] theorem loadByte_params (s : State) (e : Slot × Byte) : (loadByte s e).params = s.params := by
  rw [loadByte_frame]

@[simp] theorem accepts_loadByte (s : State) (e : Slot × Byte) (a : Slot) (n : Nat) :
    accepts (loadByte s e) a n ↔ accepts s a n := (accepts_congr (loadByte_params s e) a n).1

/-- Where memory accepts a byte, the byte lies below MEM_SIZE (R80). -/
theorem lt_memSize_of_accepts {s : State} {a : Slot} (h : accepts s a 1) (hr : resolve s.params a = .memory) :
    a.toNat < Config.memSize := by
  rw [accepts, hr] at h
  exact h

/-- The loader's write of a byte that is accepted. -/
theorem busWrite_image_byte {s : State} {e : Slot × Byte} (h : accepts s e.1 1) :
    busWrite s e.1 1 (BitVec.ofNat 32 e.2.toNat) = .ok (loadByte s e) := by
  have hbyte := e.2.isLt
  have hnat : (BitVec.ofNat 32 e.2.toNat).toNat = e.2.toNat := Nat.mod_eq_of_lt (by omega)
  by_cases hr : resolve s.params e.1 = .memory
  · rw [busWrite_memory rfl hr (lt_memSize_of_accepts h hr), loadByte_memory hr, hnat]
    simp [Memory.writeLE]
  · rw [busWrite_device rfl hr ((accepts_device_iff hr).1 h), loadByte_device hr, hnat,
      Nat.mod_eq_of_lt (show e.2.toNat < 2 ^ (8 * 1) from hbyte), slotOf]

/-! ## The loader (R450) -/

/-- An image whose bytes are all accepted is loaded byte by byte. -/
theorem loadImage_of_accepts {image : List (Slot × Byte)} {s : State} (h : ∀ e ∈ image, accepts s e.1 1) :
    loadImage image s = .ok (image.foldl loadByte s) := by
  induction image generalizing s with
  | nil => rfl
  | cons e rest ih =>
    obtain ⟨he, hrest⟩ := List.forall_mem_cons.1 h
    rw [loadImage, busWrite_image_byte he]
    exact ih (by simpa using hrest)

/-- An image that could be loaded has had all its bytes accepted. -/
theorem accepts_of_loadImage {image : List (Slot × Byte)} {s t : State} (h : loadImage image s = .ok t) :
    ∀ e ∈ image, accepts s e.1 1 := by
  induction image generalizing s with
  | nil => simp
  | cons e rest ih =>
    by_cases he : accepts s e.1 1
    · rw [loadImage, busWrite_image_byte he] at h
      exact List.forall_mem_cons.2 ⟨he, by simpa using ih h⟩
    · rw [loadImage, busWrite_refused rfl he] at h
      cases h

/-- Loading changes only memory and the devices' writes. -/
theorem loaded_frame (image : List (Slot × Byte)) (s : State) :
    image.foldl loadByte s =
      { s with mem := (image.foldl loadByte s).mem, sent := (image.foldl loadByte s).sent } := by
  induction image generalizing s with
  | nil => rfl
  | cons e rest ih => rw [List.foldl_cons, ih, loadByte_frame]

@[simp] theorem loaded_params (image : List (Slot × Byte)) (s : State) :
    (image.foldl loadByte s).params = s.params := by rw [loaded_frame]

@[simp] theorem loaded_reg (image : List (Slot × Byte)) (s : State) (r : RegNum) :
    (image.foldl loadByte s).reg r = s.reg r := by rw [loaded_frame, State.reg_mk]

/-- The bytes at the devices' addresses went to the devices, the last of them the newest write (R84). -/
theorem loaded_sent (image : List (Slot × Byte)) (s : State) :
    (image.foldl loadByte s).sent =
      ((image.filter fun e => decide (resolve s.params e.1 ≠ .memory)).map
        fun e => ⟨resolve s.params e.1, e.1, 1, slotOf e.2.toNat⟩).reverse ++ s.sent := by
  induction image generalizing s with
  | nil => rfl
  | cons e rest ih =>
    rw [List.foldl_cons, ih, loadByte_params]
    by_cases hr : resolve s.params e.1 = .memory
    · simp [loadByte_memory hr, hr]
    · simp [loadByte_device hr, hr]

/-- A byte that is accepted keeps memory in its canonical form. -/
theorem loadByte_wf {s : State} {e : Slot × Byte} (hm : s.mem.wf) (h : accepts s e.1 1) : (loadByte s e).mem.wf := by
  by_cases hr : resolve s.params e.1 = .memory
  · rw [loadByte_memory hr]
    exact Memory.wf_set _ hm _ _ (lt_memSize_of_accepts h hr)
  · rwa [loadByte_device hr]

/-- So does an image whose bytes are all accepted. -/
theorem loaded_wf {image : List (Slot × Byte)} {s : State} (hm : s.mem.wf) (h : ∀ e ∈ image, accepts s e.1 1) :
    (image.foldl loadByte s).mem.wf := by
  induction image generalizing s with
  | nil => exact hm
  | cons e rest ih =>
    obtain ⟨he, hrest⟩ := List.forall_mem_cons.1 h
    exact ih (loadByte_wf hm he) (by simpa using hrest)

/-- A byte of memory that no byte of the image names is what it was. -/
theorem loaded_get_other {image : List (Slot × Byte)} {s : State} {a : Nat} (hm : s.mem.wf)
    (h : ∀ e ∈ image, accepts s e.1 1) (ha : ∀ e ∈ image, resolve s.params e.1 = .memory → e.1.toNat ≠ a) :
    (image.foldl loadByte s).mem.get a = s.mem.get a := by
  induction image generalizing s with
  | nil => rfl
  | cons e rest ih =>
    obtain ⟨he, hrest⟩ := List.forall_mem_cons.1 h
    obtain ⟨hea, harest⟩ := List.forall_mem_cons.1 ha
    rw [List.foldl_cons, ih (loadByte_wf hm he) (by simpa using hrest) (by simpa using harest)]
    by_cases hr : resolve s.params e.1 = .memory
    · rw [loadByte_memory hr, Memory.get_set _ hm, if_neg (hea hr)]
    · rw [loadByte_device hr]

/-- A byte of memory is the last the image has for its address. -/
theorem loaded_get_last {before after : List (Slot × Byte)} {e : Slot × Byte} {s : State} (hm : s.mem.wf)
    (h : ∀ f ∈ before ++ e :: after, accepts s f.1 1) (hr : resolve s.params e.1 = .memory)
    (hlast : ∀ f ∈ after, f.1 ≠ e.1) : ((before ++ e :: after).foldl loadByte s).mem.get e.1.toNat = e.2 := by
  obtain ⟨hbefore, he⟩ := List.forall_mem_append.1 h
  obtain ⟨he, hafter⟩ := List.forall_mem_cons.1 he
  rw [List.foldl_append, List.foldl_cons]
  have hu := loaded_wf hm hbefore
  have hup : (before.foldl loadByte s).params = s.params := loaded_params before s
  generalize before.foldl loadByte s = u at hu hup ⊢
  have hacc : ∀ f, accepts s f 1 → accepts u f 1 := fun f => (accepts_congr hup f 1).1.2
  rw [loaded_get_other (loadByte_wf hu (hacc _ he)) (fun f hf => (accepts_loadByte ..).2 (hacc _ (hafter f hf)))
    fun f hf _ hfe => hlast f hf (BitVec.eq_of_toNat_eq hfe),
    loadByte_memory (by rwa [hup]), Memory.get_set _ hu, if_pos rfl]

/-! ## What `start` answers (R450, R451) -/

theorem imageHas_iff (image : List (Slot × Byte)) (a : Nat) :
    imageHas image a = true ↔ ¬ ∀ e ∈ image, e.1.toNat ≠ a := by simp [imageHas]

/-- The state in which the run loop begins: the image loaded, and the program counter from the vector (R451). -/
def startState (image : List (Slot × Byte)) (p : Params) (l : Launch) : State :=
  let t := image.foldl loadByte (launched p l)
  t.setPc (BitVec.ofNat 32 (t.mem.readLE Config.resetVector 2))

section start

variable {image : List (Slot × Byte)} {p : Params} {l : Launch}

/-- An image refused in part is a load fault. -/
theorem start_of_refused (hlow : resolve p 0xFFFE = .memory) (hhigh : resolve p 0xFFFF = .memory)
    (h : ¬ ∀ e ∈ image, accepts (launched p l) e.1 1) : ∃ c, start image p l = .loadFault c := by
  rw [start, if_pos ⟨hlow, hhigh⟩]
  cases hload : loadImage image (launched p l) with
  | error c => exact ⟨c, rfl⟩
  | ok t => exact absurd (accepts_of_loadImage hload) h

/-- An image that is accepted starts the block if it has both bytes of the vector. -/
theorem start_of_accepts (hlow : resolve p 0xFFFE = .memory) (hhigh : resolve p 0xFFFF = .memory)
    (h : ∀ e ∈ image, accepts (launched p l) e.1 1) :
    start image p l = if imageHas image 0xFFFE && imageHas image 0xFFFF then .started (startState image p l)
      else .romLoadFailure := by
  have hvector : loadPc (image.foldl loadByte (launched p l)) = .ok (startState image p l) := by
    rw [loadPc, busRead_memory rfl (by rw [loaded_params]; exact hlow) (by decide)]
    rfl
  rw [start, if_pos ⟨hlow, hhigh⟩, loadImage_of_accepts h]
  simp only [hvector]
  rfl

/-- When `start` starts, and in which state. -/
theorem start_started_iff (hlow : resolve p 0xFFFE = .memory) (hhigh : resolve p 0xFFFF = .memory) (s : State) :
    start image p l = .started s ↔
      (∀ e ∈ image, accepts (launched p l) e.1 1) ∧ imageHas image 0xFFFE = true ∧ imageHas image 0xFFFF = true ∧
        s = startState image p l := by
  by_cases h : ∀ e ∈ image, accepts (launched p l) e.1 1
  · rw [start_of_accepts hlow hhigh h]
    split_ifs with hvector
    · obtain ⟨hl, hh⟩ := Bool.and_eq_true_iff.1 hvector
      exact ⟨fun e => ⟨h, hl, hh, (StartResult.started.inj e).symm⟩, fun ⟨_, _, _, e⟩ => e ▸ rfl⟩
    · exact ⟨nofun, fun ⟨_, hl, hh, _⟩ => absurd (Bool.and_eq_true_iff.2 ⟨hl, hh⟩) hvector⟩
  · obtain ⟨c, hc⟩ := start_of_refused hlow hhigh h
    rw [hc]
    exact ⟨nofun, fun ⟨hacc, _⟩ => absurd hacc h⟩

theorem start_ne_outsideSpec (hlow : resolve p 0xFFFE = .memory) (hhigh : resolve p 0xFFFF = .memory) :
    start image p l ≠ .outsideSpec := by
  by_cases h : ∀ e ∈ image, accepts (launched p l) e.1 1
  · rw [start_of_accepts hlow hhigh h]
    split <;> nofun
  · obtain ⟨c, hc⟩ := start_of_refused hlow hhigh h
    rw [hc]
    nofun

theorem startState_pc : (startState image p l).pc.toNat = (startState image p l).mem.readLE 0xFFFE 2 := by
  have hlt := Memory.readLE_lt (startState image p l).mem 0xFFFE 2
  rw [startState, State.pc_setPc]
  exact Nat.mod_eq_of_lt (lt_trans hlt (by decide))

/-- A start changes nothing of the launch but memory and the program counter, and begins a run. -/
theorem startState_frame : (∀ r : RegNum, r ≠ 0 → (startState image p l).reg r = l.regs[r]) ∧
    (startState image p l).rep = ⟨0, none⟩ ∧ (startState image p l).halted = none ∧
    (startState image p l).params = p := by
  rw [startState, loaded_frame]
  exact ⟨fun r hr => by rw [State.reg_setPc, if_neg hr]; rfl, rfl, rfl, rfl⟩

end start

/-- Settles O21: the answer by whether every byte is accepted and the vector is in the image, the state by the loader's
fold. -/
theorem startLoadsVector : Obligations.StartLoadsVector := by
  intro image p l hm hlow hhigh lacks
  refine ⟨start_ne_outsideSpec hlow hhigh, fun s hs => ?_, fun hacc hl hh => ?_, fun hfail s hs => ?_⟩
  · obtain ⟨hacc, -, -, rfl⟩ := (start_started_iff hlow hhigh s).1 hs
    refine ⟨fun a ha => loaded_get_other hm hacc ha, ?_, ?_, startState_pc, startState_frame⟩
    · rintro before e after rfl hr hlast
      exact loaded_get_last hm hacc hr hlast
    · exact (loaded_sent image (launched p l)).trans (List.append_nil _)
  · exact ⟨_, (start_started_iff hlow hhigh _).2 ⟨hacc, (imageHas_iff ..).2 hl, (imageHas_iff ..).2 hh, rfl⟩⟩
  · obtain ⟨hacc, hl, hh, -⟩ := (start_started_iff hlow hhigh s).1 hs
    rcases hfail with hlack | hlack | ⟨e, he, hr, hsize⟩
    · exact (imageHas_iff ..).1 hl hlack
    · exact (imageHas_iff ..).1 hh hlack
    · exact absurd (lt_memSize_of_accepts (hacc e he) hr) (not_lt.2 hsize)

/-! ## JMP $ (R232, R456) -/

/-- A jump whose offset is minus one word goes to its own address (R230, R232). -/
theorem jumpTarget_self {p : Slot} (h : p.toNat < 2 ^ Config.addrBits) : jumpTarget p 0x3FF = p := by
  have hback : (2 + 2 * (0x3FF : BitVec 10).signExtend 32 : Slot) = 0#32 := by decide
  rw [jumpTarget, BitVec.add_assoc, hback, BitVec.add_zero, low20_of_lt h]

/-- Settles O54: the word is a jump by -1, and its target is its own address. -/
theorem jumpToItself : Obligations.JumpToItself := by
  intro s hs hleft hword
  have hpc : s.pc.toNat < 2 ^ Config.addrBits := by
    obtain ⟨-, hsize, -, -⟩ := hword
    simp only [Config.memSize, Config.addrBits] at *
    omega
  have hdecode : decode [0x3FFF] = .ok (.jmp 0x3FF, []) := rfl
  have hexec : exec (.jmp 0x3FF) s = jump true 0x3FF s := rfl
  have hafter : pcAfter s 0 1 (some (jumpTarget s.pc 0x3FF)) = s.pc := by
    rw [pcAfter, if_pos hleft, jumpTarget_self hpc]
    rfl
  have hrep : repAfter s 0 = s.rep := by
    rw [repAfter, if_pos hleft]
    rfl
  rw [step_of_decode hs hword hdecode, hexec, jump_eq, if_pos rfl, hafter, hrep, State.setPc, State.pc,
    setReg_self_regs]

end Sys2Proof.Proofs
end

section
/-! PROOF. A decoded instruction's fields write its words again: the operands and the extension word, then each kind of
core word (R115 to R131). -/

namespace Sys2Proof.Proofs

open Sys2Proof Sys2Proof.Machine

/-! ## Fields as the encoder's numbers -/

theorem ofNat_eq_of_toNat {n : Nat} {w : Word} (h : n = w.toNat) : BitVec.ofNat 16 n = w := by
  rw [h, BitVec.ofNat_toNat, BitVec.setWidth_eq]

theorem bitNat_bitAt (w : Word) (i : Nat) : bitNat (bitAt w i) = w.toNat / 2 ^ i % 2 := by
  rw [bitAt_eq_decide]
  rcases Nat.mod_two_eq_zero_or_one (w.toNat / 2 ^ i) with h | h <;> simp [bitNat, h]

theorem bwNat_bwOf (b : Bool) : bwNat (bwOf b) = bitNat b := by cases b <;> rfl

/-- Four bits of a word, as a number. -/
theorem field_four_lt (w : Word) (lo : Nat) : field w (lo + 3) lo < 16 := by
  rw [field, show lo + 3 + 1 - lo = 4 by omega]
  exact Nat.mod_lt _ (by decide)

theorem regField_val (w : Word) (lo : Nat) : (regField w lo).val = field w (lo + 3) lo :=
  Nat.mod_eq_of_lt (field_four_lt w lo)

theorem nibble_toNat (w : Word) (lo : Nat) : (nibble w lo).toNat = field w (lo + 3) lo :=
  Nat.mod_eq_of_lt (field_four_lt w lo)

/-! ## Operands (R130, R131, R140, R142) -/

/-- What an As field and its register select is well formed. -/
theorem srcOf_wf (r : RegNum) (as : Nat) : (srcOf r as).wf = true := by
  unfold srcOf
  split <;> split_ifs <;> simp_all [Src.wf]

/-- A source operand is written with the register it was read from. -/
theorem srcReg_srcOf (r : RegNum) (as : Nat) : srcReg (srcOf r as) = r := by
  unfold srcOf
  split <;> split_ifs <;> simp_all [srcReg]

/-- A source operand is written with the As field it was read from. -/
theorem srcAs_srcOf (r : RegNum) {as : Nat} (h : as < 4) : srcAs (srcOf r as) = as := by
  interval_cases as <;> simp only [srcOf] <;> split_ifs <;> simp_all [srcAs, Config.as3Autoinc]

theorem srcOf_rawReg (r : RegNum) {as : Nat} (h : as < 4) : (srcOf r as).rawReg = (as == 0) := by
  rw [← srcAs_eq_zero, srcAs_srcOf r h]

/-- What an Ad field and its register select is well formed. -/
theorem dstOf_wf (r : RegNum) (ad : Bool) : (dstOf r ad).wf = true := by
  unfold dstOf
  split_ifs <;> simp_all [Dst.wf]

/-- A destination operand is written with the register it was read from. -/
theorem dstReg_dstOf (r : RegNum) (ad : Bool) : dstReg (dstOf r ad) = r := by
  unfold dstOf
  split_ifs <;> simp_all [dstReg]

/-- A destination operand is written with the Ad field it was read from. -/
theorem dstAd_dstOf (r : RegNum) (ad : Bool) : dstAd (dstOf r ad) = ad := by
  unfold dstOf
  split_ifs <;> simp_all [dstAd]

theorem dstOf_rawReg (r : RegNum) (ad : Bool) : (dstOf r ad).rawReg = !ad := by
  rw [← dstAd_not, dstAd_dstOf]

theorem field_as_lt (w : Word) : field w 5 4 < 4 := Nat.mod_lt _ (by decide)

/-! ## The extension word (R123, R124) -/

theorem isRegForm_extOf (p : Word) (b : Bool) : (extOf p b).isRegForm = b := by cases b <;> rfl

/-- An extension word is written again from its bits, in either form. -/
theorem extWord_extOf {p : Word} (h : 0x1800 ≤ p.toNat ∧ p.toNat < 0x2000) (b : Bool) :
    extWord (bitAt p 6) (extOf p b) = p := by
  cases b with
  | true =>
    refine ofNat_eq_of_toNat ?_
    simp only [bitNat_bitAt, regField_val, BitVec.toNat_ofNat, field]
    omega
  | false =>
    refine ofNat_eq_of_toNat ?_
    simp only [bitNat_bitAt, nibble_toNat, BitVec.toNat_ofNat, field]
    omega

/-- The operands and the extension word read for an extended format I instruction agree (R124). -/
theorem wfTwo_fields (p w : Word) : (extOf p (field w 5 4 == 0 && !bitAt w 7)).wfTwo
    (srcOf (regField w 8) (field w 5 4)) (dstOf (regField w 0) (bitAt w 7)) = true :=
  wfTwo_iff.2 ⟨⟨srcOf_wf .., dstOf_wf ..⟩, by rw [isRegForm_extOf, srcOf_rawReg _ (field_as_lt w), dstOf_rawReg]⟩

/-- The operand and the extension word read for an extended format II instruction agree (R124). -/
theorem wfOne_fields (p w : Word) : (extOf p (field w 5 4 == 0)).wfOne (srcOf (regField w 0) (field w 5 4)) = true :=
  wfOne_iff.2 ⟨srcOf_wf .., by rw [isRegForm_extOf, srcOf_rawReg _ (field_as_lt w)]⟩

/-! ## Core words (R115 to R122) -/

theorem wordI_of_fields {w : Word} {op : Nat} {bw : BW} (hop : field w 15 12 = op) (hbw : bwOf (bitAt w 6) = bw) :
    wordI op bw (srcOf (regField w 8) (field w 5 4)) (dstOf (regField w 0) (bitAt w 7)) = w := by
  have hw := w.isLt
  subst hop hbw
  refine ofNat_eq_of_toNat ?_
  rw [srcReg_srcOf, srcAs_srcOf _ (field_as_lt w), dstReg_dstOf, dstAd_dstOf, bwNat_bwOf, bitNat_bitAt, bitNat_bitAt,
    regField_val, regField_val]
  simp only [field]
  omega

theorem wordII_of_fields {w : Word} {op : Nat} {bw : BW} (h : 0x1000 ≤ w.toNat ∧ w.toNat < 0x1300)
    (hop : field w 9 7 = op) (hbw : bwOf (bitAt w 6) = bw) :
    wordII op bw (srcOf (regField w 0) (field w 5 4)) = w := by
  subst hop hbw
  refine ofNat_eq_of_toNat ?_
  rw [srcReg_srcOf, srcAs_srcOf _ (field_as_lt w), bwNat_bwOf, bitNat_bitAt, regField_val]
  simp only [field]
  omega

theorem wordJ_of_fields {w : Word} {c : Nat} (h : 0x2000 ≤ w.toNat ∧ w.toNat < 0x4000) (hc : field w 12 10 = c) :
    wordJ c (BitVec.ofNat 10 (field w 9 0)) = w := by
  subst hc
  refine ofNat_eq_of_toNat ?_
  simp only [BitVec.toNat_ofNat, field]
  omega

/-- An address-group word from its two operand fields, each read as a register or as four bits. -/
theorem wordA_of_fields {w : Word} {m s d : Nat} (h : w.toNat < 0x1000) (hm : field w 7 4 = m)
    (hs : s = field w 11 8) (hd : d = field w 3 0) : wordA m s d = w := by
  refine ofNat_eq_of_toNat ?_
  simp only [field] at *
  omega

theorem wordRot_of_fields {w : Word} {id wd : Nat} (h : w.toNat < 0x1000) (hid : field w 9 8 = id)
    (hwd : field w 7 4 = 4 + wd) : wordRot (BitVec.ofNat 2 (field w 11 10)) id wd (regField w 0) = w := by
  refine ofNat_eq_of_toNat ?_
  simp only [BitVec.toNat_ofNat, regField_val]
  simp only [field] at *
  omega

/-- A RETI or CALLA word from its operand field, read as a register or as four bits. -/
theorem wordC_of_fields {w : Word} {m d : Nat} (h : 0x1300 ≤ w.toNat ∧ w.toNat < 0x1400)
    (hm : 0x130 + field w 7 4 = m) (hd : d = field w 3 0) : wordC m d = w := by
  refine ofNat_eq_of_toNat ?_
  simp only [field] at *
  omega

theorem wordP_of_fields {w : Word} (h : 0x1400 ≤ w.toNat ∧ w.toNat < 0x1800) :
    wordP (0x14 + field w 9 8) (nibble w 4) (regField w 0) = w := by
  refine ofNat_eq_of_toNat ?_
  simp only [nibble_toNat, regField_val, field]
  omega

end Sys2Proof.Proofs
end

section
/-! PROOF. Decoding and encoding are inverse to each other: words are decoded to a well-formed instruction whose words
they are, and each well-formed instruction is decoded from its words (R110 to R126, R160). -/

namespace Sys2Proof.Proofs

open Sys2Proof Sys2Proof.Machine

/-! ## What the decoder answers -/

theorem decodeExt_formatII {p w : Word} (h : 0x1000 ≤ w.toNat ∧ w.toNat < 0x1300) :
    decodeExt p w = decodeExtII p w := by
  simp only [decodeExt, field_top w 8 (by decide)]
  rw [if_neg (by omega), if_pos (by omega)]

theorem decodeExt_formatI {p w : Word} (h : 0x4000 ≤ w.toNat) : decodeExt p w = decodeExtI p w := by
  simp only [decodeExt, field_top w 8 (by decide)]
  rw [if_neg (by omega), if_neg (by omega), if_neg (by omega), if_neg (by omega), if_neg (by omega),
    if_neg (by omega)]

/-- The decoder answers an instruction from a core word alone, or from an extension word and the word after it. -/
theorem decode_ok_iff {ws rest : List Word} {i : Instr} : decode ws = .ok (i, rest) ↔
    (∃ w, ws = w :: rest ∧ isExtWord w = false ∧ decodeCore w = .ok i) ∨
      ∃ p w, ws = p :: w :: rest ∧ isExtWord p = true ∧ decodeExt p w = i := by
  cases ws with
  | nil => simp [decode]
  | cons w tail =>
    cases hw : isExtWord w with
    | false =>
      cases hcore : decodeCore w <;> simp [decode, hw, hcore, and_comm]
    | true =>
      cases tail <;> simp [decode, hw, and_comm]

/-- Words after those of an instruction are left as they are. -/
theorem decode_append {ws rest : List Word} {i : Instr} (h : decode ws = .ok (i, rest)) (more : List Word) :
    decode (ws ++ more) = .ok (i, rest ++ more) := by
  rw [decode_ok_iff] at h ⊢
  rcases h with ⟨w, rfl, hw, hi⟩ | ⟨p, w, rfl, hp, hi⟩
  · exact .inl ⟨w, rfl, hw, hi⟩
  · exact .inr ⟨p, w, rfl, hp, hi⟩

/-- Settles O1: the instruction is decoded from its own words, and more words after them change nothing. -/
theorem decodeOfEncode : Obligations.DecodeOfEncode := fun _ rest hwf =>
  decode_append (decode_encode hwf) rest

/-- Words that are a well-formed instruction's are decoded to it. -/
theorem decode_of_encode_eq {i : Instr} {ws : List Word} (hwf : i.wf = true) (h : encode i = ws) :
    decode ws = .ok (i, []) := h ▸ decode_encode hwf

/-- Settles O4: each of the words is the encoding of its instruction. -/
theorem specWordsDecode : Obligations.SpecWordsDecode :=
  ⟨decode_of_encode_eq rfl rfl, decode_of_encode_eq rfl rfl, decode_of_encode_eq rfl rfl, decode_of_encode_eq rfl rfl,
    decode_of_encode_eq rfl rfl, decode_of_encode_eq rfl rfl, decode_of_encode_eq rfl rfl, decode_of_encode_eq rfl rfl,
    decode_of_encode_eq rfl rfl⟩

/-! ## The words of what is decoded -/

/-- The instruction is well formed and the words are its own. -/
def EncodesTo (i : Instr) (ws : List Word) : Prop := i.wf = true ∧ encode i = ws

section core

variable {w : Word}

theorem decodeI_encodesTo (h : 0x4000 ≤ w.toNat) : EncodesTo (decodeI w) [w] := by
  have hlo : 4 ≤ field w 15 12 := by
    rw [field_top w 12 (by decide)]
    omega
  have hhi : field w 15 12 < 16 := Nat.mod_lt _ (by decide)
  have hwf : ((srcOf (regField w 8) (field w 5 4)).wf && (dstOf (regField w 0) (bitAt w 7)).wf) = true := by
    rw [srcOf_wf, dstOf_wf, Bool.and_self]
  have hw := congrArg ([·]) (wordI_of_fields (w := w) rfl rfl)
  generalize hop : field w 15 12 = op at hlo hhi hw
  interval_cases op <;> simp only [decodeI, hop] <;> exact ⟨hwf, hw⟩

theorem decodeII_encodesTo (h : 0x1000 ≤ w.toNat ∧ w.toNat < 0x1300) : EncodesTo (decodeII w) [w] := by
  have hop6 : field w 9 7 < 6 := by
    simp only [field]
    omega
  have hwf := srcOf_wf (regField w 0) (field w 5 4)
  have hw {bw : BW} (hbw : bwOf (bitAt w 6) = bw) := congrArg ([·]) (wordII_of_fields h rfl hbw)
  generalize hop : field w 9 7 = op at hop6 hw
  interval_cases op <;> simp only [decodeII, hop]
  -- One goal for each op2, in order; 1 and 3 (SWPB, SXT) have one instruction for each width.
  · exact ⟨hwf, hw rfl⟩
  · cases hb : bitAt w 6 <;> exact ⟨hwf, hw (congrArg bwOf hb)⟩
  · exact ⟨hwf, hw rfl⟩
  · cases hb : bitAt w 6 <;> exact ⟨hwf, hw (congrArg bwOf hb)⟩
  · exact ⟨hwf, hw rfl⟩
  · exact ⟨hwf, hw rfl⟩

theorem decodeJump_encodesTo (h : 0x2000 ≤ w.toNat ∧ w.toNat < 0x4000) : EncodesTo (decodeJump w) [w] := by
  have hc8 : field w 12 10 < 8 := Nat.mod_lt _ (by decide)
  have hw := congrArg ([·]) (wordJ_of_fields h rfl)
  generalize hc : field w 12 10 = c at hc8 hw
  interval_cases c <;> simp only [decodeJump, hc] <;> exact ⟨rfl, hw⟩

theorem decodeRotate_encodesTo (h : w.toNat < 0x1000) (hm : field w 7 4 = 4 ∨ field w 7 4 = 5) :
    EncodesTo (decodeRotate w) [w] := by
  have hid4 : field w 9 8 < 4 := Nat.mod_lt _ (by decide)
  have hw {wd : Nat} (hwd : field w 7 4 = 4 + wd) := congrArg ([·]) (wordRot_of_fields h rfl hwd)
  generalize hid : field w 9 8 = id at hid4 hw
  have hbit := bitAt_four w
  rcases hm with hm | hm <;> rw [hm] at hbit <;> interval_cases id <;> simp only [decodeRotate, hid, hbit] <;>
    exact ⟨rfl, hw hm⟩

theorem decodeAddr_encodesTo (h : w.toNat < 0x1000) : EncodesTo (decodeAddr w) [w] := by
  have hm16 : field w 7 4 < 16 := Nat.mod_lt _ (by decide)
  have hs := regField_val w 8
  have hd := regField_val w 0
  have hhi := nibble_toNat w 8
  have hlo := nibble_toNat w 0
  have hw {s d : Nat} (hs : s = field w 11 8) (hd : d = field w 3 0) := congrArg ([·]) (wordA_of_fields h rfl hs hd)
  have hrot := decodeRotate_encodesTo h
  generalize hm : field w 7 4 = m at hm16 hw hrot
  interval_cases m <;> simp only [decodeAddr, hm]
  -- One goal for each minor opcode, in order; 4 and 5 are the rotates, and 1 with register 0 is reserved.
  · exact ⟨rfl, hw hs hd⟩
  · split
    next h0 => exact ⟨rfl, hw ((congrArg Fin.val h0).symm.trans hs) hd⟩
    next h0 => exact ⟨bne_iff_ne.2 h0, hw hs hd⟩
  · exact ⟨rfl, hw hhi hd⟩
  · exact ⟨rfl, hw hs hd⟩
  · exact hrot (.inl rfl)
  · exact hrot (.inr rfl)
  · exact ⟨rfl, hw hs hlo⟩
  · exact ⟨rfl, hw hs hd⟩
  · exact ⟨rfl, hw hhi hd⟩
  · exact ⟨rfl, hw hhi hd⟩
  · exact ⟨rfl, hw hhi hd⟩
  · exact ⟨rfl, hw hhi hd⟩
  · exact ⟨rfl, hw hs hd⟩
  · exact ⟨rfl, hw hs hd⟩
  · exact ⟨rfl, hw hs hd⟩
  · exact ⟨rfl, hw hs hd⟩

theorem decodeCalla_encodesTo (h : 0x1300 ≤ w.toNat ∧ w.toNat < 0x1400) : EncodesTo (decodeCalla w) [w] := by
  have hm16 : field w 7 4 < 16 := Nat.mod_lt _ (by decide)
  have hminor := field_minor w
  have hd := regField_val w 0
  have hhi := nibble_toNat w 0
  have hw {d : Nat} (hd : d = field w 3 0) := congrArg ([·]) (wordC_of_fields h rfl hd)
  have hrawFour {base : Nat} (hb : base + w.toNat % 2 ^ 4 = w.toNat) := congrArg ([·]) (rawWord_field (hi := 3) hb)
  have hrawSix (hb : 0x13C0 + w.toNat % 2 ^ 6 = w.toNat) := congrArg ([·]) (rawWord_field (hi := 5) hb)
  generalize hm : field w 7 4 = m at hm16 hw hminor
  interval_cases m <;> simp only [decodeCalla, hm]
  -- One goal for each minor opcode, in order; 1 to 3, 10 and 12 to 15 are reserved, and so is 7 with register 0.
  · exact ⟨rfl, hw hhi⟩
  · exact ⟨rfl, hrawFour (by omega)⟩
  · exact ⟨rfl, hrawFour (by omega)⟩
  · exact ⟨rfl, hrawFour (by omega)⟩
  · exact ⟨rfl, hw hd⟩
  · exact ⟨rfl, hw hd⟩
  · exact ⟨rfl, hw hd⟩
  · split
    next h0 => exact ⟨rfl, hw ((congrArg Fin.val h0).symm.trans hd)⟩
    next h0 => exact ⟨bne_iff_ne.2 h0, hw hd⟩
  · exact ⟨rfl, hw hhi⟩
  · exact ⟨rfl, hw hhi⟩
  · exact ⟨rfl, hrawFour (by omega)⟩
  · exact ⟨rfl, hw hhi⟩
  all_goals exact ⟨rfl, hrawSix (by omega)⟩

/-- A PUSHM or POPM whose range is legal is written by the number of its kind (R122, R280). -/
theorem stackInstr_encodesTo {m : Nat} {n : BitVec 4} {d : RegNum} (hm : m < 4) (hok : stackRangeOk m n d = true) :
    EncodesTo (stackInstr m n d) [wordP (0x14 + m) n d] := by
  interval_cases m <;> exact ⟨hok, rfl⟩

theorem decodePushm_encodesTo {i : Instr} (h : 0x1400 ≤ w.toNat ∧ w.toNat < 0x1800) (hi : decodePushm w = .ok i) :
    EncodesTo i [w] := by
  have hm : field w 9 8 < 4 := Nat.mod_lt _ (by decide)
  rw [decodePushm_eq] at hi
  split at hi
  next hok =>
    cases hi
    have henc := stackInstr_encodesTo hm hok
    rwa [wordP_of_fields h] at henc
  next => nomatch hi

/-- A core word that decodes is its instruction's, group by group (R111). -/
theorem decodeCore_encodesTo {i : Instr} (hx : isExtWord w = false) (hi : decodeCore w = .ok i) : EncodesTo i [w] := by
  have hcore : ¬(0x1800 ≤ w.toNat ∧ w.toNat < 0x2000) := of_decide_eq_false ((isExtWord_eq w).symm.trans hx)
  by_cases haddr : w.toNat < 0x1000
  · cases (decodeCore_addr haddr).symm.trans hi
    exact decodeAddr_encodesTo haddr
  by_cases hII : w.toNat < 0x1300
  · cases (decodeCore_formatII (by omega)).symm.trans hi
    exact decodeII_encodesTo (by omega)
  by_cases hcalla : w.toNat < 0x1400
  · cases (decodeCore_calla (by omega)).symm.trans hi
    exact decodeCalla_encodesTo (by omega)
  by_cases hstack : w.toNat < 0x1800
  · exact decodePushm_encodesTo (by omega) ((decodeCore_pushm (by omega)).symm.trans hi)
  by_cases hjump : w.toNat < 0x4000
  · cases (decodeCore_jump (by omega)).symm.trans hi
    exact decodeJump_encodesTo (by omega)
  · cases (decodeCore_formatI (by omega)).symm.trans hi
    exact decodeI_encodesTo (by omega)

end core

/-! ## After an extension word (R123 to R126, R310) -/

section extended

variable {p w : Word}

/-- The `.A`, `.W`, `.B` and reserved rows of an operation are written with the al and bw that choose among them
(R126). -/
theorem encodesTo_of_width {al bw : Bool} {byte word a res : Instr} {x : Ext} {core : BW → Word}
    (hbyte : EncodesTo byte [extWord true x, core .byte]) (hword : EncodesTo word [extWord true x, core .word])
    (ha : EncodesTo a [extWord false x, core .byte]) (hres : EncodesTo res [extWord false x, core .word]) :
    EncodesTo (if al then (if bw then byte else word) else (if bw then a else res))
      [extWord al x, core (bwOf bw)] := by
  cases al <;> cases bw <;> assumption

theorem decodeExtI_encodesTo (hp : 0x1800 ≤ p.toNat ∧ p.toNat < 0x2000) (h : 0x4000 ≤ w.toNat) :
    EncodesTo (decodeExtI p w) [p, w] := by
  have hlo : 4 ≤ field w 15 12 := by
    rw [field_top w 12 (by decide)]
    omega
  have hhi : field w 15 12 < 16 := Nat.mod_lt _ (by decide)
  have hwf := wfTwo_fields p w
  have hw := congrArg₂ ([·, ·]) (extWord_extOf hp (field w 5 4 == 0 && !bitAt w 7)) (wordI_of_fields (w := w) rfl rfl)
  rw [← hw]
  generalize hop : field w 15 12 = op at hlo hhi
  interval_cases op <;> simp only [decodeExtI, hop] <;>
    exact encodesTo_of_width (core := (wordI _ · _ _)) ⟨hwf, rfl⟩ ⟨hwf, rfl⟩ ⟨hwf, rfl⟩ ⟨hwf, rfl⟩

theorem decodeExtII_encodesTo (hp : 0x1800 ≤ p.toNat ∧ p.toNat < 0x2000) (h : 0x1000 ≤ w.toNat ∧ w.toNat < 0x1300) :
    EncodesTo (decodeExtII p w) [p, w] := by
  have hop6 : field w 9 7 < 6 := by
    simp only [field]
    omega
  have hwf := wfOne_fields p w
  have hw := congrArg₂ ([·, ·]) (extWord_extOf hp (field w 5 4 == 0)) (wordII_of_fields h rfl rfl)
  rw [← hw]
  generalize hop : field w 9 7 = op at hop6
  interval_cases op <;> simp only [decodeExtII, hop] <;>
    exact encodesTo_of_width (core := (wordII _ · _)) ⟨hwf, rfl⟩ ⟨hwf, rfl⟩ ⟨hwf, rfl⟩ ⟨hwf, rfl⟩

/-- An extension word and any word after it are written again, group by group (R310). -/
theorem decodeExt_encodesTo (hp : 0x1800 ≤ p.toNat ∧ p.toNat < 0x2000) : EncodesTo (decodeExt p w) [p, w] := by
  have hraw {base hi : Nat} (h : base + w.toNat % 2 ^ (hi + 1) = w.toNat) :
      [rawExt (BitVec.ofNat 11 (field p 10 0)), rawWord base (BitVec.ofNat (hi + 1) (field w hi 0)).toNat] = [p, w] :=
    congrArg₂ ([·, ·]) (rawExt_field hp) (rawWord_field h)
  by_cases haddr : w.toNat < 0x1000
  · rw [decodeExt_addr haddr]
    exact ⟨rfl, hraw (base := 0) (hi := 11) (by omega)⟩
  by_cases hII : w.toNat < 0x1300
  · rw [decodeExt_formatII (by omega)]
    exact decodeExtII_encodesTo hp (by omega)
  by_cases hcalla : w.toNat < 0x1400
  · rw [decodeExt_calla (by omega)]
    exact ⟨rfl, hraw (base := 0x1300) (hi := 7) (by omega)⟩
  by_cases hstack : w.toNat < 0x1800
  · rw [decodeExt_stack (by omega)]
    exact ⟨rfl, hraw (base := 0x1400) (hi := 9) (by omega)⟩
  by_cases hprefix : w.toNat < 0x2000
  · rw [decodeExt_prefix (by omega)]
    exact ⟨rfl, hraw (base := 0x1800) (hi := 10) (by omega)⟩
  by_cases hjump : w.toNat < 0x4000
  · rw [decodeExt_jump (by omega)]
    exact ⟨rfl, hraw (base := 0x2000) (hi := 12) (by omega)⟩
  · rw [decodeExt_formatI (by omega)]
    exact decodeExtI_encodesTo hp (by omega)

end extended

/-- Settles O2: whichever words the decoder took, the instruction it read from them writes them again. -/
theorem encodeOfDecode : Obligations.EncodeOfDecode := by
  intro ws rest i h
  rcases decode_ok_iff.1 h with ⟨w, rfl, hx, hi⟩ | ⟨p, w, rfl, hp, rfl⟩
  · obtain ⟨hwf, hwords⟩ := decodeCore_encodesTo hx hi
    exact ⟨hwf, by rw [hwords]; rfl⟩
  · obtain ⟨hwf, hwords⟩ := decodeExt_encodesTo (w := w) (bounds_of_isExtWord hp)
    exact ⟨hwf, by rw [hwords]; rfl⟩

end Sys2Proof.Proofs
end
